-- ==== Sys2Proof/Word.lean ====
section
/-! DEFINITION. The words the model is written in: bytes of a frame, epoch numbers, outlet keys, and the sparse
table by which every indexed table of the 6120 is held. -/

namespace Sys2Proof

/-- One byte of a frame or of a table entry (R186, R191). -/
abbrev Byte := BitVec 8

/-- An epoch number, 0 to 65 535, wrapping (R2). -/
abbrev Epoch := BitVec 16

/-- A table by index: the listed entries in strictly rising index order, none equal to what an unlisted index
holds. The operations are in Machine/Table.lean. -/
abbrev Table (α : Type) := List (Nat × α)

/-- The top of a feed sum, a draw and a 24-bit contract field, 16 777 215 (R69, R103). -/
def wattTop : Nat := 16777215

/-- The top of the interval energy, 281 474 976 710 655 J (R75). -/
def energyTop : Nat := 281474976710655

/-- The unmeasured value of a reading (R59). -/
def unmeasured : Nat := 65535

end Sys2Proof
end

