-- ==== Sys2Proof/Config.lean ====
section
/-! DEFINITION. The free values: what the manual leaves without a value while the part goes on. No definition has a
body, so nothing can be proved of one. -/

namespace Sys2Proof

/-- The last-evaluated-epoch field of a TENANT entry whose flag bit 3 says none: R191 gives it no value. The n-th use
of the counter `freeCount` takes `freeEpochField n`. DESIGN CHOICE, log 10 (safe: nothing constrains it). -/
opaque Config.freeEpochField : Nat → BitVec 16

/-- The length field of a frame whose length does not fit in 16 bits: R186 gives it no value. Only a FORWARD of a
body of 65 528 or 65 529 bytes has such a length (R189). DESIGN CHOICE, log 11 (safe: nothing constrains it). -/
opaque Config.freeLengthField : Nat → BitVec 16

end Sys2Proof
end

