-- ==== Sys2Proof/Machine/Frames.lean ====
section
/-! DEFINITION. The outer form of a row link frame: start delimiter, byte order, length, kind and frame check (R186). -/

namespace Sys2Proof

/-- `v` as `n` bytes, most significant first, modulo 256 ^ n (11: "most significant byte first"). -/
def beBytes : Nat → Nat → List Byte
  | 0, _ => []
  | n + 1, v => beBytes n (v / 256) ++ [BitVec.ofNat 8 v]

/-- The number that bytes spell, most significant first. -/
def beNat (bs : List Byte) : Nat := bs.foldl (fun acc b => acc * 256 + b.toNat) 0

/-- One bit of the frame check, most significant bit first, polynomial 0x1021 (R186). -/
def crcBit (c : BitVec 16) : BitVec 16 := if c.msb then (c <<< 1) ^^^ 0x1021#16 else c <<< 1

/-- One byte of the frame check. -/
def crcByte (c : BitVec 16) (b : Byte) : BitVec 16 :=
  crcBit (crcBit (crcBit (crcBit (crcBit (crcBit (crcBit (crcBit (c ^^^ (b.zeroExtend 16 <<< 8)))))))))

/-- The frame check of the bytes before it, initial value 0xFFFF, no final inversion (R186). -/
def frameCheck (bs : List Byte) : BitVec 16 := bs.foldl crcByte 0xFFFF#16

/-- The length field of a frame with `total` bytes after the delimiter; beyond 16 bits a free value (log 11). -/
def lengthField (total : Nat) : BitVec 16 :=
  if total ≤ 65535 then BitVec.ofNat 16 total else Config.freeLengthField total

/-- The bytes after the delimiter of a frame as the 6120 builds it: length, kind, row identifier, body, check (R186). -/
def buildFrame (kind rowId : Byte) (body : List Byte) : List Byte :=
  let covered := beBytes 2 (lengthField (body.length + 6)).toNat ++ [kind, rowId] ++ body
  covered ++ beBytes 2 (frameCheck covered).toNat

/-- The start delimiter of a frame (R186). -/
def startDelimiter : Byte := 0x5A

/-- A frame as it is on the line, from idle to idle: the start delimiter, then the bytes after it (R186). -/
def lineFrame (kind rowId : Byte) (body : List Byte) : List Byte := startDelimiter :: buildFrame kind rowId body

/-- R186: the bytes after the delimiter of what arrives on a line between idle and idle. A delimiter is recognised only
as the first byte after idle, so an arrival with another first byte begins no frame (log 28). -/
def delimited : List Byte → Option (List Byte)
  | first :: received => if first = startDelimiter then some received else none
  | [] => none

/-- The kind and body of a received frame whose check is good and whose length field agrees with the received length;
none for any other (R186). The row identifier is not examined. -/
def openFrame (received : List Byte) : Option (Byte × List Byte) :=
  let n := received.length
  let covered := received.take (n - 2)
  if n < 6 then none
  else if beNat (received.drop (n - 2)) ≠ (frameCheck covered).toNat then none
  else if beNat (received.take 2) ≠ n then none
  else some (received.getD 2 0, covered.drop 4)

/-! The kind codes of R186. -/

def kindMark : Byte := 0x01
def kindSwitch : Byte := 0x02
def kindPassDown : Byte := 0x03
def kindSample : Byte := 0x11
def kindSwitchAck : Byte := 0x12
def kindPduReply : Byte := 0x13
def kindRequest : Byte := 0x14
def kindEpoch : Byte := 0x21
def kindPduPass : Byte := 0x22
def kindResponse : Byte := 0x31
def kindNotice : Byte := 0x32
def kindForward : Byte := 0x33

end Sys2Proof
end

