-- ==== Sys2Proof/Machine/Table.lean ====
section
/-! DEFINITION. The operations on a table by index, and the outlet key (00_scope.md 3.2). `d` is what an unlisted index
holds. -/

namespace Sys2Proof

/-- The entry at index `k`. -/
def Table.read {α : Type} (d : α) : Table α → Nat → α
  | [], _ => d
  | (i, v) :: rest, k => if i = k then v else Table.read d rest k

/-- The table with index `k` holding `v`; an entry equal to `d` is not listed. -/
def Table.write {α : Type} [DecidableEq α] (d : α) (t : Table α) (k : Nat) (v : α) : Table α :=
  t.filter (fun e => decide (e.1 < k)) ++ (if v = d then [] else [(k, v)])
    ++ t.filter (fun e => decide (k < e.1))

/-- The table that holds `f k` at each index `k` below `n` and `d` elsewhere. -/
def Table.tabulate {α : Type} [DecidableEq α] (d : α) (n : Nat) (f : Nat → α) : Table α :=
  (List.range n).filterMap (fun k => if f k = d then none else some (k, f k))

/-- Every index below `n` changed by `f`. -/
def Table.mapAll {α : Type} [DecidableEq α] (d : α) (n : Nat) (f : Nat → α → α) (t : Table α) : Table α :=
  Table.tabulate d n (fun k => f k (Table.read d t k))

/-- Every index that passes `p` returned to `d`. -/
def Table.drop {α : Type} (p : Nat → Bool) (t : Table α) : Table α := t.filter (fun e => !p e.1)

/-- The canonical form: indices strictly rising, no listed entry equal to `d`. -/
def Table.wf {α : Type} [DecidableEq α] (d : α) : Table α → Bool
  | [] => true
  | [(_, v)] => decide (v ≠ d)
  | (i, v) :: (j, w) :: rest => decide (v ≠ d) && decide (i < j) && Table.wf d ((j, w) :: rest)

/-- key = port × 1024 + position × 64 + outlet (00_scope.md 3.2). -/
def outletKey (port position outlet : Nat) : Nat := port * 1024 + position * 64 + outlet

/-- The port part of a key. -/
def keyPort (key : Nat) : Nat := key / 1024

/-- The presence index port × 16 + position of a key. -/
def keyPdu (key : Nat) : Nat := key / 64

/-- A key 0 to 4 095 whose outlet part is 0 to 47 (00_scope.md 3.2). -/
def keyValid (key : Nat) : Bool := decide (key < 4096) && decide (key % 64 < 48)

/-- The valid keys in ascending order. -/
def validKeys : List Nat := (List.range 4096).filter keyValid

end Sys2Proof
end

