-- ==== Sys2Proof/Syntax.lean ====
section
/-! DEFINITION. The commands of the block, one constructor per row of spec/opcode_table.json, and the data they carry.
What a command's operands are is DEDUCED from the rules its row names (log 1); a command that reads the millisecond
clock carries the milliseconds that passed before it (log 2). -/

namespace Sys2Proof

/-- The feed that supplies an outlet (R40). -/
inductive Feed where
  | a | b
  deriving DecidableEq, Repr

/-- A contract's curtailment behaviour (R103, R123). -/
inductive Policy where
  | notify | hold | auto
  deriving DecidableEq, Repr

/-- The fields of a present OAT slot (R40). -/
structure OatEntry where
  tenant : Nat
  feed : Feed
  shedRank : Option Nat
  outletLimit : Option Nat
  deriving DecidableEq, Repr

/-- The five fields of an assignment rule (R41). -/
structure Rule where
  enabled : Bool
  compareKey : Nat
  mask : Nat
  tenant : Nat
  feed : Feed
  deriving DecidableEq, Repr

/-- The ten fields of a contract record (R103). -/
structure Contract where
  valid : Bool
  committed : Nat
  tolerance : Nat
  hysteresis : Nat
  burstCap : Nat
  refillCap : Nat
  feedCap : Nat
  quiet : Nat
  grace : Nat
  policy : Policy
  deriving DecidableEq, Repr

/-- An OAT entry as a request or an image carries it, before its fields are tested (R48, R180). -/
structure RawOatEntry where
  tenant : Nat
  feed : Nat
  shedRank : Option Nat
  outletLimit : Option Nat
  deriving DecidableEq, Repr

/-- A rule as a request or an image carries it, before its fields are tested (R50, R180). -/
structure RawRule where
  enabled : Bool
  compareKey : Nat
  mask : Nat
  tenant : Nat
  feed : Nat
  deriving DecidableEq, Repr

/-- A contract record as a request or an image carries it, before its fields are tested (R105, R180). -/
structure RawContract where
  valid : Bool
  committed : Nat
  tolerance : Nat
  hysteresis : Nat
  burstCap : Nat
  refillCap : Nat
  feedCap : Nat
  quiet : Nat
  grace : Nat
  policy : Nat
  deriving DecidableEq, Repr

/-- The stored image's content (R178): the 21 settings by index, the present OAT slots by outlet key (an unlisted key
is an absent slot), the 16 rules, the active contracts by tenant (an unlisted tenant has the empty contract), the
generation. Its byte layout and its checksum's formula are not in the spec (log 8, log 22). -/
structure Image where
  settings : List Nat
  slots : Table RawOatEntry
  rules : List RawRule
  contracts : Table RawContract
  generation : BitVec 8
  deriving DecidableEq, Repr

/-- What the serial memory gave at the end of a load (R180). `stored`: it answered with the content it holds
(`State.extMemory`); `image`: with this content, its checksum agreeing. DESIGN CHOICE, log 8. -/
inductive MemoryAnswer where
  | noAnswer
  | badChecksum
  | stored
  | image (content : Image)
  deriving DecidableEq, Repr

/-- What the serial memory did during a save (R183). -/
inductive SaveOutcome where
  | agrees | disagrees | stoppedAnswering
  deriving DecidableEq, Repr

/-- The item a storage upset strikes and the content it then holds (R44, R104). -/
inductive Upset where
  | oatSlot (key : Nat) (content : Option OatEntry)
  | rule (n : Nat) (content : Rule)
  | active (tenant : Nat) (content : Contract)
  | staged (tenant : Nat) (content : Contract)
  deriving DecidableEq, Repr

/-- The commands. `elapsed` is the milliseconds that passed since the command before; `body` is a well-formed
frame's body (R186), between the header and the check. A request command carries nothing: it takes the request at the
head of the request input queue (R169). -/
inductive Instr where
  | powerOn
  | imageLoadEnd (elapsed : Nat) (answer : MemoryAnswer)
  | internalAdvance (elapsed : Nat)
  | lossExpiry (elapsed : Nat)
  | epoch (elapsed : Nat) (body : List Byte)
  | commandTimeout (slot : Nat)
  | portLost (port : Nat)
  | holdSweepPosition
  | holdSweepOutlet
  | tenantEvaluation
  | curtailmentStep
  | intervalClose
  | sample (port : Nat) (body : List Byte)
  | chainMalformedFrame (port : Nat)
  | switchAck (port : Nat) (body : List Byte)
  | pduReply (port : Nat) (body : List Byte)
  | chainRequest (port : Nat) (body : List Byte)
  | uplinkRequest (body : List Byte)
  | pduPass (body : List Byte)
  | uplinkFrameError
  | markSend (port : Nat)
  | switchSend (port : Nat)
  | passDownSend (port : Nat)
  | downFrameEnd (port : Nat)
  | uplinkFrameStart
  | uplinkFrameEnd
  | noticeQueuing
  | keptResponseOffer
  | readEntry
  | writeEntryOat
  | oatClear
  | writeEntryRules
  | writeEntryStaged
  | writeEpochSource (elapsed : Nat)
  | portDisable
  | portEnable
  | writeErrorThreshold
  | writeNoticeMask
  | writeSetting
  | resolve
  | commit
  | cancelCommit
  | copyActiveToStaged
  | restoreTenant
  | restoreOutlet
  | discard
  | clearFault
  | readStatus
  | unknownRequestCode
  | saveImage
  | saveEnd (outcome : SaveOutcome)
  | resetLive
  | resetFull
  | resetFullStart
  | storageUpset (item : Upset) (parityToo : Bool)
  | writeEntryBadTable
  deriving DecidableEq, Repr

end Sys2Proof
end

