-- ==== Sys2Proof/WellFormed.lean ====
section
/-! DEFINITION. Which commands the outside of a 6120 can send: ports, slots, frame lengths, images and struck items in
their ranges. A meaning does not rely on it: a command outside it finds no such port, slot or item. -/

namespace Sys2Proof

/-- Indices in strictly rising order, each one passing `ok`. -/
def indicesRise (ok : Nat → Bool) : List Nat → Bool
  | [] => true
  | [k] => ok k
  | k :: l :: rest => ok k && decide (k < l) && indicesRise ok (l :: rest)

/-- R178: 21 settings, slots at valid keys, 16 rules, contracts at T1 to T127. -/
def Image.wellFormed (m : Image) : Bool :=
  decide (m.settings.length = 21) && decide (m.rules.length = 16)
    && indicesRise keyValid (m.slots.map Prod.fst)
    && indicesRise (fun t => decide (1 ≤ t) && decide (t ≤ 127)) (m.contracts.map Prod.fst)

/-- R40: the fields of a present slot in their ranges. -/
def OatEntry.inRange (e : OatEntry) : Bool :=
  decide (e.tenant ≤ 127)
    && (match e.shedRank with | none => true | some r => decide (1 ≤ r) && decide (r ≤ 15))
    && (match e.outletLimit with | none => true | some w => decide (1 ≤ w) && decide (w ≤ 65534))

/-- R41: the fields of a rule in their ranges. -/
def Rule.inRange (r : Rule) : Bool :=
  decide (r.compareKey ≤ 4095) && decide (r.mask ≤ 4095) && decide (r.tenant ≤ 127)

/-- R103: the fields of a contract record in their ranges. -/
def Contract.inRange (c : Contract) : Bool :=
  decide (c.committed ≤ wattTop) && decide (c.tolerance ≤ 500) && decide (c.hysteresis ≤ 500)
    && decide (c.burstCap ≤ 4294967295) && decide (c.refillCap ≤ wattTop) && decide (c.feedCap ≤ wattTop)
    && decide (1 ≤ c.quiet) && decide (c.quiet ≤ 255) && decide (c.grace ≤ 255)

/-- The struck item exists and its new content fits its fields. -/
def Upset.wellFormed : Upset → Bool
  | .oatSlot key content => keyValid key && (match content with | none => true | some e => e.inRange)
  | .rule n content => decide (n < 16) && content.inRange
  | .active t content => decide (1 ≤ t) && decide (t ≤ 127) && content.inRange
  | .staged t content => decide (1 ≤ t) && decide (t ≤ 127) && content.inRange

/-- A 16-bit length field counts 6 bytes beside the body (R186). -/
def bodyFits (body : List Byte) : Bool := decide (body.length ≤ 65529)

/-- The part has ports D0 to D3. -/
def portExists (port : Nat) : Bool := decide (port < 4)

/-- The command is one that the outside of a 6120 can send. -/
def Instr.wellFormed : Instr → Bool
  | .imageLoadEnd _ (.image m) => m.wellFormed
  | .epoch _ body | .uplinkRequest body | .pduPass body => bodyFits body
  | .commandTimeout slot => decide (slot < 64)
  | .sample p body | .switchAck p body | .pduReply p body | .chainRequest p body => portExists p && bodyFits body
  | .portLost p | .chainMalformedFrame p | .markSend p | .switchSend p | .passDownSend p | .downFrameEnd p =>
    portExists p
  | .storageUpset item _ => item.wellFormed
  | _ => true

end Sys2Proof
end

