-- ==== Sys2Proof/Decode.lean ====
section
/-! DEFINITION. From received bytes to a command, and back. The opcode table gives its rows no bits, so no table word
spells a command; what a 6120 decodes is the frames that arrive at its ports (R16, R159, R186). -/

namespace Sys2Proof

/-- The table gives no row any bits (spec/opcode_table.json: "fields" empty in every row): no word spells a command. -/
def decodeTableWord (_nbits _w : Nat) : Option Instr := none

/-- R16, R17, R186: the command that an arrival on chain port `port`, from idle to idle, is; none when no frame begins
in it. -/
def receiveChain (port : Nat) (arrival : List Byte) : Option Instr :=
  (delimited arrival).map (fun received =>
    match openFrame received with
    | some (kind, body) =>
      if kind = kindSample then .sample port body
      else if kind = kindSwitchAck then .switchAck port body
      else if kind = kindPduReply then .pduReply port body
      else if kind = kindRequest then .chainRequest port body
      else .chainMalformedFrame port
    | none => .chainMalformedFrame port)

/-- R159, R186: the command that an arrival on the uplink, from idle to idle, is, `elapsed` ms after the command before;
none when no frame begins in it. -/
def receiveUplink (elapsed : Nat) (arrival : List Byte) : Option Instr :=
  (delimited arrival).map (fun received =>
    match openFrame received with
    | some (kind, body) =>
      if kind = kindRequest then .uplinkRequest body
      else if kind = kindEpoch then .epoch elapsed body
      else if kind = kindPduPass then .pduPass body
      else .uplinkFrameError
    | none => .uplinkFrameError)

/-- The bytes on the line, from the start delimiter to the check, of the frame whose arrival a command is, as a sender
that fills in row identifier `rowId` builds it; none for a command that is no well-formed frame's arrival (R186, R187). -/
def frameOf (rowId : Byte) : Instr → Option (List Byte)
  | .sample _ body => some (lineFrame kindSample rowId body)
  | .switchAck _ body => some (lineFrame kindSwitchAck rowId body)
  | .pduReply _ body => some (lineFrame kindPduReply rowId body)
  | .chainRequest _ body => some (lineFrame kindRequest rowId body)
  | .uplinkRequest body => some (lineFrame kindRequest rowId body)
  | .epoch _ body => some (lineFrame kindEpoch rowId body)
  | .pduPass body => some (lineFrame kindPduPass rowId body)
  | _ => none

end Sys2Proof
end

