-- ==== Sys2Proof/Machine/State.lean ====
section
/-! DEFINITION. The state of the 6120 as plain data, block by block (00_scope.md 2.1), the reasons a step could stop,
and the state right after power is applied. INVENTORY.md lists every field with the rule that names it. -/

namespace Sys2Proof.Machine

/-! ### Values of the fields -/

/-- What causes the next advance (R1). -/
inductive SourceMode where
  | internal | external | fallback
  deriving DecidableEq, Repr

/-- The condition of a chain (R15). -/
inductive LinkState where
  | disabled | down | up | degraded
  deriving DecidableEq, Repr

/-- The state of a presence entry (R25). -/
inductive PresenceState where
  | absent | present | held | silent
  deriving DecidableEq, Repr

/-- A tenant's standing (R75). -/
inductive TenantState where
  | idle | within | burst | over
  deriving DecidableEq, Repr

/-- A tenant's restoring mode (R122). -/
inductive Restoring where
  | none | auto | forced
  deriving DecidableEq, Repr

/-- The stage of a curtailment entry (R121). -/
inductive Stage where
  | offPending | off | onPending | unconfirmed | skipped | done
  deriving DecidableEq, Repr

/-- What the part is doing with the stored image (R168). -/
inductive ImageState where
  | loading | ok | invalid | absent | saving
  deriving DecidableEq, Repr

/-- A status code of a RESPONSE or of a READ_ENTRY entry (R170). -/
inductive Status where
  | ok | badRequest | badTable | badIndex | badValue | held | locked | busy | parity | imageFail
  deriving DecidableEq, Repr

/-- The kinds of notice (R147). -/
inductive NoticeKind where
  | tenant | port | pdu | source | fault | interval | curtail
  deriving DecidableEq, Repr

/-- The fault classes (R156). -/
inductive FaultClass where
  | frameError | mistimedSample | staleAck | epochEarly | portDegraded | sourceLost | tableParity | imageInvalid
  deriving DecidableEq, Repr

/-- The tables that carry parity (R156). -/
inductive ParityTable where
  | oat | rules | staged | active
  deriving DecidableEq, Repr

/-- Where a fault was seen (R155, R156). -/
inductive Location where
  | none
  | port (p : Nat)
  | portPosition (p q : Nat)
  | outlet (p q o : Nat)
  | item (table : ParityTable) (index : Nat)
  deriving DecidableEq, Repr

/-- The content of the fault capture record when it is not empty; the severity is fixed by the class (R155, R156). -/
structure FaultRecord where
  cls : FaultClass
  location : Location
  epoch : Epoch
  deriving DecidableEq, Repr

/-- Stored content with its parity (R44, R104). `parityGood` says that content and stored parity agree (log 9). -/
structure Stored (α : Type) where
  content : α
  parityGood : Bool
  deriving DecidableEq, Repr

/-! ### Frames and queue entries -/

/-- Where a request came from (R161); a chain-side request keeps its position byte for the PASS-DOWN of its response
(R188). -/
inductive Origin where
  | uplink
  | chain (port : Nat) (position : Byte)
  deriving DecidableEq, Repr

/-- An entry of the request input queue (R161). -/
structure Request where
  origin : Origin
  tag : BitVec 16
  code : Byte
  data : List Byte
  deriving DecidableEq, Repr

/-- A RESPONSE (R169, R190). -/
structure Response where
  tag : BitVec 16
  code : Byte
  status : Status
  data : List Byte
  deriving DecidableEq, Repr

/-- A PASS-DOWN: a relayed payload, or a response to a chain-side request (R187). -/
inductive PassDown where
  | relay (position : Byte) (payload : List Byte)
  | response (position : Byte) (response : Response)
  deriving DecidableEq, Repr

/-- A frame on a chain (R187). -/
inductive DownFrame where
  | mark (epoch : Epoch)
  | switch (position outlet : Nat) (on : Bool) (tag : BitVec 8)
  | passDown (content : PassDown)
  deriving DecidableEq, Repr

/-- The down transmitter's three sources, in the order it serves them (R32). -/
inductive DownKind where
  | mark | switch | passDown
  deriving DecidableEq, Repr

/-- A frame being sent down a chain, with its bytes from the start delimiter to the check (R186). -/
structure DownSend where
  frame : DownFrame
  bytes : List Byte
  deriving DecidableEq, Repr

/-- A FORWARD: the port that received the original frame, its kind and its whole body (R163, R187). -/
structure Forward where
  port : Nat
  kind : Byte
  body : List Byte
  deriving DecidableEq, Repr

/-! ### Tenants -/

/-- A live record (R75). -/
structure LiveRecord where
  state : TenantState
  demand : Nat
  credit : Nat
  ticksInOver : Nat
  quiet : Nat
  lastDrawA : Nat
  lastDrawB : Nat
  lastEpoch : Option Epoch
  incomplete : Bool
  feedOverA : Bool
  feedOverB : Bool
  outletOver : Nat
  energy : Nat
  peakDemand : Nat
  peakDraw : Nat
  burstTicks : Nat
  overTicks : Nat
  incompleteTicks : Nat
  minCredit : Nat
  deriving DecidableEq, Repr

/-- The values of R99 for a tenant with no valid contract. -/
def LiveRecord.idle : LiveRecord :=
  { state := .idle, demand := 0, credit := 0, ticksInOver := 0, quiet := 0, lastDrawA := 0, lastDrawB := 0,
    lastEpoch := none, incomplete := false, feedOverA := false, feedOverB := false, outletOver := 0, energy := 0,
    peakDemand := 0, peakDraw := 0, burstTicks := 0, overTicks := 0, incompleteTicks := 0, minCredit := 0 }

/-- A tenant's curtailment record (R122). -/
structure TenantCurtail where
  restoring : Restoring
  exhausted : Bool
  blocked : Bool
  deriving DecidableEq, Repr

/-- R145: restoring NONE, exhausted no, blocked no. -/
def TenantCurtail.clear : TenantCurtail := { restoring := .none, exhausted := false, blocked := false }

/-- The compared fields of a tenant (R148). -/
structure TenantCompared where
  state : TenantState
  feedOverA : Bool
  feedOverB : Bool
  outletOverPresent : Bool
  restoring : Restoring
  exhausted : Bool
  blocked : Bool
  deriving DecidableEq, Repr

/-- The reset value of a tenant's announced copy (R154). -/
def TenantCompared.clear : TenantCompared :=
  { state := .idle, feedOverA := false, feedOverB := false, outletOverPresent := false, restoring := .none,
    exhausted := false, blocked := false }

/-- A summary record (R111). -/
structure Summary where
  interval : BitVec 32
  generation : BitVec 8
  energy : Nat
  peakDemand : Nat
  peakDraw : Nat
  burstTicks : Nat
  overTicks : Nat
  incompleteTicks : Nat
  minCredit : Nat
  state : TenantState
  deriving DecidableEq, Repr

/-- A queued notice with the content taken at its queuing (R148, R192). -/
inductive Notice where
  | tenant (t : Nat) (live : LiveRecord) (curtail : TenantCurtail)
  | port (p : Nat) (link : LinkState) (errorCount : Nat)
  | pdu (index : Nat) (state : PresenceState) (missed : Nat)
  | source (mode : SourceMode) (epoch : Epoch)
  | fault (record : Option FaultRecord)
  | interval (number : BitVec 32) (generation : BitVec 8) (switched : Bool)
  | curtail (key tenant : Nat) (stage : Stage) (attempts : Nat) (tag : BitVec 8)
  deriving DecidableEq, Repr

/-- A frame up the uplink (R187). -/
inductive UplinkFrame where
  | response (r : Response)
  | notice (n : Notice)
  | forward (f : Forward)
  deriving DecidableEq, Repr

/-- The three outgoing streams (R158). -/
inductive UplinkKind where
  | response | notice | forward
  deriving DecidableEq, Repr

/-- A frame being sent on the uplink, with its bytes from the start delimiter to the check (R165, R186). -/
structure UplinkSend where
  frame : UplinkFrame
  bytes : List Byte
  deriving DecidableEq, Repr

/-! ### The blocks -/

/-- What a tenant's evaluation did to its state, as the curtailment step receives it (R95). -/
inductive Transition where
  | overToWithin | endedHot | becameIdle | other
  deriving DecidableEq, Repr

/-- Where a pass stands: the event that comes next in it (R64, R77, log 19). `outlet i o`: the outlets of presence
entry `i` from `o` on; `curtail`: with the transition and the contract the evaluation read at step 3 (R95). -/
inductive PassPoint where
  | position (i : Nat)
  | outlet (i o : Nat)
  | tenant (t : Nat)
  | curtail (t : Nat) (transition : Transition) (contract : Option Contract)
  deriving DecidableEq, Repr

/-- A reconciliation pass in progress: its pass epoch (R8) and where it stands. -/
structure Pass where
  epoch : Epoch
  point : PassPoint
  deriving DecidableEq, Repr

/-- The epoch timer (R1). `pass` is some exactly while pass-busy is yes; `handedClose` is a close handed to the
contract store and not yet taken (R11, R102). -/
structure Timer where
  epoch : Epoch
  mode : SourceMode
  refTime : Nat
  tickCount : Nat
  intervalNumber : BitVec 32
  pass : Option Pass
  handedClose : Option (BitVec 32)
  deriving DecidableEq, Repr

/-- A chain port controller (R15) with its due MARK (R9). `choice` is the transmitter's choice not yet started
(R32, log 4). The presence tables of the four ports are `State.presence`. -/
structure Port where
  link : LinkState
  errorCount : Nat
  silentPass : Nat
  settling : Bool
  dueMark : Option Epoch
  passDown : List PassDown
  tx : Option DownSend
  choice : Option DownKind
  deriving DecidableEq, Repr

/-- The port values of R36 during the load. -/
def Port.initial : Port :=
  { link := .disabled, errorCount := 0, silentPass := 0, settling := false, dueMark := none, passDown := [],
    tx := none, choice := none }

/-- A presence entry (R25). -/
structure Presence where
  state : PresenceState
  missed : Nat
  deriving DecidableEq, Repr

/-- ABSENT with a missed count of 0 (R25). -/
def Presence.absent : Presence := { state := .absent, missed := 0 }

/-- A per-outlet record of the reading store (R57). -/
structure Reading where
  last : Option Nat
  age : Nat
  deriving DecidableEq, Repr

/-- Last reading none, age 0 (R74). -/
def Reading.initial : Reading := { last := none, age := 0 }

/-- An accumulator set (R58). -/
structure AccSet where
  sumA : Table Nat
  sumB : Table Nat
  outletOver : Table Nat
  incomplete : Table Bool
  outletReported : Table Bool
  pduReported : Table Bool
  deriving DecidableEq, Repr

/-- A cleared set: every sum and count 0, every flag clear (R58). -/
def AccSet.cleared : AccSet :=
  { sumA := [], sumB := [], outletOver := [], incomplete := [], outletReported := [], pduReported := [] }

/-- An absent slot with good parity. -/
def absentSlot : Stored (Option OatEntry) := { content := none, parityGood := true }

/-- A disabled rule with every other field 0 and feed A (R56). -/
def Rule.disabled : Rule := { enabled := false, compareKey := 0, mask := 0, tenant := 0, feed := .a }

/-- A disabled rule with good parity (R56). -/
def disabledRule : Stored Rule := { content := Rule.disabled, parityGood := true }

/-- The empty contract (R103). -/
def Contract.empty : Contract :=
  { valid := false, committed := 0, tolerance := 0, hysteresis := 0, burstCap := 0, refillCap := 0, feedCap := 0,
    quiet := 1, grace := 0, policy := .notify }

/-- The empty contract with good parity (R101). -/
def emptyContract : Stored Contract := { content := Contract.empty, parityGood := true }

/-- The contract store (R101). A summary index that holds none is the empty record of R117. -/
structure ContractStore where
  active : Table (Stored Contract)
  staged : Table (Stored Contract)
  commitPending : Bool
  generation : BitVec 8
  summaries : Table (Option Summary)
  deriving DecidableEq, Repr

/-- A curtailment entry (R120). -/
structure CurtailEntry where
  outlet : Nat
  tenant : Nat
  stage : Stage
  sent : Bool
  tag : BitVec 8
  remaining : Nat
  attempts : Nat
  sequence : BitVec 32
  tried : Bool
  resultOwed : Bool
  deriving DecidableEq, Repr

/-- The curtailment controller (R119). The due lists and the owed list name entries by their slots. -/
structure Curtailment where
  slots : Table (Option CurtailEntry)
  records : Table TenantCurtail
  tagCounter : BitVec 8
  creation : BitVec 32
  due : Table (List Nat)
  owed : List Nat
  deriving DecidableEq, Repr

/-- The notice unit (R146); its masks are settings 13 to 19. -/
structure NoticeUnit where
  queue : List Notice
  annTenant : Table TenantCompared
  annPort : Table LinkState
  annPresence : Table PresenceState
  annSource : SourceMode
  annFault : Option FaultRecord
  intervalOwed : Option (BitVec 32 × BitVec 8 × Bool)
  fault : Option FaultRecord
  deriving DecidableEq, Repr

/-- The uplink's inbound half (R158); a frame's arrival is one event, so it is idle between events (log 15). -/
inductive Receiver where
  | idle | receiving
  deriving DecidableEq, Repr

/-- The uplink unit (R158). `choice` is the arbiter's choice not yet started (R164, log 4). -/
structure Uplink where
  receiver : Receiver
  requests : List Request
  responses : List Response
  forwards : List Forward
  tx : Option UplinkSend
  choice : Option UplinkKind
  lastServed : UplinkKind
  deriving DecidableEq, Repr

/-- A READ_ENTRY being executed, its entries copied one event at a time (R172). -/
structure ReadJob where
  origin : Origin
  tag : BitVec 16
  table : Nat
  first : Nat
  count : Nat
  done : Nat
  copied : List Byte
  deriving DecidableEq, Repr

/-- An image save in progress (R181). -/
structure SaveJob where
  origin : Origin
  tag : BitVec 16
  snapshot : Image
  deriving DecidableEq, Repr

/-- The management unit (R168). `resetDue` says that the event of R185's table that begins the reset has happened. -/
structure Mgmt where
  imageState : ImageState
  current : Option ReadJob
  kept : List Response
  save : Option SaveJob
  resetWaiting : Option Origin
  resetDue : Bool
  deriving DecidableEq, Repr

/-- The machine. `pending`, `now` and `freeCount` are the model's own; `extMemory` is the content of the external
serial memory, none when its checksum disagrees. -/
structure State where
  pending : List Instr
  now : Nat
  freeCount : Nat
  timer : Timer
  ports : Table Port
  presence : Table Presence
  oat : Table (Stored (Option OatEntry))
  rules : Table (Stored Rule)
  readings : Table Reading
  filling : AccSet
  closing : AccSet
  live : Table LiveRecord
  contracts : ContractStore
  curtail : Curtailment
  notices : NoticeUnit
  uplink : Uplink
  mgmt : Mgmt
  settings : List Nat
  extMemory : Option Image
  deriving DecidableEq, Repr

/-- The reasons the model could stop with a fault: there are none, since no command of this block stops it (safe). The
part's own faults are `FaultRecord`. -/
inductive Fault where
  deriving DecidableEq, Repr

/-- The reasons the model refuses a command. -/
inductive Refusal where
  /-- Raised by an arm of exec whose command has no meaning yet (safe). -/
  | notModelled (mnemonic : String)
  deriving DecidableEq, Repr

/-! ### Reset -/

/-- The defaults of the 21 settings by index (R174, R191). -/
def defaultSettings : List Nat := [0, 0, 900, 3, 6, 16, 2, 1, 1, 1, 1, 1, 0, 0, 0, 0, 0, 0, 0, 0, 0]

/-- R13. The reference time has no value before the end of the load (log 7). -/
def Timer.initial : Timer :=
  { epoch := 0, mode := .internal, refTime := 0, tickCount := 0, intervalNumber := 0, pass := none,
    handedClose := none }

/-- R101, first column of values. -/
def ContractStore.initial : ContractStore :=
  { active := [], staged := [], commitPending := false, generation := 0, summaries := [] }

/-- R145. -/
def Curtailment.initial : Curtailment :=
  { slots := [], records := [], tagCounter := 0, creation := 0, due := [], owed := [] }

/-- R154 during the load. -/
def NoticeUnit.initial : NoticeUnit :=
  { queue := [], annTenant := [], annPort := [], annPresence := [], annSource := .internal, annFault := none,
    intervalOwed := none, fault := none }

/-- R167. -/
def Uplink.initial : Uplink :=
  { receiver := .idle, requests := [], responses := [], forwards := [], tx := none, choice := none,
    lastServed := .forward }

/-- R168 at power-on: the image load is in progress. -/
def Mgmt.initial : Mgmt :=
  { imageState := .loading, current := none, kept := [], save := none, resetWaiting := none, resetDue := false }

/-- The machine right after power is applied (R179): every block at its power-on values, the image load begun, no
command waiting. The settings and tables during the load are the model's (log 7), the memory is blank (log 8). -/
def State.reset : State :=
  { pending := [], now := 0, freeCount := 0, timer := Timer.initial, ports := [], presence := [], oat := [],
    rules := [], readings := [], filling := AccSet.cleared, closing := AccSet.cleared, live := [],
    contracts := ContractStore.initial, curtail := Curtailment.initial, notices := NoticeUnit.initial,
    uplink := Uplink.initial, mgmt := Mgmt.initial, settings := defaultSettings, extMemory := none }

end Sys2Proof.Machine
end

