-- ==== Sys2Proof/Machine/Layout.lean ====
section
/-! DEFINITION. The byte layouts of table entries, responses and notices, and the numbers that stand for named values
(R187, R190, R191, R192). -/

namespace Sys2Proof.Machine

/-! ### Codes (R190, R191, R192) -/

def Status.code : Status → Nat
  | .ok => 0 | .badRequest => 1 | .badTable => 2 | .badIndex => 3 | .badValue => 4 | .held => 5 | .locked => 6
  | .busy => 7 | .parity => 8 | .imageFail => 9

def TenantState.code : TenantState → Nat
  | .idle => 0 | .within => 1 | .burst => 2 | .over => 3

def LinkState.code : LinkState → Nat
  | .disabled => 0 | .down => 1 | .up => 2 | .degraded => 3

def PresenceState.code : PresenceState → Nat
  | .absent => 0 | .present => 1 | .held => 2 | .silent => 3

def Stage.code : Stage → Nat
  | .offPending => 0 | .off => 1 | .onPending => 2 | .unconfirmed => 3 | .skipped => 4 | .done => 5

def Restoring.code : Restoring → Nat
  | .none => 0 | .auto => 1 | .forced => 2

def SourceMode.code : SourceMode → Nat
  | .internal => 0 | .external => 1 | .fallback => 2

def ImageState.code : ImageState → Nat
  | .loading => 0 | .ok => 1 | .invalid => 2 | .absent => 3 | .saving => 4

def FaultClass.code : FaultClass → Nat
  | .frameError => 1 | .mistimedSample => 2 | .staleAck => 3 | .epochEarly => 4 | .portDegraded => 5
  | .sourceLost => 6 | .tableParity => 7 | .imageInvalid => 8

/-- The severity of a class (R156). -/
def FaultClass.severity : FaultClass → Nat
  | .frameError | .mistimedSample | .staleAck | .epochEarly => 1
  | .portDegraded | .sourceLost => 2
  | .tableParity | .imageInvalid => 3

def ParityTable.code : ParityTable → Nat
  | .oat => 1 | .rules => 2 | .staged => 3 | .active => 4

def feedCode : Feed → Nat
  | .a => 0 | .b => 1

def policyCode : Policy → Nat
  | .notify => 0 | .hold => 1 | .auto => 2

def NoticeKind.code : NoticeKind → Nat
  | .tenant => 0 | .port => 1 | .pdu => 2 | .source => 3 | .fault => 4 | .interval => 5 | .curtail => 6

/-- A yes/no byte: 0 no, 1 yes. R187 and R192 give these two for a SWITCH's command and for switch taken. For RULES enabled and
STAGED and ACTIVE valid R191 gives 0 for no and any other value for yes, and R190 gives commit-pending and entry parity bad no
numbers: that yes is sent as 1 there, whatever byte was written, is a DESIGN CHOICE (log 29). -/
def boolCode (b : Bool) : Nat := if b then 1 else 0

/-- A flag byte, its bit 0 first (R191). -/
def flagByte : List Bool → Nat
  | [] => 0
  | b :: rest => boolCode b + 2 * flagByte rest

/-! ### Entries (R191) -/

/-- The three location bytes of a fault record. -/
def locationBytes : Location → List Byte
  | .none => beBytes 3 0
  | .port p => beBytes 1 p ++ beBytes 2 0
  | .portPosition p q => beBytes 1 p ++ beBytes 1 q ++ beBytes 1 0
  | .outlet p q o => beBytes 1 p ++ beBytes 1 q ++ beBytes 1 o
  | .item table index => beBytes 1 table.code ++ beBytes 2 index

/-- The fault record's 8 bytes: empty, class, severity, location, epoch. -/
def faultBytes : Option FaultRecord → List Byte
  | none => beBytes 1 1 ++ beBytes 7 0
  | some f => beBytes 1 0 ++ beBytes 1 f.cls.code ++ beBytes 1 f.cls.severity ++ locationBytes f.location
      ++ beBytes 2 f.epoch.toNat

def settingBytes (v : Nat) : List Byte := beBytes 4 v

/-- An OAT entry. An absent slot is all zeros: DEDUCED from "absent fields read back as 0" (log 17). -/
def oatBytes : Option OatEntry → List Byte
  | none => beBytes 6 0
  | some e => beBytes 1 (flagByte [true, e.shedRank.isSome, e.outletLimit.isSome]) ++ beBytes 1 e.tenant
      ++ beBytes 1 (feedCode e.feed) ++ beBytes 1 (e.shedRank.getD 0) ++ beBytes 2 (e.outletLimit.getD 0)

/-- A RULES entry; enabled is sent as 1 (DESIGN CHOICE, log 29). -/
def ruleBytes (r : Rule) : List Byte :=
  beBytes 1 (boolCode r.enabled) ++ beBytes 2 r.compareKey ++ beBytes 2 r.mask ++ beBytes 1 r.tenant
    ++ beBytes 1 (feedCode r.feed)

/-- A STAGED or ACTIVE entry; valid is sent as 1 (DESIGN CHOICE, log 29). -/
def contractBytes (c : Contract) : List Byte :=
  beBytes 1 (boolCode c.valid) ++ beBytes 3 c.committed ++ beBytes 2 c.tolerance ++ beBytes 2 c.hysteresis
    ++ beBytes 4 c.burstCap ++ beBytes 3 c.refillCap ++ beBytes 3 c.feedCap ++ beBytes 1 c.quiet
    ++ beBytes 1 c.grace ++ beBytes 1 (policyCode c.policy)

/-- Dw = ⌊Dm / 256⌋ (R75). -/
def LiveRecord.watts (r : LiveRecord) : Nat := r.demand / 256

/-- The flags byte of a TENANT entry and a TENANT notice. -/
def liveFlags (r : LiveRecord) : Nat := flagByte [r.incomplete, r.feedOverA, r.feedOverB, r.lastEpoch.isNone]

/-- A TENANT entry; `free` is its last-evaluated-epoch field when the record has none (log 10). -/
def tenantBytes (free : BitVec 16) (r : LiveRecord) (c : TenantCurtail) : List Byte :=
  beBytes 1 r.state.code ++ beBytes 4 r.demand ++ beBytes 3 r.watts ++ beBytes 4 r.credit ++ beBytes 2 r.ticksInOver
    ++ beBytes 1 r.quiet ++ beBytes 3 r.lastDrawA ++ beBytes 3 r.lastDrawB
    ++ beBytes 2 (r.lastEpoch.getD free).toNat ++ beBytes 1 (liveFlags r) ++ beBytes 2 r.outletOver
    ++ beBytes 6 r.energy ++ beBytes 3 r.peakDemand ++ beBytes 3 r.peakDraw ++ beBytes 2 r.burstTicks
    ++ beBytes 2 r.overTicks ++ beBytes 2 r.incompleteTicks ++ beBytes 4 r.minCredit ++ beBytes 1 c.restoring.code
    ++ beBytes 1 (flagByte [c.exhausted, c.blocked])

/-- A SUMMARY entry; the empty record is no data with zeros and state IDLE (R117). R191 gives no data no numbers: 1 for yes and
0 for no are a DESIGN CHOICE (log 29). -/
def summaryBytes : Option Summary → List Byte
  | none => beBytes 1 1 ++ beBytes 28 0
  | some m => beBytes 1 0 ++ beBytes 4 m.interval.toNat ++ beBytes 1 m.generation.toNat ++ beBytes 6 m.energy
      ++ beBytes 3 m.peakDemand ++ beBytes 3 m.peakDraw ++ beBytes 2 m.burstTicks ++ beBytes 2 m.overTicks
      ++ beBytes 2 m.incompleteTicks ++ beBytes 4 m.minCredit ++ beBytes 1 m.state.code

/-- A CURTAIL entry; R191 gives 0 for an empty slot, and an occupied one is sent as 1 (DESIGN CHOICE, log 29). -/
def curtailBytes : Option CurtailEntry → List Byte
  | none => beBytes 13 0
  | some e => beBytes 1 1 ++ beBytes 2 e.outlet ++ beBytes 1 e.tenant ++ beBytes 1 e.stage.code
      ++ beBytes 1 (flagByte [e.sent, e.tried, e.resultOwed]) ++ beBytes 1 e.tag.toNat ++ beBytes 1 e.remaining
      ++ beBytes 1 e.attempts ++ beBytes 4 e.sequence.toNat

def presenceBytes (p : Presence) (inFilling inClosing : Bool) : List Byte :=
  beBytes 1 p.state.code ++ beBytes 1 p.missed ++ beBytes 1 (flagByte [inFilling, inClosing])

def portBytes (p : Port) : List Byte :=
  beBytes 1 p.link.code ++ beBytes 2 p.errorCount ++ beBytes 1 p.silentPass
    ++ beBytes 1 (flagByte [p.settling, p.dueMark.isSome]) ++ beBytes 1 p.passDown.length

/-! ### Bodies of the frames the 6120 sends (R187, R190, R192) -/

def responseBody (r : Response) : List Byte :=
  beBytes 2 r.tag.toNat ++ [r.code] ++ beBytes 1 r.status.code ++ r.data

/-- A notice body; an absent last evaluated epoch is 0 there (R192). -/
def noticeBody : Notice → List Byte
  | .tenant t r c => beBytes 1 NoticeKind.tenant.code ++ beBytes 1 t ++ beBytes 1 r.state.code ++ beBytes 3 r.watts
      ++ beBytes 4 r.credit ++ beBytes 3 r.lastDrawA ++ beBytes 3 r.lastDrawB ++ beBytes 1 (liveFlags r)
      ++ beBytes 2 r.outletOver ++ beBytes 1 c.restoring.code ++ beBytes 1 (flagByte [c.exhausted, c.blocked])
      ++ beBytes 2 (r.lastEpoch.getD 0).toNat
  | .port p link err => beBytes 1 NoticeKind.port.code ++ beBytes 1 p ++ beBytes 1 link.code ++ beBytes 2 err
  | .pdu i st missed => beBytes 1 NoticeKind.pdu.code ++ beBytes 1 (i / 16) ++ beBytes 1 (i % 16)
      ++ beBytes 1 st.code ++ beBytes 1 missed
  | .source mode epoch => beBytes 1 NoticeKind.source.code ++ beBytes 1 mode.code ++ beBytes 2 epoch.toNat
  | .fault f => beBytes 1 NoticeKind.fault.code ++ faultBytes f
  | .interval n gen sw => beBytes 1 NoticeKind.interval.code ++ beBytes 4 n.toNat ++ beBytes 1 gen.toNat
      ++ beBytes 1 (boolCode sw)
  | .curtail key tenant stage attempts tag => beBytes 1 NoticeKind.curtail.code ++ beBytes 2 key
      ++ beBytes 1 tenant ++ beBytes 1 stage.code ++ beBytes 1 attempts ++ beBytes 1 tag.toNat

def passDownBody : PassDown → List Byte
  | .relay position payload => [position, 0] ++ payload
  | .response position r => [position, 1] ++ responseBody r

/-- A frame down a chain, whole, delimiter and all (R186, R187). -/
def downFrameBytes (rowId : Byte) : DownFrame → List Byte
  | .mark epoch => lineFrame kindMark rowId (beBytes 2 epoch.toNat)
  | .switch position outlet on tag => lineFrame kindSwitch rowId
      (beBytes 1 position ++ beBytes 1 outlet ++ beBytes 1 (boolCode on) ++ beBytes 1 tag.toNat)
  | .passDown content => lineFrame kindPassDown rowId (passDownBody content)

/-- A frame up the uplink, whole, delimiter and all (R165, R186, R187). -/
def uplinkFrameBytes (rowId : Byte) : UplinkFrame → List Byte
  | .response r => lineFrame kindResponse rowId (responseBody r)
  | .notice n => lineFrame kindNotice rowId (noticeBody n)
  | .forward f => lineFrame kindForward rowId (beBytes 1 f.port ++ [f.kind] ++ f.body)

end Sys2Proof.Machine
end

