-- ==== Sys2Proof/Machine/Operands.lean ====
section
/-! DEFINITION. Reading operands: frame bodies (R187 to R189), request data (R190, R191), the range tests of written
entries (R48, R50, R105), the settings' ranges (R174, R175) and which command takes a request (log 5). -/

namespace Sys2Proof.Machine

/-! ### Frame bodies -/

/-- The complete 3-byte entries of a reading list, at most `fuel` of them: outlet index (low six bits) and value
(R189). -/
def readingEntries : Nat → List Byte → List (Nat × Nat)
  | 0, _ => []
  | fuel + 1, i :: hi :: lo :: rest => (i.toNat % 64, beNat [hi, lo]) :: readingEntries fuel rest
  | _ + 1, _ => []

/-- A SAMPLE body's position, epoch and first 48 entries; none when shorter than its 3 fixed bytes (R188, R189). -/
def parseSample : List Byte → Option (Nat × Epoch × List (Nat × Nat))
  | position :: hi :: lo :: rest =>
    some (position.toNat, BitVec.ofNat 16 (beNat [hi, lo]), readingEntries 48 rest)
  | _ => none

/-- A SWITCH-ACK body's position, outlet, tag and whether its outcome is DONE (R187, R188). -/
def parseSwitchAck : List Byte → Option (Nat × Nat × BitVec 8 × Bool)
  | position :: outlet :: tag :: outcome :: _ => some (position.toNat, outlet.toNat, tag, decide (outcome = 0))
  | _ => none

/-- An EPOCH body's epoch number (R187, R188). -/
def parseEpoch : List Byte → Option Epoch
  | hi :: lo :: _ => some (BitVec.ofNat 16 (beNat [hi, lo]))
  | _ => none

/-- A PDU-PASS body's port, position and payload (R187, R188). -/
def parsePduPass : List Byte → Option (Nat × Byte × List Byte)
  | port :: position :: payload => some (port.toNat, position, payload)
  | _ => none

/-- A request body (R190); none when it carries no whole request tag and code (R188). -/
def parseRequest (origin : Origin) : List Byte → Option Request
  | hi :: lo :: code :: data => some { origin := origin, tag := BitVec.ofNat 16 (beNat [hi, lo]), code := code, data := data }
  | _ => none

/-- A chain-side REQUEST body: position byte, then a request body (R187, R188). -/
def parseChainRequest (port : Nat) : List Byte → Option Request
  | position :: rest => parseRequest (.chain port position) rest
  | [] => none

/-! ### Settings (R174, R175, R191) -/

/-- The lowest and highest value of each setting, by index; a named value's highest is the highest number that names
one. -/
def settingRanges : List (Nat × Nat) :=
  [(0, 255), (0, 1), (60, 3600), (0, 15), (0, 10), (1, 65535), (1, 15), (0, 1), (0, 1), (0, 1), (0, 1), (0, 1),
   (0, 1), (0, 1), (0, 1), (0, 1), (0, 1), (0, 1), (0, 1), (0, 1), (0, 1)]

/-- The value a setting takes when `v` is written to it (R175). -/
def clampSetting (i v : Nat) : Nat :=
  let range := settingRanges.getD i (0, 0)
  min range.2 (max range.1 v)

/-! ### Table numbers (R190) and named fields of requests -/

def tableSettings : Nat := 0
def tableOat : Nat := 1
def tableRules : Nat := 2
def tableStaged : Nat := 3
def tableActive : Nat := 4
def tableTenant : Nat := 5
def tableSummary : Nat := 6
def tableCurtail : Nat := 7
def tablePresence : Nat := 8
def tablePort : Nat := 9

/-- The length of one entry of each table (R191). -/
def entryLength : Nat → Nat
  | 0 => 4 | 1 => 6 | 2 => 7 | 3 => 21 | 4 => 21 | 5 => 50 | 6 => 29 | 7 => 13 | 8 => 3 | 9 => 6 | _ => 0

def codeReadEntry : Byte := 0x01
def codeWriteEntry : Byte := 0x02
def codeResolve : Byte := 0x03
def codeCommit : Byte := 0x04
def codeCancelCommit : Byte := 0x05
def codeCopy : Byte := 0x06
def codeRestore : Byte := 0x07
def codeDiscard : Byte := 0x08
def codeClearFault : Byte := 0x09
def codeReadStatus : Byte := 0x0A
def codeSaveImage : Byte := 0x0B
def codeResetLive : Byte := 0x0C
def codeResetFull : Byte := 0x0D

/-- R171: the request code is listed in R190. -/
def codeKnown (code : Byte) : Bool := decide (1 ≤ code.toNat) && decide (code.toNat ≤ 13)

/-- R171: every request that is not READ_ENTRY, RESOLVE or READ_STATUS is write-type. -/
def writeType (code : Byte) : Bool :=
  !(decide (code = codeReadEntry) || decide (code = codeResolve) || decide (code = codeReadStatus))

/-- The two bytes of `data` from offset `at`, as a number; a missing byte counts as 0 (callers test the length). -/
def half (data : List Byte) (offset : Nat) : Nat := beNat [data.getD offset 0, data.getD (offset + 1) 0]

/-- The number in the `n` bytes of `data` from `offset`. -/
def field (data : List Byte) (offset n : Nat) : Nat := beNat ((data.drop offset).take n)

/-- The byte of `data` at `offset` as a number. -/
def byteAt (data : List Byte) (offset : Nat) : Nat := (data.getD offset 0).toNat

/-- The first data byte of a WRITE_ENTRY: the table it names (R190). -/
def writtenTable (data : List Byte) : Nat := byteAt data 0

/-- The index a WRITE_ENTRY names. -/
def writtenIndex (data : List Byte) : Nat := half data 1

/-- The entry a WRITE_ENTRY carries. -/
def writtenEntry (data : List Byte) : List Byte := data.drop 3

/-- The data has the length that the code requires, and a RESTORE's form is 0 or 1 (R190). -/
def dataFits (code : Byte) (data : List Byte) : Bool :=
  match code.toNat with
  | 1 => decide (data.length = 4)
  | 2 => if 1 ≤ data.length ∧ writtenTable data ≤ 3 then decide (data.length = 3 + entryLength (writtenTable data))
      else decide (3 ≤ data.length)
  | 3 | 8 => decide (data.length = 2)
  | 7 => decide (data.length = 3) && decide (byteAt data 0 ≤ 1)
  | _ => decide (data.length = 0)

/-! ### Written entries and their range tests -/

/-- A bit of a flag byte. -/
def flagBit (b n : Nat) : Bool := b.testBit n

/-- A written OAT entry: none is a clear, whose other bytes are not examined (R191). -/
def parseOatEntry (entry : List Byte) : Option RawOatEntry :=
  let flags := byteAt entry 0
  if flagBit flags 0 then
    some { tenant := byteAt entry 1, feed := byteAt entry 2,
           shedRank := if flagBit flags 1 then some (byteAt entry 3) else none,
           outletLimit := if flagBit flags 2 then some (half entry 4) else none }
  else none

def parseRule (entry : List Byte) : RawRule :=
  { enabled := decide (byteAt entry 0 ≠ 0), compareKey := half entry 1, mask := half entry 3,
    tenant := byteAt entry 5, feed := byteAt entry 6 }

def parseContract (entry : List Byte) : RawContract :=
  { valid := decide (byteAt entry 0 ≠ 0), committed := field entry 1 3, tolerance := half entry 4,
    hysteresis := half entry 6, burstCap := field entry 8 4, refillCap := field entry 12 3, feedCap := field entry 15 3,
    quiet := byteAt entry 18, grace := byteAt entry 19, policy := byteAt entry 20 }

/-- The feed a number stands for (R191). -/
def feedOfCode : Nat → Option Feed
  | 0 => some .a
  | 1 => some .b
  | _ => none

/-- The policy a number stands for (R191). -/
def policyOfCode : Nat → Option Policy
  | 0 => some .notify
  | 1 => some .hold
  | 2 => some .auto
  | _ => none

/-- R48: tenant 0 to 127, feed A or B, a given shed rank 1 to 15, a given outlet limit 1 to 65 534. -/
def checkOatEntry (e : RawOatEntry) : Option OatEntry :=
  match feedOfCode e.feed with
  | none => none
  | some f =>
    let entry : OatEntry := { tenant := e.tenant, feed := f, shedRank := e.shedRank, outletLimit := e.outletLimit }
    if e.tenant ≤ 127 ∧ (∀ r ∈ e.shedRank, 1 ≤ r ∧ r ≤ 15) ∧ (∀ w ∈ e.outletLimit, 1 ≤ w ∧ w ≤ 65534) then some entry
    else none

/-- R50: compare key and mask at most 4 095, tenant at most 127, feed A or B. -/
def checkRule (r : RawRule) : Option Rule :=
  match feedOfCode r.feed with
  | none => none
  | some f =>
    if r.compareKey ≤ 4095 ∧ r.mask ≤ 4095 ∧ r.tenant ≤ 127 then
      some { enabled := r.enabled, compareKey := r.compareKey, mask := r.mask, tenant := r.tenant, feed := f }
    else none

/-- R103, R105: every field in its range, whether the record is valid or not. -/
def checkContract (c : RawContract) : Option Contract :=
  match policyOfCode c.policy with
  | none => none
  | some p =>
    if c.committed ≤ wattTop ∧ c.tolerance ≤ 500 ∧ c.hysteresis ≤ 500 ∧ c.burstCap ≤ 4294967295
        ∧ c.refillCap ≤ wattTop ∧ c.feedCap ≤ wattTop ∧ 1 ≤ c.quiet ∧ c.quiet ≤ 255 ∧ c.grace ≤ 255 then
      some { valid := c.valid, committed := c.committed, tolerance := c.tolerance, hysteresis := c.hysteresis,
             burstCap := c.burstCap, refillCap := c.refillCap, feedCap := c.feedCap, quiet := c.quiet,
             grace := c.grace, policy := p }
    else none

/-! ### Which command takes a request (R171, log 5) -/

/-- The kinds of request, one per request row of the opcode table. -/
inductive RequestRow where
  | readEntry | writeEntryOat | oatClear | writeEntryRules | writeEntryStaged | writeEpochSource | portDisable
  | portEnable | writeErrorThreshold | writeNoticeMask | writeSetting | writeEntryBadTable | resolve | commit
  | cancelCommit | copyActiveToStaged | restoreTenant | restoreOutlet | discard | clearFault | readStatus
  | unknownRequestCode | saveImage | resetLive | resetFull
  deriving DecidableEq, Repr

/-- The row of a SETTINGS write by the setting it names; a port enable's row is by the value it takes. -/
def settingRow (index value : Nat) : RequestRow :=
  if index = 1 then .writeEpochSource
  else if 7 ≤ index ∧ index ≤ 10 then (if value = 0 then .portDisable else .portEnable)
  else if index = 5 then .writeErrorThreshold
  else if 13 ≤ index ∧ index ≤ 19 then .writeNoticeMask
  else .writeSetting

/-- The row of a WRITE_ENTRY. Data whose length does not fit is answered by the general tests whatever its row. -/
def writeRow (data : List Byte) : RequestRow :=
  if data.length = 0 then .writeEntryBadTable
  else if writtenTable data = tableSettings then
    if dataFits codeWriteEntry data then settingRow (writtenIndex data) (field (writtenEntry data) 0 4)
    else .writeSetting
  else if writtenTable data = tableOat then
    if dataFits codeWriteEntry data ∧ !flagBit (byteAt (writtenEntry data) 0) 0 then .oatClear else .writeEntryOat
  else if writtenTable data = tableRules then .writeEntryRules
  else if writtenTable data = tableStaged then .writeEntryStaged
  else .writeEntryBadTable

/-- The row of the opcode table that takes a request. -/
def requestRow (r : Request) : RequestRow :=
  match r.code.toNat with
  | 1 => .readEntry
  | 2 => writeRow r.data
  | 3 => .resolve
  | 4 => .commit
  | 5 => .cancelCommit
  | 6 => .copyActiveToStaged
  | 7 => if byteAt r.data 0 = 1 then .restoreOutlet else .restoreTenant
  | 8 => .discard
  | 9 => .clearFault
  | 10 => .readStatus
  | 11 => .saveImage
  | 12 => .resetLive
  | 13 => .resetFull
  | _ => .unknownRequestCode

end Sys2Proof.Machine
end

