-- ==== Sys2Proof/Machine/Ops.lean ====
section
/-! DEFINITION. The named operations every meaning is built of: reading and writing a block's records, recording a
fault, offering to a queue, resolution, curtailment entries, the transmitters' choice, producing a response, the
advance. Laws/ says of each what it can do. -/

namespace Sys2Proof.Machine

/-! ### One update per field of State -/

def State.setNow (s : State) (v : Nat) : State := { s with now := v }
def State.setFreeCount (s : State) (v : Nat) : State := { s with freeCount := v }
def State.setTimer (s : State) (v : Timer) : State := { s with timer := v }
def State.setPorts (s : State) (v : Table Port) : State := { s with ports := v }
def State.setPresence (s : State) (v : Table Presence) : State := { s with presence := v }
def State.setOat (s : State) (v : Table (Stored (Option OatEntry))) : State := { s with oat := v }
def State.setRules (s : State) (v : Table (Stored Rule)) : State := { s with rules := v }
def State.setReadings (s : State) (v : Table Reading) : State := { s with readings := v }
def State.setFilling (s : State) (v : AccSet) : State := { s with filling := v }
def State.setClosing (s : State) (v : AccSet) : State := { s with closing := v }
def State.setLive (s : State) (v : Table LiveRecord) : State := { s with live := v }
def State.setContracts (s : State) (v : ContractStore) : State := { s with contracts := v }
def State.setCurtail (s : State) (v : Curtailment) : State := { s with curtail := v }
def State.setNotices (s : State) (v : NoticeUnit) : State := { s with notices := v }
def State.setUplink (s : State) (v : Uplink) : State := { s with uplink := v }
def State.setMgmt (s : State) (v : Mgmt) : State := { s with mgmt := v }
def State.setSettings (s : State) (v : List Nat) : State := { s with settings := v }
def State.setExtMemory (s : State) (v : Option Image) : State := { s with extMemory := v }

/-! ### Records by index -/

def State.port (s : State) (p : Nat) : Port := Table.read Port.initial s.ports p

def State.putPort (s : State) (p : Nat) (q : Port) : State := s.setPorts (Table.write Port.initial s.ports p q)

/-- The presence entry at index port × 16 + position. -/
def State.presenceAt (s : State) (i : Nat) : Presence := Table.read Presence.absent s.presence i

def State.putPresence (s : State) (i : Nat) (e : Presence) : State :=
  s.setPresence (Table.write Presence.absent s.presence i e)

def State.slotAt (s : State) (key : Nat) : Stored (Option OatEntry) := Table.read absentSlot s.oat key

def State.ruleAt (s : State) (n : Nat) : Stored Rule := Table.read disabledRule s.rules n

def State.readingAt (s : State) (key : Nat) : Reading := Table.read Reading.initial s.readings key

def State.liveAt (s : State) (t : Nat) : LiveRecord := Table.read LiveRecord.idle s.live t

def State.putLive (s : State) (t : Nat) (r : LiveRecord) : State :=
  s.setLive (Table.write LiveRecord.idle s.live t r)

def State.activeAt (s : State) (t : Nat) : Stored Contract := Table.read emptyContract s.contracts.active t

def State.stagedAt (s : State) (t : Nat) : Stored Contract := Table.read emptyContract s.contracts.staged t

def State.summaryAt (s : State) (t : Nat) : Option Summary := Table.read none s.contracts.summaries t

def State.entryAt (s : State) (slot : Nat) : Option CurtailEntry := Table.read none s.curtail.slots slot

def State.curtailAt (s : State) (t : Nat) : TenantCurtail := Table.read TenantCurtail.clear s.curtail.records t

def State.putCurtail (s : State) (t : Nat) (c : TenantCurtail) : State :=
  s.setCurtail { s.curtail with records := Table.write TenantCurtail.clear s.curtail.records t c }

/-- The due list of a port: the slots of its unsent pending entries in the order they became due (R128). -/
def State.dueAt (s : State) (p : Nat) : List Nat := Table.read [] s.curtail.due p

/-! ### Settings (R174) -/

def State.setting (s : State) (i : Nat) : Nat := s.settings.getD i 0

def State.rowId (s : State) : Byte := BitVec.ofNat 8 (s.setting 0)
def State.ticksPerInterval (s : State) : Nat := s.setting 2
def State.holdLimit (s : State) : Nat := s.setting 3
def State.demandShift (s : State) : Nat := s.setting 4
def State.errorThreshold (s : State) : Nat := s.setting 5
def State.commandTimeout (s : State) : Nat := s.setting 6
def State.portEnabled (s : State) (p : Nat) : Bool := decide (s.setting (7 + p) = 1)
def State.forwarding (s : State) : Bool := decide (s.setting 11 = 1)
def State.priorityMode (s : State) : Bool := decide (s.setting 12 = 1)
def State.masked (s : State) (k : NoticeKind) : Bool := decide (s.setting (13 + k.code) = 1)
def State.chainWritePermit (s : State) : Bool := decide (s.setting 20 = 1)

/-- The source mode that the epoch source setting names (R6, R13). -/
def sourceOfSetting (v : Nat) : SourceMode := if v = 0 then .internal else .external

/-! ### Faults (R155) -/

/-- R155: the record takes the fault when it is empty or holds a lower severity. -/
def State.recordFault (s : State) (cls : FaultClass) (loc : Location) : State :=
  let fresh : FaultRecord := { cls := cls, location := loc, epoch := s.timer.epoch }
  match s.notices.fault with
  | none => s.setNotices { s.notices with fault := some fresh }
  | some held =>
    if held.cls.severity < cls.severity then s.setNotices { s.notices with fault := some fresh } else s

/-- TABLE_PARITY recorded for each bad item, in the order read (R45, R104). -/
def State.recordParity (s : State) : List Location → State
  | [] => s
  | loc :: rest => (s.recordFault .tableParity loc).recordParity rest

/-- The parity fault's location of a stored item that is read, if it is bad. -/
def parityLocation {α : Type} (item : Stored α) (loc : Location) : List Location :=
  if item.parityGood then [] else [loc]

/-! ### Resolution (R42) -/

/-- What decided a resolution (R42). -/
inductive Source where
  | entry | rule (n : Nat) | pool
  deriving DecidableEq, Repr

/-- The answer to a resolution (R42). -/
structure Resolution where
  source : Source
  tenant : Nat
  feed : Feed
  shedRank : Option Nat
  outletLimit : Option Nat
  deriving DecidableEq, Repr

/-- R41: every digit selected by the mask is the same in the key as in the compare key. -/
def keyMatches (r : Rule) (key : Nat) : Bool := decide (key &&& r.mask = r.compareKey &&& r.mask)

/-- R42, R44: rule `n` is enabled, has good parity and is matched by the key. -/
def State.ruleMatches (s : State) (key n : Nat) : Bool :=
  (s.ruleAt n).parityGood && (s.ruleAt n).content.enabled && keyMatches (s.ruleAt n).content key

/-- R42: the lowest-numbered rule that matches. -/
def State.decidingRule (s : State) (key : Nat) : Option Nat := (List.range 16).find? (s.ruleMatches key)

/-- R42, R44: the present content of a slot with good parity. -/
def State.slotEntry (s : State) (key : Nat) : Option OatEntry :=
  if (s.slotAt key).parityGood then (s.slotAt key).content else none

/-- R42: the resolution of a key against the tables as they stand. -/
def State.resolution (s : State) (key : Nat) : Resolution :=
  match s.slotEntry key with
  | some e => { source := .entry, tenant := e.tenant, feed := e.feed, shedRank := e.shedRank, outletLimit := e.outletLimit }
  | none =>
    match s.decidingRule key with
    | some n => { source := .rule n, tenant := (s.ruleAt n).content.tenant, feed := (s.ruleAt n).content.feed,
                  shedRank := none, outletLimit := none }
    | none => { source := .pool, tenant := 0, feed := .a, shedRank := none, outletLimit := none }

/-- The bad rules among the first `n`, in ascending number. -/
def State.badRules (s : State) (n : Nat) : List Location :=
  (List.range n).flatMap (fun i => parityLocation (s.ruleAt i) (.item .rules i))

/-- R45: the bad items a resolution reads: the slot, then the rules up to the one that decides, or all sixteen. -/
def State.resolutionFaults (s : State) (key : Nat) : List Location :=
  match s.slotEntry key with
  | some _ => []
  | none =>
    parityLocation (s.slotAt key) (.item .oat key)
      ++ s.badRules (match s.decidingRule key with | some n => n + 1 | none => 16)

/-! ### Accumulator sets (R58, R61, R65) -/

/-- A sum that stops at 16 777 215 W (R69). -/
def wattAdd (a b : Nat) : Nat := min wattTop (a + b)

def AccSet.sum (a : AccSet) (f : Feed) (t : Nat) : Nat :=
  match f with
  | .a => Table.read 0 a.sumA t
  | .b => Table.read 0 a.sumB t

def AccSet.over (a : AccSet) (t : Nat) : Nat := Table.read 0 a.outletOver t

def AccSet.isIncomplete (a : AccSet) (t : Nat) : Bool := Table.read false a.incomplete t

def AccSet.outletFlag (a : AccSet) (key : Nat) : Bool := Table.read false a.outletReported key

def AccSet.pduFlag (a : AccSet) (i : Nat) : Bool := Table.read false a.pduReported i

/-- A contribution of `v` watts under a resolution: added to the resolved tenant's feed sum, and counted when it
exceeds the resolved outlet limit (R61 steps 4 and 5, R65 step 3). -/
def AccSet.charge (a : AccSet) (r : Resolution) (v : Nat) : AccSet :=
  let summed : AccSet :=
    match r.feed with
    | .a => { a with sumA := Table.write 0 a.sumA r.tenant (wattAdd (a.sum .a r.tenant) v) }
    | .b => { a with sumB := Table.write 0 a.sumB r.tenant (wattAdd (a.sum .b r.tenant) v) }
  match r.outletLimit with
  | some limit =>
    if limit < v then { summed with outletOver := Table.write 0 a.outletOver r.tenant (a.over r.tenant + 1) } else summed
  | none => summed

def AccSet.markOutlet (a : AccSet) (key : Nat) : AccSet :=
  { a with outletReported := Table.write false a.outletReported key true }

def AccSet.markPdu (a : AccSet) (i : Nat) : AccSet :=
  { a with pduReported := Table.write false a.pduReported i true }

def AccSet.markIncomplete (a : AccSet) (t : Nat) : AccSet :=
  { a with incomplete := Table.write false a.incomplete t true }

/-- R71: the reported flags of a port cleared, its sums left. -/
def AccSet.clearPort (a : AccSet) (p : Nat) : AccSet :=
  { a with outletReported := Table.drop (fun key => decide (keyPort key = p)) a.outletReported,
           pduReported := Table.drop (fun i => decide (i / 16 = p)) a.pduReported }

/-! ### Queues (R34, R161 to R163) -/

/-- R34: a PASS-DOWN offered to port `p` is taken. -/
def State.passDownTaken (s : State) (p : Nat) : Bool :=
  decide ((s.port p).link ≠ .disabled) && decide ((s.port p).passDown.length < 4)

def State.offerPassDown (s : State) (p : Nat) (frame : PassDown) : State :=
  if s.passDownTaken p then s.putPort p { s.port p with passDown := (s.port p).passDown ++ [frame] } else s

/-- R163. -/
def State.offerForward (s : State) (f : Forward) : State :=
  if s.uplink.forwards.length < 16 then s.setUplink { s.uplink with forwards := s.uplink.forwards ++ [f] } else s

/-- R161. -/
def State.offerRequest (s : State) (r : Request) : State :=
  if s.uplink.requests.length < 4 then s.setUplink { s.uplink with requests := s.uplink.requests ++ [r] } else s

/-- R162: an uplink response is taken into the response queue, or kept behind the ones already kept. -/
def State.offerResponse (s : State) (r : Response) : State :=
  if s.mgmt.kept = [] ∧ s.uplink.responses.length < 4 then
    s.setUplink { s.uplink with responses := s.uplink.responses ++ [r] }
  else s.setMgmt { s.mgmt with kept := s.mgmt.kept ++ [r] }

/-- R169: a RESPONSE goes to the side its request came from. -/
def State.respond (s : State) (origin : Origin) (r : Response) : State :=
  match origin with
  | .uplink => s.offerResponse r
  | .chain p position => s.offerPassDown p (.response position r)

/-- The answer to a request: its tag and code echoed (R169, R190). -/
def Request.answer (r : Request) (status : Status) (data : List Byte) : Response :=
  { tag := r.tag, code := r.code, status := status, data := data }

def State.answer (s : State) (r : Request) (status : Status) (data : List Byte) : State :=
  s.respond r.origin (r.answer status data)

/-! ### The transmitters' choice (R32, R164, log 4) -/

/-- The link states in which a port carries SWITCH frames (R32, R127, R138). -/
def LinkState.carries (l : LinkState) : Bool := decide (l = .up) || decide (l = .degraded)

/-- R32: what the down transmitter of port `p` could start. -/
def State.downAvailable (s : State) (p : Nat) : DownKind → Bool
  | .mark => (s.port p).dueMark.isSome
  | .switch => (s.port p).link.carries && !(s.dueAt p).isEmpty
  | .passDown => !(s.port p).passDown.isEmpty

/-- R32: the first frame available, in the order MARK, SWITCH, PASS-DOWN. -/
def State.downFirst (s : State) (p : Nat) : Option DownKind :=
  [DownKind.mark, .switch, .passDown].find? (s.downAvailable p)

/-- The choice a transmitter holds after an event: none while it sends or its port is DISABLED; a choice made stays
while what it chose is there; an idle transmitter without one makes it (R32). -/
def State.downChoice (s : State) (p : Nat) : Option DownKind :=
  if (s.port p).link = .disabled ∨ (s.port p).tx.isSome then none
  else
    match (s.port p).choice with
    | some k => if s.downAvailable p k then some k else s.downFirst p
    | none => s.downFirst p

def State.chooseDown (s : State) (p : Nat) : State := s.putPort p { s.port p with choice := s.downChoice p }

/-- R164: a queue has a frame waiting. -/
def State.upAvailable (s : State) : UplinkKind → Bool
  | .response => !s.uplink.responses.isEmpty
  | .notice => !s.notices.queue.isEmpty
  | .forward => !s.uplink.forwards.isEmpty

/-- R164: the cyclic order RESPONSE, NOTICE, FORWARD beginning after the kind last served. -/
def cycleAfter : UplinkKind → List UplinkKind
  | .response => [.notice, .forward, .response]
  | .notice => [.forward, .response, .notice]
  | .forward => [.response, .notice, .forward]

/-- R164: the arbiter's order in the mode in force. -/
def State.upOrder (s : State) : List UplinkKind :=
  if s.priorityMode then [.response, .notice, .forward] else cycleAfter s.uplink.lastServed

/-- R164, R165: the choice the arbiter holds after an event; none while it sends or a full reset is due. -/
def State.upChoice (s : State) : Option UplinkKind :=
  if s.uplink.tx.isSome ∨ s.mgmt.resetDue then none
  else
    match s.uplink.choice with
    | some k => if s.upAvailable k then some k else s.upOrder.find? s.upAvailable
    | none => s.upOrder.find? s.upAvailable

def State.chooseUp (s : State) : State := s.setUplink { s.uplink with choice := s.upChoice }

/-- Every idle transmitter makes the choice it owes: the last thing of every event (R32, R164). -/
def State.arbitrate (s : State) : State :=
  ((((s.chooseDown 0).chooseDown 1).chooseDown 2).chooseDown 3).chooseUp

/-! ### Curtailment entries (R119 to R137) -/

/-- R119: an entry is pending in OFF_PENDING or ON_PENDING. -/
def CurtailEntry.pending (e : CurtailEntry) : Bool := decide (e.stage = .offPending) || decide (e.stage = .onPending)

/-- R121: the stages a restore acts on. -/
def CurtailEntry.restorable (e : CurtailEntry) : Bool :=
  decide (e.stage = .off) || decide (e.stage = .unconfirmed) || decide (e.stage = .skipped)

/-- The slots whose entry passes `f`, in ascending order. -/
def State.slotsWhere (s : State) (f : CurtailEntry → Bool) : List Nat :=
  (List.range 64).filter (fun n => match s.entryAt n with | some e => f e | none => false)

/-- The slot that holds an outlet's entry (R120: there is at most one). -/
def State.slotOf (s : State) (key : Nat) : Option Nat := (s.slotsWhere (fun e => decide (e.outlet = key))).head?

/-- R51, R127: the table holds an entry for the outlet. -/
def State.holdsOutlet (s : State) (key : Nat) : Bool := (s.slotOf key).isSome

/-- R119: the tenant has a pending entry. -/
def State.tenantPending (s : State) (t : Nat) : Bool :=
  !(s.slotsWhere (fun e => e.pending && decide (e.tenant = t))).isEmpty

def State.putEntry (s : State) (slot : Nat) (e : CurtailEntry) : State :=
  s.setCurtail { s.curtail with slots := Table.write none s.curtail.slots slot (some e) }

/-- R128: the entry joins the end of its port's due list. -/
def State.joinDue (s : State) (p slot : Nat) : State :=
  s.setCurtail { s.curtail with due := Table.write [] s.curtail.due p (s.dueAt p ++ [slot]) }

/-- R128: the entry leaves its port's due list. -/
def State.leaveDue (s : State) (p slot : Nat) : State :=
  s.setCurtail { s.curtail with due := Table.write [] s.curtail.due p ((s.dueAt p).filter (fun n => decide (n ≠ slot))) }

/-- The entry leaves the table and the owed list (R137, R138, R142, R143). -/
def State.removeEntry (s : State) (slot : Nat) : State :=
  s.setCurtail { s.curtail with slots := Table.write none s.curtail.slots slot none,
                                owed := s.curtail.owed.filter (fun n => decide (n ≠ slot)) }

/-- R137: a result of the entry in `slot`, which `e` is now. -/
def State.recordResult (s : State) (slot : Nat) (e : CurtailEntry) : State :=
  if s.masked .curtail then
    (if e.stage = .done then s.removeEntry slot else s.putEntry slot e)
  else
    let put := s.putEntry slot { e with resultOwed := true }
    put.setCurtail { put.curtail with owed := if slot ∈ s.curtail.owed then s.curtail.owed else s.curtail.owed ++ [slot] }

/-- The entry's command has ended, leaving stage `stage` (R132, R133, R135, R136). -/
def CurtailEntry.ended (e : CurtailEntry) (stage : Stage) : CurtailEntry :=
  { e with stage := stage, sent := false, remaining := 0 }

/-- R135: a timed-out entry is retried or given up according to its attempts. -/
def State.timeOut (s : State) (slot : Nat) (e : CurtailEntry) : State :=
  if e.attempts = 1 then (s.putEntry slot { e with sent := false, remaining := 0 }).joinDue (keyPort e.outlet) slot
  else s.recordResult slot (e.ended .unconfirmed)

/-- R134: one entry's share of an advance: remaining decreases, and the entry times out when it reaches 0. -/
def State.ageEntry (s : State) (slot : Nat) : State :=
  match s.entryAt slot with
  | some e =>
    if e.pending && e.sent then
      let aged : CurtailEntry := { e with remaining := e.remaining - 1 }
      if aged.remaining = 0 then s.timeOut slot aged else s.putEntry slot aged
    else s
  | none => s

/-- R134: the advance ages every sent pending entry, in ascending slot order. -/
def State.ageCommands (s : State) : State := (List.range 64).foldl State.ageEntry s

/-- R136: one slot's share of a port's loss or disable. -/
def State.loseEntry (p : Nat) (s : State) (slot : Nat) : State :=
  match s.entryAt slot with
  | some e =>
    if e.pending && decide (keyPort e.outlet = p) then
      (s.leaveDue p slot).recordResult slot (e.ended .unconfirmed)
    else s
  | none => s

/-- R136: every pending entry on the port becomes UNCONFIRMED, in ascending slot order. -/
def State.losePending (s : State) (p : Nat) : State := (List.range 64).foldl (State.loseEntry p) s

/-- The tried flags of a tenant's entries clear (R125, R139, R114). -/
def State.clearTried (s : State) (t : Nat) : State :=
  (s.slotsWhere (fun e => decide (e.tenant = t))).foldl
    (fun s slot => match s.entryAt slot with | some e => s.putEntry slot { e with tried := false } | none => s) s

/-- Restoring becomes NONE and the tenant's tried flags clear (R125, R114, R139). -/
def State.endRestoring (s : State) (t : Nat) : State :=
  (s.putCurtail t { s.curtailAt t with restoring := .none }).clearTried t

/-- R138, R142: the entry is set ON_PENDING, unsent, and its command becomes due on its port. -/
def State.setOnPending (s : State) (slot : Nat) (e : CurtailEntry) : State :=
  (s.putEntry slot { e with stage := .onPending, sent := false, remaining := 0, attempts := 0 }).joinDue
    (keyPort e.outlet) slot

/-! ### Ports (R16 to R22) -/

/-- A port enters DEGRADED and records PORT_DEGRADED (R17). -/
def State.degrade (s : State) (p : Nat) : State :=
  (s.putPort p { s.port p with link := .degraded }).recordFault .portDegraded (.port p)

/-- R16: a well-formed frame on port `p`, before it is passed on by kind. -/
def State.wellFormedFrame (s : State) (p : Nat) : State :=
  let heard := s.putPort p { s.port p with silentPass := 0 }
  if (s.port p).link = .down then
    if (s.port p).errorCount < s.errorThreshold then heard.putPort p { heard.port p with link := .up }
    else heard.degrade p
  else heard

/-- R18: the port goes DOWN through silent passes and its pending entries become UNCONFIRMED (R136). -/
def State.losePort (s : State) (p : Nat) : State :=
  (s.putPort p { s.port p with link := .down }).losePending p

/-- R18's condition on a port after its count: UP or DEGRADED with a silent-pass count of 3. -/
def Port.isLost (q : Port) : Bool := q.link.carries && decide (q.silentPass = 3)

/-- R9, R18: what an advance to epoch `n` leaves in a port that is not DISABLED, before the loss test. -/
def Port.advanced (q : Port) (n : Epoch) : Port :=
  if q.link = .disabled then q
  else { q with dueMark := some n, silentPass := min 255 (q.silentPass + 1), settling := false }

/-- R8, R18: one port's share of an advance to epoch `n`. -/
def State.signalPort (n : Epoch) (s : State) (p : Nat) : State :=
  let counted := s.putPort p ((s.port p).advanced n)
  if (s.port p).link ≠ .disabled ∧ ((s.port p).advanced n).isLost then counted.losePort p else counted

/-- R21, R71, R136: the port is disabled. A full reset waiting on this port becomes due (R185). -/
def State.disablePort (s : State) (p : Nat) : State :=
  let cleared := ((((s.putPort p Port.initial).setPresence (Table.drop (fun i => decide (i / 16 = p)) s.presence)).setReadings
      (Table.drop (fun key => decide (keyPort key = p)) s.readings)).setFilling (s.filling.clearPort p)).setClosing
      (s.closing.clearPort p)
  let lost := cleared.losePending p
  match lost.mgmt.resetWaiting with
  | some (.chain q _) => if q = p then lost.setMgmt { lost.mgmt with resetDue := true } else lost
  | _ => lost

/-- R22: the port is enabled. -/
def State.enablePort (s : State) (p : Nat) : State :=
  s.putPort p { Port.initial with link := .down, settling := true }

/-- R36, R37: the link state that the enable setting gives a port after a load or a live reset. -/
def State.portAfterReset (s : State) (p : Nat) : Port :=
  { Port.initial with link := if s.portEnabled p then .down else .disabled }

/-! ### The advance (R8) -/

/-- R8: the advance to epoch `n`: the timer, the sets, the pass, the sent commands, the ports. The sent commands are
aged before the ports count, the order in which R8 names them (log 12); a timeout or a port loss belongs to the same
event (R134, R136, log 3). -/
def State.advance (s : State) (n : Epoch) : State :=
  let timed := s.setTimer { s.timer with epoch := n, refTime := s.now,
                                         pass := some { epoch := s.timer.epoch - 1, point := .position 0 } }
  let handed := (timed.setClosing s.filling).setFilling AccSet.cleared
  [0, 1, 2, 3].foldl (State.signalPort n) handed.ageCommands

/-- `elapsed` milliseconds pass (log 2). -/
def State.elapse (s : State) (elapsed : Nat) : State := s.setNow (s.now + elapsed)

/-- The time since the reference time (R3 to R6). -/
def State.sinceReference (s : State) : Nat := s.now - s.timer.refTime

/-! ### Requests (R169, R171) -/

/-- R169: the management unit can take a request. -/
def State.ready (s : State) : Bool :=
  s.mgmt.current.isNone && s.mgmt.kept.isEmpty && s.mgmt.resetWaiting.isNone

/-- The request the management unit can take now: the head of the request input queue (R169). -/
def State.takeable (s : State) : Option Request := if s.ready then s.uplink.requests.head? else none

/-- R161: the taken request leaves the queue. -/
def State.popRequest (s : State) : State := s.setUplink { s.uplink with requests := s.uplink.requests.tail }

/-- R171: the general tests, in order; none when the request passes them. -/
def State.generalTest (s : State) (r : Request) : Option Status :=
  if s.mgmt.imageState = .loading ∧ r.code ≠ codeReadStatus then some .busy
  else if !(codeKnown r.code && dataFits r.code r.data) then some .badRequest
  else if writeType r.code ∧ r.origin ≠ .uplink ∧ !s.chainWritePermit then some .locked
  else if writeType r.code ∧ s.mgmt.imageState = .saving then some .busy
  else none

/-- A request is executed: the general tests, then its own work `work` (R169, R171). -/
def State.execute (s : State) (r : Request) (work : Request → State → State) : State :=
  match s.generalTest r with
  | some status => s.answer r status []
  | none => work r s

/-- The take and execution of the request at the head of the queue, if one can be taken and it is of row `row`; else
nothing happens (log 1, log 5). -/
def State.onRequest (s : State) (row : RequestRow) (work : Request → State → State) :
    Host.Outcome State Fault Refusal :=
  match s.takeable with
  | some r => if requestRow r = row then .next (s.popRequest.execute r work).arbitrate else .next s
  | none => .next s

end Sys2Proof.Machine
end

