-- ==== Sys2Proof/Machine/Flags.lean ====
section
/-! DEFINITION. The flags and conditions the blocks report: the feed-over flags (R92), the compared fields of a tenant
(R148), what is owed and in which order it is queued (R147, R151), the reset values of the announced copies (R154). -/

namespace Sys2Proof.Machine

/-- R92: a feed sum against the contract's feed cap; a cap of 0 is unchecked. -/
def feedOver (cap sum : Nat) : Bool := decide (cap ≠ 0) && decide (cap < sum)

/-- R148: the compared fields of a tenant as they stand. -/
def State.compared (s : State) (t : Nat) : TenantCompared :=
  let r := s.liveAt t
  let c := s.curtailAt t
  { state := r.state, feedOverA := r.feedOverA, feedOverB := r.feedOverB,
    outletOverPresent := decide (0 < r.outletOver), restoring := c.restoring, exhausted := c.exhausted,
    blocked := c.blocked }

/-- An item that can be owed (R151). -/
inductive OwedItem where
  | fault | source | interval
  | port (p : Nat)
  | pdu (i : Nat)
  | curtail (slot : Nat)
  | tenant (t : Nat)
  deriving DecidableEq, Repr

/-- R147, R149, R150: the item is owed now. -/
def State.owes (s : State) : OwedItem → Bool
  | .fault => !s.masked .fault && decide (s.notices.fault ≠ s.notices.annFault)
  | .source => !s.masked .source && decide (s.timer.mode ≠ s.notices.annSource)
  | .interval => s.notices.intervalOwed.isSome
  | .port p => !s.masked .port && decide ((s.port p).link ≠ Table.read .disabled s.notices.annPort p)
  | .pdu i => !s.masked .pdu && decide ((s.presenceAt i).state ≠ Table.read .absent s.notices.annPresence i)
  | .curtail slot => match s.entryAt slot with | some e => e.resultOwed | none => false
  | .tenant t => !s.masked .tenant && decide (s.compared t ≠ Table.read TenantCompared.clear s.notices.annTenant t)

/-- R151: the fill order; the CURTAIL items stand in the order of the owed list. -/
def State.fillOrder (s : State) : List OwedItem :=
  [.fault, .source, .interval] ++ (List.range 4).map .port ++ (List.range 64).map .pdu
    ++ s.curtail.owed.map .curtail ++ (List.range 127).map (fun n => .tenant (n + 1))

/-- R151: the first owed item in fill order. -/
def State.firstOwed (s : State) : Option OwedItem := s.fillOrder.find? s.owes

/-- R148, R149, R150: the notice that reports an item, with its content taken now; none when there is nothing to
report. -/
def State.noticeOf (s : State) : OwedItem → Option Notice
  | .fault => some (.fault s.notices.fault)
  | .source => some (.source s.timer.mode s.timer.epoch)
  | .interval => s.notices.intervalOwed.map (fun w => .interval w.1 w.2.1 w.2.2)
  | .port p => some (.port p (s.port p).link (s.port p).errorCount)
  | .pdu i => some (.pdu i (s.presenceAt i).state (s.presenceAt i).missed)
  | .curtail slot => (s.entryAt slot).map (fun e => .curtail e.outlet e.tenant e.stage e.attempts e.tag)
  | .tenant t => some (.tenant t (s.liveAt t) (s.curtailAt t))

/-- R137, R150: the curtailment controller's part of queuing the notice of the entry in `slot`. -/
def State.handBack (s : State) (slot : Nat) : State :=
  match s.entryAt slot with
  | some e =>
    if e.stage = .done then s.removeEntry slot
    else
      let cleared := s.putEntry slot { e with resultOwed := false }
      cleared.setCurtail { cleared.curtail with owed := s.curtail.owed.filter (fun n => decide (n ≠ slot)) }
  | none => s

/-- R148, R149, R150: what a queuing settles: the announced copy set to the compared fields, INTERVAL owed no, or the
entry handed back. -/
def State.settle (s : State) : OwedItem → State
  | .fault => s.setNotices { s.notices with annFault := s.notices.fault }
  | .source => s.setNotices { s.notices with annSource := s.timer.mode }
  | .interval => s.setNotices { s.notices with intervalOwed := none }
  | .port p => s.setNotices { s.notices with annPort := Table.write .disabled s.notices.annPort p (s.port p).link }
  | .pdu i => s.setNotices { s.notices with
      annPresence := Table.write .absent s.notices.annPresence i (s.presenceAt i).state }
  | .curtail slot => s.handBack slot
  | .tenant t => s.setNotices { s.notices with
      annTenant := Table.write TenantCompared.clear s.notices.annTenant t (s.compared t) }

/-- R154: the announced copies at their reset values, for the enable settings in force. -/
def State.resetAnnounced (s : State) (n : NoticeUnit) : NoticeUnit :=
  { n with annTenant := [], annPresence := [], annSource := .internal, annFault := none,
           annPort := Table.tabulate .disabled 4 (fun p => if s.portEnabled p then .down else .disabled) }

end Sys2Proof.Machine
end

