-- ==== Sys2Proof/Machine/Chain.lean ====
section
/-! DEFINITION. Frames arriving on a chain port: SAMPLE, CHAIN_MALFORMED_FRAME, SWITCH_ACK, PDU_REPLY, CHAIN_REQUEST
(chapters 2, 4, 7, 9). A DISABLED port discards what it receives (R23), and so does every port during the load. -/

namespace Sys2Proof.Machine

/-- R61: a measured reading of `v` watts for `key`, within the arrival event. -/
def State.measure (s : State) (key v : Nat) : State :=
  let read := s.recordParity (s.resolutionFaults key)
  (read.setReadings (Table.write Reading.initial s.readings key { last := some v, age := 0 })).setFilling
    ((s.filling.markOutlet key).charge (s.resolution key) v)

/-- R59, R60, R62: the readings of one frame in frame order; `seen` holds the outlet indices already carried. -/
def State.takeReadings (pdu : Nat) : State → List Nat → List (Nat × Nat) → State
  | s, _, [] => s
  | s, seen, (o, v) :: rest =>
    if 48 ≤ o ∨ o ∈ seen ∨ v = unmeasured then State.takeReadings pdu s (o :: seen) rest
    else State.takeReadings pdu (s.measure (pdu * 64 + o) v) (o :: seen) rest

/-- R27: an accepted SAMPLE: the reported flag, the presence entry, the readings, the forward copy. -/
def State.acceptSample (s : State) (p position : Nat) (readings : List (Nat × Nat)) (body : List Byte) : State :=
  let pdu := p * 16 + position
  let flagged := (s.setFilling (s.filling.markPdu pdu)).putPresence pdu { state := .present, missed := 0 }
  let taken := State.takeReadings pdu flagged [] readings
  if s.forwarding then taken.offerForward { port := p, kind := kindSample, body := body } else taken

/-- R28: the acceptance window's ruling on a SAMPLE, its rows in order. -/
def State.window (s : State) (p position : Nat) (e : Epoch) (readings : List (Nat × Nat)) (body : List Byte) : State :=
  if 15 < position then s
  else if (s.port p).settling then s
  else if s.timer.epoch - e = 1 then
    if s.filling.pduFlag (p * 16 + position) then s else s.acceptSample p position readings body
  else s.recordFault .mistimedSample (.portPosition p position)

/-- SAMPLE (R16, R28, R188). -/
def execSample (port : Nat) (body : List Byte) (s : State) : Host.Outcome State Fault Refusal :=
  if (s.port port).link = .disabled then .next s
  else
    let heard := s.wellFormedFrame port
    match parseSample body with
    | some (position, e, readings) => .next (heard.window port position e readings body).arbitrate
    | none => .next heard.arbitrate

/-- CHAIN_MALFORMED_FRAME (R17). -/
def execChainMalformedFrame (port : Nat) (s : State) : Host.Outcome State Fault Refusal :=
  if (s.port port).link = .disabled then .next s
  else
    let counted := s.putPort port { s.port port with errorCount := min 65535 ((s.port port).errorCount + 1) }
    if (s.port port).link = .up ∧ s.errorThreshold ≤ (counted.port port).errorCount then .next (counted.degrade port)
    else .next counted

/-- R130: the sent pending entry that an answer matches by outlet and tag. -/
def State.matching (s : State) (p position outlet : Nat) (tag : BitVec 8) : Option (Nat × CurtailEntry) :=
  if 15 < position ∨ 47 < outlet then none
  else
    match s.slotOf (outletKey p position outlet) with
    | some slot =>
      match s.entryAt slot with
      | some e => if e.pending ∧ e.sent ∧ e.tag = tag then some (slot, e) else none
      | none => none
    | none => none

/-- R132, R133: the stage an answer leaves. -/
def answeredStage (stage : Stage) (done : Bool) : Stage :=
  match stage, done with
  | .offPending, true => .off
  | .offPending, false => .skipped
  | .onPending, true => .done
  | .onPending, false => .unconfirmed
  | other, _ => other

/-- R130 to R133: an answer is applied, or is stale. -/
def State.switchAnswer (s : State) (p position outlet : Nat) (tag : BitVec 8) (done : Bool) : State :=
  match s.matching p position outlet tag with
  | some (slot, e) => s.recordResult slot (e.ended (answeredStage e.stage done))
  | none => s.recordFault .staleAck (.outlet p position outlet)

/-- SWITCH_ACK (R16, R130, R188). -/
def execSwitchAck (port : Nat) (body : List Byte) (s : State) : Host.Outcome State Fault Refusal :=
  if (s.port port).link = .disabled then .next s
  else
    let heard := s.wellFormedFrame port
    match parseSwitchAck body with
    | some (position, outlet, tag, done) => .next (heard.switchAnswer port position outlet tag done).arbitrate
    | none => .next heard.arbitrate

/-- PDU_REPLY (R16, R24, R163, R188): forwarded whatever the forwarding setting; a body with no position byte is
discarded. -/
def execPduReply (port : Nat) (body : List Byte) (s : State) : Host.Outcome State Fault Refusal :=
  if (s.port port).link = .disabled then .next s
  else
    let heard := s.wellFormedFrame port
    if body.isEmpty then .next heard.arbitrate
    else .next (heard.offerForward { port := port, kind := kindPduReply, body := body }).arbitrate

/-- CHAIN_REQUEST (R16, R24, R161, R188). -/
def execChainRequest (port : Nat) (body : List Byte) (s : State) : Host.Outcome State Fault Refusal :=
  if (s.port port).link = .disabled then .next s
  else
    let heard := s.wellFormedFrame port
    match parseChainRequest port body with
    | some r => .next (heard.offerRequest r).arbitrate
    | none => .next heard.arbitrate

end Sys2Proof.Machine
end

