-- ==== Sys2Proof/Machine/Reconcile.lean ====
section
/-! DEFINITION. The reconciliation pass: HOLD_SWEEP_POSITION, HOLD_SWEEP_OUTLET and TENANT_EVALUATION, with the
arithmetic of demand, thresholds, credit and state (chapters 4 and 5). -/

namespace Sys2Proof.Machine

/-! ### The hold sweep (R64, R65, R29) -/

/-- R64: the first outlet from `o` on that the sweep handles at presence entry `i`, which it has found not ABSENT: one
not reported in the closing set. A disable makes an entry ABSENT while the sweep is among its outlets, and the rest are
passed over (R70, R71, log 19). -/
def State.nextUnreported (s : State) (i o : Nat) : Option Nat :=
  if (s.presenceAt i).state = .absent then none
  else (List.range 48).find? (fun x => decide (o ≤ x) && !s.closing.outletFlag (i * 64 + x))

/-- R64: where the sweep goes when it has left presence entry `i`: the next entry, or, after position 15 of D3, tenant
evaluation. -/
def afterEntry (i : Nat) : PassPoint := if i < 63 then .position (i + 1) else .tenant 0

/-- Where the pass stands once the outlets that need no handling are passed over (R64, log 19). -/
def State.settledPoint (s : State) : PassPoint → PassPoint
  | .outlet i o =>
    match s.nextUnreported i o with
    | some x => .outlet i x
    | none => afterEntry i
  | other => other

/-- The pass in progress, where it stands. -/
def State.passPoint (s : State) : Option PassPoint := s.timer.pass.map (fun p => s.settledPoint p.point)

/-- The pass moves on to `point`. -/
def State.movePass (s : State) (point : PassPoint) : State :=
  s.setTimer { s.timer with pass := s.timer.pass.map (fun p => { p with point := point }) }

/-- R29: the state a missed count gives under hold limit `limit`. -/
def presenceOfCount (limit missed : Nat) : PresenceState :=
  if missed = 0 then .present else if missed ≤ limit then .held else .silent

/-- R29: a presence entry after the sweep has reached it. -/
def sweptPresence (limit : Nat) (reported : Bool) (p : Presence) : Presence :=
  if p.state = .absent then p
  else
    let missed := if reported then 0 else min 255 (p.missed + 1)
    { state := presenceOfCount limit missed, missed := missed }

/-- HOLD_SWEEP_POSITION (R29, R64): the presence entry the sweep has reached is updated, and then it is decided whether
the sweep visits the entry's outlets: those of an ABSENT entry are passed over, whatever arrives afterwards. -/
def execHoldSweepPosition (s : State) : Host.Outcome State Fault Refusal :=
  match s.passPoint with
  | some (.position i) =>
    let entry := sweptPresence s.holdLimit (s.closing.pduFlag i) (s.presenceAt i)
    .next ((s.putPresence i entry).movePass (if entry.state = .absent then afterEntry i else .outlet i 0))
  | _ => .next s

/-- R65 step 3: the outlet is held: its age is L or less and it has a last reading. -/
def heldValue (limit : Nat) (r : Reading) : Option Nat := if r.age ≤ limit then r.last else none

/-- R65: the sweep's one step on the unreported outlet with key `key`. DESIGN CHOICE (log 26): an outlet charged before
its port was disabled, whose flag the disable cleared, is handled here like any unreported one once a SAMPLE has made its
PDU PRESENT again, as R64, R65 and R73 say, although R70 says that it is not charged again in that epoch. -/
def State.sweepOutlet (s : State) (key : Nat) : State :=
  let aged : Reading := { s.readingAt key with age := min 255 ((s.readingAt key).age + 1) }
  let read := s.recordParity (s.resolutionFaults key)
  let r := s.resolution key
  let charged := match heldValue s.holdLimit aged with
    | some v => s.closing.charge r v
    | none => s.closing
  (read.setReadings (Table.write Reading.initial s.readings key aged)).setClosing (charged.markIncomplete r.tenant)

/-- HOLD_SWEEP_OUTLET (R64, R65): the next unreported outlet. -/
def execHoldSweepOutlet (s : State) : Host.Outcome State Fault Refusal :=
  match s.passPoint with
  | some (.outlet i o) => .next ((s.sweepOutlet (i * 64 + o)).movePass (.outlet i (o + 1)))
  | _ => .next s

/-! ### Tenant evaluation (R78 to R94) -/

/-- R69, R79: the draw of an epoch. -/
def draw (sumA sumB : Nat) : Nat := wattAdd sumA sumB

/-- R80: the step of the demand toward the draw `d` under shift `k`. -/
def demandStep (dm d k : Nat) : Int :=
  let diff : Int := (d * 256 : Nat) - (dm : Nat)
  let quotient := diff.tdiv (2 ^ k : Nat)
  if quotient = 0 ∧ diff ≠ 0 then (if 0 < diff then 1 else -1) else quotient

/-- R80: the demand after the step. -/
def nextDemand (dm d k : Nat) : Nat := ((dm : Int) + demandStep dm d k).toNat

/-- R83: H = C + ⌊C × T / 1000⌋, at most 16 777 215. -/
def highThreshold (c : Contract) : Nat := min wattTop (c.committed + c.committed * c.tolerance / 1000)

/-- R83: Rel = C − ⌊C × Y / 1000⌋. -/
def releaseThreshold (c : Contract) : Nat := c.committed - c.committed * c.hysteresis / 1000

/-- R84: the credit after an evaluation with demand `dw`. -/
def nextCredit (c : Contract) (dw b : Nat) : Nat :=
  if c.committed < dw then b - (dw - c.committed) else min c.burstCap (b + min (c.committed - dw) c.refillCap)

/-- R86: the state and the quiet counter after an evaluation, from the demand and the credit left by step 4. -/
def nextStanding (c : Contract) (st : TenantState) (quiet dw b : Nat) : TenantState × Nat :=
  if highThreshold c < dw then (.over, 0)
  else if c.committed < dw then
    (if st = .over then (.over, 0) else if 0 < b then (.burst, 0) else (.over, 0))
  else if releaseThreshold c < dw then (if st = .over then (.over, 0) else (.within, 0))
  else if st = .over then (if c.quiet ≤ quiet + 1 then (.within, 0) else (.over, quiet + 1))
  else (.within, 0)

/-- R87: ticks-in-OVER after an evaluation that went from `st` to `st'`. -/
def nextTicksInOver (st st' : TenantState) (ticks : Nat) : Nat :=
  if st' = .over then (if st = .over then min 65535 (ticks + 1) else 1) else 0

/-- Steps 1 and 2 (R79, R80): draw, energy, peak draw, demand, peak demand. -/
def LiveRecord.drawn (r : LiveRecord) (sumA sumB k : Nat) : LiveRecord :=
  let d := draw sumA sumB
  let dm := nextDemand r.demand d k
  { r with lastDrawA := sumA, lastDrawB := sumB, energy := min energyTop (r.energy + d),
           peakDraw := max r.peakDraw d, demand := dm, peakDemand := max r.peakDemand (dm / 256) }

/-- Steps 4 and 5 (R84, R86, R87) under the contract read at step 3. -/
def LiveRecord.judged (r : LiveRecord) (c : Contract) : LiveRecord :=
  let b := nextCredit c r.watts r.credit
  let st := nextStanding c r.state r.quiet r.watts b
  { r with credit := b, state := st.1, quiet := st.2, ticksInOver := nextTicksInOver r.state st.1 r.ticksInOver,
           burstTicks := r.burstTicks + (if st.1 = .burst then 1 else 0),
           overTicks := r.overTicks + (if st.1 = .over then 1 else 0) }

/-- R89: the tenant becomes IDLE at step 3. -/
def LiveRecord.idled (r : LiveRecord) : LiveRecord := { r with state := .idle, credit := 0, ticksInOver := 0, quiet := 0 }

/-- Step 6 (R92, R93); `cap` is the contract's feed cap, 0 when no contract is in force. -/
def LiveRecord.flagged (r : LiveRecord) (cap overCount : Nat) (incomplete : Bool) (epoch : Epoch) : LiveRecord :=
  { r with feedOverA := feedOver cap r.lastDrawA, feedOverB := feedOver cap r.lastDrawB, outletOver := overCount,
           incomplete := incomplete, incompleteTicks := r.incompleteTicks + (if incomplete then 1 else 0),
           lastEpoch := some epoch, minCredit := min r.minCredit r.credit }

/-- R89: the contract in force for an evaluation: valid and read with good parity. -/
def State.contractRead (s : State) (t : Nat) : Option Contract :=
  if (s.activeAt t).parityGood ∧ (s.activeAt t).content.valid then some (s.activeAt t).content else none

/-- R88, R89: the contract that tenant `t`'s evaluation reads at step 3; an IDLE tenant's is not read. -/
def State.stepThree (s : State) (t : Nat) : Option Contract :=
  if (s.liveAt t).state = .idle then none else s.contractRead t

/-- R78: the record of tenant `t` after its evaluation of pass epoch `epoch`. -/
def State.evaluated (s : State) (t : Nat) (epoch : Epoch) : LiveRecord :=
  let r := (s.liveAt t).drawn (s.closing.sum .a t) (s.closing.sum .b t) s.demandShift
  let judged :=
    if (s.liveAt t).state = .idle then r
    else match s.contractRead t with
      | some c => r.judged c
      | none => r.idled
  let cap := match s.stepThree t with | some c => c.feedCap | none => 0
  judged.flagged cap (s.closing.over t) (s.closing.isIncomplete t) epoch

/-- R89: the parity fault of the read at step 3. -/
def State.stepThreeFaults (s : State) (t : Nat) : List Location :=
  if (s.liveAt t).state = .idle then [] else parityLocation (s.activeAt t) (.item .active t)

/-- R95: the transition an evaluation made. -/
def transitionOf (before after : TenantState) : Transition :=
  match after with
  | .burst => .endedHot
  | .over => .endedHot
  | .within => if before = .over then .overToWithin else .other
  | .idle => if before = .idle then .other else .becameIdle

/-- TENANT_EVALUATION (R77, R78): the tenant the pass has reached. -/
def execTenantEvaluation (s : State) : Host.Outcome State Fault Refusal :=
  match s.timer.pass, s.passPoint with
  | some pass, some (.tenant t) =>
    let after := s.evaluated t pass.epoch
    let read := s.recordParity (s.stepThreeFaults t)
    .next ((read.putLive t after).movePass
      (.curtail t (transitionOf (s.liveAt t).state after.state) (s.stepThree t)))
  | _, _ => .next s

end Sys2Proof.Machine
end

