-- ==== Sys2Proof/Machine/Curtail.lean ====
section
/-! DEFINITION. The curtailment step with its restore and shed steps and the pass completion: CURTAILMENT_STEP
(chapter 7, R10, R11, R19). -/

namespace Sys2Proof.Machine

/-! ### Part 1: the transition (R125) -/

/-- R125: what the controller does with the transition; `auto` says that the contract's policy is AUTO. -/
def State.actOnTransition (s : State) (t : Nat) (transition : Transition) (auto : Bool) : State :=
  let c := s.curtailAt t
  match transition with
  | .overToWithin =>
    s.putCurtail t { restoring := if auto ∧ c.restoring ≠ .forced then .auto else c.restoring,
                     exhausted := false, blocked := false }
  | .endedHot => if c.restoring = .auto then s.endRestoring t else s
  | .becameIdle => (s.putCurtail t { c with exhausted := false, blocked := false }).endRestoring t
  | .other => s

/-! ### Part 2: the restore step (R138, R139) -/

/-- R138: how far back from the creation counter the entry in `slot` was made, modulo 4 294 967 296. -/
def State.recency (s : State) (slot : Nat) : Nat :=
  match s.entryAt slot with
  | some e => (s.curtail.creation - e.sequence).toNat
  | none => 0

/-- `slot` put into a list of slots, most recently made first. DESIGN CHOICE (log 27): of two entries with the same
creation sequence, of whose order R138 says nothing, the one in the lower slot comes first. -/
def State.insertRecent (s : State) (slot : Nat) : List Nat → List Nat
  | [] => [slot]
  | n :: rest => if s.recency slot ≤ s.recency n then slot :: n :: rest else n :: s.insertRecent slot rest

/-- R138: the tenant's restorable entries with tried no. -/
def State.untried (s : State) (t : Nat) : List Nat :=
  s.slotsWhere (fun e => decide (e.tenant = t) && e.restorable && !e.tried)

/-- R138: the same, most recently made first. -/
def State.restoreOrder (s : State) (t : Nat) : List Nat := (s.untried t).foldr s.insertRecent []

/-- R138: an outlet that a restore can switch on now: port UP or DEGRADED, PDU PRESENT or HELD. -/
def State.restoreEligible (s : State) (key : Nat) : Bool :=
  (s.port (keyPort key)).link.carries
    && (decide ((s.presenceAt (keyPdu key)).state = .present) || decide ((s.presenceAt (keyPdu key)).state = .held))

/-- R138: the walk through the entries: SKIPPED ones removed, ineligible ones passed over, until one is set ON_PENDING;
the Bool says that one was. -/
def State.restoreWalk : State → List Nat → State × Bool
  | s, [] => (s, false)
  | s, slot :: rest =>
    match s.entryAt slot with
    | some e =>
      if e.stage = .skipped then State.restoreWalk (s.removeEntry slot) rest
      else if s.restoreEligible e.outlet then (s.setOnPending slot { e with tried := true }, true)
      else State.restoreWalk s rest
    | none => State.restoreWalk s rest

/-- R139: the tenant's restoring ends. -/
def State.finishRestore (s : State) (t : Nat) : State :=
  (s.endRestoring t).putLive t { s.liveAt t with ticksInOver := 0 }

/-- R138, R139: the restore step. -/
def State.restoreStep (s : State) (t : Nat) : State :=
  let walked := s.restoreWalk (s.restoreOrder t)
  if walked.2 then walked.1
  else if (walked.1.untried t).isEmpty then walked.1.finishRestore t
  else walked.1

/-! ### Part 3: the shed step (R126, R127, R46) -/

/-- R46: the tenant's sheddable outlets with rank `rank`, by key. The listed slots are all that are not absent with
good parity, in ascending key (`Table.wf`). -/
def State.candidatesOfRank (s : State) (t rank : Nat) : List Nat :=
  (s.oat.filter (fun e => match s.slotEntry e.1 with
    | some o => decide (o.tenant = t) && decide (o.shedRank = some rank)
    | none => false)).map Prod.fst

/-- R46: the candidate list, by shed rank and then by key. -/
def State.candidates (s : State) (t : Nat) : List Nat :=
  (List.range 15).flatMap (fun r => s.candidatesOfRank t (r + 1))

/-- R45, R46: the scan reads every slot; the bad ones in ascending key. -/
def State.badSlots (s : State) : List Location :=
  s.oat.flatMap (fun e => parityLocation e.2 (.item .oat e.1))

/-- R127: the three tests of a candidate. -/
def State.shedEligible (s : State) (key : Nat) : Bool :=
  !s.holdsOutlet key && (s.port (keyPort key)).link.carries
    && decide ((s.presenceAt (keyPdu key)).state = .present)

/-- R127: the lowest-numbered empty slot. -/
def State.emptySlot (s : State) : Option Nat := (List.range 64).find? (fun n => (s.entryAt n).isNone)

/-- R127: the entry a shed step makes. -/
def newEntry (key t : Nat) (sequence : BitVec 32) : CurtailEntry :=
  { outlet := key, tenant := t, stage := .offPending, sent := false, tag := 0, remaining := 0, attempts := 0,
    sequence := sequence, tried := false, resultOwed := false }

/-- R127: an entry made for `key` in `slot`, its command due. -/
def State.makeEntry (s : State) (t key slot : Nat) : State :=
  let made := (s.putEntry slot (newEntry key t s.curtail.creation)).joinDue (keyPort key) slot
  (made.setCurtail { made.curtail with creation := s.curtail.creation + 1 }).putCurtail t
    { s.curtailAt t with exhausted := false, blocked := false }

/-- R127: the shed step, the candidate list's parity faults first. -/
def State.shedStep (s : State) (t : Nat) : State :=
  let read := s.recordParity s.badSlots
  match (s.candidates t).find? s.shedEligible with
  | none => read.putCurtail t { s.curtailAt t with exhausted := true }
  | some key =>
    match s.emptySlot with
    | none => read.putCurtail t { s.curtailAt t with blocked := true }
    | some slot => read.makeEntry t key slot

/-- R126: the conditions of the shed step. -/
def State.shedDue (s : State) (t : Nat) (contract : Option Contract) : Bool :=
  match contract with
  | none => false
  | some c =>
    decide (c.policy ≠ .notify) && decide ((s.liveAt t).state = .over) && decide (c.committed < (s.liveAt t).watts)
      && decide (c.grace ≤ (s.liveAt t).ticksInOver) && decide ((s.curtailAt t).restoring = .none)
      && !s.tenantPending t

/-- R124: the three parts of the curtailment step. -/
def State.curtailStep (s : State) (t : Nat) (transition : Transition) (contract : Option Contract) : State :=
  let auto := match contract with | some c => decide (c.policy = .auto) | none => false
  let acted := s.actOnTransition t transition auto
  if (acted.curtailAt t).restoring ≠ .none ∧ !acted.tenantPending t then acted.restoreStep t
  else if acted.shedDue t contract then acted.shedStep t
  else acted

/-! ### Pass completion (R10, R11, R19) -/

/-- R19: a port at an interval close. -/
def Port.closed (threshold : Nat) (q : Port) : Port :=
  { q with link := if q.link = .degraded ∧ q.errorCount < threshold then .up else q.link, errorCount := 0 }

/-- R11, R19: the close is handed to the ports and to the contract store. -/
def State.handClose (s : State) : State :=
  let n := s.timer.intervalNumber + 1
  let timed := s.setTimer { s.timer with tickCount := 0, intervalNumber := n, handedClose := some n }
  [0, 1, 2, 3].foldl (fun s p => s.putPort p ((s.port p).closed s.errorThreshold)) timed

/-- R10: the pass completion: one tick, and an interval close when the count reaches I. -/
def State.completePass (s : State) : State :=
  let ticked := s.setTimer { s.timer with pass := none, tickCount := s.timer.tickCount + 1 }
  if ticked.timer.tickCount < s.ticksPerInterval then ticked else ticked.handClose

/-- CURTAILMENT_STEP (R124, R77, R10): the step that follows the evaluation of the tenant the pass has reached; after
T127's the pass is complete. -/
def execCurtailmentStep (s : State) : Host.Outcome State Fault Refusal :=
  match s.passPoint with
  | some (.curtail t transition contract) =>
    let stepped := s.curtailStep t transition contract
    if t < 127 then .next (stepped.movePass (.tenant (t + 1))).arbitrate
    else .next stepped.completePass.arbitrate
  | _ => .next s

end Sys2Proof.Machine
end

