-- ==== Sys2Proof/Machine/Contracts.lean ====
section
/-! DEFINITION. The contract store: INTERVAL_CLOSE, COMMIT, CANCEL_COMMIT, COPY_ACTIVE_TO_STAGED (chapter 6). -/

namespace Sys2Proof.Machine

/-! ### The interval close (R110 to R116) -/

/-- R111: a tenant's summary record at the close. -/
def summaryOf (n : BitVec 32) (gen : BitVec 8) (r : LiveRecord) : Summary :=
  { interval := n, generation := gen, energy := r.energy, peakDemand := r.peakDemand, peakDraw := r.peakDraw,
    burstTicks := r.burstTicks, overTicks := r.overTicks, incompleteTicks := r.incompleteTicks,
    minCredit := r.minCredit, state := r.state }

/-- R111: stage 1, summary capture. -/
def State.captureSummaries (s : State) (n : BitVec 32) : State :=
  s.setContracts { s.contracts with
    summaries := Table.tabulate none 128 (fun t => some (summaryOf n s.contracts.generation (s.liveAt t))) }

/-- R112: the interval accumulators cleared. -/
def LiveRecord.cleared (r : LiveRecord) : LiveRecord :=
  { r with energy := 0, peakDemand := 0, peakDraw := 0, burstTicks := 0, overTicks := 0, incompleteTicks := 0,
           minCredit := r.credit }

/-- R112: stage 2. -/
def State.clearAccumulators (s : State) : State :=
  s.setLive (Table.mapAll LiveRecord.idle 128 (fun _ r => r.cleared) s.live)

/-- R104: a record as a switch, a copy or a save reads it: the empty contract when its parity is bad. -/
def readContract (c : Stored Contract) : Contract := if c.parityGood then c.content else Contract.empty

/-- The parity faults of the records T1 to T127 of one contract table, in ascending tenant order. -/
def badContracts (table : ParityTable) (at' : Nat → Stored Contract) : List Location :=
  (List.range 127).flatMap (fun n => parityLocation (at' (n + 1)) (.item table (n + 1)))

/-- A contract table written afresh from another's records, every parity good (R109, R113). -/
def copiedContracts (at' : Nat → Stored Contract) : Table (Stored Contract) :=
  Table.tabulate emptyContract 128
    (fun t => if t = 0 then emptyContract else { content := readContract (at' t), parityGood := true })

/-- R114: what a switch to `new` makes of a live record; minimum credit follows a changed credit. -/
def LiveRecord.switched (r : LiveRecord) (new : Contract) : LiveRecord :=
  let withCredit (b : Nat) (q : LiveRecord) : LiveRecord :=
    { q with credit := b, minCredit := if b = r.credit then q.minCredit else b }
  if new.valid then
    (if r.state = .idle then withCredit new.burstCap { r with state := .within, ticksInOver := 0, quiet := 0 }
     else withCredit (min r.credit new.burstCap) r)
  else if r.state = .idle then r
  else withCredit 0 { r with state := .idle, ticksInOver := 0, quiet := 0 }

/-- R114, R115: the consequences of the switch for tenant `t`, whose new record is in the active table. -/
def State.consequence (s : State) (t : Nat) : State :=
  let new := (s.activeAt t).content
  let before := s.liveAt t
  let put := s.putLive t (before.switched new)
  let c := put.curtailAt t
  if before.state = .idle then put
  else if new.valid then (if new.policy ≠ .auto ∧ c.restoring = .auto then put.endRestoring t else put)
  else (put.putCurtail t { c with exhausted := false, blocked := false }).endRestoring t

/-- R113: the switch: staged records copied, generation advanced, commit-pending cleared, then R114. -/
def State.switchContracts (s : State) : State :=
  let read := s.recordParity (badContracts .staged s.stagedAt)
  let copied := read.setContracts { s.contracts with
    active := copiedContracts s.stagedAt, generation := s.contracts.generation + 1, commitPending := false }
  ((List.range 127).map (fun n => n + 1)).foldl State.consequence copied

/-- R116, R149: the INTERVAL notice's content, merged with one still owed; nothing when the kind is masked. -/
def State.oweInterval (s : State) (n : BitVec 32) (switched : Bool) : State :=
  if s.masked .interval then s
  else
    let earlier := match s.notices.intervalOwed with | some w => w.2.2 | none => false
    s.setNotices { s.notices with intervalOwed := some (n, s.contracts.generation, switched || earlier) }

/-- R113: a switch is made at the close. -/
def State.switchDue (s : State) : Bool := s.contracts.commitPending && decide (s.mgmt.imageState ≠ .saving)

/-- R110: the close with interval number `n`. -/
def State.closeInterval (s : State) (n : BitVec 32) : State :=
  let cleared := (s.captureSummaries n).clearAccumulators
  if s.switchDue then cleared.switchContracts.oweInterval n true else cleared.oweInterval n false

/-- INTERVAL_CLOSE (R110): the contract store takes the close handed to it. -/
def execIntervalClose (s : State) : Host.Outcome State Fault Refusal :=
  match s.timer.handedClose with
  | some n => .next ((s.setTimer { s.timer with handedClose := none }).closeInterval n)
  | none => .next s

/-! ### Requests (R107 to R109) -/

/-- COMMIT (R107). -/
def execCommit (s : State) : Host.Outcome State Fault Refusal :=
  s.onRequest .commit fun r s => (s.setContracts { s.contracts with commitPending := true }).answer r .ok []

/-- CANCEL_COMMIT (R108). -/
def execCancelCommit (s : State) : Host.Outcome State Fault Refusal :=
  s.onRequest .cancelCommit fun r s => (s.setContracts { s.contracts with commitPending := false }).answer r .ok []

/-- COPY_ACTIVE_TO_STAGED (R109). -/
def execCopyActiveToStaged (s : State) : Host.Outcome State Fault Refusal :=
  s.onRequest .copyActiveToStaged fun r s =>
    ((s.recordParity (badContracts .active s.activeAt)).setContracts
      { s.contracts with staged := copiedContracts s.activeAt }).answer r .ok []

end Sys2Proof.Machine
end

