-- ==== Sys2Proof/Machine/Epochs.lean ====
section
/-! DEFINITION. The epoch timer's commands: INTERNAL_ADVANCE, LOSS_EXPIRY, EPOCH, and the two events an advance brings
about, COMMAND_TIMEOUT and PORT_LOST (chapters 1, 2, 7). The source write is in Writes.lean. -/

namespace Sys2Proof.Machine

/-- INTERNAL_ADVANCE (R3): in mode INTERNAL or FALLBACK, 1 000 ms or more after the reference time and outside the
load (R13), the epoch advances by one. Otherwise the event is not there and only time passes (log 1, log 2). -/
def execInternalAdvance (elapsed : Nat) (s : State) : Host.Outcome State Fault Refusal :=
  let s := s.elapse elapsed
  if s.mgmt.imageState ≠ .loading ∧ s.timer.mode ≠ .external ∧ 1000 ≤ s.sinceReference then
    .next (s.advance (s.timer.epoch + 1)).arbitrate
  else .next s

/-- LOSS_EXPIRY (R5): in mode EXTERNAL, 3 000 ms or more after the reference time, the mode becomes FALLBACK, the epoch
advances by one and SOURCE_LOST is recorded with the new epoch (the worked sequence of section 1.3). -/
def execLossExpiry (elapsed : Nat) (s : State) : Host.Outcome State Fault Refusal :=
  let s := s.elapse elapsed
  if s.mgmt.imageState ≠ .loading ∧ s.timer.mode = .external ∧ 3000 ≤ s.sinceReference then
    let fallen := s.setTimer { s.timer with mode := .fallback }
    .next ((fallen.advance (s.timer.epoch + 1)).recordFault .sourceLost .none).arbitrate
  else .next s

/-- EPOCH (R4): ignored during the load and outside mode EXTERNAL; early before 500 ms; else an advance to the epoch
number the frame carries. A body too short for it is discarded (R188). -/
def execEpoch (elapsed : Nat) (body : List Byte) (s : State) : Host.Outcome State Fault Refusal :=
  let s := s.elapse elapsed
  match parseEpoch body with
  | none => .next s
  | some n =>
    if s.mgmt.imageState = .loading ∨ s.timer.mode ≠ .external then .next s
    else if s.sinceReference < 500 then .next (s.recordFault .epochEarly .none)
    else .next (s.advance n).arbitrate

/-- COMMAND_TIMEOUT (R135): a sent pending entry whose remaining time is 0 is retried or given up. R134 puts the
timeouts inside the advance, which takes them (`State.ageCommands`); this is the same event by itself (log 3). -/
def execCommandTimeout (slot : Nat) (s : State) : Host.Outcome State Fault Refusal :=
  match s.entryAt slot with
  | some e => if e.pending ∧ e.sent ∧ e.remaining = 0 then .next (s.timeOut slot e).arbitrate else .next s
  | none => .next s

/-- PORT_LOST (R18, R136): an UP or DEGRADED port whose silent-pass count is 3 goes DOWN and its pending entries become
UNCONFIRMED. R18 puts the loss inside the advance, which takes it (`State.signalPort`); this is the same event by
itself (log 3). -/
def execPortLost (port : Nat) (s : State) : Host.Outcome State Fault Refusal :=
  if (s.port port).isLost then .next (s.losePort port).arbitrate else .next s

end Sys2Proof.Machine
end

