-- ==== Sys2Proof/Machine/Links.lean ====
section
/-! DEFINITION. The uplink's arrivals and the transmitters: UPLINK_REQUEST, PDU_PASS, UPLINK_FRAME_ERROR, MARK_SEND,
SWITCH_SEND, PASS_DOWN_SEND, DOWN_FRAME_END, UPLINK_FRAME_START, UPLINK_FRAME_END, NOTICE_QUEUING,
KEPT_RESPONSE_OFFER (chapters 2, 8, 9). -/

namespace Sys2Proof.Machine

/-! ### Arrivals on the uplink (R159 to R161) -/

/-- UPLINK_REQUEST (R159, R161, R188). -/
def execUplinkRequest (body : List Byte) (s : State) : Host.Outcome State Fault Refusal :=
  match parseRequest .uplink body with
  | some r => .next (s.offerRequest r)
  | none => .next s

/-- R160: the relay of a PDU-PASS, its rows in order; R34 takes or loses the offer. -/
def State.relay (s : State) (port : Nat) (position : Byte) (payload : List Byte) : State :=
  if 3 < port ∨ 15 < position.toNat then s
  else if (s.port port).link = .disabled ∨ (s.port port).link = .down then s
  else s.offerPassDown port (.relay position payload)

/-- PDU_PASS (R160, R188). -/
def execPduPass (body : List Byte) (s : State) : Host.Outcome State Fault Refusal :=
  match parsePduPass body with
  | some (port, position, payload) => .next (s.relay port position payload).arbitrate
  | none => .next s

/-- UPLINK_FRAME_ERROR (R159). -/
def execUplinkFrameError (s : State) : Host.Outcome State Fault Refusal :=
  .next (s.recordFault .frameError (.port 4))

/-! ### Down transmitters (R32, R33, R129) -/

/-- The transmitter of port `p` starts `frame`; the header takes the row identifier in force (R186). -/
def State.startDown (s : State) (p : Nat) (frame : DownFrame) : State :=
  s.putPort p { s.port p with tx := some { frame := frame, bytes := downFrameBytes s.rowId frame }, choice := none }

/-- MARK_SEND (R33): the chosen MARK is started and ceases to be due. -/
def execMarkSend (port : Nat) (s : State) : Host.Outcome State Fault Refusal :=
  match (s.port port).choice, (s.port port).dueMark with
  | some .mark, some n =>
    .next ((s.putPort port { s.port port with dueMark := none }).startDown port (.mark n)).arbitrate
  | _, _ => .next s

/-- R129: the entry as its SWITCH is started: the tag counter's value, one attempt more, remaining Tc, sent. -/
def CurtailEntry.started (e : CurtailEntry) (tag : BitVec 8) (timeout : Nat) : CurtailEntry :=
  { e with tag := tag, attempts := e.attempts + 1, remaining := timeout, sent := true }

/-- R128, R129: a SWITCH is started for the entry `e` in `slot` at the head of port `p`'s due list. -/
def State.startSwitch (s : State) (p slot : Nat) (e : CurtailEntry) : State :=
  let tag := s.curtail.tagCounter
  let sent := (s.putEntry slot (e.started tag s.commandTimeout)).leaveDue p slot
  (sent.setCurtail { sent.curtail with tagCounter := tag + 1 }).startDown p
    (.switch (e.outlet / 64 % 16) (e.outlet % 64) (decide (e.stage = .onPending)) tag)

/-- SWITCH_SEND (R32, R129): the chosen SWITCH for the head of the due list is started. -/
def execSwitchSend (port : Nat) (s : State) : Host.Outcome State Fault Refusal :=
  match (s.port port).choice, s.dueAt port with
  | some .switch, slot :: _ =>
    match s.entryAt slot with
    | some e => .next (s.startSwitch port slot e).arbitrate
    | none => .next s
  | _, _ => .next s

/-- PASS_DOWN_SEND (R33): the chosen PASS-DOWN leaves the head of the queue. -/
def execPassDownSend (port : Nat) (s : State) : Host.Outcome State Fault Refusal :=
  match (s.port port).choice, (s.port port).passDown with
  | some .passDown, frame :: rest =>
    .next ((s.putPort port { s.port port with passDown := rest }).startDown port (.passDown frame)).arbitrate
  | _, _ => .next s

/-- The answer OK to a RESET_FULL request (R185). -/
def Response.grantsReset (r : Response) : Bool := decide (r.code = codeResetFull) && decide (r.status = .ok)

/-- R185: the frame that port `p` has finished is the response a chain-side full reset waits for. -/
def State.endsChainWait (s : State) (p : Nat) (frame : DownFrame) : Bool :=
  match frame, s.mgmt.resetWaiting with
  | .passDown (.response _ r), some (.chain q _) => r.grantsReset && decide (q = p)
  | _, _ => false

/-- DOWN_FRAME_END (R32): the frame finishes and the transmitter chooses its next one. -/
def execDownFrameEnd (port : Nat) (s : State) : Host.Outcome State Fault Refusal :=
  match (s.port port).tx with
  | some sent =>
    let idle := s.putPort port { s.port port with tx := none }
    if s.endsChainWait port sent.frame then .next (idle.setMgmt { s.mgmt with resetDue := true }).arbitrate
    else .next idle.arbitrate
  | none => .next s

/-! ### The uplink transmitter (R164, R165) -/

/-- R165: the transmitter starts `frame` of kind `kind`: row identifier and frame check are filled in now, last served
becomes the kind (R164). -/
def State.startUp (s : State) (kind : UplinkKind) (frame : UplinkFrame) : State :=
  s.setUplink { s.uplink with tx := some { frame := frame, bytes := uplinkFrameBytes s.rowId frame },
                              choice := none, lastServed := kind }

/-- UPLINK_FRAME_START (R164, R165): the chosen queue's head is started and leaves its queue. -/
def execUplinkFrameStart (s : State) : Host.Outcome State Fault Refusal :=
  match s.uplink.choice with
  | some .response =>
    match s.uplink.responses with
    | r :: rest => .next ((s.setUplink { s.uplink with responses := rest }).startUp .response (.response r))
    | [] => .next s
  | some .notice =>
    match s.notices.queue with
    | n :: rest => .next ((s.setNotices { s.notices with queue := rest }).startUp .notice (.notice n))
    | [] => .next s
  | some .forward =>
    match s.uplink.forwards with
    | f :: rest => .next ((s.setUplink { s.uplink with forwards := rest }).startUp .forward (.forward f))
    | [] => .next s
  | none => .next s

/-- R165: the frame the uplink has finished is the response an uplink full reset waits for. -/
def State.endsUplinkWait (s : State) (frame : UplinkFrame) : Bool :=
  match frame, s.mgmt.resetWaiting with
  | .response r, some .uplink => r.grantsReset
  | _, _ => false

/-- UPLINK_FRAME_END (R164, R165): the arbiter chooses again, or the full reset becomes due and it makes no further
choice. -/
def execUplinkFrameEnd (s : State) : Host.Outcome State Fault Refusal :=
  match s.uplink.tx with
  | some sent =>
    let idle := s.setUplink { s.uplink with tx := none }
    if s.endsUplinkWait sent.frame then .next (idle.setMgmt { s.mgmt with resetDue := true }).arbitrate
    else .next idle.arbitrate
  | none => .next s

/-! ### Queues that wait for a place (R151, R162) -/

/-- NOTICE_QUEUING (R151): the first owed item in fill order takes a place, with its content taken now. -/
def execNoticeQueuing (s : State) : Host.Outcome State Fault Refusal :=
  if s.notices.queue.length < 8 ∧ s.mgmt.imageState ≠ .loading then
    match s.firstOwed with
    | some item =>
      match s.noticeOf item with
      | some n =>
        let settled := s.settle item
        .next (settled.setNotices { settled.notices with queue := s.notices.queue ++ [n] }).arbitrate
      | none => .next s
    | none => .next s
  else .next s

/-- KEPT_RESPONSE_OFFER (R162): the oldest kept response takes a free place in the response queue. -/
def execKeptResponseOffer (s : State) : Host.Outcome State Fault Refusal :=
  match s.mgmt.kept with
  | r :: rest =>
    if s.uplink.responses.length < 4 then
      .next ((s.setMgmt { s.mgmt with kept := rest }).setUplink
        { s.uplink with responses := s.uplink.responses ++ [r] }).arbitrate
    else .next s
  | [] => .next s

end Sys2Proof.Machine
end

