-- ==== Sys2Proof/Machine/Writes.lean ====
section
/-! DEFINITION. The requests that write: WRITE_ENTRY of the OAT, the rules, the staged contracts and the settings
(chapters 1 to 3, 6, 8, 10). -/

namespace Sys2Proof.Machine

/-- R173, R190: the OK data of a WRITE_ENTRY: table, index, the entry as stored. -/
def writeReply (table index : Nat) (entry : List Byte) : List Byte := beBytes 1 table ++ beBytes 2 index ++ entry

/-! ### Tables (R48 to R50, R105) -/

/-- New content with its parity computed afresh (R44, R104). -/
def fresh {α : Type} (content : α) : Stored α := { content := content, parityGood := true }

/-- R44, R48: an OAT slot receives new content. -/
def State.storeSlot (s : State) (key : Nat) (content : Option OatEntry) : State :=
  s.setOat (Table.write absentSlot s.oat key (fresh content))

/-- R48: a present entry is tested by index, by hold and by value, and stored. -/
def State.writeOatRequest (r : Request) (s : State) : State :=
  let key := writtenIndex r.data
  if !keyValid key then s.answer r .badIndex []
  else if s.holdsOutlet key then s.answer r .held []
  else
    match (parseOatEntry (writtenEntry r.data)).bind checkOatEntry with
    | none => s.answer r .badValue []
    | some e => (s.storeSlot key (some e)).answer r .ok (writeReply tableOat key (oatBytes (some e)))

/-- WRITE_ENTRY_OAT (R48). -/
def execWriteEntryOat (s : State) : Host.Outcome State Fault Refusal := s.onRequest .writeEntryOat State.writeOatRequest

/-- R49: a clear passes the same tests but the value test. -/
def State.clearOatRequest (r : Request) (s : State) : State :=
  let key := writtenIndex r.data
  if !keyValid key then s.answer r .badIndex []
  else if s.holdsOutlet key then s.answer r .held []
  else (s.storeSlot key none).answer r .ok (writeReply tableOat key (oatBytes none))

/-- OAT_CLEAR (R49). -/
def execOatClear (s : State) : Host.Outcome State Fault Refusal := s.onRequest .oatClear State.clearOatRequest

/-- R50. -/
def State.writeRuleRequest (r : Request) (s : State) : State :=
  let n := writtenIndex r.data
  if 15 < n then s.answer r .badIndex []
  else
    match checkRule (parseRule (writtenEntry r.data)) with
    | none => s.answer r .badValue []
    | some rule =>
      (s.setRules (Table.write disabledRule s.rules n (fresh rule))).answer r .ok
        (writeReply tableRules n (ruleBytes rule))

/-- WRITE_ENTRY_RULES (R50). -/
def execWriteEntryRules (s : State) : Host.Outcome State Fault Refusal :=
  s.onRequest .writeEntryRules State.writeRuleRequest

/-- R105. -/
def State.writeStagedRequest (r : Request) (s : State) : State :=
  let t := writtenIndex r.data
  if t = 0 ∨ 127 < t then s.answer r .badIndex []
  else
    match checkContract (parseContract (writtenEntry r.data)) with
    | none => s.answer r .badValue []
    | some c =>
      (s.setContracts { s.contracts with staged := Table.write emptyContract s.contracts.staged t (fresh c) }).answer r
        .ok (writeReply tableStaged t (contractBytes c))

/-- WRITE_ENTRY_STAGED (R105). -/
def execWriteEntryStaged (s : State) : Host.Outcome State Fault Refusal :=
  s.onRequest .writeEntryStaged State.writeStagedRequest

/-! ### Settings (R175) -/

/-- R175: the setting takes its new value. -/
def State.storeSetting (s : State) (i v : Nat) : State := s.setSettings (s.settings.set i v)

/-- R175: a SETTINGS write: the index test, the clamped value stored, and `effect old new` of the block that reads the
setting, in one event. -/
def State.writeSettingWith (effect : Nat → Nat → Nat → State → State) (r : Request) (s : State) : State :=
  let i := writtenIndex r.data
  if 20 < i then s.answer r .badIndex []
  else
    let v := clampSetting i (field (writtenEntry r.data) 0 4)
    (effect i (s.setting i) v (s.storeSetting i v)).answer r .ok (writeReply tableSettings i (settingBytes v))

/-- R6: the source mode after a write of `v`; FALLBACK ends at either value. -/
def State.setSource (s : State) (v : Nat) : State := s.setTimer { s.timer with mode := sourceOfSetting v }

/-- R6: the effect of an epoch source write: EXTERNAL to INTERNAL with 1 000 ms already passed advances at once. -/
def epochSourceEffect (_i _old v : Nat) (s : State) : State :=
  let moved := s.setSource v
  if s.timer.mode = .external ∧ sourceOfSetting v = .internal ∧ 1000 ≤ s.sinceReference then
    moved.advance (s.timer.epoch + 1)
  else moved

/-- WRITE_EPOCH_SOURCE (R6, R175). -/
def execWriteEpochSource (elapsed : Nat) (s : State) : Host.Outcome State Fault Refusal :=
  (s.elapse elapsed).onRequest .writeEpochSource (State.writeSettingWith epochSourceEffect)

/-- R21: off written to an enabled port disables it. -/
def portDisableEffect (i _old _v : Nat) (s : State) : State :=
  if (s.port (i - 7)).link = .disabled then s else s.disablePort (i - 7)

/-- PORT_DISABLE (R21, R175). -/
def execPortDisable (s : State) : Host.Outcome State Fault Refusal :=
  s.onRequest .portDisable (State.writeSettingWith portDisableEffect)

/-- R22: on written to a DISABLED port enables it. -/
def portEnableEffect (i _old _v : Nat) (s : State) : State :=
  if (s.port (i - 7)).link = .disabled then s.enablePort (i - 7) else s

/-- PORT_ENABLE (R22, R175). -/
def execPortEnable (s : State) : Host.Outcome State Fault Refusal :=
  s.onRequest .portEnable (State.writeSettingWith portEnableEffect)

/-- R20: one port's test against a newly written E. -/
def State.testThreshold (s : State) (p : Nat) : State :=
  if (s.port p).link = .up ∧ s.errorThreshold ≤ (s.port p).errorCount then s.degrade p else s

/-- R20: the effect of a write of E. DESIGN CHOICE (log 25): neither R20 nor R155 orders the ports that one write takes to
DEGRADED; the model takes D0 to D3 in ascending order, so the lowest one's PORT_DEGRADED is recorded first. -/
def errorThresholdEffect (_i _old _v : Nat) (s : State) : State := [0, 1, 2, 3].foldl State.testThreshold s

/-- WRITE_ERROR_THRESHOLD (R20, R175). -/
def execWriteErrorThreshold (s : State) : Host.Outcome State Fault Refusal :=
  s.onRequest .writeErrorThreshold (State.writeSettingWith errorThresholdEffect)

/-- R137, R153: masking CURTAIL clears every result-owed, empties the owed list and removes every DONE entry. -/
def State.dropCurtailDebts (s : State) : State :=
  s.setCurtail { s.curtail with
    slots := Table.mapAll none 64 (fun _ e => match e with
      | some e => if e.stage = .done then none else some { e with resultOwed := false }
      | none => none) s.curtail.slots,
    owed := [] }

/-- R153: the effect of a mask write; only a kind whose mask the write changes is affected, and only INTERVAL and
CURTAIL hold something to drop. -/
def noticeMaskEffect (i old v : Nat) (s : State) : State :=
  if old ≠ v ∧ v = 1 then
    if i = 18 then s.setNotices { s.notices with intervalOwed := none }
    else if i = 19 then s.dropCurtailDebts
    else s
  else s

/-- WRITE_NOTICE_MASK (R153, R175). -/
def execWriteNoticeMask (s : State) : Host.Outcome State Fault Refusal :=
  s.onRequest .writeNoticeMask (State.writeSettingWith noticeMaskEffect)

/-- WRITE_SETTING (R175): any other setting applies from its next use. -/
def execWriteSetting (s : State) : Host.Outcome State Fault Refusal :=
  s.onRequest .writeSetting (State.writeSettingWith fun _ _ _ s => s)

end Sys2Proof.Machine
end

