-- ==== Sys2Proof/Machine/Images.lean ====
section
/-! DEFINITION. The stored image, the resets and storage upsets: POWER_ON, IMAGE_LOAD_END, SAVE_IMAGE, SAVE_END,
RESET_LIVE, RESET_FULL, RESET_FULL_START, STORAGE_UPSET (chapter 10 and each chapter's reset values). -/

namespace Sys2Proof.Machine

/-! ### Power-on and the full reset (R179, R185) -/

/-- Every block at its power-on values and the image load begun (R179). The commands that wait, the clock and the
free-value counter are the model's and go on; the serial memory keeps its content, but one whose save is cut off holds a
bad checksum (R183). -/
def State.restart (s : State) : State :=
  { State.reset with pending := s.pending, now := s.now, freeCount := s.freeCount,
                     extMemory := if s.mgmt.save.isSome then none else s.extMemory }

/-- POWER_ON (R179). -/
def execPowerOn (s : State) : Host.Outcome State Fault Refusal := .next s.restart

/-- RESET_FULL_START (R185): the response is sent, lost or cut off, and the reset begins. -/
def execResetFullStart (s : State) : Host.Outcome State Fault Refusal :=
  if s.mgmt.resetDue then .next s.restart else .next s

/-! ### The end of the image load (R180) -/

/-- What the memory gave, as an image; none for a bad checksum (log 8). -/
def State.imageRead (s : State) : MemoryAnswer → Option Image
  | .noAnswer => none
  | .badChecksum => none
  | .stored => s.extMemory
  | .image m => some m

/-- R180: the image state the answer gives. -/
def State.loadState (s : State) (answer : MemoryAnswer) : ImageState :=
  match answer, s.imageRead answer with
  | .noAnswer, _ => .absent
  | _, some _ => .ok
  | _, none => .invalid

/-- R175, R180: a good image's settings, each clamped; a setting it does not list keeps its default (log 22). -/
def loadedSettings (m : Image) : List Nat :=
  (List.range 21).map (fun i => clampSetting i (m.settings.getD i (defaultSettings.getD i 0)))

/-- R180: a slot of a good image; one with a field out of range is absent. -/
def loadedSlot (m : Image) (key : Nat) : Option OatEntry :=
  (Table.read none (m.slots.map (fun e => (e.1, some e.2))) key).bind checkOatEntry

/-- R180: a rule of a good image; one with a field out of range, or not listed, is disabled with its other fields 0 and
feed A. -/
def loadedRule (m : Image) (n : Nat) : Rule := ((m.rules[n]?).bind checkRule).getD Rule.disabled

/-- R180: an active contract of a good image; one with a field out of range, or not listed, is the empty contract. -/
def loadedContract (m : Image) (t : Nat) : Contract :=
  ((Table.read none (m.contracts.map (fun e => (e.1, some e.2))) t).bind checkContract).getD Contract.empty

/-- R101, R180: the contract table loaded from an image, every parity good. -/
def loadedContracts (m : Image) : Table (Stored Contract) :=
  Table.tabulate emptyContract 128 (fun t => if t = 0 then emptyContract else fresh (loadedContract m t))

/-- R180: the OAT loaded from an image, every parity good. -/
def loadedOat (m : Image) : Table (Stored (Option OatEntry)) :=
  (m.slots.map Prod.fst).foldl
    (fun t key => if keyValid key then Table.write absentSlot t key (fresh (loadedSlot m key)) else t) []

/-- R180: the rules loaded from an image, every parity good. -/
def loadedRules (m : Image) : Table (Stored Rule) := Table.tabulate disabledRule 16 (fun n => fresh (loadedRule m n))

/-- R180: settings and tables from a good image. -/
def State.takeImage (s : State) (m : Image) : State :=
  (((s.setSettings (loadedSettings m)).setOat (loadedOat m)).setRules (loadedRules m)).setContracts
    { ContractStore.initial with active := loadedContracts m, staged := loadedContracts m, generation := m.generation }

/-- R180: settings and tables when there is no good image. -/
def State.takeDefaults (s : State) : State :=
  (((s.setSettings defaultSettings).setOat []).setRules []).setContracts ContractStore.initial

/-- R99: a live record after a reset, from the tenant's active contract. -/
def freshRecord (c : Stored Contract) : LiveRecord :=
  if c.parityGood ∧ c.content.valid then
    { LiveRecord.idle with state := .within, credit := c.content.burstCap, minCredit := c.content.burstCap }
  else LiveRecord.idle

/-- R99, R100: every live record after a reset; T0 has no contract. -/
def State.freshLive (s : State) : Table LiveRecord :=
  Table.tabulate LiveRecord.idle 128 (fun t => if t = 0 then LiveRecord.idle else freshRecord (s.activeAt t))

/-- R36, R37: the ports after a load or a live reset. -/
def State.freshPorts (s : State) : Table Port := Table.tabulate Port.initial 4 s.portAfterReset

/-- R180: the end of the load as one event: tables and settings, then the timer (R13), the ports (R36), the live records
(R99), the notice unit (R154), and IMAGE_INVALID recorded last. -/
def State.endLoad (s : State) (answer : MemoryAnswer) : State :=
  let filled := match s.imageRead answer with
    | some m => s.takeImage m
    | none => s.takeDefaults
  let timed := filled.setTimer { s.timer with refTime := s.now, mode := sourceOfSetting (filled.setting 1) }
  let ready := (timed.setPorts timed.freshPorts).setLive timed.freshLive
  let noticed := ready.setNotices (ready.resetAnnounced { s.notices with fault := none })
  let done := noticed.setMgmt { s.mgmt with imageState := s.loadState answer }
  if s.loadState answer = .invalid then done.recordFault .imageInvalid .none else done

/-- IMAGE_LOAD_END (R180). -/
def execImageLoadEnd (elapsed : Nat) (answer : MemoryAnswer) (s : State) : Host.Outcome State Fault Refusal :=
  let s := s.elapse elapsed
  if s.mgmt.imageState = .loading then .next (s.endLoad answer).arbitrate else .next s

/-! ### The image save (R181 to R183) -/

/-- An OAT entry as the image holds it. -/
def OatEntry.raw (e : OatEntry) : RawOatEntry :=
  { tenant := e.tenant, feed := feedCode e.feed, shedRank := e.shedRank, outletLimit := e.outletLimit }

def Rule.raw (r : Rule) : RawRule :=
  { enabled := r.enabled, compareKey := r.compareKey, mask := r.mask, tenant := r.tenant, feed := feedCode r.feed }

def Contract.raw (c : Contract) : RawContract :=
  { valid := c.valid, committed := c.committed, tolerance := c.tolerance, hysteresis := c.hysteresis,
    burstCap := c.burstCap, refillCap := c.refillCap, feedCap := c.feedCap, quiet := c.quiet, grace := c.grace,
    policy := policyCode c.policy }

/-- R44: a rule as a save reads it. -/
def readRule (r : Stored Rule) : Rule := if r.parityGood then r.content else Rule.disabled

/-- R178, R181: the snapshot: bad slots absent, bad rules disabled, bad active records the empty contract. The listed
slots are all that are not absent with good parity (`Table.wf`). -/
def State.snapshot (s : State) : Image :=
  { settings := s.settings,
    slots := s.oat.filterMap (fun e => (s.slotEntry e.1).map (fun o => (e.1, OatEntry.raw o))),
    rules := (List.range 16).map (fun n => Rule.raw (readRule (s.ruleAt n))),
    contracts := (List.range 127).map (fun n => (n + 1, Contract.raw (readContract (s.activeAt (n + 1))))),
    generation := s.contracts.generation }

/-- R181: the bad items a save reads, in its order: slots, rules, active records. -/
def State.saveFaults (s : State) : List Location :=
  s.badSlots ++ s.badRules 16 ++ badContracts .active s.activeAt

/-- R181: the save begins; no response is produced. -/
def State.beginSave (r : Request) (s : State) : State :=
  let read := s.recordParity s.saveFaults
  read.setMgmt { s.mgmt with imageState := .saving,
                             save := some { origin := r.origin, tag := r.tag, snapshot := s.snapshot } }

/-- SAVE_IMAGE (R181). -/
def execSaveImage (s : State) : Host.Outcome State Fault Refusal := s.onRequest .saveImage State.beginSave

/-- R183: the image state a save ends in. -/
def savedState : SaveOutcome → ImageState
  | .agrees => .ok
  | .disagrees => .invalid
  | .stoppedAnswering => .absent

/-- R183: the save ends: image state, memory content (log 8), response. -/
def State.endSave (s : State) (j : SaveJob) (outcome : SaveOutcome) : State :=
  let ended := (s.setMgmt { s.mgmt with imageState := savedState outcome, save := none }).setExtMemory
    (if outcome = .agrees then some j.snapshot else none)
  ended.respond j.origin { tag := j.tag, code := codeSaveImage,
                           status := if outcome = .agrees then .ok else .imageFail, data := [] }

/-- SAVE_END (R183). -/
def execSaveEnd (outcome : SaveOutcome) (s : State) : Host.Outcome State Fault Refusal :=
  match s.mgmt.save with
  | some j => .next (s.endSave j outcome).arbitrate
  | none => .next s

/-! ### The live reset (R184) -/

/-- R14: the timer at a live reset; a pass in progress ends without completion and a close not yet taken is withdrawn
(R102). -/
def Timer.liveReset (t : Timer) : Timer :=
  { t with tickCount := 0, intervalNumber := t.intervalNumber + 1, pass := none, handedClose := none }

/-- R184: the live reset as one event. A bad active contract leaves its tenant IDLE and is recorded (R100). -/
def State.liveReset (s : State) : State :=
  let read := s.recordParity (badContracts .active s.activeAt)
  { read with
    timer := s.timer.liveReset, ports := s.freshPorts, presence := [], readings := [], filling := AccSet.cleared,
    closing := AccSet.cleared, live := s.freshLive, contracts := { s.contracts with summaries := [] },
    curtail := Curtailment.initial,
    notices := s.resetAnnounced { read.notices with queue := [], intervalOwed := none },
    uplink := { s.uplink with requests := [], responses := [], forwards := [], choice := none, lastServed := .forward },
    mgmt := { s.mgmt with kept := [] } }

/-- RESET_LIVE (R184): the response is produced after the event. -/
def execResetLive (s : State) : Host.Outcome State Fault Refusal :=
  s.onRequest .resetLive fun r s => s.liveReset.answer r .ok []

/-! ### The full reset's request (R185) -/

/-- R185: the response to a chain-side request is lost when offered. -/
def State.answerLost (s : State) (origin : Origin) : Bool :=
  match origin with
  | .uplink => false
  | .chain p _ => !s.passDownTaken p

/-- R185: answered OK at once, reset waiting with the request's origin; a response lost when offered makes the reset
due. -/
def State.grantReset (r : Request) (s : State) : State :=
  let answered := s.answer r .ok []
  answered.setMgmt { answered.mgmt with resetWaiting := some r.origin,
                                        resetDue := s.mgmt.resetDue || s.answerLost r.origin }

/-- RESET_FULL (R185). -/
def execResetFull (s : State) : Host.Outcome State Fault Refusal := s.onRequest .resetFull State.grantReset

/-! ### Storage upsets (R44, R104) -/

/-- R44, R104: the item holds `content`; its parity is bad, unless the upset struck the parity with it (R89, log 9). -/
def State.strike (s : State) (parityToo : Bool) : Upset → State
  | .oatSlot key content =>
    if keyValid key then s.setOat (Table.write absentSlot s.oat key { content := content, parityGood := parityToo }) else s
  | .rule n content =>
    if n < 16 then s.setRules (Table.write disabledRule s.rules n { content := content, parityGood := parityToo }) else s
  | .active t content =>
    if 1 ≤ t ∧ t ≤ 127 then
      s.setContracts { s.contracts with
        active := Table.write emptyContract s.contracts.active t { content := content, parityGood := parityToo } }
    else s
  | .staged t content =>
    if 1 ≤ t ∧ t ≤ 127 then
      s.setContracts { s.contracts with
        staged := Table.write emptyContract s.contracts.staged t { content := content, parityGood := parityToo } }
    else s

/-- STORAGE_UPSET (R44, R104). -/
def execStorageUpset (item : Upset) (parityToo : Bool) (s : State) : Host.Outcome State Fault Refusal :=
  .next (s.strike parityToo item)

end Sys2Proof.Machine
end

