-- ==== Sys2Proof/Machine/Requests.lean ====
section
/-! DEFINITION. The requests that read, and those that act on the curtailment table and the fault record: READ_ENTRY,
RESOLVE, READ_STATUS, RESTORE, DISCARD, CLEAR_FAULT, and the two rows that only refuse (chapters 3, 7, 8, 10). -/

namespace Sys2Proof.Machine

/-! ### READ_ENTRY (R172, R38, R55, R76, R106, R117, R144, R174) -/

/-- R172: the range lies wholly within the table's indices. -/
def rangeFits (table first count : Nat) : Bool :=
  match table with
  | 0 => decide (first + count ≤ 21)
  | 1 => (List.range count).all (fun i => keyValid (first + i))
  | 2 => decide (first + count ≤ 16)
  | 3 | 4 => decide (1 ≤ first) && decide (first + count ≤ 128)
  | 5 | 6 => decide (first + count ≤ 128)
  | 7 | 8 => decide (first + count ≤ 64)
  | 9 => decide (first + count ≤ 4)
  | _ => false

/-- R172, R190: an entry status and the entry; one with bad parity is PARITY and zeros, and records the fault. -/
def State.copyStored {α : Type} (s : State) (item : Stored α) (loc : Location) (bytes : α → List Byte) (n : Nat) :
    State × List Byte :=
  if item.parityGood then (s, beBytes 1 Status.ok.code ++ bytes item.content)
  else (s.recordFault .tableParity loc, beBytes 1 Status.parity.code ++ beBytes n 0)

/-- A TENANT entry's copy; a record with no last evaluated epoch takes a free value for that field (R191, log 10). -/
def State.copyTenant (s : State) (t : Nat) : State × List Byte :=
  let bytes := beBytes 1 Status.ok.code ++ tenantBytes (Config.freeEpochField s.freeCount) (s.liveAt t) (s.curtailAt t)
  (if (s.liveAt t).lastEpoch.isNone then s.setFreeCount (s.freeCount + 1) else s, bytes)

/-- R172: one copy of an entry into the response, as the entry stands now. -/
def State.copyEntry (s : State) (table i : Nat) : State × List Byte :=
  let plain (bytes : List Byte) : State × List Byte := (s, beBytes 1 Status.ok.code ++ bytes)
  match table with
  | 0 => plain (settingBytes (s.setting i))
  | 1 => s.copyStored (s.slotAt i) (.item .oat i) oatBytes 6
  | 2 => s.copyStored (s.ruleAt i) (.item .rules i) ruleBytes 7
  | 3 => s.copyStored (s.stagedAt i) (.item .staged i) contractBytes 21
  | 4 => s.copyStored (s.activeAt i) (.item .active i) contractBytes 21
  | 5 => s.copyTenant i
  | 6 => plain (summaryBytes (s.summaryAt i))
  | 7 => plain (curtailBytes (s.entryAt i))
  | 8 => plain (presenceBytes (s.presenceAt i) (s.filling.pduFlag i) (s.closing.pduFlag i))
  | _ => plain (portBytes (s.port i))

/-- R190: the OK data of a READ_ENTRY. -/
def ReadJob.reply (j : ReadJob) : List Byte := beBytes 1 j.table ++ beBytes 2 j.first ++ beBytes 1 j.count ++ j.copied

/-- R172: the next copy of a READ_ENTRY in progress; after the last the response is produced. -/
def State.copyNext (s : State) (j : ReadJob) : State :=
  let copied := s.copyEntry j.table (j.first + j.done)
  let grown : ReadJob := { j with done := j.done + 1, copied := j.copied ++ copied.2 }
  if j.count ≤ j.done + 1 then
    (copied.1.setMgmt { copied.1.mgmt with current := none }).respond j.origin
      { tag := j.tag, code := codeReadEntry, status := .ok, data := grown.reply }
  else copied.1.setMgmt { copied.1.mgmt with current := some grown }

/-- R172: a READ_ENTRY's own tests, then its first copy. -/
def State.startRead (r : Request) (s : State) : State :=
  let table := byteAt r.data 0
  let first := half r.data 1
  let count := byteAt r.data 3
  if 9 < table then s.answer r .badTable []
  else if count = 0 ∨ 8 < count then s.answer r .badRequest []
  else if !rangeFits table first count then s.answer r .badIndex []
  else s.copyNext { origin := r.origin, tag := r.tag, table := table, first := first, count := count, done := 0,
                    copied := [] }

/-- READ_ENTRY (R172): the take with the first copy, or the next copy of the one in progress (log 6). -/
def execReadEntry (s : State) : Host.Outcome State Fault Refusal :=
  match s.mgmt.current with
  | some j => .next (s.copyNext j).arbitrate
  | none => s.onRequest .readEntry State.startRead

/-! ### RESOLVE (R54) -/

/-- R54: the matching list as a 16-bit number, bit n for rule n. -/
def State.matchingBits (s : State) (key : Nat) : Nat := flagByte ((List.range 16).map (s.ruleMatches key))

/-- R190: the OK data of RESOLVE; entry parity bad is sent as 0 for no and 1 for yes (DESIGN CHOICE, log 29). -/
def State.resolveData (s : State) (key : Nat) : List Byte :=
  let r := s.resolution key
  let source := match r.source with | .entry => (0, 0) | .rule n => (1, n) | .pool => (2, 0)
  beBytes 1 source.1 ++ beBytes 1 source.2 ++ beBytes 1 r.tenant ++ beBytes 1 (feedCode r.feed)
    ++ beBytes 2 (s.matchingBits key) ++ beBytes 1 (boolCode (!(s.slotAt key).parityGood))

/-- R54: a RESOLVE's own test and work; it reads the slot and all sixteen rules. -/
def State.resolveRequest (r : Request) (s : State) : State :=
  let key := half r.data 0
  if !keyValid key then s.answer r .badIndex []
  else (s.recordParity (parityLocation (s.slotAt key) (.item .oat key) ++ s.badRules 16)).answer r .ok
    (s.resolveData key)

/-- RESOLVE (R54). -/
def execResolve (s : State) : Host.Outcome State Fault Refusal := s.onRequest .resolve State.resolveRequest

/-! ### READ_STATUS (R177) -/

/-- R177, R190: the OK data of READ_STATUS; commit-pending is sent as 0 for no and 1 for yes (DESIGN CHOICE, log 29). -/
def State.statusData (s : State) : List Byte :=
  beBytes 2 s.timer.epoch.toNat ++ beBytes 1 s.timer.mode.code ++ beBytes 4 s.timer.intervalNumber.toNat
    ++ beBytes 2 s.timer.tickCount ++ beBytes 1 (boolCode s.contracts.commitPending)
    ++ beBytes 1 s.contracts.generation.toNat ++ beBytes 1 s.mgmt.imageState.code
    ++ beBytes 1 (s.port 0).link.code ++ beBytes 1 (s.port 1).link.code ++ beBytes 1 (s.port 2).link.code
    ++ beBytes 1 (s.port 3).link.code ++ faultBytes s.notices.fault

/-- READ_STATUS (R177). -/
def execReadStatus (s : State) : Host.Outcome State Fault Refusal :=
  s.onRequest .readStatus fun r s => s.answer r .ok s.statusData

/-! ### RESTORE and DISCARD (R141 to R143) -/

/-- R141: RESTORE naming a tenant. -/
def State.restoreTenantRequest (r : Request) (s : State) : State :=
  let t := half r.data 1
  if t = 0 ∨ 127 < t then s.answer r .badIndex []
  else
    ((s.putCurtail t { s.curtailAt t with restoring := .forced }).putLive t
      { s.liveAt t with ticksInOver := 0 }).answer r .ok []

/-- RESTORE_TENANT (R141). -/
def execRestoreTenant (s : State) : Host.Outcome State Fault Refusal :=
  s.onRequest .restoreTenant State.restoreTenantRequest

/-- The entry that a request names by its outlet key, with its slot (R142, R143). -/
def State.namedEntry (s : State) (key : Nat) : Option (Nat × CurtailEntry) :=
  if !keyValid key then none
  else
    match s.slotOf key with
    | some slot => (s.entryAt slot).map (fun e => (slot, e))
    | none => none

/-- R142: RESTORE naming an outlet, its rows in order. -/
def State.restoreOutletRequest (r : Request) (s : State) : State :=
  match s.namedEntry (half r.data 1) with
  | none => s.answer r .badIndex []
  | some (slot, e) =>
    if s.tenantPending e.tenant then s.answer r .busy []
    else if e.stage = .done then s.answer r .busy []
    else if e.stage = .skipped then (s.removeEntry slot).answer r .ok []
    else if (s.port (keyPort e.outlet)).link = .disabled then s.answer r .busy []
    else (s.setOnPending slot e).answer r .ok []

/-- RESTORE_OUTLET (R142). -/
def execRestoreOutlet (s : State) : Host.Outcome State Fault Refusal :=
  s.onRequest .restoreOutlet State.restoreOutletRequest

/-- R143: DISCARD. -/
def State.discardRequest (r : Request) (s : State) : State :=
  match s.namedEntry (half r.data 0) with
  | none => s.answer r .badIndex []
  | some (slot, e) => if e.pending then s.answer r .busy [] else (s.removeEntry slot).answer r .ok []

/-- DISCARD (R143). -/
def execDiscard (s : State) : Host.Outcome State Fault Refusal := s.onRequest .discard State.discardRequest

/-! ### CLEAR_FAULT and the rows that refuse -/

/-- CLEAR_FAULT (R157). -/
def execClearFault (s : State) : Host.Outcome State Fault Refusal :=
  s.onRequest .clearFault fun r s => (s.setNotices { s.notices with fault := none }).answer r .ok []

/-- UNKNOWN_REQUEST_CODE (R171): the general tests answer it, BUSY during the load and BAD_REQUEST after. -/
def execUnknownRequestCode (s : State) : Host.Outcome State Fault Refusal :=
  s.onRequest .unknownRequestCode fun r s => s.answer r .badRequest []

/-- WRITE_ENTRY_BAD_TABLE (R173). -/
def execWriteEntryBadTable (s : State) : Host.Outcome State Fault Refusal :=
  s.onRequest .writeEntryBadTable fun r s => s.answer r .badTable []

end Sys2Proof.Machine
end

