-- ==== Sys2Proof/Machine/Dispatch.lean ====
section
/-! DEFINITION. One arm per command: its meaning. -/

namespace Sys2Proof.Machine

def exec (i : Instr) (s : State) : Host.Outcome State Fault Refusal :=
  match i with
  | .powerOn => Sys2Proof.Machine.execPowerOn s
  | .imageLoadEnd elapsed answer => Sys2Proof.Machine.execImageLoadEnd elapsed answer s
  | .internalAdvance elapsed => Sys2Proof.Machine.execInternalAdvance elapsed s
  | .lossExpiry elapsed => Sys2Proof.Machine.execLossExpiry elapsed s
  | .epoch elapsed body => Sys2Proof.Machine.execEpoch elapsed body s
  | .commandTimeout slot => Sys2Proof.Machine.execCommandTimeout slot s
  | .portLost port => Sys2Proof.Machine.execPortLost port s
  | .holdSweepPosition => Sys2Proof.Machine.execHoldSweepPosition s
  | .holdSweepOutlet => Sys2Proof.Machine.execHoldSweepOutlet s
  | .tenantEvaluation => Sys2Proof.Machine.execTenantEvaluation s
  | .curtailmentStep => Sys2Proof.Machine.execCurtailmentStep s
  | .intervalClose => Sys2Proof.Machine.execIntervalClose s
  | .sample port body => Sys2Proof.Machine.execSample port body s
  | .chainMalformedFrame port => Sys2Proof.Machine.execChainMalformedFrame port s
  | .switchAck port body => Sys2Proof.Machine.execSwitchAck port body s
  | .pduReply port body => Sys2Proof.Machine.execPduReply port body s
  | .chainRequest port body => Sys2Proof.Machine.execChainRequest port body s
  | .uplinkRequest body => Sys2Proof.Machine.execUplinkRequest body s
  | .pduPass body => Sys2Proof.Machine.execPduPass body s
  | .uplinkFrameError => Sys2Proof.Machine.execUplinkFrameError s
  | .markSend port => Sys2Proof.Machine.execMarkSend port s
  | .switchSend port => Sys2Proof.Machine.execSwitchSend port s
  | .passDownSend port => Sys2Proof.Machine.execPassDownSend port s
  | .downFrameEnd port => Sys2Proof.Machine.execDownFrameEnd port s
  | .uplinkFrameStart => Sys2Proof.Machine.execUplinkFrameStart s
  | .uplinkFrameEnd => Sys2Proof.Machine.execUplinkFrameEnd s
  | .noticeQueuing => Sys2Proof.Machine.execNoticeQueuing s
  | .keptResponseOffer => Sys2Proof.Machine.execKeptResponseOffer s
  | .readEntry => Sys2Proof.Machine.execReadEntry s
  | .writeEntryOat => Sys2Proof.Machine.execWriteEntryOat s
  | .oatClear => Sys2Proof.Machine.execOatClear s
  | .writeEntryRules => Sys2Proof.Machine.execWriteEntryRules s
  | .writeEntryStaged => Sys2Proof.Machine.execWriteEntryStaged s
  | .writeEpochSource elapsed => Sys2Proof.Machine.execWriteEpochSource elapsed s
  | .portDisable => Sys2Proof.Machine.execPortDisable s
  | .portEnable => Sys2Proof.Machine.execPortEnable s
  | .writeErrorThreshold => Sys2Proof.Machine.execWriteErrorThreshold s
  | .writeNoticeMask => Sys2Proof.Machine.execWriteNoticeMask s
  | .writeSetting => Sys2Proof.Machine.execWriteSetting s
  | .resolve => Sys2Proof.Machine.execResolve s
  | .commit => Sys2Proof.Machine.execCommit s
  | .cancelCommit => Sys2Proof.Machine.execCancelCommit s
  | .copyActiveToStaged => Sys2Proof.Machine.execCopyActiveToStaged s
  | .restoreTenant => Sys2Proof.Machine.execRestoreTenant s
  | .restoreOutlet => Sys2Proof.Machine.execRestoreOutlet s
  | .discard => Sys2Proof.Machine.execDiscard s
  | .clearFault => Sys2Proof.Machine.execClearFault s
  | .readStatus => Sys2Proof.Machine.execReadStatus s
  | .unknownRequestCode => Sys2Proof.Machine.execUnknownRequestCode s
  | .saveImage => Sys2Proof.Machine.execSaveImage s
  | .saveEnd outcome => Sys2Proof.Machine.execSaveEnd outcome s
  | .resetLive => Sys2Proof.Machine.execResetLive s
  | .resetFull => Sys2Proof.Machine.execResetFull s
  | .resetFullStart => Sys2Proof.Machine.execResetFullStart s
  | .storageUpset item parityToo => Sys2Proof.Machine.execStorageUpset item parityToo s
  | .writeEntryBadTable => Sys2Proof.Machine.execWriteEntryBadTable s

end Sys2Proof.Machine
end

