-- ==== Sys2Proof/Safety.lean ====
section
/-! DEFINITION. The terms the statements about the 6120 are written in: which parts of the state an event leaves as they
were, what an answered request and an advance leave, and the laws the manual gives of every state. -/

namespace Sys2Proof.Machine

/-! ### Frames -/

/-- The parts of the state. `links` is the ports without their transmitters' choices, which are `downChoice`; `uplink`
is the uplink unit without its arbiter's choice, which is `upChoice`. -/
inductive Block where
  | pending | now | freeCount | timer | links | downChoice | presence | oat | rules | readings | filling | closing
  | live | contracts | curtail | notices | uplink | upChoice | mgmt | settings | extMemory
  deriving DecidableEq, Repr

/-- A port without its transmitter's choice. -/
def Port.core (q : Port) : Port := { q with choice := none }

/-- The uplink unit without its arbiter's choice. -/
def Uplink.core (u : Uplink) : Uplink := { u with choice := none }

/-- The part is in `t` as it is in `s`. -/
def Block.same (s t : State) : Block → Prop
  | .pending => t.pending = s.pending
  | .now => t.now = s.now
  | .freeCount => t.freeCount = s.freeCount
  | .timer => t.timer = s.timer
  | .links => ∀ p, (t.port p).core = (s.port p).core
  | .downChoice => ∀ p, (t.port p).choice = (s.port p).choice
  | .presence => t.presence = s.presence
  | .oat => t.oat = s.oat
  | .rules => t.rules = s.rules
  | .readings => t.readings = s.readings
  | .filling => t.filling = s.filling
  | .closing => t.closing = s.closing
  | .live => t.live = s.live
  | .contracts => t.contracts = s.contracts
  | .curtail => t.curtail = s.curtail
  | .notices => t.notices = s.notices
  | .uplink => t.uplink.core = s.uplink.core
  | .upChoice => t.uplink.choice = s.uplink.choice
  | .mgmt => t.mgmt = s.mgmt
  | .settings => t.settings = s.settings
  | .extMemory => t.extMemory = s.extMemory

/-- Every part of the state but the ones listed is as it was. -/
def SameOutside (changed : List Block) (s t : State) : Prop := ∀ b : Block, b ∉ changed → b.same s t

/-- The parts where a response can land and the choices that follow it. -/
def answerBlocks : List Block := [.uplink, .mgmt, .links, .downChoice, .upChoice]

/-- The transmitters' choices. -/
def choiceBlocks : List Block := [.downChoice, .upChoice]

/-! ### Requests -/

/-- The request `r` heads the queue, the management unit can take it (R169), and it is of row `row`. -/
def Heads (s : State) (row : RequestRow) (r : Request) : Prop :=
  (s.mgmt.current = none ∧ s.mgmt.kept = [] ∧ s.mgmt.resetWaiting = none)
    ∧ s.uplink.requests.head? = some r ∧ requestRow r = row

/-- R190: the request code is one of the list and the data has the length it requires; a WRITE_ENTRY's length is its
table's, where that table is written (SETTINGS, OAT, RULES, STAGED), and at least 3 for any other; a RESTORE's form is
0 or 1. -/
def requestFits (code : Byte) (data : List Byte) : Bool :=
  let n := data.length
  let first := data.getD 0 0x00#8
  if code = 0x01#8 then decide (n = 4)
  else if code = 0x02#8 then decide (3 ≤ n ∧ (first = 0x00#8 → n = 7) ∧ (first = 0x01#8 → n = 9)
    ∧ (first = 0x02#8 → n = 10) ∧ (first = 0x03#8 → n = 24))
  else if code = 0x03#8 ∨ code = 0x08#8 then decide (n = 2)
  else if code = 0x07#8 then decide (n = 3 ∧ (first = 0x00#8 ∨ first = 0x01#8))
  else decide (code ∈ [0x04#8, 0x05#8, 0x06#8, 0x09#8, 0x0A#8, 0x0B#8, 0x0C#8, 0x0D#8] ∧ n = 0)

/-- R171: every request that is not READ_ENTRY, RESOLVE or READ_STATUS is write-type. -/
def isWrite (code : Byte) : Prop := code ≠ 0x01#8 ∧ code ≠ 0x03#8 ∧ code ≠ 0x0A#8

/-- The general tests of R171 let the request through: no load, a known code with data that fits it, the permit for a
chain-side write, no save for a write. -/
def PassesGeneralTests (s : State) (r : Request) : Prop :=
  (s.mgmt.imageState = .loading → r.code = 0x0A#8)
    ∧ requestFits r.code r.data = true
    ∧ (isWrite r.code → r.origin ≠ .uplink → s.chainWritePermit = true)
    ∧ (isWrite r.code → s.mgmt.imageState ≠ .saving)

/-- The request is taken: it heads the queue and passes the general tests. -/
def Taken (s : State) (row : RequestRow) (r : Request) : Prop := Heads s row r ∧ PassesGeneralTests s r

/-- R162: the response queue takes an uplink response offered now. -/
def State.responseRoom (s : State) : Prop := s.mgmt.kept = [] ∧ s.uplink.responses.length < 4

/-- R34, R162, R169: where response `r` to a request of origin `o` has landed in `t`, offered in `b`: the response queue,
or behind the kept ones; or the port's pass-down queue, or nowhere. The rest of those parts is as in `b`. -/
def Answered (b t : State) (o : Origin) (r : Response) : Prop :=
  match o with
  | .uplink =>
    (∀ p, (t.port p).core = (b.port p).core)
      ∧ (b.responseRoom → t.uplink.core = { b.uplink.core with responses := b.uplink.responses ++ [r] } ∧ t.mgmt = b.mgmt)
      ∧ (¬ b.responseRoom → t.uplink.core = b.uplink.core ∧ t.mgmt = { b.mgmt with kept := b.mgmt.kept ++ [r] })
  | .chain p position =>
    t.uplink.core = b.uplink.core ∧ t.mgmt = b.mgmt
      ∧ (∀ q, q ≠ p → (t.port q).core = (b.port q).core)
      ∧ ((b.port p).link ≠ .disabled ∧ (b.port p).passDown.length < 4 →
          (t.port p).core = { (b.port p).core with passDown := (b.port p).passDown ++ [.response position r] })
      ∧ (¬ ((b.port p).link ≠ .disabled ∧ (b.port p).passDown.length < 4) → (t.port p).core = (b.port p).core)

/-- The command takes the request and answers it with `status` and `data`, leaving everything but the parts listed in
`changed` and the answer's as it was: `b` is the state in which the answer is offered, without the taken request. -/
def TakesAndAnswers (c : Instr) (s : State) (r : Request) (status : Status) (data : List Byte) (changed : List Block)
    (what : State → Prop) : Prop :=
  ∃ b t, exec c s = .next t ∧ SameOutside (.uplink :: changed) s b
    ∧ b.uplink.core = { s.uplink.core with requests := s.uplink.requests.tail }
    ∧ what b ∧ Answered b t r.origin (r.answer status data) ∧ SameOutside answerBlocks b t

/-! ### Faults and frames heard -/

/-- The severity a fault record holds, 0 when it is empty (R155). -/
def severityHeld : Option FaultRecord → Nat
  | none => 0
  | some f => f.cls.severity

/-- R155: what the record holds once `f` is recorded in one that holds `held`. -/
def faultAfter (held : Option FaultRecord) (f : FaultRecord) : Option FaultRecord :=
  if severityHeld held < f.cls.severity then some f else held

/-- The notice unit with a fault recorded now: its epoch is the current one (R155). -/
def State.noticesWithFault (s : State) (cls : FaultClass) (loc : Location) : NoticeUnit :=
  { s.notices with fault := faultAfter s.notices.fault { cls := cls, location := loc, epoch := s.timer.epoch } }

/-- R45, R104: the notice unit after a read that found the items at `bad` bad, in the order read: TABLE_PARITY has the
highest severity, so the first one recorded keeps the others out (R155). -/
def State.noticesAfterReading (s : State) (bad : List Location) : NoticeUnit :=
  match bad with
  | [] => s.notices
  | loc :: _ => s.noticesWithFault .tableParity loc

/-! ### Byte layouts, written out field by field (R187, R190 to R192) -/

/-- Byte `i` of an `n`-byte field that holds `v`, the most significant byte first (chapter 11). -/
def fieldBytes (n v : Nat) : List Byte := (List.range n).map (fun i => BitVec.ofNat 8 (v / 256 ^ (n - 1 - i)))

/-- The fields of a body, entry or record in order, each given as its length in bytes and its value. -/
def layout (fields : List (Nat × Nat)) : List Byte := fields.flatMap (fun f => fieldBytes f.1 f.2)

/-- The weight of a flag in its flags byte when the flag is set. -/
def flag (set : Bool) (weight : Nat) : Nat := if set then weight else 0

/-! R191: the numbers of named values are their places in these lists, from 0. -/

def tenantStates : List TenantState := [.idle, .within, .burst, .over]
def linkStates : List LinkState := [.disabled, .down, .up, .degraded]
def presenceStates : List PresenceState := [.absent, .present, .held, .silent]
def stages : List Stage := [.offPending, .off, .onPending, .unconfirmed, .skipped, .done]
def restorings : List Restoring := [.none, .auto, .forced]
def sourceModes : List SourceMode := [.internal, .external, .fallback]
def imageStates : List ImageState := [.loading, .ok, .invalid, .absent, .saving]
def feeds : List Feed := [.a, .b]
def policies : List Policy := [.notify, .hold, .auto]
def statuses : List Status :=
  [.ok, .badRequest, .badTable, .badIndex, .badValue, .held, .locked, .busy, .parity, .imageFail]

/-- R191: the fault classes, numbered from 1. -/
def faultClasses : List FaultClass :=
  [.frameError, .mistimedSample, .staleAck, .epochEarly, .portDegraded, .sourceLost, .tableParity, .imageInvalid]

/-- R191: the tables that a TABLE_PARITY names, numbered from 1. -/
def parityTables : List ParityTable := [.oat, .rules, .staged, .active]

/-- R156: the severity of a fault class. -/
def classSeverity (c : FaultClass) : Nat :=
  if c ∈ [.frameError, .mistimedSample, .staleAck, .epochEarly] then 1
  else if c ∈ [.portDegraded, .sourceLost] then 2 else 3

/-- An OAT entry (6 bytes); an absent slot reads as zeros (log 17). -/
def oatLayout : Option OatEntry → List Byte
  | none => layout [(1, 0), (1, 0), (1, 0), (1, 0), (2, 0)]
  | some e => layout [(1, flag true 1 + flag e.shedRank.isSome 2 + flag e.outletLimit.isSome 4), (1, e.tenant),
      (1, feeds.idxOf e.feed), (1, e.shedRank.getD 0), (2, e.outletLimit.getD 0)]

/-- A rule (7 bytes); the byte 1 for enabled is log 29. -/
def ruleLayout (r : Rule) : List Byte :=
  layout [(1, flag r.enabled 1), (2, r.compareKey), (2, r.mask), (1, r.tenant), (1, feeds.idxOf r.feed)]

/-- A contract record (21 bytes): valid, C, T, Y, Bmax, Rf, F, Q, G, policy; the byte 1 for valid is log 29. -/
def contractLayout (c : Contract) : List Byte :=
  layout [(1, flag c.valid 1), (3, c.committed), (2, c.tolerance), (2, c.hysteresis), (4, c.burstCap), (3, c.refillCap),
    (3, c.feedCap), (1, c.quiet), (1, c.grace), (1, policies.idxOf c.policy)]

/-- The flags byte of a TENANT entry and of a TENANT notice. -/
def tenantFlags (r : LiveRecord) : Nat :=
  flag r.incomplete 1 + flag r.feedOverA 2 + flag r.feedOverB 4 + flag r.lastEpoch.isNone 8

/-- A TENANT entry (50 bytes); `free` stands where the record has no last evaluated epoch (log 10). -/
def tenantLayout (free : BitVec 16) (r : LiveRecord) (c : TenantCurtail) : List Byte :=
  layout [(1, tenantStates.idxOf r.state), (4, r.demand), (3, r.demand / 256), (4, r.credit), (2, r.ticksInOver),
    (1, r.quiet), (3, r.lastDrawA), (3, r.lastDrawB), (2, (r.lastEpoch.getD free).toNat), (1, tenantFlags r),
    (2, r.outletOver), (6, r.energy), (3, r.peakDemand), (3, r.peakDraw), (2, r.burstTicks), (2, r.overTicks),
    (2, r.incompleteTicks), (4, r.minCredit), (1, restorings.idxOf c.restoring),
    (1, flag c.exhausted 1 + flag c.blocked 2)]

/-- A SUMMARY entry (29 bytes); the numbers of no data are log 29. -/
def summaryLayout : Option Summary → List Byte
  | none => layout [(1, 1), (4, 0), (1, 0), (6, 0), (3, 0), (3, 0), (2, 0), (2, 0), (2, 0), (4, 0), (1, 0)]
  | some m => layout [(1, 0), (4, m.interval.toNat), (1, m.generation.toNat), (6, m.energy), (3, m.peakDemand),
      (3, m.peakDraw), (2, m.burstTicks), (2, m.overTicks), (2, m.incompleteTicks), (4, m.minCredit),
      (1, tenantStates.idxOf m.state)]

/-- A CURTAIL entry (13 bytes); the byte 1 for an occupied slot is log 29. -/
def curtailLayout : Option CurtailEntry → List Byte
  | none => layout [(1, 0), (2, 0), (1, 0), (1, 0), (1, 0), (1, 0), (1, 0), (1, 0), (4, 0)]
  | some e => layout [(1, 1), (2, e.outlet), (1, e.tenant), (1, stages.idxOf e.stage),
      (1, flag e.sent 1 + flag e.tried 2 + flag e.resultOwed 4), (1, e.tag.toNat), (1, e.remaining), (1, e.attempts),
      (4, e.sequence.toNat)]

/-- A PRESENCE entry (3 bytes). -/
def presenceLayout (e : Presence) (inFilling inClosing : Bool) : List Byte :=
  layout [(1, presenceStates.idxOf e.state), (1, e.missed), (1, flag inFilling 1 + flag inClosing 2)]

/-- A PORT entry (6 bytes). -/
def portLayout (q : Port) : List Byte :=
  layout [(1, linkStates.idxOf q.link), (2, q.errorCount), (1, q.silentPass),
    (1, flag q.settling 1 + flag q.dueMark.isSome 2), (1, q.passDown.length)]

/-- The three location bytes of a fault record, as fields. -/
def locationFields : Location → List (Nat × Nat)
  | .none => [(1, 0), (1, 0), (1, 0)]
  | .port p => [(1, p), (1, 0), (1, 0)]
  | .portPosition p q => [(1, p), (1, q), (1, 0)]
  | .outlet p q o => [(1, p), (1, q), (1, o)]
  | .item table index => [(1, 1 + parityTables.idxOf table), (2, index)]

/-- A fault record (8 bytes), as fields. -/
def faultFields : Option FaultRecord → List (Nat × Nat)
  | none => [(1, 1), (1, 0), (1, 0), (1, 0), (1, 0), (1, 0), (2, 0)]
  | some f => [(1, 0), (1, 1 + faultClasses.idxOf f.cls), (1, classSeverity f.cls)] ++ locationFields f.location
      ++ [(2, f.epoch.toNat)]

/-- A response body: tag, code, status, data. -/
def responseLayout (r : Response) : List Byte :=
  layout [(2, r.tag.toNat), (1, r.code.toNat), (1, statuses.idxOf r.status)] ++ r.data

/-- A PASS-DOWN body: position, form, then the relayed payload or the response body. -/
def passDownLayout : PassDown → List Byte
  | .relay position payload => layout [(1, position.toNat), (1, 0)] ++ payload
  | .response position r => layout [(1, position.toNat), (1, 1)] ++ responseLayout r

/-- A NOTICE body: the kind, then its content. -/
def noticeLayout : Notice → List Byte
  | .tenant t r c => layout [(1, 0), (1, t), (1, tenantStates.idxOf r.state), (3, r.demand / 256), (4, r.credit),
      (3, r.lastDrawA), (3, r.lastDrawB), (1, tenantFlags r), (2, r.outletOver), (1, restorings.idxOf c.restoring),
      (1, flag c.exhausted 1 + flag c.blocked 2), (2, (r.lastEpoch.getD 0).toNat)]
  | .port p link errors => layout [(1, 1), (1, p), (1, linkStates.idxOf link), (2, errors)]
  | .pdu i st missed => layout [(1, 2), (1, i / 16), (1, i % 16), (1, presenceStates.idxOf st), (1, missed)]
  | .source mode epoch => layout [(1, 3), (1, sourceModes.idxOf mode), (2, epoch.toNat)]
  | .fault f => layout ((1, 4) :: faultFields f)
  | .interval n generation switched => layout [(1, 5), (4, n.toNat), (1, generation.toNat), (1, flag switched 1)]
  | .curtail key t stage attempts tag =>
      layout [(1, 6), (2, key), (1, t), (1, stages.idxOf stage), (1, attempts), (1, tag.toNat)]

/-- The OK data of READ_STATUS; the numbers of commit-pending are log 29. -/
def State.statusLayout (s : State) : List Byte :=
  layout ([(2, s.timer.epoch.toNat), (1, sourceModes.idxOf s.timer.mode), (4, s.timer.intervalNumber.toNat),
    (2, s.timer.tickCount), (1, flag s.contracts.commitPending 1), (1, s.contracts.generation.toNat),
    (1, imageStates.idxOf s.mgmt.imageState), (1, linkStates.idxOf (s.port 0).link), (1, linkStates.idxOf (s.port 1).link),
    (1, linkStates.idxOf (s.port 2).link), (1, linkStates.idxOf (s.port 3).link)] ++ faultFields s.notices.fault)

/-- The bytes of entry `i` of table `table` as it stands (R190, R191). -/
def State.entryBytes (s : State) (table i : Nat) : List Byte :=
  match table with
  | 0 => layout [(4, s.setting i)]
  | 1 => oatLayout (s.slotAt i).content
  | 2 => ruleLayout (s.ruleAt i).content
  | 3 => contractLayout (s.stagedAt i).content
  | 4 => contractLayout (s.activeAt i).content
  | 5 => tenantLayout (Config.freeEpochField s.freeCount) (s.liveAt i) (s.curtailAt i)
  | 6 => summaryLayout (s.summaryAt i)
  | 7 => curtailLayout (s.entryAt i)
  | 8 => presenceLayout (s.presenceAt i) (s.filling.pduFlag i) (s.closing.pduFlag i)
  | _ => portLayout (s.port i)

/-- The length of an entry of each table (R191). -/
def tableEntryLength (table : Nat) : Nat := [4, 6, 7, 21, 21, 50, 29, 13, 3, 6].getD table 0

/-! ### Reads of stored items -/

/-- R172: the place of entry `i` of a table, when its parity is bad. -/
def State.badEntry (s : State) (table i : Nat) : Option Location :=
  match table with
  | 1 => if (s.slotAt i).parityGood then none else some (.item .oat i)
  | 2 => if (s.ruleAt i).parityGood then none else some (.item .rules i)
  | 3 => if (s.stagedAt i).parityGood then none else some (.item .staged i)
  | 4 => if (s.activeAt i).parityGood then none else some (.item .active i)
  | _ => none

/-- R172: `bytes` is the copy of entry `i` of a table taken in `s`, which leaves `b`: status OK and the entry, or status
PARITY and zeros with the fault recorded. A TENANT entry with no last evaluated epoch uses up a free value (log 10). -/
def Copied (s b : State) (table i : Nat) (bytes : List Byte) : Prop :=
  match s.badEntry table i with
  | some loc => bytes = 0x08#8 :: List.replicate (tableEntryLength table) 0x00#8
      ∧ b.notices = s.noticesWithFault .tableParity loc ∧ b.freeCount = s.freeCount
  | none => bytes = 0x00#8 :: s.entryBytes table i ∧ b.notices = s.notices
      ∧ b.freeCount = (if table = 5 ∧ (s.liveAt i).lastEpoch = none then s.freeCount + 1 else s.freeCount)

/-- R16: a port after a well-formed frame, under error threshold `threshold`. -/
def Port.heard (threshold : Nat) (q : Port) : Port :=
  { q with silentPass := 0,
           link := if q.link = .down then (if q.errorCount < threshold then .up else .degraded) else q.link }

/-- R16: what a well-formed frame on port `p` makes of `s` before it is passed on by kind. -/
def Heard (p : Nat) (s h : State) : Prop :=
  (h.port p).core = ((s.port p).heard s.errorThreshold).core ∧ (∀ q, q ≠ p → (h.port q).core = (s.port q).core)
    ∧ h.notices = (if (s.port p).link = .down ∧ s.errorThreshold ≤ (s.port p).errorCount then
        s.noticesWithFault .portDegraded (.port p) else s.notices)
    ∧ SameOutside [.links, .notices] s h

/-- R136: a curtailment entry after port `p` is lost or disabled; the result makes its notice owed (R137). -/
def State.entryAfterLoss (s : State) (p : Nat) (e : CurtailEntry) : CurtailEntry :=
  if e.pending ∧ keyPort e.outlet = p then
    { e with stage := .unconfirmed, sent := false, remaining := 0, resultOwed := e.resultOwed || !s.masked .curtail }
  else e

/-! ### Due lists and the owed list (R128, R135 to R137) -/

/-- R136: the slot holds an entry that is pending on port `p`. -/
def State.pendingOn (s : State) (p n : Nat) : Bool :=
  decide (n < 64) && (match s.entryAt n with
    | some e => e.pending && decide (keyPort e.outlet = p)
    | none => false)

/-- R134: the slot holds a sent command that times out at an advance. -/
def State.timesOut (s : State) (n : Nat) : Bool :=
  decide (n < 64) && (match s.entryAt n with
    | some e => e.pending && e.sent && decide (e.remaining ≤ 1)
    | none => false)

/-- R135: the slot holds a command that has been sent once. -/
def State.sentOnce (s : State) (n : Nat) : Bool :=
  match s.entryAt n with | some e => decide (e.attempts = 1) | none => false

/-- R137: the owed list after the results of the entries in `results`, in that order. -/
def State.owedAfter (s : State) (results : List Nat) : List Nat :=
  if s.masked .curtail then s.curtail.owed
  else s.curtail.owed ++ results.filter (fun n => decide (n ∉ s.curtail.owed))

/-- R18: an advance makes the port DOWN. -/
def Port.goesDown (q : Port) : Bool := (decide (q.link = .up) || decide (q.link = .degraded)) && decide (q.silentPass = 2)

/-- R136: the slot's command is lost with port `p` at an advance: it is pending there and has not been given up. -/
def State.lostAtAdvance (s : State) (p n : Nat) : Bool :=
  (s.port p).goesDown && s.pendingOn p n && !(s.timesOut n && !s.sentOnce n)

/-- R128, R135, R136: the due list of port `p` after an advance: the commands to be retried join it in slot order, and it
loses those of a port that goes DOWN. -/
def State.dueAfterAdvance (s : State) (p : Nat) : List Nat :=
  let joined := s.dueAt p ++ (List.range 64).filter (fun n => s.pendingOn p n && s.timesOut n && s.sentOnce n)
  if p < 4 then joined.filter (fun n => !s.lostAtAdvance p n) else joined

/-- R134 to R136, log 12: the slots whose commands have a result at an advance: those given up, in slot order, then, port
by port, those lost. -/
def State.resultsAtAdvance (s : State) : List Nat :=
  (List.range 64).filter (fun n => s.timesOut n && !s.sentOnce n)
    ++ [0, 1, 2, 3].flatMap (fun p => (List.range 64).filter (s.lostAtAdvance p))

/-! ### The advance -/

/-- R8, R9, R18: a port after an advance to epoch `n`. -/
def Port.afterAdvance (n : Epoch) (q : Port) : Port :=
  if q.link = .disabled then q
  else
    { q with dueMark := some n, settling := false, silentPass := min 255 (q.silentPass + 1),
             link := if (q.link = .up ∨ q.link = .degraded) ∧ q.silentPass = 2 then .down else q.link }

/-- R134 to R136: a curtailment entry after an advance from `s`: a sent pending one is aged, and timed out at 0; a
pending one of a port that the advance makes DOWN becomes UNCONFIRMED; a result makes its notice owed (R137). -/
def State.entryAfterAdvance (s : State) (e : CurtailEntry) : CurtailEntry :=
  let timedOut := e.pending && e.sent && decide (e.remaining ≤ 1)
  let aged : CurtailEntry :=
    if timedOut then
      (if e.attempts = 1 then { e with sent := false, remaining := 0 }
       else { e with stage := .unconfirmed, sent := false, remaining := 0, resultOwed := e.resultOwed || !s.masked .curtail })
    else if e.pending && e.sent then { e with remaining := e.remaining - 1 }
    else e
  let port := s.port (keyPort e.outlet)
  if aged.pending ∧ keyPort e.outlet < 4 ∧ (port.link = .up ∨ port.link = .degraded) ∧ port.silentPass = 2 then
    { aged with stage := .unconfirmed, sent := false, remaining := 0, resultOwed := e.resultOwed || !s.masked .curtail }
  else aged

/-- R8: `t` is what an advance to epoch `n` makes of `s`. -/
def Advanced (s t : State) (n : Epoch) : Prop :=
  t.timer = { s.timer with epoch := n, refTime := s.now,
                           pass := some { epoch := s.timer.epoch - 1, point := .position 0 } }
    ∧ t.closing = s.filling ∧ t.filling = AccSet.cleared
    ∧ (∀ p, p < 4 → (t.port p).core = ((s.port p).afterAdvance n).core)
    ∧ (∀ p, 4 ≤ p → (t.port p).core = (s.port p).core)
    ∧ (∀ slot, slot < 64 → t.entryAt slot = (s.entryAt slot).map s.entryAfterAdvance)
    ∧ t.curtail.records = s.curtail.records ∧ t.curtail.tagCounter = s.curtail.tagCounter
    ∧ t.curtail.creation = s.curtail.creation
    ∧ (∀ p, t.dueAt p = s.dueAfterAdvance p) ∧ t.curtail.owed = s.owedAfter s.resultsAtAdvance
    ∧ SameOutside [.timer, .closing, .filling, .links, .downChoice, .curtail, .upChoice] s t

/-! ### Readings (R59, R60, R62) -/

/-- The measured readings of a list, in its order: an outlet index below 48 that no earlier reading of the list has, and
a value that is not the unmeasured one. -/
def measured (readings : List (Nat × Nat)) : List (Nat × Nat) :=
  (List.range readings.length).filterMap (fun k =>
    match readings[k]? with
    | some (o, v) => if o < 48 ∧ v ≠ 65535 ∧ (∀ e ∈ readings.take k, e.1 ≠ o) then some (o, v) else none
    | none => none)

/-! ### Laws of every state -/

/-- R34, R146, R161, R162, R163: no queue holds more than its depth. -/
def QueueBounds (s : State) : Prop :=
  (∀ p, (s.port p).passDown.length ≤ 4) ∧ s.notices.queue.length ≤ 8 ∧ s.uplink.requests.length ≤ 4
    ∧ s.uplink.responses.length ≤ 4 ∧ s.uplink.forwards.length ≤ 16

/-- An accumulator set's tables are in canonical form. -/
def AccSet.canonical (a : AccSet) : Prop :=
  Table.wf 0 a.sumA = true ∧ Table.wf 0 a.sumB = true ∧ Table.wf 0 a.outletOver = true ∧ Table.wf false a.incomplete = true
    ∧ Table.wf false a.outletReported = true ∧ Table.wf false a.pduReported = true

/-- Every table of the state is in canonical form, so that equal tables are equal data. -/
def TablesCanonical (s : State) : Prop :=
  Table.wf Port.initial s.ports = true ∧ Table.wf Presence.absent s.presence = true ∧ Table.wf absentSlot s.oat = true
    ∧ Table.wf disabledRule s.rules = true ∧ Table.wf Reading.initial s.readings = true
    ∧ s.filling.canonical ∧ s.closing.canonical ∧ Table.wf LiveRecord.idle s.live = true
    ∧ Table.wf emptyContract s.contracts.active = true ∧ Table.wf emptyContract s.contracts.staged = true
    ∧ Table.wf none s.contracts.summaries = true ∧ Table.wf none s.curtail.slots = true
    ∧ Table.wf TenantCurtail.clear s.curtail.records = true ∧ Table.wf [] s.curtail.due = true
    ∧ Table.wf TenantCompared.clear s.notices.annTenant = true ∧ Table.wf .disabled s.notices.annPort = true
    ∧ Table.wf .absent s.notices.annPresence = true

/-- R120's two laws: one curtailment entry per outlet, one pending entry per tenant. -/
def CurtailLaws (s : State) : Prop :=
  ∀ m n e f, m < 64 → n < 64 → s.entryAt m = some e → s.entryAt n = some f →
    (e.outlet = f.outlet → m = n) ∧ (e.tenant = f.tenant → e.pending = true → f.pending = true → m = n)

/-- R119, R128, R137: the table has 64 slots; each due list holds the port's unsent pending entries, each once, and the
owed list the entries whose result is owed, each once. -/
def CurtailLists (s : State) : Prop :=
  (∀ n, 64 ≤ n → s.entryAt n = none)
    ∧ (∀ p, (s.dueAt p).Nodup ∧ ∀ n, n ∈ s.dueAt p ↔
        ∃ e, s.entryAt n = some e ∧ e.pending = true ∧ e.sent = false ∧ keyPort e.outlet = p)
    ∧ s.curtail.owed.Nodup ∧ ∀ n, n ∈ s.curtail.owed ↔ ∃ e, s.entryAt n = some e ∧ e.resultOwed = true

/-- R85: an IDLE tenant holds no credit, and a tenant's credit is at most the Bmax of its active contract, where that
contract's parity is good. -/
def CreditLaw (s : State) : Prop :=
  ∀ t, t ≤ 127 → ((s.liveAt t).state = .idle → (s.liveAt t).credit = 0)
    ∧ (1 ≤ t → (s.activeAt t).parityGood = true → (s.liveAt t).credit ≤ (s.activeAt t).content.burstCap)

/-- R69, R75, R79, R81: sums, draws, demand, peaks and energy stay within their ranges. -/
def FiguresBounded (s : State) : Prop :=
  (∀ f t, s.filling.sum f t ≤ wattTop ∧ s.closing.sum f t ≤ wattTop)
    ∧ ∀ t, (s.liveAt t).lastDrawA ≤ wattTop ∧ (s.liveAt t).lastDrawB ≤ wattTop ∧ (s.liveAt t).demand ≤ wattTop * 256
      ∧ (s.liveAt t).peakDemand ≤ wattTop ∧ (s.liveAt t).peakDraw ≤ wattTop ∧ (s.liveAt t).energy ≤ energyTop

/-- R91: the pool's record. -/
def PoolIdle (s : State) : Prop :=
  (s.liveAt 0).state = .idle ∧ (s.liveAt 0).credit = 0 ∧ (s.liveAt 0).burstTicks = 0 ∧ (s.liveAt 0).overTicks = 0
    ∧ (s.liveAt 0).minCredit = 0 ∧ (s.liveAt 0).feedOverA = false ∧ (s.liveAt 0).feedOverB = false

/-- R21, R23, R36: a DISABLED port has nothing due, queued, counted or in transmission, its PDUs are ABSENT; and during
the load every port is DISABLED. -/
def DisabledPortsInert (s : State) : Prop :=
  (∀ p, p < 4 → (s.port p).link = .disabled → s.port p = Port.initial ∧ ∀ i, i / 16 = p → s.presenceAt i = Presence.absent)
    ∧ (s.mgmt.imageState = .loading → ∀ p, p < 4 → (s.port p).link = .disabled)

/-- R32, R164: an idle transmitter with something it may send holds a choice that is there to be sent, and a transmitter
that sends holds none. -/
def TransmittersChoose (s : State) : Prop :=
  (∀ p, p < 4 → (s.port p).link ≠ .disabled → (s.port p).tx = none → ∀ k, s.downAvailable p k = true →
      ∃ c, (s.port p).choice = some c ∧ s.downAvailable p c = true)
    ∧ (∀ p, p < 4 → (s.port p).tx ≠ none → (s.port p).choice = none)
    ∧ (s.uplink.tx = none → s.mgmt.resetDue = false → ∀ k, s.upAvailable k = true →
      ∃ c, s.uplink.choice = some c ∧ s.upAvailable c = true)
    ∧ (s.uplink.tx ≠ none → s.uplink.choice = none)

/-- R174, R175: the block holds 21 settings, each in its range. -/
def SettingsInRange (s : State) : Prop := s.settings.length = 21 ∧ ∀ i, i < 21 → clampSetting i (s.setting i) = s.setting i

end Sys2Proof.Machine

namespace Sys2Proof

open Machine

/-! ### Groups of commands -/

/-- The row of the opcode table's requests that a command takes; none for a command that takes no request. -/
def Instr.takes : Instr → Option RequestRow
  | .readEntry => some .readEntry
  | .writeEntryOat => some .writeEntryOat
  | .oatClear => some .oatClear
  | .writeEntryRules => some .writeEntryRules
  | .writeEntryStaged => some .writeEntryStaged
  | .writeEpochSource _ => some .writeEpochSource
  | .portDisable => some .portDisable
  | .portEnable => some .portEnable
  | .writeErrorThreshold => some .writeErrorThreshold
  | .writeNoticeMask => some .writeNoticeMask
  | .writeSetting => some .writeSetting
  | .writeEntryBadTable => some .writeEntryBadTable
  | .resolve => some .resolve
  | .commit => some .commit
  | .cancelCommit => some .cancelCommit
  | .copyActiveToStaged => some .copyActiveToStaged
  | .restoreTenant => some .restoreTenant
  | .restoreOutlet => some .restoreOutlet
  | .discard => some .discard
  | .clearFault => some .clearFault
  | .readStatus => some .readStatus
  | .unknownRequestCode => some .unknownRequestCode
  | .saveImage => some .saveImage
  | .resetLive => some .resetLive
  | .resetFull => some .resetFull
  | _ => none

/-- The commands that empty the fault record: CLEAR_FAULT, power-on, the start of a full reset, the end of the load that
belongs to either (R154, R155). -/
def Instr.emptiesFault : Instr → Bool
  | .clearFault | .powerOn | .resetFullStart | .imageLoadEnd _ _ => true
  | _ => false

/-- The commands that restart the timer: power-on, the start of a full reset, the end of the load (R13). -/
def Instr.restartsTimer : Instr → Bool
  | .powerOn | .resetFullStart | .imageLoadEnd _ _ => true
  | _ => false

end Sys2Proof
end

