-- ==== Sys2Proof/Certificates/Slice0/Obligations.lean ====
section
/-! DEFINITION. The statements about the 6120 that the provers are given, in the order of OBLIGATIONS.json. A `SameOutside`
is a frame: every part of the state that it does not list is as it was. -/

open Sys2Proof Sys2Proof.Machine

/-! ### The queue of commands, reset, the image load -/

/-- A step runs the command at the front of the queue on the state with the queue's rest; on an empty queue the block
idles (the model's choice, log 2). -/
def Obligations.StepRunsTheFrontCommand : Prop :=
  ∀ (s : State) (c : Instr) (q : List Instr),
    (s.pending = c :: q → step s = exec c (s.setPending q)) ∧ (s.pending = [] → step s = .next s)

/-- No command stops the block, and none reaches into the queue of commands. That a command whose event is not due
completes too, with nothing done, is the model's (log 1), and so is that the queue outlives POWER_ON and the full reset
(log 18). -/
def Obligations.EveryCommandCompletes : Prop :=
  ∀ (c : Instr) (s : State), ∃ t, exec c s = .next t ∧ t.pending = s.pending

/-- What the state right after power is applied holds (R13, R36, R74, R99, R101, R145, R154, R167, R168), and that
power-on, and a full reset once the event that begins it has happened, return every block to it and begin the load (R179,
R185). What the blocks hold during the load where the manual is silent (settings at their defaults, OAT absent, rules
disabled, announced copies, reference time) is the model's choice (log 7). The model's own fields go on (log 18); the serial
memory keeps its content unless a save is cut off (R183). Before its event a full reset does not start (log 14). -/
def Obligations.PowerOnRestartsEveryBlock : Prop :=
  (let s := State.reset;
    (s.timer.epoch = 0 ∧ s.timer.mode = .internal ∧ s.timer.pass = none ∧ s.timer.tickCount = 0
        ∧ s.timer.intervalNumber = 0)
      ∧ (∀ p, (s.port p).link = .disabled ∧ (s.port p).errorCount = 0 ∧ (s.port p).silentPass = 0
          ∧ (s.port p).settling = false ∧ (s.port p).dueMark = none ∧ (s.port p).passDown = [] ∧ (s.port p).tx = none)
      ∧ (∀ i, (s.presenceAt i).state = .absent ∧ (s.presenceAt i).missed = 0)
      ∧ (∀ k, (s.readingAt k).last = none ∧ (s.readingAt k).age = 0)
      ∧ s.filling = AccSet.cleared ∧ s.closing = AccSet.cleared
      ∧ (∀ t, (s.liveAt t).state = .idle ∧ (s.liveAt t).demand = 0 ∧ (s.liveAt t).credit = 0
          ∧ (s.liveAt t).lastEpoch = none ∧ (s.liveAt t).energy = 0 ∧ (s.liveAt t).minCredit = 0)
      ∧ (∀ t, s.activeAt t = emptyContract ∧ s.stagedAt t = emptyContract ∧ s.summaryAt t = none)
      ∧ s.contracts.commitPending = false ∧ s.contracts.generation = 0
      ∧ (∀ n, s.entryAt n = none ∧ s.dueAt n = []) ∧ (∀ t, s.curtailAt t = TenantCurtail.clear)
      ∧ s.curtail.tagCounter = 0 ∧ s.curtail.creation = 0 ∧ s.curtail.owed = []
      ∧ s.notices.queue = [] ∧ s.notices.intervalOwed = none ∧ s.notices.fault = none
      ∧ s.uplink.requests = [] ∧ s.uplink.responses = [] ∧ s.uplink.forwards = [] ∧ s.uplink.tx = none
      ∧ s.uplink.lastServed = .forward
      ∧ s.mgmt.imageState = .loading ∧ s.mgmt.current = none ∧ s.mgmt.kept = [] ∧ s.mgmt.save = none
      ∧ s.mgmt.resetWaiting = none)
    ∧ ∀ (s : State) (c : Instr), c = .powerOn ∨ (c = .resetFullStart ∧ s.mgmt.resetDue = true) →
      (∃ t, exec c s = .next t ∧ SameOutside [.pending, .now, .freeCount, .extMemory] State.reset t
        ∧ t.pending = s.pending ∧ t.now = s.now ∧ t.freeCount = s.freeCount
        ∧ t.extMemory = (if s.mgmt.save = none then s.extMemory else none))
      ∧ (s.mgmt.resetDue = false → exec .resetFullStart s = .next s)

/-- A load that ends with a bad checksum (or a memory whose content has one) or with no answer leaves the defaults and
the empty tables, every port DOWN (the port enables' default is on), and IMAGE_INVALID recorded only for the bad checksum
(R180, R13, R36, R99, R154). How the memory's answer is given is the model's (log 8). -/
def Obligations.LoadWithoutAGoodImageLeavesDefaults : Prop :=
  ∀ (s : State) (elapsed : Nat) (answer : MemoryAnswer), s.mgmt.imageState = .loading →
    answer = .noAnswer ∨ answer = .badChecksum ∨ (answer = .stored ∧ s.extMemory = none) →
    ∃ t, exec (.imageLoadEnd elapsed answer) s = .next t
      ∧ t.mgmt = { s.mgmt with imageState := if answer = .noAnswer then .absent else .invalid }
      ∧ t.settings = [0, 0, 900, 3, 6, 16, 2, 1, 1, 1, 1, 1, 0, 0, 0, 0, 0, 0, 0, 0, 0]
      ∧ (∀ k, t.slotAt k = absentSlot) ∧ (∀ n, t.ruleAt n = disabledRule)
      ∧ (∀ x, t.activeAt x = emptyContract ∧ t.stagedAt x = emptyContract ∧ t.summaryAt x = none)
      ∧ t.contracts.generation = 0 ∧ t.contracts.commitPending = false
      ∧ t.timer = { s.timer with refTime := s.now + elapsed, mode := .internal } ∧ t.now = s.now + elapsed
      ∧ (∀ p, p < 4 → (t.port p).core = { Port.initial with link := .down })
      ∧ (∀ x, t.liveAt x = LiveRecord.idle)
      ∧ t.notices.fault = (if answer = .noAnswer then none else
          some { cls := .imageInvalid, location := .none, epoch := s.timer.epoch })
      ∧ (∀ x, Table.read TenantCompared.clear t.notices.annTenant x = TenantCompared.clear)
      ∧ (∀ p, p < 4 → Table.read .disabled t.notices.annPort p = .down)
      ∧ (∀ i, Table.read .absent t.notices.annPresence i = .absent)
      ∧ t.notices.annSource = .internal ∧ t.notices.annFault = none ∧ t.notices.queue = s.notices.queue
      ∧ SameOutside [.timer, .now, .links, .downChoice, .upChoice, .oat, .rules, .contracts, .live, .notices, .mgmt,
          .settings] s t

/-- A load that ends with a good image takes its settings, clamped; its slots, rules and active contracts, one with a
field out of range being absent, disabled or empty; its generation; a staged table equal to the active one; every parity
good; and makes each tenant with a valid contract WITHIN with full credit (R180, R99). The announced copies take their reset
values, a port's by its enable setting in force, and the fault record is empty (R154). The image's form is the model's
(log 8). -/
def Obligations.LoadTakesAGoodImage : Prop :=
  ∀ (s : State) (elapsed : Nat) (answer : MemoryAnswer) (m : Image), s.mgmt.imageState = .loading →
    m.wellFormed = true → answer = .image m ∨ (answer = .stored ∧ s.extMemory = some m) →
    ∃ t, exec (.imageLoadEnd elapsed answer) s = .next t
      ∧ t.mgmt = { s.mgmt with imageState := .ok }
      ∧ (∀ i, i < 21 → t.setting i = clampSetting i (m.settings.getD i 0))
      ∧ (∀ k e, (k, e) ∈ m.slots → t.slotAt k = { content := checkOatEntry e, parityGood := true })
      ∧ (∀ k, (∀ e, (k, e) ∉ m.slots) → t.slotAt k = absentSlot)
      ∧ (∀ n r, m.rules[n]? = some r → t.ruleAt n = { content := (checkRule r).getD Rule.disabled, parityGood := true })
      ∧ (∀ x c, (x, c) ∈ m.contracts →
          t.activeAt x = { content := (checkContract c).getD Contract.empty, parityGood := true })
      ∧ (∀ x, (∀ c, (x, c) ∉ m.contracts) → t.activeAt x = emptyContract)
      ∧ (∀ x, t.stagedAt x = t.activeAt x) ∧ t.contracts.generation = m.generation
      ∧ t.contracts.commitPending = false
      ∧ (∀ x, 1 ≤ x → x ≤ 127 → (t.activeAt x).content.valid = true →
          t.liveAt x = { LiveRecord.idle with state := .within, credit := (t.activeAt x).content.burstCap,
                                              minCredit := (t.activeAt x).content.burstCap })
      ∧ (∀ x, (t.activeAt x).content.valid = false → t.liveAt x = LiveRecord.idle)
      ∧ t.timer = { s.timer with refTime := s.now + elapsed,
                                 mode := if t.setting 1 = 0 then .internal else .external }
      ∧ (∀ p, p < 4 → (t.port p).core = { Port.initial with link := if t.setting (7 + p) = 1 then .down else .disabled })
      ∧ t.notices.fault = none
      ∧ (∀ x, Table.read TenantCompared.clear t.notices.annTenant x = TenantCompared.clear)
      ∧ (∀ p, p < 4 → Table.read .disabled t.notices.annPort p = if t.setting (7 + p) = 1 then .down else .disabled)
      ∧ (∀ i, Table.read .absent t.notices.annPresence i = .absent)
      ∧ t.notices.annSource = .internal ∧ t.notices.annFault = none
      ∧ t.notices.queue = s.notices.queue ∧ t.notices.intervalOwed = s.notices.intervalOwed
      ∧ SameOutside [.timer, .now, .links, .downChoice, .upChoice, .oat, .rules, .contracts, .live, .notices, .mgmt,
          .settings] s t

/-- What a save stores, the next load takes back: slots, rules and active contracts whose parity is good and whose fields
are in their ranges, every setting, and the generation (R178, R180, R181, R183). That the memory holds the image as a record
is the model's (log 8). -/
def Obligations.SavedImageLoadsBack : Prop :=
  ∀ (s t u : State) (j : SaveJob) (elapsed : Nat), TablesCanonical s →
    SettingsInRange s → s.mgmt.save = some j → j.snapshot = s.snapshot → exec (.saveEnd .agrees) s = .next t →
    u.mgmt.imageState = .loading → u.extMemory = t.extMemory →
    ∃ v, exec (.imageLoadEnd elapsed .stored) u = .next v ∧ v.mgmt.imageState = .ok
      ∧ v.settings = s.settings ∧ v.contracts.generation = s.contracts.generation
      ∧ (∀ k, keyValid k = true → (s.slotAt k).parityGood = true → (∀ e ∈ (s.slotAt k).content, e.inRange = true) →
          v.slotAt k = s.slotAt k)
      ∧ (∀ k, keyValid k = true → (s.slotAt k).parityGood = false → v.slotAt k = absentSlot)
      ∧ (∀ n, n < 16 → (s.ruleAt n).parityGood = true → (s.ruleAt n).content.inRange = true → v.ruleAt n = s.ruleAt n)
      ∧ (∀ n, n < 16 → (s.ruleAt n).parityGood = false → v.ruleAt n = disabledRule)
      ∧ (∀ x, 1 ≤ x → x ≤ 127 → (s.activeAt x).parityGood = true → (s.activeAt x).content.inRange = true →
          v.activeAt x = s.activeAt x)
      ∧ (∀ x, 1 ≤ x → x ≤ 127 → (s.activeAt x).parityGood = false → v.activeAt x = emptyContract)

/-! ### Time -/

/-- Each source of an advance makes the same advance: the timer's own clock 1 000 ms after the reference time, an EPOCH
frame 500 ms or more after it, the loss expiry 3 000 ms after it, which also makes the mode FALLBACK and records
SOURCE_LOST with the new epoch (R3, R4, R5, R8, R9, R18, R63, R128, R134 to R137). A timer event that is sent after its moment
advances then, and takes its sending time as the reference time (log 2). The order inside an advance is log 12's, a pass
still in progress is replaced (log 13), timeouts and port losses belong to the advance (log 3), and a timeout with attempts
other than 1 is given up (log 23). -/
def Obligations.EachSourceMakesItsAdvance : Prop :=
  ∀ (s : State) (elapsed : Nat), s.mgmt.imageState ≠ .loading →
    (s.timer.mode ≠ .external → s.timer.refTime + 1000 ≤ s.now + elapsed →
      ∃ t, exec (.internalAdvance elapsed) s = .next t ∧ Advanced (s.elapse elapsed) t (s.timer.epoch + 1))
    ∧ (∀ hi lo rest, s.timer.mode = .external → s.timer.refTime + 500 ≤ s.now + elapsed →
      ∃ t, exec (.epoch elapsed (hi :: lo :: rest)) s = .next t
        ∧ Advanced (s.elapse elapsed) t (BitVec.ofNat 16 (hi.toNat * 256 + lo.toNat)))
    ∧ (s.timer.mode = .external → s.timer.refTime + 3000 ≤ s.now + elapsed →
      ∃ u t, exec (.lossExpiry elapsed) s = .next t
        ∧ Advanced ((s.elapse elapsed).setTimer { s.timer with mode := .fallback }) u (s.timer.epoch + 1)
        ∧ t.notices = u.noticesWithFault .sourceLost .none ∧ SameOutside (.notices :: choiceBlocks) u t)

/-- Before its time, in the wrong mode and during the load, a timer event or an EPOCH frame advances nothing; an EPOCH
frame less than 500 ms after the reference time in mode EXTERNAL records EPOCH_EARLY (R3, R4, R5). Time passes. -/
def Obligations.TooEarlyOrInTheWrongModeNothingAdvances : Prop :=
  ∀ (s : State) (elapsed : Nat),
    (s.mgmt.imageState = .loading ∨ s.timer.mode = .external ∨ s.now + elapsed < s.timer.refTime + 1000 →
      exec (.internalAdvance elapsed) s = .next (s.setNow (s.now + elapsed)))
    ∧ (s.mgmt.imageState = .loading ∨ s.timer.mode ≠ .external ∨ s.now + elapsed < s.timer.refTime + 3000 →
      exec (.lossExpiry elapsed) s = .next (s.setNow (s.now + elapsed)))
    ∧ (∀ body, s.mgmt.imageState = .loading ∨ s.timer.mode ≠ .external ∨ body.length < 2 →
      exec (.epoch elapsed body) s = .next (s.setNow (s.now + elapsed)))
    ∧ (∀ body, s.mgmt.imageState ≠ .loading → s.timer.mode = .external → 2 ≤ body.length →
      s.now + elapsed < s.timer.refTime + 500 →
      ∃ t, exec (.epoch elapsed body) s = .next t ∧ t.now = s.now + elapsed
        ∧ t.notices = s.noticesWithFault .epochEarly .none ∧ SameOutside [.now, .notices] s t)

/-- R7: outside power-on, a full reset and the end of a load, the epoch changes only at an advance, and an advance falls
500 ms or more after the one before. -/
def Obligations.AdvancesAreHalfASecondApart : Prop :=
  ∀ (c : Instr) (s t : State), c.restartsTimer = false → exec c s = .next t →
    (t.timer.epoch = s.timer.epoch ∧ t.timer.refTime = s.timer.refTime)
      ∨ (s.timer.refTime + 500 ≤ t.timer.refTime ∧ t.timer.refTime = t.now)

/-- R135: a sent command whose remaining time is 0 is made due again after its first send, and its entry becomes
UNCONFIRMED after its second. The event stands by itself here (log 3). -/
def Obligations.TimeoutRetriesOrGivesUp : Prop :=
  ∀ (s : State) (slot : Nat) (e : CurtailEntry), s.entryAt slot = some e → e.pending = true → e.sent = true →
    e.remaining = 0 →
    ∃ t, exec (.commandTimeout slot) s = .next t
      ∧ (e.attempts = 1 → t.entryAt slot = some { e with sent := false }
          ∧ t.dueAt (keyPort e.outlet) = s.dueAt (keyPort e.outlet) ++ [slot] ∧ t.curtail.owed = s.curtail.owed)
      ∧ (e.attempts = 2 →
          t.entryAt slot = some { e with stage := .unconfirmed, sent := false,
                                         resultOwed := e.resultOwed || !s.masked .curtail }
          ∧ t.curtail.due = s.curtail.due
          ∧ t.curtail.owed = (if s.masked .curtail = true ∨ slot ∈ s.curtail.owed then s.curtail.owed
              else s.curtail.owed ++ [slot]))
      ∧ (∀ m, m ≠ slot → t.entryAt m = s.entryAt m) ∧ t.curtail.records = s.curtail.records
      ∧ t.curtail.tagCounter = s.curtail.tagCounter ∧ t.curtail.creation = s.curtail.creation
      ∧ SameOutside [.curtail, .downChoice, .upChoice] s t

/-- R18, R136: an UP or DEGRADED port whose silent-pass count is 3 goes DOWN, keeps its counts and its queue, and every
pending entry on it becomes UNCONFIRMED, leaves the port's due list, and joins the owed list in slot order unless its kind is
masked (R128, R137). The event stands by itself here (log 3). -/
def Obligations.SilentPortIsLost : Prop :=
  ∀ (s : State) (p : Nat), (s.port p).link = .up ∨ (s.port p).link = .degraded → (s.port p).silentPass = 3 →
    ∃ t, exec (.portLost p) s = .next t
      ∧ (t.port p).core = { (s.port p).core with link := .down }
      ∧ (∀ q, q ≠ p → (t.port q).core = (s.port q).core)
      ∧ (∀ slot, slot < 64 → t.entryAt slot = (s.entryAt slot).map (s.entryAfterLoss p))
      ∧ t.dueAt p = (s.dueAt p).filter (fun n => !s.pendingOn p n) ∧ (∀ q, q ≠ p → t.dueAt q = s.dueAt q)
      ∧ t.curtail.owed = s.owedAfter ((List.range 64).filter (s.pendingOn p))
      ∧ t.curtail.records = s.curtail.records ∧ t.curtail.tagCounter = s.curtail.tagCounter
      ∧ t.curtail.creation = s.curtail.creation
      ∧ SameOutside [.links, .curtail, .downChoice, .upChoice] s t

/-! ### The reconciliation pass -/

/-- R29, R64: the hold sweep at a presence entry that is not ABSENT: the missed count and the state it gives under the hold
limit, and the sweep goes on to its outlets; an ABSENT entry stays and its outlets are passed over, the sweep going on to the
next entry or, after the last, to tenant evaluation. Every other entry stays. That State holds the place is log 19. -/
def Obligations.HoldSweepCountsAMissedEpoch : Prop :=
  ∀ (s : State) (i : Nat), s.passPoint = some (.position i) →
    let next : PassPoint := if (s.presenceAt i).state ≠ .absent then .outlet i 0
      else if i < 63 then .position (i + 1) else .tenant 0
    ∃ t, exec .holdSweepPosition s = .next t
      ∧ ((s.presenceAt i).state = .absent → t.presenceAt i = s.presenceAt i)
      ∧ ((s.presenceAt i).state ≠ .absent → s.closing.pduFlag i = true →
          t.presenceAt i = { state := .present, missed := 0 })
      ∧ ((s.presenceAt i).state ≠ .absent → s.closing.pduFlag i = false →
          (t.presenceAt i).missed = min 255 ((s.presenceAt i).missed + 1)
          ∧ (t.presenceAt i).state =
              if min 255 ((s.presenceAt i).missed + 1) ≤ s.holdLimit then .held else .silent)
      ∧ (∀ j, j ≠ i → t.presenceAt j = s.presenceAt j)
      ∧ t.timer = { s.timer with pass := s.timer.pass.map (fun p => { p with point := next }) }
      ∧ SameOutside [.presence, .timer] s t

/-- R64, R65: where a pass stands, and the hold sweep at an outlet. A pass at a presence entry, at a tenant's evaluation or at
a tenant's curtailment step stands there. A pass among the outlets of an entry that is not ABSENT, from outlet o on, stands at
the first of the outlets o to 47 that is not reported in the closing set; after the last such outlet, and at an ABSENT entry, it
stands at the next entry or, after position 15 of D3, at T0's evaluation. At such an outlet: its age, the held contribution and
its outlet-over count to the tenant and feed it resolves to, or nothing when it is missing, and the tenant's incomplete flag; no
other figure moves, and the pass goes on to the outlets after it. That State holds the place is log 19; that an outlet charged
before a disable that cleared its flag is handled so too is log 26. -/
def Obligations.HoldSweepHoldsOrMissesAnOutlet : Prop :=
  (∀ (s : State) (pass : Pass), s.timer.pass = some pass →
    ((∀ i o, pass.point ≠ .outlet i o) → s.passPoint = some pass.point)
    ∧ ∀ i o, pass.point = .outlet i o →
      let next : PassPoint := if i < 63 then .position (i + 1) else .tenant 0
      ((s.presenceAt i).state = .absent → s.passPoint = some next)
      ∧ ((s.presenceAt i).state ≠ .absent →
        (∀ x, o ≤ x → x < 48 → s.closing.outletFlag (i * 64 + x) = false →
          (∀ y, o ≤ y → y < x → s.closing.outletFlag (i * 64 + y) = true) → s.passPoint = some (.outlet i x))
        ∧ ((∀ y, o ≤ y → y < 48 → s.closing.outletFlag (i * 64 + y) = true) → s.passPoint = some next)))
  ∧ ∀ (s : State) (i o : Nat), s.passPoint = some (.outlet i o) →
    let key := i * 64 + o
    let r := s.resolution key
    let age := min 255 ((s.readingAt key).age + 1)
    (o < 48 ∧ (s.presenceAt i).state ≠ .absent ∧ s.closing.outletFlag key = false)
    ∧ ∃ t, exec .holdSweepOutlet s = .next t
      ∧ t.readingAt key = { last := (s.readingAt key).last, age := age }
      ∧ (∀ k, k ≠ key → t.readingAt k = s.readingAt k)
      ∧ (∀ v, age ≤ s.holdLimit → (s.readingAt key).last = some v →
          t.closing.sum r.feed r.tenant = min wattTop (s.closing.sum r.feed r.tenant + v)
          ∧ t.closing.over r.tenant = s.closing.over r.tenant +
              (match r.outletLimit with | some limit => if limit < v then 1 else 0 | none => 0))
      ∧ (s.holdLimit < age ∨ (s.readingAt key).last = none →
          t.closing.sum r.feed r.tenant = s.closing.sum r.feed r.tenant
          ∧ t.closing.over r.tenant = s.closing.over r.tenant)
      ∧ (∀ f x, (f, x) ≠ (r.feed, r.tenant) → t.closing.sum f x = s.closing.sum f x)
      ∧ (∀ x, x ≠ r.tenant → t.closing.over x = s.closing.over x)
      ∧ t.closing.isIncomplete r.tenant = true
      ∧ (∀ x, x ≠ r.tenant → t.closing.isIncomplete x = s.closing.isIncomplete x)
      ∧ t.closing.outletReported = s.closing.outletReported ∧ t.closing.pduReported = s.closing.pduReported
      ∧ t.notices = s.noticesAfterReading (s.resolutionFaults key)
      ∧ t.timer = { s.timer with pass := s.timer.pass.map (fun p => { p with point := .outlet i (o + 1) }) }
      ∧ (∀ x, o < x → x < 48 → s.closing.outletFlag (i * 64 + x) = false →
          (∀ y, o < y → y < x → s.closing.outletFlag (i * 64 + y) = true) → t.passPoint = some (.outlet i x))
      ∧ ((∀ y, o < y → y < 48 → s.closing.outletFlag (i * 64 + y) = true) →
          t.passPoint = some (if i < 63 then .position (i + 1) else .tenant 0))
      ∧ SameOutside [.readings, .closing, .notices, .timer] s t

/-- R78, R79, R80: an evaluation's draw, energy and peak draw, and the demand moved toward the draw by the gap divided
by 2 to the k, by at least one unit. It changes no other tenant's record and nothing else but the pass's place and what a
read of a bad contract records. -/
def Obligations.EvaluationMovesDemandTowardTheDraw : Prop :=
  ∀ (s : State) (pass : Pass) (x : Nat), s.timer.pass = some pass → s.passPoint = some (.tenant x) →
    let r := s.liveAt x
    let d := min wattTop (s.closing.sum .a x + s.closing.sum .b x)
    ∃ t, exec .tenantEvaluation s = .next t
      ∧ (t.liveAt x).lastDrawA = s.closing.sum .a x ∧ (t.liveAt x).lastDrawB = s.closing.sum .b x
      ∧ (t.liveAt x).energy = min energyTop (r.energy + d) ∧ (t.liveAt x).peakDraw = max r.peakDraw d
      ∧ (r.demand = d * 256 → (t.liveAt x).demand = r.demand)
      ∧ (r.demand < d * 256 → (t.liveAt x).demand = r.demand + max 1 ((d * 256 - r.demand) / 2 ^ s.demandShift))
      ∧ (d * 256 < r.demand → (t.liveAt x).demand = r.demand - max 1 ((r.demand - d * 256) / 2 ^ s.demandShift))
      ∧ (t.liveAt x).peakDemand = max r.peakDemand ((t.liveAt x).demand / 256)
      ∧ (t.liveAt x).lastEpoch = some pass.epoch
      ∧ (t.liveAt x).incomplete = s.closing.isIncomplete x ∧ (t.liveAt x).outletOver = s.closing.over x
      ∧ (t.liveAt x).incompleteTicks = r.incompleteTicks + (if s.closing.isIncomplete x = true then 1 else 0)
      ∧ (t.liveAt x).minCredit = min r.minCredit (t.liveAt x).credit
      ∧ (∀ y, y ≠ x → t.liveAt y = s.liveAt y)
      ∧ SameOutside [.live, .timer, .notices] s t

/-- R83, R84, R86, R87, R92: the evaluation of a tenant in WITHIN, BURST or OVER whose contract is valid with good
parity: thresholds, credit, state, quiet counter, ticks-in-OVER, tick counts and feed-over flags. R77, R95: it hands the tenant to
the curtailment step with the transition it made, BURST or OVER at its end, OVER to WITHIN, or another, and with the contract it
read; the place of the pass, which State holds, carries both (log 19). -/
def Obligations.EvaluationJudgesTheContract : Prop :=
  ∀ (s : State) (x : Nat), s.passPoint = some (.tenant x) → (s.liveAt x).state ≠ .idle →
    (s.activeAt x).parityGood = true → (s.activeAt x).content.valid = true →
    let c := (s.activeAt x).content
    let r := s.liveAt x
    let high := min wattTop (c.committed + c.committed * c.tolerance / 1000)
    let release := c.committed - c.committed * c.hysteresis / 1000
    ∃ t, exec .tenantEvaluation s = .next t
      ∧ (let q := t.liveAt x
         let dw := q.demand / 256
         (c.committed < dw → q.credit = r.credit - (dw - c.committed))
         ∧ (dw ≤ c.committed → q.credit = min c.burstCap (r.credit + min (c.committed - dw) c.refillCap))
         ∧ (high < dw → q.state = .over ∧ q.quiet = 0)
         ∧ (dw ≤ high → c.committed < dw → r.state ≠ .over → 0 < q.credit → q.state = .burst)
         ∧ (dw ≤ high → c.committed < dw → r.state = .over ∨ q.credit = 0 → q.state = .over ∧ q.quiet = 0)
         ∧ (dw ≤ high → dw ≤ c.committed → r.state ≠ .over → q.state = .within)
         ∧ (dw ≤ high → dw ≤ c.committed → release < dw → r.state = .over → q.state = .over ∧ q.quiet = 0)
         ∧ (dw ≤ high → dw ≤ c.committed → dw ≤ release → r.state = .over → r.quiet + 1 < c.quiet →
             q.state = .over ∧ q.quiet = r.quiet + 1)
         ∧ (dw ≤ high → dw ≤ c.committed → dw ≤ release → r.state = .over → c.quiet ≤ r.quiet + 1 →
             q.state = .within ∧ q.quiet = 0)
         ∧ (q.state = .over → r.state = .over → q.ticksInOver = min 65535 (r.ticksInOver + 1))
         ∧ (q.state = .over → r.state ≠ .over → q.ticksInOver = 1)
         ∧ (q.state ≠ .over → q.ticksInOver = 0 ∧ q.quiet = 0)
         ∧ q.burstTicks = r.burstTicks + (if q.state = .burst then 1 else 0)
         ∧ q.overTicks = r.overTicks + (if q.state = .over then 1 else 0)
         ∧ (q.feedOverA = true ↔ c.feedCap ≠ 0 ∧ c.feedCap < s.closing.sum .a x)
         ∧ (q.feedOverB = true ↔ c.feedCap ≠ 0 ∧ c.feedCap < s.closing.sum .b x)
         ∧ (let transition : Transition :=
              if q.state = .burst ∨ q.state = .over then .endedHot
              else if r.state = .over then .overToWithin else .other
            t.timer = { s.timer with
              pass := s.timer.pass.map (fun p => { p with point := .curtail x transition (some c) }) }))
      ∧ t.notices = s.notices

/-- R88, R89, R92, R93: a tenant that is IDLE stays IDLE with its contract unread; one whose contract is not valid or has
bad parity becomes IDLE with no credit and no counts, the bad parity being recorded. R77, R95: it is handed to the curtailment
step with no contract, and with the transition to IDLE where it was not IDLE before; the place of the pass, which State holds,
carries both (log 19). -/
def Obligations.EvaluationWithoutAContractEndsIdle : Prop :=
  ∀ (s : State) (x : Nat), s.passPoint = some (.tenant x) →
    (s.liveAt x).state = .idle ∨ (s.activeAt x).parityGood = false ∨ (s.activeAt x).content.valid = false →
    ∃ t, exec .tenantEvaluation s = .next t
      ∧ (t.liveAt x).state = .idle
      ∧ ((s.liveAt x).state = .idle → (t.liveAt x).credit = (s.liveAt x).credit
          ∧ (t.liveAt x).ticksInOver = (s.liveAt x).ticksInOver ∧ (t.liveAt x).quiet = (s.liveAt x).quiet
          ∧ t.notices = s.notices)
      ∧ ((s.liveAt x).state ≠ .idle → (t.liveAt x).credit = 0 ∧ (t.liveAt x).ticksInOver = 0 ∧ (t.liveAt x).quiet = 0
          ∧ (t.liveAt x).minCredit = 0
          ∧ t.notices = if (s.activeAt x).parityGood = true then s.notices
              else s.noticesWithFault .tableParity (.item .active x))
      ∧ (t.liveAt x).burstTicks = (s.liveAt x).burstTicks ∧ (t.liveAt x).overTicks = (s.liveAt x).overTicks
      ∧ (t.liveAt x).feedOverA = false ∧ (t.liveAt x).feedOverB = false
      ∧ (let transition : Transition := if (s.liveAt x).state = .idle then .other else .becameIdle
         t.timer = { s.timer with
           pass := s.timer.pass.map (fun p => { p with point := .curtail x transition none }) })

/-! ### Curtailment -/

/-- R124, R125: part 1 of the curtailment step, where no other part follows: the tenant has a pending entry, or its
restoring is NONE after part 1 and a condition of R126 is not met (no contract in force, policy NOTIFY, not in OVER, Dw not
above C, ticks-in-OVER below G). The table, the due lists, the owed list and every other record stay. -/
def Obligations.CurtailmentStepActsOnTheTransition : Prop :=
  ∀ (s : State) (x : Nat) (tr : Transition) (c : Option Contract), s.passPoint = some (.curtail x tr c) →
    let restoring : Restoring := match tr with
      | .overToWithin =>
          if (∃ k, c = some k ∧ k.policy = .auto) ∧ (s.curtailAt x).restoring ≠ .forced then .auto
          else (s.curtailAt x).restoring
      | .endedHot => if (s.curtailAt x).restoring = .auto then .none else (s.curtailAt x).restoring
      | .becameIdle => .none
      | .other => (s.curtailAt x).restoring
    (s.tenantPending x = true
      ∨ (restoring = .none ∧ ∀ k, c = some k → k.policy = .notify ∨ (s.liveAt x).state ≠ .over
          ∨ (s.liveAt x).demand / 256 ≤ k.committed ∨ (s.liveAt x).ticksInOver < k.grace)) →
    ∃ t, exec .curtailmentStep s = .next t
      ∧ (tr = .overToWithin → t.curtailAt x = { restoring := restoring, exhausted := false, blocked := false })
      ∧ (tr = .endedHot → t.curtailAt x = { s.curtailAt x with restoring := restoring })
      ∧ (tr = .becameIdle → t.curtailAt x = TenantCurtail.clear)
      ∧ (tr = .other → t.curtailAt x = s.curtailAt x)
      ∧ (∀ y, y ≠ x → t.curtailAt y = s.curtailAt y)
      ∧ (∀ n, n < 64 → t.entryAt n = (s.entryAt n).map (fun e =>
          if e.tenant = x ∧ (tr = .becameIdle ∨ (tr = .endedHot ∧ (s.curtailAt x).restoring = .auto)) then
            { e with tried := false } else e))
      ∧ t.curtail.due = s.curtail.due ∧ t.curtail.owed = s.curtail.owed
      ∧ t.curtail.creation = s.curtail.creation ∧ t.curtail.tagCounter = s.curtail.tagCounter
      ∧ (x < 127 → t.timer = { s.timer with pass := s.timer.pass.map (fun p => { p with point := .tenant (x + 1) }) })
      ∧ SameOutside ((if x < 127 then [] else [.links]) ++ [.curtail, .timer, .downChoice, .upChoice]) s t

/-- R46, R126, R127: where the shed step's conditions hold, the sheddable outlet of lowest rank, and of lowest key among
those of its rank, that is in no entry, on an UP or DEGRADED port and on a PRESENT PDU, gets an OFF_PENDING entry in the
lowest empty slot, last in its port's due list. The tenant was restoring NONE, or AUTO, which part 1 of the same step ends: then
the tried flags of its entries clear (R124, R125). -/
def Obligations.ShedStepShedsTheFirstEligibleOutlet : Prop :=
  ∀ (s : State) (x : Nat) (c : Contract) (key slot rank : Nat),
    TablesCanonical s → s.passPoint = some (.curtail x .endedHot (some c)) →
    c.policy ≠ .notify → (s.liveAt x).state = .over → c.committed < (s.liveAt x).demand / 256 →
    c.grace ≤ (s.liveAt x).ticksInOver → (s.curtailAt x).restoring = .none ∨ (s.curtailAt x).restoring = .auto →
    s.tenantPending x = false →
    let eligible := fun (k r : Nat) => 1 ≤ r ∧ r ≤ 15 ∧ (s.slotAt k).parityGood = true
      ∧ (∃ e, (s.slotAt k).content = some e ∧ e.tenant = x ∧ e.shedRank = some r)
      ∧ (∀ n, n < 64 → ∀ e, s.entryAt n = some e → e.outlet ≠ k)
      ∧ ((s.port (keyPort k)).link = .up ∨ (s.port (keyPort k)).link = .degraded)
      ∧ (s.presenceAt (keyPdu k)).state = .present
    eligible key rank → (∀ k r, eligible k r → rank < r ∨ (rank = r ∧ key ≤ k)) →
    slot < 64 → s.entryAt slot = none → (∀ n, n < slot → s.entryAt n ≠ none) →
    ∃ t, exec .curtailmentStep s = .next t
      ∧ t.entryAt slot = some { outlet := key, tenant := x, stage := .offPending, sent := false, tag := 0,
                                remaining := 0, attempts := 0, sequence := s.curtail.creation, tried := false,
                                resultOwed := false }
      ∧ (∀ n, n ≠ slot → t.entryAt n = (s.entryAt n).map (fun e =>
          if n < 64 ∧ (s.curtailAt x).restoring = .auto ∧ e.tenant = x then { e with tried := false } else e))
      ∧ t.dueAt (keyPort key) = s.dueAt (keyPort key) ++ [slot]
      ∧ (∀ p, p ≠ keyPort key → t.dueAt p = s.dueAt p)
      ∧ t.curtail.creation = s.curtail.creation + 1 ∧ t.curtail.tagCounter = s.curtail.tagCounter
      ∧ t.curtail.owed = s.curtail.owed
      ∧ t.curtailAt x = { restoring := .none, exhausted := false, blocked := false }
      ∧ (∀ y, y ≠ x → t.curtailAt y = s.curtailAt y)
      ∧ t.notices = s.noticesAfterReading s.badSlots
      ∧ (x < 127 → t.timer = { s.timer with pass := s.timer.pass.map (fun p => { p with point := .tenant (x + 1) }) })
      ∧ SameOutside ((if x < 127 then [] else [.links]) ++ [.curtail, .notices, .timer, .downChoice, .upChoice]) s t

/-- R127: a shed step that finds no eligible outlet sets exhausted, one that finds one but the table full sets blocked; neither
makes an entry. The scan's bad slots are recorded (R45, R46), and a restoring AUTO that part 1 ends leaves the tenant's tried
flags clear (R125). -/
def Obligations.ShedStepReportsExhaustedOrBlocked : Prop :=
  ∀ (s : State) (x : Nat) (c : Contract), s.passPoint = some (.curtail x .endedHot (some c)) →
    c.policy ≠ .notify → (s.liveAt x).state = .over → c.committed < (s.liveAt x).demand / 256 →
    c.grace ≤ (s.liveAt x).ticksInOver → (s.curtailAt x).restoring = .none ∨ (s.curtailAt x).restoring = .auto →
    s.tenantPending x = false →
    let eligible := ∃ k r, 1 ≤ r ∧ r ≤ 15 ∧ (s.slotAt k).parityGood = true
      ∧ (∃ e, (s.slotAt k).content = some e ∧ e.tenant = x ∧ e.shedRank = some r)
      ∧ (∀ n, n < 64 → ∀ e, s.entryAt n = some e → e.outlet ≠ k)
      ∧ ((s.port (keyPort k)).link = .up ∨ (s.port (keyPort k)).link = .degraded)
      ∧ (s.presenceAt (keyPdu k)).state = .present
    ¬ eligible ∨ (∀ n, n < 64 → s.entryAt n ≠ none) →
    ∃ t, exec .curtailmentStep s = .next t
      ∧ (∀ n, t.entryAt n = (s.entryAt n).map (fun e =>
          if n < 64 ∧ (s.curtailAt x).restoring = .auto ∧ e.tenant = x then { e with tried := false } else e))
      ∧ t.curtail.due = s.curtail.due ∧ t.curtail.owed = s.curtail.owed
      ∧ t.curtail.creation = s.curtail.creation ∧ t.curtail.tagCounter = s.curtail.tagCounter
      ∧ (¬ eligible → t.curtailAt x = { s.curtailAt x with restoring := .none, exhausted := true })
      ∧ (eligible → t.curtailAt x = { s.curtailAt x with restoring := .none, blocked := true })
      ∧ (∀ y, y ≠ x → t.curtailAt y = s.curtailAt y)
      ∧ t.notices = s.noticesAfterReading s.badSlots
      ∧ (x < 127 → t.timer = { s.timer with pass := s.timer.pass.map (fun p => { p with point := .tenant (x + 1) }) })
      ∧ SameOutside ((if x < 127 then [] else [.links]) ++ [.curtail, .notices, .timer, .downChoice, .upChoice]) s t

/-- R138, R140: the restore step goes through the tenant's untried restorable entries, the most recently made first. It
removes those that are SKIPPED, passes over those whose port or PDU is out of service, and sets the first other one,
ON_PENDING, with its command due; then it ends. It is taken in a restore that goes on, in a FORCED one in BURST or OVER too,
and in the step whose evaluation came back from OVER under policy AUTO. Of two entries with one creation sequence the one in
the lower slot is taken first (log 27). -/
def Obligations.RestoreStepTakesTheMostRecentEntry : Prop :=
  ∀ (s : State) (x n : Nat) (tr : Transition) (c : Option Contract) (e : CurtailEntry),
    s.passPoint = some (.curtail x tr c) →
    (tr = .other ∧ (s.curtailAt x).restoring ≠ .none) ∨ (tr = .endedHot ∧ (s.curtailAt x).restoring = .forced)
      ∨ (tr = .overToWithin ∧ ((s.curtailAt x).restoring ≠ .none ∨ ∃ k, c = some k ∧ k.policy = .auto)) →
    s.tenantPending x = false →
    let inService := fun (f : CurtailEntry) =>
      ((s.port (keyPort f.outlet)).link = .up ∨ (s.port (keyPort f.outlet)).link = .degraded)
        ∧ ((s.presenceAt (keyPdu f.outlet)).state = .present ∨ (s.presenceAt (keyPdu f.outlet)).state = .held)
    let untried := fun (m : Nat) (f : CurtailEntry) => m < 64 ∧ s.entryAt m = some f ∧ f.tenant = x ∧ f.tried = false
      ∧ (f.stage = .off ∨ f.stage = .unconfirmed ∨ f.stage = .skipped)
    let back := fun (f : CurtailEntry) => (s.curtail.creation - f.sequence).toNat
    let earlier := fun (m : Nat) (f : CurtailEntry) => back f < back e ∨ (back f = back e ∧ m < n)
    untried n e → e.stage ≠ .skipped → inService e →
    (∀ m f, untried m f → earlier m f → f.stage = .skipped ∨ ¬ inService f) →
    let removed := fun (m : Nat) => ∃ f, untried m f ∧ earlier m f ∧ f.stage = .skipped
    ∃ t, exec .curtailmentStep s = .next t
      ∧ t.entryAt n = some { e with stage := .onPending, sent := false, remaining := 0, attempts := 0, tried := true }
      ∧ (∀ m, removed m → t.entryAt m = none)
      ∧ (∀ m, m ≠ n → ¬ removed m → t.entryAt m = s.entryAt m)
      ∧ t.curtail.owed = s.curtail.owed.filter (fun m => (s.entryAt m).isNone || (t.entryAt m).isSome)
      ∧ t.dueAt (keyPort e.outlet) = s.dueAt (keyPort e.outlet) ++ [n]
      ∧ (∀ p, p ≠ keyPort e.outlet → t.dueAt p = s.dueAt p)
      ∧ (tr ≠ .overToWithin → t.curtailAt x = s.curtailAt x)
      ∧ (tr = .overToWithin → t.curtailAt x = {
          restoring := if (∃ k, c = some k ∧ k.policy = .auto) ∧ (s.curtailAt x).restoring ≠ .forced then .auto
                       else (s.curtailAt x).restoring,
          exhausted := false, blocked := false })
      ∧ (∀ y, y ≠ x → t.curtailAt y = s.curtailAt y)
      ∧ t.curtail.creation = s.curtail.creation ∧ t.curtail.tagCounter = s.curtail.tagCounter
      ∧ (x < 127 → t.timer = { s.timer with pass := s.timer.pass.map (fun p => { p with point := .tenant (x + 1) }) })
      ∧ SameOutside ((if x < 127 then [] else [.links]) ++ [.curtail, .timer, .downChoice, .upChoice]) s t

/-- R138, R139: a restore step that sets no entry ON_PENDING removes the untried SKIPPED entries. Where no other untried
restorable entry is there it ends the restore: restoring NONE, the tenant's tried flags clear, ticks-in-OVER 0; a restore
that begins in this very step (OVER to WITHIN under AUTO, R140) can end in it. Where others are there, each on a port or a
PDU out of service, restoring stays as part 1 left it and they stay untried. -/
def Obligations.RestoreStepWithoutACommandEndsOrWaits : Prop :=
  ∀ (s : State) (x : Nat) (tr : Transition) (c : Option Contract), s.passPoint = some (.curtail x tr c) →
    (tr = .other ∧ (s.curtailAt x).restoring ≠ .none) ∨ (tr = .endedHot ∧ (s.curtailAt x).restoring = .forced)
      ∨ (tr = .overToWithin ∧ ((s.curtailAt x).restoring ≠ .none ∨ ∃ k, c = some k ∧ k.policy = .auto)) →
    s.tenantPending x = false →
    let inService := fun (f : CurtailEntry) =>
      ((s.port (keyPort f.outlet)).link = .up ∨ (s.port (keyPort f.outlet)).link = .degraded)
        ∧ ((s.presenceAt (keyPdu f.outlet)).state = .present ∨ (s.presenceAt (keyPdu f.outlet)).state = .held)
    let untried := fun (m : Nat) (f : CurtailEntry) => m < 64 ∧ s.entryAt m = some f ∧ f.tenant = x ∧ f.tried = false
      ∧ (f.stage = .off ∨ f.stage = .unconfirmed ∨ f.stage = .skipped)
    let cleared := decide (tr = .overToWithin)
    let removed := fun (m : Nat) => ∃ f, untried m f ∧ f.stage = .skipped
    ((∀ m f, untried m f → f.stage = .skipped) →
      ∃ t, exec .curtailmentStep s = .next t
        ∧ t.curtailAt x = { restoring := .none, exhausted := (s.curtailAt x).exhausted && !cleared,
                            blocked := (s.curtailAt x).blocked && !cleared }
        ∧ (∀ y, y ≠ x → t.curtailAt y = s.curtailAt y)
        ∧ (∀ m, removed m → t.entryAt m = none)
        ∧ (∀ m, m < 64 → ¬ removed m → t.entryAt m =
            (s.entryAt m).map (fun e => if e.tenant = x then { e with tried := false } else e))
        ∧ t.curtail.owed = s.curtail.owed.filter (fun m => (s.entryAt m).isNone || (t.entryAt m).isSome)
        ∧ t.liveAt x = { s.liveAt x with ticksInOver := 0 } ∧ (∀ y, y ≠ x → t.liveAt y = s.liveAt y)
        ∧ t.curtail.due = s.curtail.due ∧ t.curtail.creation = s.curtail.creation
        ∧ t.curtail.tagCounter = s.curtail.tagCounter
        ∧ (x < 127 → t.timer = { s.timer with
            pass := s.timer.pass.map (fun p => { p with point := .tenant (x + 1) }) })
        ∧ SameOutside ((if x < 127 then [] else [.links]) ++ [.curtail, .live, .timer, .downChoice, .upChoice]) s t)
    ∧ ((∀ m f, untried m f → f.stage = .skipped ∨ ¬ inService f) → (∃ m f, untried m f ∧ f.stage ≠ .skipped) →
      ∃ t, exec .curtailmentStep s = .next t
        ∧ t.curtailAt x = {
            restoring := if tr = .overToWithin ∧ (∃ k, c = some k ∧ k.policy = .auto)
                            ∧ (s.curtailAt x).restoring ≠ .forced then .auto else (s.curtailAt x).restoring,
            exhausted := (s.curtailAt x).exhausted && !cleared, blocked := (s.curtailAt x).blocked && !cleared }
        ∧ (∀ y, y ≠ x → t.curtailAt y = s.curtailAt y)
        ∧ (∀ m, removed m → t.entryAt m = none) ∧ (∀ m, ¬ removed m → t.entryAt m = s.entryAt m)
        ∧ t.curtail.owed = s.curtail.owed.filter (fun m => (s.entryAt m).isNone || (t.entryAt m).isSome)
        ∧ t.curtail.due = s.curtail.due ∧ t.curtail.creation = s.curtail.creation
        ∧ t.curtail.tagCounter = s.curtail.tagCounter
        ∧ (x < 127 → t.timer = { s.timer with
            pass := s.timer.pass.map (fun p => { p with point := .tenant (x + 1) }) })
        ∧ SameOutside ((if x < 127 then [] else [.links]) ++ [.curtail, .timer, .downChoice, .upChoice]) s t)

/-- R10, R11, R19: the curtailment step after T127 completes the pass: one tick, or, when the count reaches the ticks per
interval, an interval close: count 0, the next interval number, a DEGRADED port below the threshold UP, error counts 0.
The close is handed on in the place of one not yet taken (log 16). -/
def Obligations.LastCurtailmentStepCompletesThePass : Prop :=
  ∀ (s : State) (tr : Transition) (c : Option Contract), s.passPoint = some (.curtail 127 tr c) →
    ∃ t, exec .curtailmentStep s = .next t
      ∧ (s.timer.tickCount + 1 < s.ticksPerInterval →
          t.timer = { s.timer with pass := none, tickCount := s.timer.tickCount + 1 }
          ∧ ∀ p, (t.port p).core = (s.port p).core)
      ∧ (s.ticksPerInterval ≤ s.timer.tickCount + 1 →
          t.timer = { s.timer with pass := none, tickCount := 0, intervalNumber := s.timer.intervalNumber + 1,
                                   handedClose := some (s.timer.intervalNumber + 1) }
          ∧ ∀ p, p < 4 → (t.port p).core = { (s.port p).core with
              errorCount := 0,
              link := if (s.port p).link = .degraded ∧ (s.port p).errorCount < s.errorThreshold then .up
                      else (s.port p).link })
      ∧ SameOutside [.timer, .links, .downChoice, .upChoice, .curtail, .live, .notices] s t

/-! ### The interval close -/

/-- R110, R111, R112, R116, R149: a close without a switch captures every tenant's summary under the closed interval's
number, clears the accumulators, and makes the INTERVAL notice owed unless its kind is masked. -/
def Obligations.CloseCapturesAndClears : Prop :=
  ∀ (s : State) (n : BitVec 32), s.timer.handedClose = some n →
    s.contracts.commitPending = false ∨ s.mgmt.imageState = .saving →
    ∃ t, exec .intervalClose s = .next t
      ∧ t.timer = { s.timer with handedClose := none }
      ∧ (∀ x, x ≤ 127 → t.summaryAt x = some
          { interval := n, generation := s.contracts.generation, energy := (s.liveAt x).energy,
            peakDemand := (s.liveAt x).peakDemand, peakDraw := (s.liveAt x).peakDraw,
            burstTicks := (s.liveAt x).burstTicks, overTicks := (s.liveAt x).overTicks,
            incompleteTicks := (s.liveAt x).incompleteTicks, minCredit := (s.liveAt x).minCredit,
            state := (s.liveAt x).state })
      ∧ (∀ x, x ≤ 127 → t.liveAt x = { s.liveAt x with
            energy := 0, peakDemand := 0, peakDraw := 0, burstTicks := 0,
            overTicks := 0, incompleteTicks := 0, minCredit := (s.liveAt x).credit })
      ∧ t.contracts.active = s.contracts.active ∧ t.contracts.staged = s.contracts.staged
      ∧ t.contracts.commitPending = s.contracts.commitPending ∧ t.contracts.generation = s.contracts.generation
      ∧ t.notices = (if s.masked .interval = true then s.notices else { s.notices with
          intervalOwed := some (n, s.contracts.generation,
            match s.notices.intervalOwed with | some w => w.2.2 | none => false) })
      ∧ SameOutside [.timer, .contracts, .live, .notices] s t

/-- R110 to R116: a close that finds commit-pending and no save is taken, captures every tenant's summary under the old
generation, clears the accumulators, copies the staged table to the active one, bad records as the empty contract, advances the
generation, clears commit-pending, and gives each tenant T1 to T127 the consequence of its state before and its new record, T0
none. The tried flags clear for the entries of a tenant whose restoring the switch ends or that it makes IDLE; nothing else of
the curtailment table changes. The first bad staged record is recorded as TABLE_PARITY, and the INTERVAL notice becomes owed
with the generation after the switch and switch taken yes, unless its kind is masked (R149). -/
def Obligations.SwitchPutsTheStagedContractsInForce : Prop :=
  ∀ (s : State) (n : BitVec 32), s.timer.handedClose = some n → s.contracts.commitPending = true →
    s.mgmt.imageState ≠ .saving →
    let contract := fun (x : Nat) => if (s.stagedAt x).parityGood = true then (s.stagedAt x).content else Contract.empty
    let cleared := fun (x : Nat) => ({ s.liveAt x with
      energy := 0, peakDemand := 0, peakDraw := 0, burstTicks := 0, overTicks := 0, incompleteTicks := 0,
      minCredit := (s.liveAt x).credit } : LiveRecord)
    let untries := fun (x : Nat) => 1 ≤ x ∧ x ≤ 127 ∧ (s.liveAt x).state ≠ .idle ∧ ((contract x).valid = false
      ∨ ((contract x).policy ≠ .auto ∧ (s.curtailAt x).restoring = .auto))
    ∃ t, exec .intervalClose s = .next t
      ∧ t.contracts.commitPending = false ∧ t.contracts.generation = s.contracts.generation + 1
      ∧ t.contracts.staged = s.contracts.staged
      ∧ (∀ x, x ≤ 127 → t.summaryAt x = some
          { interval := n, generation := s.contracts.generation, energy := (s.liveAt x).energy,
            peakDemand := (s.liveAt x).peakDemand, peakDraw := (s.liveAt x).peakDraw,
            burstTicks := (s.liveAt x).burstTicks, overTicks := (s.liveAt x).overTicks,
            incompleteTicks := (s.liveAt x).incompleteTicks, minCredit := (s.liveAt x).minCredit,
            state := (s.liveAt x).state })
      ∧ (t.liveAt 0 = cleared 0 ∧ t.curtailAt 0 = s.curtailAt 0)
      ∧ (∀ x, 1 ≤ x → x ≤ 127 →
          let c := contract x
          let b := min (s.liveAt x).credit c.burstCap
          t.activeAt x = { content := c, parityGood := true }
          ∧ ((s.liveAt x).state ≠ .idle → c.valid = true →
              t.liveAt x = { cleared x with credit := b, minCredit := b }
              ∧ t.curtailAt x = { s.curtailAt x with
                  restoring := if c.policy ≠ .auto ∧ (s.curtailAt x).restoring = .auto then .none
                               else (s.curtailAt x).restoring })
          ∧ ((s.liveAt x).state = .idle → c.valid = true →
              t.liveAt x = { cleared x with state := .within, ticksInOver := 0, quiet := 0, credit := c.burstCap,
                                            minCredit := c.burstCap }
              ∧ t.curtailAt x = s.curtailAt x)
          ∧ ((s.liveAt x).state ≠ .idle → c.valid = false →
              t.liveAt x = { cleared x with state := .idle, ticksInOver := 0, quiet := 0, credit := 0, minCredit := 0 }
              ∧ t.curtailAt x = TenantCurtail.clear)
          ∧ ((s.liveAt x).state = .idle → c.valid = false →
              t.liveAt x = cleared x ∧ t.curtailAt x = s.curtailAt x))
      ∧ (∀ m, m < 64 → ∀ e, s.entryAt m = some e →
          (untries e.tenant → t.entryAt m = some { e with tried := false })
          ∧ (¬ untries e.tenant → t.entryAt m = some e))
      ∧ (∀ m, 64 ≤ m ∨ s.entryAt m = none → t.entryAt m = s.entryAt m)
      ∧ t.curtail.due = s.curtail.due ∧ t.curtail.owed = s.curtail.owed
      ∧ t.curtail.creation = s.curtail.creation ∧ t.curtail.tagCounter = s.curtail.tagCounter
      ∧ t.timer = { s.timer with handedClose := none }
      ∧ (let owing := fun (u : NoticeUnit) => if s.masked .interval = true then u
            else { u with intervalOwed := some (n, s.contracts.generation + 1, true) }
         (∀ x, 1 ≤ x → x ≤ 127 → (s.stagedAt x).parityGood = false →
            (∀ y, 1 ≤ y → y < x → (s.stagedAt y).parityGood = true) →
            t.notices = owing (s.noticesWithFault .tableParity (.item .staged x)))
         ∧ ((∀ x, 1 ≤ x → x ≤ 127 → (s.stagedAt x).parityGood = true) → t.notices = owing s.notices))
      ∧ SameOutside [.timer, .contracts, .live, .curtail, .notices] s t

/-! ### Frames on the chains -/

/-- R23: a DISABLED port discards every frame it receives, well-formed or not, with no effect at all. R17: a malformed
frame on an enabled port is counted, saturating, and takes an UP port whose count is then E or more to DEGRADED with
PORT_DEGRADED recorded; the silent-pass count stays. -/
def Obligations.DisabledPortsDiscardAndMalformedFramesCount : Prop :=
  ∀ (s : State) (p : Nat) (body : List Byte),
    ((s.port p).link = .disabled →
      exec (.sample p body) s = .next s ∧ exec (.switchAck p body) s = .next s ∧ exec (.pduReply p body) s = .next s
        ∧ exec (.chainRequest p body) s = .next s ∧ exec (.chainMalformedFrame p) s = .next s)
    ∧ ((s.port p).link ≠ .disabled →
      let count := min 65535 ((s.port p).errorCount + 1)
      let degrades := (s.port p).link = .up ∧ s.errorThreshold ≤ count
      ∃ t, exec (.chainMalformedFrame p) s = .next t
        ∧ (degrades → t.port p = { s.port p with errorCount := count, link := .degraded }
            ∧ t.notices = s.noticesWithFault .portDegraded (.port p))
        ∧ (¬ degrades → t.port p = { s.port p with errorCount := count } ∧ t.notices = s.notices)
        ∧ (∀ q, q ≠ p → t.port q = s.port q)
        ∧ SameOutside [.links, .notices] s t)

/-- R16, R28, R188: a SAMPLE that the acceptance window does not accept has had its effect on the link state and has no
other: too short, a position above 15, settling, a duplicate; or, mistimed, it records MISTIMED_SAMPLE. -/
def Obligations.DiscardedSampleChangesOnlyTheLink : Prop :=
  ∀ (s : State) (p : Nat) (body : List Byte), (s.port p).link ≠ .disabled →
    (body.length < 3 → ∃ h t, exec (.sample p body) s = .next t ∧ Heard p s h ∧ SameOutside choiceBlocks h t)
    ∧ ∀ position hi lo rest, body = position :: hi :: lo :: rest →
      let back := s.timer.epoch - BitVec.ofNat 16 (hi.toNat * 256 + lo.toNat)
      (15 < position.toNat ∨ (s.port p).settling = true
          ∨ (back = 1 ∧ s.filling.pduFlag (p * 16 + position.toNat) = true) →
        ∃ h t, exec (.sample p body) s = .next t ∧ Heard p s h ∧ SameOutside choiceBlocks h t)
      ∧ (position.toNat ≤ 15 → (s.port p).settling = false → back ≠ 1 →
        ∃ h t, exec (.sample p body) s = .next t ∧ Heard p s h
          ∧ t.notices = h.noticesWithFault .mistimedSample (.portPosition p position.toNat)
          ∧ SameOutside (.notices :: choiceBlocks) h t)

/-- R26, R27, R31, R163: an accepted SAMPLE sets its PDU's reported flag, makes its presence entry PRESENT with count 0,
and offers its whole body to the forward queue when forwarding is on; with no complete entry it charges nothing and
stores nothing. -/
def Obligations.AcceptedSampleReportsItsPdu : Prop :=
  ∀ (s : State) (p : Nat) (position hi lo : Byte) (rest : List Byte), (s.port p).link ≠ .disabled →
    position.toNat ≤ 15 → (s.port p).settling = false →
    s.timer.epoch - BitVec.ofNat 16 (hi.toNat * 256 + lo.toNat) = 1 →
    s.filling.pduFlag (p * 16 + position.toNat) = false →
    let pdu := p * 16 + position.toNat
    let body := position :: hi :: lo :: rest
    ∃ h t, exec (.sample p body) s = .next t ∧ Heard p s h
      ∧ t.filling.pduFlag pdu = true ∧ (∀ i, i ≠ pdu → t.filling.pduFlag i = s.filling.pduFlag i)
      ∧ t.presenceAt pdu = { state := .present, missed := 0 }
      ∧ (∀ i, i ≠ pdu → t.presenceAt i = s.presenceAt i)
      ∧ t.uplink.core = { s.uplink.core with forwards :=
          if s.forwarding = true ∧ s.uplink.forwards.length < 16 then
            s.uplink.forwards ++ [{ port := p, kind := kindSample, body := body }] else s.uplink.forwards }
      ∧ (∀ k, k / 64 ≠ pdu → t.readingAt k = s.readingAt k ∧ t.filling.outletFlag k = s.filling.outletFlag k)
      ∧ (rest.length < 3 → t.readings = s.readings ∧ t.notices = h.notices
          ∧ t.filling = { s.filling with pduReported := t.filling.pduReported })
      ∧ t.filling.incomplete = s.filling.incomplete
      ∧ SameOutside [.notices, .filling, .presence, .readings, .uplink, .downChoice, .upChoice] h t

/-- R59, R60, R61, R62, R189: in an accepted SAMPLE the first 48 complete entries are read, in order; of these the measured
ones count, which `measured` picks: a valid outlet index, the first of its index, not the unmeasured value. Each is stored
with age 0, flagged, and added to the feed sum of the tenant its key resolves to, with the outlet limit tested; no other
record, sum, count or outlet flag changes. The first bad item that their resolutions read is recorded (R45, R155). -/
def Obligations.MeasuredReadingIsChargedOnce : Prop :=
  ∀ (s : State) (p : Nat) (position hi lo : Byte) (entries : List (Byte × Byte × Byte)) (tail : List Byte),
    (s.port p).link ≠ .disabled → position.toNat ≤ 15 → (s.port p).settling = false →
    s.timer.epoch - BitVec.ofNat 16 (hi.toNat * 256 + lo.toNat) = 1 →
    s.filling.pduFlag (p * 16 + position.toNat) = false → tail.length < 3 →
    let body := position :: hi :: lo :: (entries.flatMap (fun e => [e.1, e.2.1, e.2.2]) ++ tail)
    let charged := measured ((entries.take 48).map (fun e => (e.1.toNat % 64, e.2.1.toNat * 256 + e.2.2.toNat)))
    let key := fun (r : Nat × Nat) => (p * 16 + position.toNat) * 64 + r.1
    ∃ h t, exec (.sample p body) s = .next t ∧ Heard p s h
      ∧ (∀ r ∈ charged, t.readingAt (key r) = { last := some r.2, age := 0 } ∧ t.filling.outletFlag (key r) = true)
      ∧ (∀ k, (∀ r ∈ charged, key r ≠ k) →
          t.readingAt k = s.readingAt k ∧ t.filling.outletFlag k = s.filling.outletFlag k)
      ∧ (∀ f x, t.filling.sum f x =
          (charged.filter (fun r => decide ((s.resolution (key r)).feed = f ∧ (s.resolution (key r)).tenant = x))).foldl
            (fun sum r => min wattTop (sum + r.2)) (s.filling.sum f x))
      ∧ (∀ x, t.filling.over x = s.filling.over x +
          (charged.filter (fun r => decide ((s.resolution (key r)).tenant = x
            ∧ ∃ limit ∈ (s.resolution (key r)).outletLimit, limit < r.2))).length)
      ∧ t.filling.incomplete = s.filling.incomplete
      ∧ t.notices = h.noticesAfterReading (charged.flatMap (fun r => s.resolutionFaults (key r)))
      ∧ SameOutside [.notices, .filling, .presence, .readings, .uplink, .downChoice, .upChoice] h t

/-- R42, R44: a resolution takes the present good slot; else the lowest-numbered rule that is enabled, good and matched
in every digit its mask selects; else the pool. R45: the first bad item it reads, in the order slot, then rules up to the one
that decides, is the one that its reading records. -/
def Obligations.ResolutionTakesTheFirstLayerThatHolds : Prop :=
  ∀ (s : State) (key : Nat),
    (∀ e, (s.slotAt key).parityGood = true → (s.slotAt key).content = some e →
      s.resolution key = { source := .entry, tenant := e.tenant, feed := e.feed, shedRank := e.shedRank,
                           outletLimit := e.outletLimit })
    ∧ ((s.slotAt key).parityGood = false ∨ (s.slotAt key).content = none →
      let matched := fun (n : Nat) => (s.ruleAt n).parityGood = true ∧ (s.ruleAt n).content.enabled = true
        ∧ ∀ i, (s.ruleAt n).content.mask.testBit i = true →
            key.testBit i = (s.ruleAt n).content.compareKey.testBit i
      (∀ n, n < 16 → matched n → (∀ m, m < n → ¬ matched m) →
        s.resolution key = { source := .rule n, tenant := (s.ruleAt n).content.tenant,
                             feed := (s.ruleAt n).content.feed, shedRank := none, outletLimit := none })
      ∧ ((∀ n, n < 16 → ¬ matched n) →
        s.resolution key = { source := .pool, tenant := 0, feed := .a, shedRank := none, outletLimit := none })
      ∧ ((s.slotAt key).parityGood = false → (s.resolutionFaults key).head? = some (.item .oat key))
      ∧ ((s.slotAt key).parityGood = true →
          (∀ n, n < 16 → (s.ruleAt n).parityGood = false →
            (∀ m, m < n → (s.ruleAt m).parityGood = true ∧ ¬ matched m) →
            (s.resolutionFaults key).head? = some (.item .rules n))
          ∧ (∀ n, n ≤ 16 → (∀ m, m < n → (s.ruleAt m).parityGood = true) → (n = 16 ∨ ∃ m, m < n ∧ matched m) →
            s.resolutionFaults key = [])))
    ∧ (∀ e, (s.slotAt key).parityGood = true → (s.slotAt key).content = some e → s.resolutionFaults key = [])

/-- R130, R132, R133: an answer that names a sent pending entry by outlet and tag ends its command: DONE leaves OFF or
DONE, REFUSED leaves SKIPPED or UNCONFIRMED; the result's notice becomes owed unless its kind is masked, and a DONE entry
whose kind is masked leaves the table (R137). -/
def Obligations.MatchedAnswerEndsTheCommand : Prop :=
  ∀ (s : State) (p slot : Nat) (position outlet tag outcome : Byte) (rest : List Byte) (e : CurtailEntry),
    (s.port p).link ≠ .disabled → position.toNat ≤ 15 → outlet.toNat ≤ 47 → CurtailLaws s →
    slot < 64 → s.entryAt slot = some e → e.outlet = p * 1024 + position.toNat * 64 + outlet.toNat →
    e.pending = true → e.sent = true → e.tag = tag →
    let after := if e.stage = .offPending then (if outcome = 0 then Stage.off else .skipped)
                 else (if outcome = 0 then .done else .unconfirmed)
    ∃ h t, exec (.switchAck p (position :: outlet :: tag :: outcome :: rest)) s = .next t ∧ Heard p s h
      ∧ (s.masked .curtail = false →
          t.entryAt slot = some { e with stage := after, sent := false, remaining := 0, resultOwed := true }
          ∧ t.curtail.owed = (if slot ∈ s.curtail.owed then s.curtail.owed else s.curtail.owed ++ [slot]))
      ∧ (s.masked .curtail = true →
          t.entryAt slot = (if after = .done then none else some { e with stage := after, sent := false, remaining := 0 }))
      ∧ (∀ n, n ≠ slot → t.entryAt n = s.entryAt n) ∧ t.curtail.due = s.curtail.due
      ∧ t.curtail.records = s.curtail.records ∧ t.curtail.tagCounter = s.curtail.tagCounter
      ∧ t.curtail.creation = s.curtail.creation
      ∧ SameOutside [.curtail, .downChoice, .upChoice] h t

/-- R130, R188: an answer that no sent pending entry matches is stale: STALE_ACK is recorded with the fields as received,
and the table stays as it was; one too short for its fields has no effect but on the link. -/
def Obligations.UnmatchedAnswerIsStale : Prop :=
  ∀ (s : State) (p : Nat) (position outlet tag outcome : Byte) (rest : List Byte), (s.port p).link ≠ .disabled →
    (15 < position.toNat ∨ 47 < outlet.toNat ∨ ∀ n e, n < 64 → s.entryAt n = some e →
      ¬ (e.pending = true ∧ e.sent = true ∧ e.tag = tag
          ∧ e.outlet = p * 1024 + position.toNat * 64 + outlet.toNat)) →
    (∃ h t, exec (.switchAck p (position :: outlet :: tag :: outcome :: rest)) s = .next t ∧ Heard p s h
      ∧ t.notices = h.noticesWithFault .staleAck (.outlet p position.toNat outlet.toNat)
      ∧ SameOutside (.notices :: choiceBlocks) h t)
    ∧ ∀ body, body.length < 4 →
      ∃ h t, exec (.switchAck p body) s = .next t ∧ Heard p s h ∧ SameOutside choiceBlocks h t

/-- R24, R163, R188: a PDU-REPLY is copied whole to the forward queue, whatever the forwarding setting, or lost when the
queue holds 16; one with no position byte has no effect but on the link. -/
def Obligations.PduReplyIsForwarded : Prop :=
  ∀ (s : State) (p : Nat) (body : List Byte), (s.port p).link ≠ .disabled →
    ∃ h t, exec (.pduReply p body) s = .next t ∧ Heard p s h
      ∧ t.uplink.core = { s.uplink.core with forwards :=
          if body ≠ [] ∧ s.uplink.forwards.length < 16 then
            s.uplink.forwards ++ [{ port := p, kind := kindPduReply, body := body }] else s.uplink.forwards }
      ∧ SameOutside [.uplink, .downChoice, .upChoice] h t

/-! ### Frames on the uplink, requests joining the queue -/

/-- R161, R188, R190: a whole request joins the request input queue with its origin, tag, code and data; one that is too
short, or that finds 4 requests waiting, is lost. A chain-side one has had its effect on the link. -/
def Obligations.RequestJoinsTheInputQueue : Prop :=
  ∀ (s : State) (p : Nat) (position hi lo code : Byte) (data : List Byte),
    (∃ t, exec (.uplinkRequest (hi :: lo :: code :: data)) s = .next t
      ∧ t.uplink = { s.uplink with requests :=
          if s.uplink.requests.length < 4 then s.uplink.requests ++
            [{ origin := .uplink, tag := BitVec.ofNat 16 (hi.toNat * 256 + lo.toNat), code := code, data := data }]
          else s.uplink.requests }
      ∧ SameOutside [.uplink] s t)
    ∧ (∀ body, body.length < 3 → exec (.uplinkRequest body) s = .next s)
    ∧ ((s.port p).link ≠ .disabled →
      (∃ h t, exec (.chainRequest p (position :: hi :: lo :: code :: data)) s = .next t ∧ Heard p s h
        ∧ t.uplink.core = { s.uplink.core with requests :=
            if s.uplink.requests.length < 4 then s.uplink.requests ++
              [{ origin := .chain p position, tag := BitVec.ofNat 16 (hi.toNat * 256 + lo.toNat), code := code,
                 data := data }]
            else s.uplink.requests }
        ∧ SameOutside [.uplink, .downChoice, .upChoice] h t)
      ∧ ∀ body, body.length < 4 →
        ∃ h t, exec (.chainRequest p body) s = .next t ∧ Heard p s h ∧ SameOutside choiceBlocks h t)

/-- R160, R188: a PDU-PASS for a position 0 to 15 of an UP or DEGRADED port with room in its pass-down queue is relayed with
its payload unchanged; every other is discarded. R159, R155: a malformed uplink frame records FRAME_ERROR with location
port 4, and does nothing else. -/
def Obligations.PduPassIsRelayedAndFrameErrorIsRecorded : Prop :=
  ∀ (s : State) (port position : Byte) (payload : List Byte),
    let p := port.toNat
    let taken := p ≤ 3 ∧ position.toNat ≤ 15 ∧ ((s.port p).link = .up ∨ (s.port p).link = .degraded)
      ∧ (s.port p).passDown.length < 4
    (∃ t, exec (.pduPass (port :: position :: payload)) s = .next t
      ∧ (t.port p).core = { (s.port p).core with passDown :=
          (s.port p).passDown ++ (if taken then [.relay position payload] else []) }
      ∧ (∀ q, q ≠ p → (t.port q).core = (s.port q).core)
      ∧ SameOutside [.links, .downChoice, .upChoice] s t)
    ∧ (∀ body, body.length < 2 → exec (.pduPass body) s = .next s)
    ∧ ∃ t, exec .uplinkFrameError s = .next t ∧ t.notices = s.noticesWithFault .frameError (.port 4)
      ∧ SameOutside [.notices] s t

/-- R186, R187: the frame a sender builds for a command's body, whatever row identifier it fills in, begins with the start
delimiter and is received as that command again: every byte of the body arrives, a delimiter's value among them, and the kind
is read on the side it is valid on; cut off after the delimiter, it is received as malformed. R16, R159: so is a frame that is
shorter than 6 bytes, whose length field disagrees with its length, whose check fails, or whose kind is not valid on the side
it arrives on. What does not begin with the delimiter after idle is no frame (log 28). -/
def Obligations.FramesAreReceivedAsBuiltOrAsMalformed : Prop :=
  ∀ (kind rowId first : Byte) (p elapsed : Nat) (body received : List Byte), bodyFits body = true →
    (∀ c, c = .sample p body ∨ c = .switchAck p body ∨ c = .pduReply p body ∨ c = .chainRequest p body →
      ∃ bytes, frameOf rowId c = some (0x5A#8 :: bytes) ∧ receiveChain p (0x5A#8 :: bytes) = some c
        ∧ bytes.length = body.length + 6
        ∧ ∀ k, k < bytes.length → receiveChain p (0x5A#8 :: bytes.take k) = some (.chainMalformedFrame p))
    ∧ (∀ c, c = .uplinkRequest body ∨ c = .epoch elapsed body ∨ c = .pduPass body →
      ∃ bytes, frameOf rowId c = some (0x5A#8 :: bytes) ∧ receiveUplink elapsed (0x5A#8 :: bytes) = some c
        ∧ bytes.length = body.length + 6
        ∧ ∀ k, k < bytes.length → receiveUplink elapsed (0x5A#8 :: bytes.take k) = some .uplinkFrameError)
    ∧ (received.length < 6 ∨ beNat (received.take 2) ≠ received.length
        ∨ beNat (received.drop (received.length - 2)) ≠ (frameCheck (received.take (received.length - 2))).toNat →
      receiveChain p (0x5A#8 :: received) = some (.chainMalformedFrame p)
        ∧ receiveUplink elapsed (0x5A#8 :: received) = some .uplinkFrameError)
    ∧ (kind ≠ 0x11#8 → kind ≠ 0x12#8 → kind ≠ 0x13#8 → kind ≠ 0x14#8 →
      receiveChain p (0x5A#8 :: buildFrame kind rowId body) = some (.chainMalformedFrame p))
    ∧ (kind ≠ 0x14#8 → kind ≠ 0x21#8 → kind ≠ 0x22#8 →
      receiveUplink elapsed (0x5A#8 :: buildFrame kind rowId body) = some .uplinkFrameError)
    ∧ (first ≠ 0x5A#8 → receiveChain p (first :: received) = none ∧ receiveUplink elapsed (first :: received) = none)

/-! ### Transmitters and the queues that wait -/

/-- R32, R33, R186: the frame a down transmitter has chosen is started: a MARK ceases to be due, a PASS-DOWN leaves its
queue, a SWITCH takes its tag from the counter and its entry out of the due list, with one attempt more and the full
remaining time (R129); the frame is built with the row identifier in force. Choice and start are two events (log 4). Where the
due lists are exact (`CurtailLists`, which every step keeps) the head of one names an unsent pending entry of its port, and
names it once (R128). -/
def Obligations.ChosenDownFrameIsStarted : Prop :=
  ∀ (s : State) (p : Nat),
    (∀ n, (s.port p).choice = some .mark → (s.port p).dueMark = some n →
      ∃ t, exec (.markSend p) s = .next t
        ∧ (t.port p).core = { (s.port p).core with
            dueMark := none,
            tx := some { frame := .mark n, bytes := 0x5A#8 :: buildFrame 0x01#8 s.rowId (layout [(2, n.toNat)]) } }
        ∧ (t.port p).choice = none ∧ (∀ q, q ≠ p → (t.port q).core = (s.port q).core)
        ∧ SameOutside [.links, .downChoice, .upChoice] s t)
    ∧ (∀ f rest, (s.port p).choice = some .passDown → (s.port p).passDown = f :: rest →
      ∃ t, exec (.passDownSend p) s = .next t
        ∧ (t.port p).core = { (s.port p).core with
            passDown := rest,
            tx := some { frame := .passDown f, bytes := 0x5A#8 :: buildFrame 0x03#8 s.rowId (passDownLayout f) } }
        ∧ (t.port p).choice = none ∧ (∀ q, q ≠ p → (t.port q).core = (s.port q).core)
        ∧ SameOutside [.links, .downChoice, .upChoice] s t)
    ∧ (∀ slot rest, CurtailLists s → s.dueAt p = slot :: rest → slot ∉ rest
        ∧ ∃ e, s.entryAt slot = some e ∧ e.pending = true ∧ e.sent = false ∧ keyPort e.outlet = p)
    ∧ ∀ slot rest e, (s.port p).choice = some .switch → s.dueAt p = slot :: rest → slot ∉ rest →
      s.entryAt slot = some e →
      let tag := s.curtail.tagCounter
      let position := e.outlet / 64 % 16
      let outlet := e.outlet % 64
      let on := decide (e.stage = .onPending)
      ∃ t, exec (.switchSend p) s = .next t
        ∧ t.entryAt slot = some { e with tag := tag, attempts := e.attempts + 1, remaining := s.setting 6, sent := true }
        ∧ (∀ n, n ≠ slot → t.entryAt n = s.entryAt n)
        ∧ t.curtail.tagCounter = tag + 1 ∧ t.dueAt p = rest ∧ (∀ q, q ≠ p → t.dueAt q = s.dueAt q)
        ∧ t.curtail.owed = s.curtail.owed ∧ t.curtail.records = s.curtail.records
        ∧ t.curtail.creation = s.curtail.creation
        ∧ (t.port p).core = { (s.port p).core with
            tx := some { frame := .switch position outlet on tag,
                         bytes := 0x5A#8 :: buildFrame 0x02#8 s.rowId
                           (layout [(1, position), (1, outlet), (1, flag on 1), (1, tag.toNat)]) } }
        ∧ (t.port p).choice = none ∧ (∀ q, q ≠ p → (t.port q).core = (s.port q).core)
        ∧ SameOutside [.links, .curtail, .downChoice, .upChoice] s t

/-- R32: when a frame ends, the down transmitter of an enabled port chooses at once the first available of a due MARK, the
head of the due list of an UP or DEGRADED port, the head of the pass-down queue. R185: the end of the response that grants a
chain-side full reset on this port makes the reset due (log 14). -/
def Obligations.DownFrameEndChoosesTheNextFrame : Prop :=
  ∀ (s : State) (p : Nat) (sent : DownSend), p < 4 → (s.port p).tx = some sent → (s.port p).choice = none →
    let granted := (∃ position r q, sent.frame = .passDown (.response position r) ∧ r.code = 0x0D#8 ∧ r.status = .ok
      ∧ s.mgmt.resetWaiting = some (.chain p q))
    ∃ t, exec (.downFrameEnd p) s = .next t
      ∧ (t.port p).core = { (s.port p).core with tx := none }
      ∧ (∀ q, q ≠ p → (t.port q).core = (s.port q).core)
      ∧ ((s.port p).link = .disabled → (t.port p).choice = none)
      ∧ ((s.port p).link ≠ .disabled →
          let switchWaits := ((s.port p).link = .up ∨ (s.port p).link = .degraded) ∧ s.dueAt p ≠ []
          ((s.port p).dueMark ≠ none → (t.port p).choice = some .mark)
          ∧ ((s.port p).dueMark = none → switchWaits → (t.port p).choice = some .switch)
          ∧ ((s.port p).dueMark = none → ¬ switchWaits → (s.port p).passDown ≠ [] → (t.port p).choice = some .passDown)
          ∧ ((s.port p).dueMark = none → ¬ switchWaits → (s.port p).passDown = [] → (t.port p).choice = none))
      ∧ (granted → t.mgmt = { s.mgmt with resetDue := true }) ∧ (¬ granted → t.mgmt = s.mgmt)
      ∧ SameOutside [.links, .downChoice, .upChoice, .mgmt] s t

/-- R164, R165: the uplink transmitter starts the head of the queue its arbiter chose, which leaves its queue, and the kind
becomes the one last served. When a frame ends the arbiter chooses at once: in priority mode a response, then a notice, then
a forward; else the first waiting one in cyclic order after the kind last served. R185: the end of the response that grants
an uplink full reset makes the reset due, and nothing more is chosen (log 14). Choice and start are two events: the kind chosen
earlier is started, whatever else waits by then (log 4). -/
def Obligations.UplinkTransmitterServesItsQueues : Prop :=
  ∀ (s : State),
    (∀ r rest, s.uplink.choice = some .response → s.uplink.responses = r :: rest →
      ∃ t, exec .uplinkFrameStart s = .next t ∧ SameOutside [.uplink, .upChoice] s t
        ∧ t.uplink = { s.uplink with
            responses := rest, choice := none, lastServed := .response,
            tx := some { frame := .response r, bytes := 0x5A#8 :: buildFrame 0x31#8 s.rowId (responseLayout r) } })
    ∧ (∀ n rest, s.uplink.choice = some .notice → s.notices.queue = n :: rest →
      ∃ t, exec .uplinkFrameStart s = .next t ∧ SameOutside [.uplink, .upChoice, .notices] s t
        ∧ t.notices = { s.notices with queue := rest }
        ∧ t.uplink = { s.uplink with
            choice := none, lastServed := .notice,
            tx := some { frame := .notice n, bytes := 0x5A#8 :: buildFrame 0x32#8 s.rowId (noticeLayout n) } })
    ∧ (∀ f rest, s.uplink.choice = some .forward → s.uplink.forwards = f :: rest →
      ∃ t, exec .uplinkFrameStart s = .next t ∧ SameOutside [.uplink, .upChoice] s t
        ∧ t.uplink = { s.uplink with
            forwards := rest, choice := none, lastServed := .forward,
            tx := some { frame := .forward f,
                         bytes := 0x5A#8 :: buildFrame 0x33#8 s.rowId
                           (layout [(1, f.port), (1, f.kind.toNat)] ++ f.body) } })
    ∧ (∀ sent, s.uplink.tx = some sent → s.uplink.choice = none →
      let granted := (∃ r, sent.frame = .response r ∧ r.code = 0x0D#8 ∧ r.status = .ok ∧ s.mgmt.resetWaiting = some .uplink)
      let waits := fun (k : UplinkKind) => match k with
        | .response => decide (s.uplink.responses ≠ [])
        | .notice => decide (s.notices.queue ≠ [])
        | .forward => decide (s.uplink.forwards ≠ [])
      let order : List UplinkKind :=
        if s.setting 12 = 1 then [.response, .notice, .forward]
        else match s.uplink.lastServed with
          | .response => [.notice, .forward, .response]
          | .notice => [.forward, .response, .notice]
          | .forward => [.response, .notice, .forward]
      ∃ t, exec .uplinkFrameEnd s = .next t
        ∧ t.uplink.core = { s.uplink.core with tx := none }
        ∧ (granted → t.mgmt = { s.mgmt with resetDue := true } ∧ t.uplink.choice = none)
        ∧ (¬ granted → t.mgmt = s.mgmt
            ∧ t.uplink.choice = if s.mgmt.resetDue = true then none else order.find? waits)
        ∧ SameOutside [.uplink, .upChoice, .mgmt, .downChoice] s t)

/-- R147, R148, R150, R151: outside the load, a notice queue with room takes the first owed item in fill order, with its
content taken now. An item is owed while its kind is unmasked and its compared fields differ from the announced copy, or by
its event; queuing sets that copy to the compared fields, clears INTERVAL owed, or hands a CURTAIL entry back (R137), and
leaves every other copy and debt. R162: a response queue with room takes the oldest kept response. Where there is no room, or
nothing waits, neither does anything; that the command completes then is log 1. -/
def Obligations.WaitingNoticesAndResponsesTakeAPlace : Prop :=
  ∀ (s : State),
    let compared := fun (x : Nat) => ({
      state := (s.liveAt x).state, feedOverA := (s.liveAt x).feedOverA, feedOverB := (s.liveAt x).feedOverB,
      outletOverPresent := decide (0 < (s.liveAt x).outletOver), restoring := (s.curtailAt x).restoring,
      exhausted := (s.curtailAt x).exhausted, blocked := (s.curtailAt x).blocked } : TenantCompared)
    let order : List OwedItem := [.fault, .source, .interval, .port 0, .port 1, .port 2, .port 3]
      ++ (List.range 64).map .pdu ++ s.curtail.owed.map .curtail ++ (List.range 127).map (fun n => .tenant (n + 1))
    let owed := fun (item : OwedItem) => match item with
      | .fault => s.setting 17 ≠ 1 ∧ s.notices.fault ≠ s.notices.annFault
      | .source => s.setting 16 ≠ 1 ∧ s.timer.mode ≠ s.notices.annSource
      | .interval => s.notices.intervalOwed ≠ none
      | .port p => s.setting 14 ≠ 1 ∧ (s.port p).link ≠ Table.read .disabled s.notices.annPort p
      | .pdu i => s.setting 15 ≠ 1 ∧ (s.presenceAt i).state ≠ Table.read .absent s.notices.annPresence i
      | .curtail slot => ∃ e, s.entryAt slot = some e ∧ e.resultOwed = true
      | .tenant x => s.setting 13 ≠ 1 ∧ compared x ≠ Table.read TenantCompared.clear s.notices.annTenant x
    let reports := fun (item : OwedItem) (n : Notice) => match item with
      | .fault => n = .fault s.notices.fault
      | .source => n = .source s.timer.mode s.timer.epoch
      | .interval => ∃ number generation switched, s.notices.intervalOwed = some (number, generation, switched)
          ∧ n = .interval number generation switched
      | .port p => n = .port p (s.port p).link (s.port p).errorCount
      | .pdu i => n = .pdu i (s.presenceAt i).state (s.presenceAt i).missed
      | .curtail slot => ∃ e, s.entryAt slot = some e ∧ n = .curtail e.outlet e.tenant e.stage e.attempts e.tag
      | .tenant x => n = .tenant x (s.liveAt x) (s.curtailAt x)
    (∀ before item after, s.notices.queue.length < 8 → s.mgmt.imageState ≠ .loading →
      order = before ++ item :: after → (∀ x ∈ before, ¬ owed x) → owed item →
      ∃ n t, exec .noticeQueuing s = .next t ∧ reports item n ∧ t.notices.queue = s.notices.queue ++ [n]
        ∧ t.notices.annFault = (if item = .fault then s.notices.fault else s.notices.annFault)
        ∧ t.notices.annSource = (if item = .source then s.timer.mode else s.notices.annSource)
        ∧ t.notices.intervalOwed = (if item = .interval then none else s.notices.intervalOwed)
        ∧ (∀ p, Table.read .disabled t.notices.annPort p =
            if item = .port p then (s.port p).link else Table.read .disabled s.notices.annPort p)
        ∧ (∀ i, Table.read .absent t.notices.annPresence i =
            if item = .pdu i then (s.presenceAt i).state else Table.read .absent s.notices.annPresence i)
        ∧ (∀ x, Table.read TenantCompared.clear t.notices.annTenant x =
            if item = .tenant x then compared x else Table.read TenantCompared.clear s.notices.annTenant x)
        ∧ t.notices.fault = s.notices.fault
        ∧ (∀ slot, item = .curtail slot → t.curtail.owed = s.curtail.owed.filter (fun m => decide (m ≠ slot))
            ∧ (∀ e, s.entryAt slot = some e →
                t.entryAt slot = if e.stage = .done then none else some { e with resultOwed := false })
            ∧ (∀ m, m ≠ slot → t.entryAt m = s.entryAt m) ∧ t.curtail.due = s.curtail.due
            ∧ t.curtail.records = s.curtail.records ∧ t.curtail.creation = s.curtail.creation
            ∧ t.curtail.tagCounter = s.curtail.tagCounter)
        ∧ ((∀ slot, item ≠ .curtail slot) → t.curtail = s.curtail)
        ∧ SameOutside [.notices, .curtail, .downChoice, .upChoice] s t)
    ∧ (8 ≤ s.notices.queue.length ∨ s.mgmt.imageState = .loading ∨ (∀ x ∈ order, ¬ owed x) →
      exec .noticeQueuing s = .next s)
    ∧ (∀ r rest, s.mgmt.kept = r :: rest → s.uplink.responses.length < 4 →
      ∃ t, exec .keptResponseOffer s = .next t ∧ t.mgmt = { s.mgmt with kept := rest }
        ∧ t.uplink.core = { s.uplink.core with responses := s.uplink.responses ++ [r] }
        ∧ SameOutside [.mgmt, .uplink, .downChoice, .upChoice] s t)
    ∧ (s.mgmt.kept = [] ∨ 4 ≤ s.uplink.responses.length → exec .keptResponseOffer s = .next s)

/-! ### Requests -/

/-- R171: the general tests, in order, of whatever request command takes the request: BUSY during the load, BAD_REQUEST for
an unknown code or data that does not fit (`requestFits`, R190's list of codes and lengths),
LOCKED for a chain-side write without the permit, BUSY for a write during a save. The answer has no data, and the request has no other effect. Which command takes a request: log 5. -/
def Obligations.GeneralTestsAnswerInOrder : Prop :=
  ∀ (c : Instr) (row : RequestRow) (s : State) (r : Request), c.takes = some row → Heads s row r →
    let refuse := fun (status : Status) => TakesAndAnswers c s r status [] [.now]
      (fun b => (∀ elapsed, c ≠ .writeEpochSource elapsed) → b.now = s.now)
    let loading := s.mgmt.imageState = .loading ∧ r.code ≠ 0x0A#8
    let bad := requestFits r.code r.data = false
    let locked := isWrite r.code ∧ r.origin ≠ .uplink ∧ s.chainWritePermit = false
    (loading → refuse .busy) ∧ (¬ loading → bad → refuse .badRequest) ∧ (¬ loading → ¬ bad → locked → refuse .locked)
      ∧ (¬ loading → ¬ bad → ¬ locked → isWrite r.code → s.mgmt.imageState = .saving → refuse .busy)

/-- R172: READ_ENTRY's own tests, then one copy of an entry per event, each as the entry stands then; a bad item copies as
status PARITY with zeros and is recorded; after the last copy the response. The entry's bytes are R191's fields in order
(`State.entryBytes`); the byte 1 for enabled, valid, occupied and no data is the model's choice (log 29), and so is an absent slot
read as zeros (log 17). Other commands run between the copies (log 6). -/
def Obligations.ReadEntryCopiesOneEntryPerEvent : Prop :=
  ∀ (s : State),
    (∀ (r : Request) (tableByte hi lo countByte : Byte), Taken s .readEntry r → r.data = [tableByte, hi, lo, countByte] →
      let table := tableByte.toNat
      let first := hi.toNat * 256 + lo.toNat
      let count := countByte.toNat
      (9 < table → TakesAndAnswers .readEntry s r .badTable [] [] (fun _ => True))
      ∧ (table ≤ 9 → count = 0 ∨ 8 < count → TakesAndAnswers .readEntry s r .badRequest [] [] (fun _ => True))
      ∧ (table ≤ 9 → 1 ≤ count → count ≤ 8 → rangeFits table first count = false →
          TakesAndAnswers .readEntry s r .badIndex [] [] (fun _ => True))
      ∧ (table ≤ 9 → count = 1 → rangeFits table first count = true →
          ∃ bytes, TakesAndAnswers .readEntry s r .ok (r.data ++ bytes) [.notices, .freeCount]
            (fun b => Copied s b table first bytes))
      ∧ (table ≤ 9 → 2 ≤ count → count ≤ 8 → rangeFits table first count = true →
          ∃ bytes t, exec .readEntry s = .next t ∧ Copied s t table first bytes
            ∧ t.uplink.core = { s.uplink.core with requests := s.uplink.requests.tail }
            ∧ t.mgmt = { s.mgmt with current := some { origin := r.origin, tag := r.tag, table := table, first := first,
                                                       count := count, done := 1, copied := bytes } }
            ∧ SameOutside [.uplink, .mgmt, .notices, .freeCount, .downChoice, .upChoice] s t))
    ∧ ∀ j : ReadJob, s.mgmt.current = some j →
      (j.done + 1 < j.count → ∃ bytes t, exec .readEntry s = .next t ∧ Copied s t j.table (j.first + j.done) bytes
        ∧ t.mgmt = { s.mgmt with current := some { j with done := j.done + 1, copied := j.copied ++ bytes } }
        ∧ SameOutside [.mgmt, .notices, .freeCount, .downChoice, .upChoice] s t)
      ∧ (j.count ≤ j.done + 1 → ∃ bytes b t, exec .readEntry s = .next t ∧ Copied s b j.table (j.first + j.done) bytes
        ∧ b.mgmt = { s.mgmt with current := none } ∧ SameOutside [.mgmt, .notices, .freeCount] s b
        ∧ Answered b t j.origin { tag := j.tag, code := 0x01#8, status := .ok,
                                  data := layout [(1, j.table), (2, j.first), (1, j.count)] ++ j.copied ++ bytes }
        ∧ SameOutside answerBlocks b t)

/-- R48, R49: a present entry written to the OAT is tested by key, by hold and by value, in that order, and is in force at
once; a clear passes the same tests but the last. The answer carries the entry as stored, a cleared one as zeros (log 17). -/
def Obligations.OatWritesTestThenStore : Prop :=
  ∀ (s : State) (r : Request) (hi lo flags tenant feed rank limitHi limitLo : Byte),
    r.data = [0x01#8, hi, lo, flags, tenant, feed, rank, limitHi, limitLo] →
    let key := hi.toNat * 256 + lo.toNat
    let exists' := key < 4096 ∧ key % 64 < 48
    let held := (∃ n e, n < 64 ∧ s.entryAt n = some e ∧ e.outlet = key)
    let entry : OatEntry :=
      { tenant := tenant.toNat, feed := if feed = 0x00#8 then .a else .b,
        shedRank := if flags.getLsbD 1 then some rank.toNat else none,
        outletLimit := if flags.getLsbD 2 then some (limitHi.toNat * 256 + limitLo.toNat) else none }
    let good := feed.toNat ≤ 1 ∧ entry.inRange = true
    let stores := fun (c : Instr) (content : Option OatEntry) =>
      TakesAndAnswers c s r .ok ([0x01#8, hi, lo] ++ oatLayout content) [.oat] (fun b =>
        b.slotAt key = { content := content, parityGood := true } ∧ ∀ k, k ≠ key → b.slotAt k = s.slotAt k)
    let refuses := fun (c : Instr) (status : Status) => TakesAndAnswers c s r status [] [] (fun _ => True)
    (Taken s .writeEntryOat r →
      (¬ exists' → refuses .writeEntryOat .badIndex) ∧ (exists' → held → refuses .writeEntryOat .held)
      ∧ (exists' → ¬ held → ¬ good → refuses .writeEntryOat .badValue)
      ∧ (exists' → ¬ held → good → stores .writeEntryOat (some entry)))
    ∧ (Taken s .oatClear r →
      (¬ exists' → refuses .oatClear .badIndex) ∧ (exists' → held → refuses .oatClear .held)
      ∧ (exists' → ¬ held → stores .oatClear none))

/-- R50, R105: an assignment rule and a staged contract are tested by index and by value, in that order, stored whole, and
carried back as stored. A write to the staged table leaves the active one. Enabled and valid are carried back as 1 whatever byte
other than 0 was written: the model's choice (log 29). -/
def Obligations.RuleAndStagedWritesTestThenStore : Prop :=
  ∀ (s : State) (r : Request) (hi lo : Byte),
    let i := hi.toNat * 256 + lo.toNat
    (∀ enabled keyHi keyLo maskHi maskLo tenant feed : Byte, Taken s .writeEntryRules r →
      r.data = [0x02#8, hi, lo, enabled, keyHi, keyLo, maskHi, maskLo, tenant, feed] →
      let rule : Rule := { enabled := decide (enabled ≠ 0x00#8), compareKey := keyHi.toNat * 256 + keyLo.toNat,
                           mask := maskHi.toNat * 256 + maskLo.toNat, tenant := tenant.toNat,
                           feed := if feed = 0x00#8 then .a else .b }
      let good := feed.toNat ≤ 1 ∧ rule.inRange = true
      (15 < i → TakesAndAnswers .writeEntryRules s r .badIndex [] [] (fun _ => True))
      ∧ (i ≤ 15 → ¬ good → TakesAndAnswers .writeEntryRules s r .badValue [] [] (fun _ => True))
      ∧ (i ≤ 15 → good → TakesAndAnswers .writeEntryRules s r .ok ([0x02#8, hi, lo] ++ ruleLayout rule) [.rules]
          (fun b => b.ruleAt i = { content := rule, parityGood := true } ∧ ∀ n, n ≠ i → b.ruleAt n = s.ruleAt n)))
    ∧ ∀ entry : List Byte, Taken s .writeEntryStaged r → r.data = 0x03#8 :: hi :: lo :: entry →
      let raw := parseContract entry
      let good := raw.committed ≤ wattTop ∧ raw.tolerance ≤ 500 ∧ raw.hysteresis ≤ 500 ∧ raw.refillCap ≤ wattTop
        ∧ raw.feedCap ≤ wattTop ∧ 1 ≤ raw.quiet ∧ raw.grace ≤ 255 ∧ raw.policy ≤ 2
      (i = 0 ∨ 127 < i → TakesAndAnswers .writeEntryStaged s r .badIndex [] [] (fun _ => True))
      ∧ (1 ≤ i → i ≤ 127 → ¬ good → TakesAndAnswers .writeEntryStaged s r .badValue [] [] (fun _ => True))
      ∧ (good → ∃ c, checkContract raw = some c)
      ∧ (∀ c : Contract, 1 ≤ i → i ≤ 127 →
          checkContract (parseContract entry) = some c ∨ (c.inRange = true ∧ entry = contractLayout c) →
          TakesAndAnswers .writeEntryStaged s r .ok ([0x03#8, hi, lo] ++ contractLayout c) [.contracts]
            (fun b => b.stagedAt i = { content := c, parityGood := true } ∧ (∀ x, x ≠ i → b.stagedAt x = s.stagedAt x)
              ∧ b.contracts = { s.contracts with staged := b.contracts.staged }))

/-- R174, R175: a settings write stores the value moved into the setting's range, carries it back, and has its effect in the
same event: R20 tests the ports against a new error threshold, R153 drops what a newly masked kind owes. Of two ports that one
write degrades, the lower-numbered one's PORT_DEGRADED is recorded first (log 25). -/
def Obligations.SettingsWritesClampAndApply : Prop :=
  ∀ (s : State) (r : Request) (hi lo b3 b2 b1 b0 : Byte), SettingsInRange s → r.data = [0x00#8, hi, lo, b3, b2, b1, b0] →
    let i := hi.toNat * 256 + lo.toNat
    let raw := ((b3.toNat * 256 + b2.toNat) * 256 + b1.toNat) * 256 + b0.toNat
    let v := if i = 0 then min 255 raw else if i = 2 then min 3600 (max 60 raw) else if i = 3 then min 15 raw
      else if i = 4 then min 10 raw else if i = 5 then min 65535 (max 1 raw) else if i = 6 then min 15 (max 1 raw)
      else min 1 raw
    let reply := [0x00#8, hi, lo] ++ layout [(4, v)]
    (Taken s .writeSetting r →
      (20 < i → TakesAndAnswers .writeSetting s r .badIndex [] [] (fun _ => True))
      ∧ (i ≤ 20 → TakesAndAnswers .writeSetting s r .ok reply [.settings] (fun b => b.settings = s.settings.set i v)))
    ∧ (Taken s .writeErrorThreshold r →
      let degrades := fun p => (s.port p).link = .up ∧ v ≤ (s.port p).errorCount
      TakesAndAnswers .writeErrorThreshold s r .ok reply [.settings, .links, .notices] (fun b =>
        b.settings = s.settings.set 5 v
        ∧ (∀ p, p < 4 → degrades p → b.port p = { s.port p with link := .degraded })
        ∧ (∀ p, p < 4 → ¬ degrades p → b.port p = s.port p) ∧ (∀ p, 4 ≤ p → b.port p = s.port p)
        ∧ (∀ p, p < 4 → degrades p → (∀ q, q < p → ¬ degrades q) →
            b.notices = s.noticesWithFault .portDegraded (.port p))
        ∧ ((∀ p, p < 4 → ¬ degrades p) → b.notices = s.notices)))
    ∧ (Taken s .writeNoticeMask r →
      let masks := s.setting i = 0 ∧ v = 1
      TakesAndAnswers .writeNoticeMask s r .ok reply [.settings, .notices, .curtail] (fun b =>
        b.settings = s.settings.set i v
        ∧ b.notices = (if masks ∧ i = 18 then { s.notices with intervalOwed := none } else s.notices)
        ∧ (masks → i = 19 → b.curtail.owed = []
            ∧ (∀ n, n < 64 → b.entryAt n = (s.entryAt n).bind (fun e =>
                if e.stage = .done then none else some { e with resultOwed := false }))
            ∧ b.curtail.records = s.curtail.records ∧ b.curtail.due = s.curtail.due
            ∧ b.curtail.tagCounter = s.curtail.tagCounter ∧ b.curtail.creation = s.curtail.creation)
        ∧ (¬ (masks ∧ i = 19) → b.curtail = s.curtail)))

/-- R6, R175: a write of the epoch source sets the mode, ending FALLBACK; EXTERNAL to INTERNAL with 1 000 ms or more passed
since the reference time advances at once. The time that passes is the command's operand (log 2); the advance replaces a pass
at work (log 13) and gives up a timed-out command with attempts other than 1 (log 23). -/
def Obligations.EpochSourceWriteSetsTheMode : Prop :=
  ∀ (s : State) (r : Request) (elapsed : Nat) (b3 b2 b1 b0 : Byte), Taken s .writeEpochSource r →
    r.data = [0x00#8, 0x00#8, 0x01#8, b3, b2, b1, b0] →
    let off := b3 = 0x00#8 ∧ b2 = 0x00#8 ∧ b1 = 0x00#8 ∧ b0 = 0x00#8
    let late := s.timer.mode = .external ∧ s.timer.refTime + 1000 ≤ s.now + elapsed
    (¬ off → TakesAndAnswers (.writeEpochSource elapsed) s r .ok [0x00#8, 0x00#8, 0x01#8, 0x00#8, 0x00#8, 0x00#8, 0x01#8]
      [.now, .settings, .timer] (fun b => b.now = s.now + elapsed ∧ b.settings = s.settings.set 1 1
        ∧ b.timer = { s.timer with mode := .external }))
    ∧ (off → ¬ late → TakesAndAnswers (.writeEpochSource elapsed) s r .ok
      [0x00#8, 0x00#8, 0x01#8, 0x00#8, 0x00#8, 0x00#8, 0x00#8] [.now, .settings, .timer]
      (fun b => b.now = s.now + elapsed ∧ b.settings = s.settings.set 1 0
        ∧ b.timer = { s.timer with mode := .internal }))
    ∧ (off → late → TakesAndAnswers (.writeEpochSource elapsed) s r .ok
      [0x00#8, 0x00#8, 0x01#8, 0x00#8, 0x00#8, 0x00#8, 0x00#8]
      [.now, .settings, .timer, .closing, .filling, .links, .curtail] (fun b =>
        Advanced ((((s.elapse elapsed).popRequest).setSettings (s.settings.set 1 0)).setTimer
          { s.timer with mode := .internal }) b (s.timer.epoch + 1)))

/-- R21, R71, R136: off written to an enabled port's setting clears the port, its presence entries, its readings and its
reported flags, leaves the sums, and makes its pending entries UNCONFIRMED: they leave its due list and join the owed list in
slot order unless their kind is masked (R128, R137). R22: on written to a DISABLED port makes it DOWN
and settling. A port already so keeps all it has. -/
def Obligations.PortDisableAndEnable : Prop :=
  ∀ (s : State) (r : Request) (p : Nat) (b3 b2 b1 b0 : Byte), p < 4 →
    r.data = [0x00#8, 0x00#8, BitVec.ofNat 8 (7 + p), b3, b2, b1, b0] →
    (Taken s .portDisable r →
      let reply := [0x00#8, 0x00#8, BitVec.ofNat 8 (7 + p), 0x00#8, 0x00#8, 0x00#8, 0x00#8]
      ((s.port p).link = .disabled → TakesAndAnswers .portDisable s r .ok reply [.settings]
        (fun b => b.settings = s.settings.set (7 + p) 0))
      ∧ ((s.port p).link ≠ .disabled → TakesAndAnswers .portDisable s r .ok reply
        [.settings, .links, .downChoice, .presence, .readings, .filling, .closing, .curtail] (fun b =>
          b.settings = s.settings.set (7 + p) 0
          ∧ b.port p = Port.initial ∧ (∀ q, q ≠ p → b.port q = s.port q)
          ∧ (∀ i, b.presenceAt i = if i / 16 = p then Presence.absent else s.presenceAt i)
          ∧ (∀ k, b.readingAt k = if k / 1024 = p then Reading.initial else s.readingAt k)
          ∧ (∀ k, b.filling.outletFlag k = if k / 1024 = p then false else s.filling.outletFlag k)
          ∧ (∀ i, b.filling.pduFlag i = if i / 16 = p then false else s.filling.pduFlag i)
          ∧ (∀ k, b.closing.outletFlag k = if k / 1024 = p then false else s.closing.outletFlag k)
          ∧ (∀ i, b.closing.pduFlag i = if i / 16 = p then false else s.closing.pduFlag i)
          ∧ b.filling = { s.filling with outletReported := b.filling.outletReported, pduReported := b.filling.pduReported }
          ∧ b.closing = { s.closing with outletReported := b.closing.outletReported, pduReported := b.closing.pduReported }
          ∧ (∀ slot, slot < 64 → b.entryAt slot = (s.entryAt slot).map (s.entryAfterLoss p))
          ∧ b.dueAt p = (s.dueAt p).filter (fun n => !s.pendingOn p n) ∧ (∀ q, q ≠ p → b.dueAt q = s.dueAt q)
          ∧ b.curtail.owed = s.owedAfter ((List.range 64).filter (s.pendingOn p))
          ∧ b.curtail.records = s.curtail.records ∧ b.curtail.tagCounter = s.curtail.tagCounter
          ∧ b.curtail.creation = s.curtail.creation)))
    ∧ (Taken s .portEnable r →
      let reply := [0x00#8, 0x00#8, BitVec.ofNat 8 (7 + p), 0x00#8, 0x00#8, 0x00#8, 0x01#8]
      ((s.port p).link ≠ .disabled → TakesAndAnswers .portEnable s r .ok reply [.settings]
        (fun b => b.settings = s.settings.set (7 + p) 1))
      ∧ ((s.port p).link = .disabled → TakesAndAnswers .portEnable s r .ok reply [.settings, .links, .downChoice] (fun b =>
          b.settings = s.settings.set (7 + p) 1
          ∧ b.port p = { link := .down, errorCount := 0, silentPass := 0, settling := true, dueMark := none,
                         passDown := [], tx := none, choice := none }
          ∧ ∀ q, q ≠ p → b.port q = s.port q)))

/-- R54, R177, R173: RESOLVE answers what decides a key, all the rules that match it and whether its slot is bad, and
records what it found bad; READ_STATUS answers the part's state; a WRITE_ENTRY of a table that is not written answers
BAD_TABLE; an unknown code is BAD_REQUEST outside the load (R171). That entry parity bad and commit-pending are sent as 0 for no
and 1 for yes is the model's choice (log 29). -/
def Obligations.ResolveStatusAndBadRequestsAnswer : Prop :=
  ∀ (s : State) (r : Request),
    (∀ hi lo : Byte, Taken s .resolve r → r.data = [hi, lo] →
      let key := hi.toNat * 256 + lo.toNat
      let exists' := key < 4096 ∧ key % 64 < 48
      let z := s.resolution key
      (¬ exists' → TakesAndAnswers .resolve s r .badIndex [] [] (fun _ => True))
      ∧ (exists' → ∃ bits : BitVec 16, (∀ n, n < 16 → bits.getLsbD n = s.ruleMatches key n)
          ∧ TakesAndAnswers .resolve s r .ok
            (layout ((match z.source with
              | .entry => [(1, 0), (1, 0)]
              | .rule n => [(1, 1), (1, n)]
              | .pool => [(1, 2), (1, 0)])
              ++ [(1, z.tenant), (1, feeds.idxOf z.feed), (2, bits.toNat), (1, flag (!(s.slotAt key).parityGood) 1)])) [.notices]
            (fun b => b.notices = s.noticesAfterReading
              ((if (s.slotAt key).parityGood = true then [] else [.item .oat key]) ++ s.badRules 16))))
    ∧ (Taken s .readStatus r → TakesAndAnswers .readStatus s r .ok s.statusLayout [] (fun _ => True))
    ∧ (Taken s .writeEntryBadTable r → TakesAndAnswers .writeEntryBadTable s r .badTable [] [] (fun _ => True))
    ∧ (Heads s .unknownRequestCode r → s.mgmt.imageState ≠ .loading →
        TakesAndAnswers .unknownRequestCode s r .badRequest [] [] (fun _ => True))

/-- R107, R108, R109, R157: COMMIT sets and CANCEL_COMMIT clears commit-pending; COPY_ACTIVE_TO_STAGED writes every staged
record afresh from the active one, a bad one as the empty contract, and records the bad ones; CLEAR_FAULT empties the fault
record. -/
def Obligations.CommitCopyAndClearFault : Prop :=
  ∀ (s : State) (r : Request),
    (Taken s .commit r → TakesAndAnswers .commit s r .ok [] [.contracts]
      (fun b => b.contracts = { s.contracts with commitPending := true }))
    ∧ (Taken s .cancelCommit r → TakesAndAnswers .cancelCommit s r .ok [] [.contracts]
      (fun b => b.contracts = { s.contracts with commitPending := false }))
    ∧ (Taken s .copyActiveToStaged r → TakesAndAnswers .copyActiveToStaged s r .ok [] [.contracts, .notices]
      (fun b => (∀ x, 1 ≤ x → x ≤ 127 → b.stagedAt x = {
            content := if (s.activeAt x).parityGood = true then (s.activeAt x).content else Contract.empty,
            parityGood := true })
        ∧ b.contracts = { s.contracts with staged := b.contracts.staged }
        ∧ (∀ x, 1 ≤ x → x ≤ 127 → (s.activeAt x).parityGood = false →
            (∀ y, 1 ≤ y → y < x → (s.activeAt y).parityGood = true) →
            b.notices = s.noticesWithFault .tableParity (.item .active x))
        ∧ ((∀ x, 1 ≤ x → x ≤ 127 → (s.activeAt x).parityGood = true) → b.notices = s.notices)))
    ∧ (Taken s .clearFault r → TakesAndAnswers .clearFault s r .ok [] [.notices]
      (fun b => b.notices = { s.notices with fault := none }))

/-- R141, R142, R143: RESTORE of a tenant sets restoring FORCED and ticks-in-OVER 0; RESTORE of an outlet removes a SKIPPED
entry or sets an OFF or UNCONFIRMED one ON_PENDING with its command due, and is BUSY while its tenant has a pending entry, on
a DONE entry, or on a DISABLED port; DISCARD removes an entry that is not pending. An outlet with no entry is BAD_INDEX. -/
def Obligations.RestoreAndDiscardActOnTheEntry : Prop :=
  ∀ (s : State) (r : Request) (hi lo : Byte),
    let i := hi.toNat * 256 + lo.toNat
    let removes := fun (c : Instr) (n : Nat) => TakesAndAnswers c s r .ok [] [.curtail] (fun b =>
      b.entryAt n = none ∧ (∀ m, m ≠ n → b.entryAt m = s.entryAt m)
      ∧ b.curtail.owed = s.curtail.owed.filter (fun m => decide (m ≠ n)) ∧ b.curtail.due = s.curtail.due
      ∧ b.curtail.records = s.curtail.records ∧ b.curtail.creation = s.curtail.creation)
    let busy := fun (c : Instr) => TakesAndAnswers c s r .busy [] [] (fun _ => True)
    let badIndex := fun (c : Instr) => TakesAndAnswers c s r .badIndex [] [] (fun _ => True)
    (Taken s .restoreTenant r → r.data = [0x00#8, hi, lo] →
      (i = 0 ∨ 127 < i → badIndex .restoreTenant)
      ∧ (1 ≤ i → i ≤ 127 → TakesAndAnswers .restoreTenant s r .ok [] [.curtail, .live] (fun b =>
          b.curtailAt i = { s.curtailAt i with restoring := .forced } ∧ (∀ x, x ≠ i → b.curtailAt x = s.curtailAt x)
          ∧ b.curtail = { s.curtail with records := b.curtail.records }
          ∧ b.liveAt i = { s.liveAt i with ticksInOver := 0 } ∧ ∀ x, x ≠ i → b.liveAt x = s.liveAt x)))
    ∧ (Taken s .restoreOutlet r → r.data = [0x01#8, hi, lo] →
      (keyValid i = false ∨ (∀ n e, n < 64 → s.entryAt n = some e → e.outlet ≠ i) → badIndex .restoreOutlet)
      ∧ ∀ n e, CurtailLaws s → keyValid i = true → n < 64 → s.entryAt n = some e → e.outlet = i →
        let tenantBusy := (∃ m f, m < 64 ∧ s.entryAt m = some f ∧ f.tenant = e.tenant ∧ f.pending = true)
        (tenantBusy → busy .restoreOutlet) ∧ (e.stage = .done → busy .restoreOutlet)
        ∧ (¬ tenantBusy → e.stage = .skipped → removes .restoreOutlet n)
        ∧ (¬ tenantBusy → e.stage = .off ∨ e.stage = .unconfirmed → (s.port (keyPort i)).link = .disabled →
            busy .restoreOutlet)
        ∧ (¬ tenantBusy → e.stage = .off ∨ e.stage = .unconfirmed → (s.port (keyPort i)).link ≠ .disabled →
            TakesAndAnswers .restoreOutlet s r .ok [] [.curtail] (fun b =>
              b.entryAt n = some { e with stage := .onPending, sent := false, remaining := 0, attempts := 0 }
              ∧ (∀ m, m ≠ n → b.entryAt m = s.entryAt m)
              ∧ b.dueAt (keyPort i) = s.dueAt (keyPort i) ++ [n] ∧ (∀ p, p ≠ keyPort i → b.dueAt p = s.dueAt p)
              ∧ b.curtail.owed = s.curtail.owed ∧ b.curtail.records = s.curtail.records
              ∧ b.curtail.creation = s.curtail.creation ∧ b.curtail.tagCounter = s.curtail.tagCounter)))
    ∧ (Taken s .discard r → r.data = [hi, lo] →
      (keyValid i = false ∨ (∀ n e, n < 64 → s.entryAt n = some e → e.outlet ≠ i) → badIndex .discard)
      ∧ ∀ n e, CurtailLaws s → keyValid i = true → n < 64 → s.entryAt n = some e → e.outlet = i →
        (e.pending = true → busy .discard) ∧ (e.pending = false → removes .discard n))

/-- R181, R183: SAVE_IMAGE takes the snapshot, sets the image state SAVING and records what it read bad, with no answer yet;
the save's end sets the image state and answers OK or IMAGE_FAIL. That a save that fails leaves the memory without a good image
is the model's choice (log 8). -/
def Obligations.SaveImageThenItsEndAnswers : Prop :=
  ∀ (s : State),
    (∀ r : Request, Taken s .saveImage r → ∃ t, exec .saveImage s = .next t
      ∧ t.mgmt = { s.mgmt with imageState := .saving,
                               save := some { origin := r.origin, tag := r.tag, snapshot := s.snapshot } }
      ∧ t.uplink.core = { s.uplink.core with requests := s.uplink.requests.tail }
      ∧ t.notices = s.noticesAfterReading (s.badSlots ++ s.badRules 16 ++ badContracts .active s.activeAt)
      ∧ SameOutside [.mgmt, .uplink, .notices, .downChoice, .upChoice] s t)
    ∧ ∀ (j : SaveJob) (outcome : SaveOutcome), s.mgmt.save = some j → ∃ b t, exec (.saveEnd outcome) s = .next t
      ∧ b.mgmt = { s.mgmt with
          imageState := (match outcome with | .agrees => .ok | .disagrees => .invalid | .stoppedAnswering => .absent),
          save := none }
      ∧ b.extMemory = (if outcome = .agrees then some j.snapshot else none) ∧ SameOutside [.mgmt, .extMemory] s b
      ∧ Answered b t j.origin { tag := j.tag, code := 0x0B#8,
                                status := if outcome = .agrees then .ok else .imageFail, data := [] }
      ∧ SameOutside answerBlocks b t

/-- R184 with each block's live reset (R14, R37, R74, R99, R118, R145, R154, R167), answered after it; and R185: a full reset
is answered at once and waits for its response to be sent, or is due at once when the response is lost (log 14). -/
def Obligations.ResetRequestsResetAndAnswer : Prop :=
  ∀ (s : State) (r : Request),
    (Taken s .resetLive r → ∃ b t, exec .resetLive s = .next t
      ∧ b.timer = { s.timer with tickCount := 0, intervalNumber := s.timer.intervalNumber + 1, pass := none,
                                 handedClose := none }
      ∧ (∀ p, p < 4 → b.port p = { Port.initial with link := if s.setting (7 + p) = 1 then .down else .disabled })
      ∧ (∀ i, b.presenceAt i = Presence.absent) ∧ (∀ k, b.readingAt k = Reading.initial)
      ∧ b.filling = AccSet.cleared ∧ b.closing = AccSet.cleared
      ∧ (∀ x, 1 ≤ x → x ≤ 127 → (s.activeAt x).parityGood = true → (s.activeAt x).content.valid = true →
          b.liveAt x = { LiveRecord.idle with state := .within, credit := (s.activeAt x).content.burstCap,
                                              minCredit := (s.activeAt x).content.burstCap })
      ∧ (∀ x, (s.activeAt x).parityGood = false ∨ (s.activeAt x).content.valid = false → b.liveAt x = LiveRecord.idle)
      ∧ b.contracts = { s.contracts with summaries := [] } ∧ b.curtail = Curtailment.initial
      ∧ b.notices.queue = [] ∧ b.notices.intervalOwed = none
      ∧ b.notices.fault = (s.noticesAfterReading (badContracts .active s.activeAt)).fault
      ∧ b.notices.annSource = .internal ∧ b.notices.annFault = none
      ∧ (∀ x, Table.read TenantCompared.clear b.notices.annTenant x = TenantCompared.clear)
      ∧ (∀ p, p < 4 → Table.read .disabled b.notices.annPort p = if s.setting (7 + p) = 1 then .down else .disabled)
      ∧ (∀ i, Table.read .absent b.notices.annPresence i = .absent)
      ∧ b.uplink.core = { s.uplink.core with requests := [], responses := [], forwards := [], lastServed := .forward }
      ∧ b.mgmt = s.mgmt ∧ b.uplink.choice = none
      ∧ SameOutside [.timer, .links, .downChoice, .presence, .readings, .filling, .closing, .live, .contracts, .curtail,
          .notices, .uplink, .upChoice] s b
      ∧ Answered b t r.origin (r.answer .ok []) ∧ SameOutside answerBlocks b t)
    ∧ (Taken s .resetFull r → ∃ b u t, exec .resetFull s = .next t
      ∧ b.uplink.core = { s.uplink.core with requests := s.uplink.requests.tail } ∧ SameOutside [.uplink] s b
      ∧ Answered b u r.origin (r.answer .ok []) ∧ SameOutside answerBlocks b u
      ∧ (∀ lost : Bool, (lost = true ↔ ∃ p position, r.origin = .chain p position
            ∧ ((s.port p).link = .disabled ∨ 4 ≤ (s.port p).passDown.length)) →
          t.mgmt = { u.mgmt with resetWaiting := some r.origin, resetDue := s.mgmt.resetDue || lost })
      ∧ SameOutside (.mgmt :: choiceBlocks) u t)

/-- R44, R104 (the operands and the parity flag are the model's, log 9): an upset changes the struck item and nothing else;
its parity is bad unless the upset struck the parity with it (R89). -/
def Obligations.StorageUpsetStrikesOneItem : Prop :=
  ∀ (s : State) (good : Bool),
    (∀ key content, keyValid key = true → ∃ t, exec (.storageUpset (.oatSlot key content) good) s = .next t
      ∧ t.slotAt key = { content := content, parityGood := good } ∧ (∀ k, k ≠ key → t.slotAt k = s.slotAt k)
      ∧ SameOutside [.oat] s t)
    ∧ (∀ n rule, n < 16 → ∃ t, exec (.storageUpset (.rule n rule) good) s = .next t
      ∧ t.ruleAt n = { content := rule, parityGood := good } ∧ (∀ m, m ≠ n → t.ruleAt m = s.ruleAt m)
      ∧ SameOutside [.rules] s t)
    ∧ ∀ x c, 1 ≤ x → x ≤ 127 →
      (∃ t, exec (.storageUpset (.active x c) good) s = .next t
        ∧ t.activeAt x = { content := c, parityGood := good } ∧ (∀ y, y ≠ x → t.activeAt y = s.activeAt y)
        ∧ t.contracts = { s.contracts with active := t.contracts.active } ∧ SameOutside [.contracts] s t)
      ∧ (∃ t, exec (.storageUpset (.staged x c) good) s = .next t
        ∧ t.stagedAt x = { content := c, parityGood := good } ∧ (∀ y, y ≠ x → t.stagedAt y = s.stagedAt y)
        ∧ t.contracts = { s.contracts with staged := t.contracts.staged } ∧ SameOutside [.contracts] s t)

/-! ### What every step keeps -/

/-- No queue outgrows its depth, every table stays in canonical form, every setting stays in its range. -/
def Obligations.StepKeepsQueuesTablesAndSettings : Prop :=
  ∀ s t : State, QueueBounds s → TablesCanonical s → SettingsInRange s → step s = .next t →
    QueueBounds t ∧ TablesCanonical t ∧ SettingsInRange t

/-- R120: no step makes a second entry for an outlet, or a second pending entry for a tenant. R119, R128, R137: every step
leaves each due list the unsent pending entries of its port, each once, and the owed list the entries whose result is owed,
each once. -/
def Obligations.StepKeepsTheCurtailmentLaws : Prop :=
  ∀ s t : State, step s = .next t → (CurtailLaws s → CurtailLaws t) ∧ (CurtailLists s → CurtailLists t)

/-- R85: no step leaves an IDLE tenant with credit, or a tenant with more than its Bmax; an upset that leaves content and
parity agreeing on another contract is out (R89, log 9). -/
def Obligations.StepKeepsTheCreditLaw : Prop :=
  ∀ (c : Instr) (s t : State), (∀ item, c ≠ .storageUpset item true) → CreditLaw s → exec c s = .next t → CreditLaw t

/-- R69, R75, R79, R81, R91: sums, draws, demand, peaks and energy stay within their ranges, and the pool's record stays
IDLE with nothing counted. -/
def Obligations.StepKeepsFiguresBoundedAndThePoolIdle : Prop :=
  ∀ s t : State, FiguresBounded s → PoolIdle s → step s = .next t → FiguresBounded t ∧ PoolIdle t

/-- R21, R23, R36: a DISABLED port stays inert and its PDUs ABSENT through every step. -/
def Obligations.StepKeepsDisabledPortsInert : Prop :=
  ∀ s t : State, DisabledPortsInert s → step s = .next t → DisabledPortsInert t

/-- R32, R164: after every step each idle transmitter with something to send has chosen, and one that sends has not. -/
def Obligations.StepKeepsTransmittersChoosing : Prop :=
  ∀ s t : State, TransmittersChoose s → step s = .next t → TransmittersChoose t

/-- R155, R156: whatever happens but the four events that empty it, the fault record keeps its fault or takes one of higher
severity. -/
def Obligations.FaultRecordOnlyRisesInSeverity : Prop :=
  ∀ (c : Instr) (s t : State), c.emptiesFault = false → exec c s = .next t →
    t.notices.fault = s.notices.fault ∨ severityHeld s.notices.fault < severityHeld t.notices.fault

/-- Every law that the steps keep holds right after power is applied. -/
def Obligations.ResetMeetsEveryLaw : Prop :=
  QueueBounds State.reset ∧ TablesCanonical State.reset ∧ SettingsInRange State.reset ∧ CurtailLaws State.reset
    ∧ CurtailLists State.reset ∧ CreditLaw State.reset ∧ FiguresBounded State.reset ∧ PoolIdle State.reset ∧ DisabledPortsInert State.reset
    ∧ TransmittersChoose State.reset
end

