-- ==== Sys2Proof/Laws/State.lean ====
section
/-! SUPPORT. One lemma per field per update of State: an update sets its own field and leaves every other. -/

namespace Sys2Proof.Machine

variable (s : State)

section
variable (v : List Instr)
@[simp] theorem State.setPending_pending : (s.setPending v).pending = v := rfl
@[simp] theorem State.setPending_now : (s.setPending v).now = s.now := rfl
@[simp] theorem State.setPending_freeCount : (s.setPending v).freeCount = s.freeCount := rfl
@[simp] theorem State.setPending_timer : (s.setPending v).timer = s.timer := rfl
@[simp] theorem State.setPending_ports : (s.setPending v).ports = s.ports := rfl
@[simp] theorem State.setPending_presence : (s.setPending v).presence = s.presence := rfl
@[simp] theorem State.setPending_oat : (s.setPending v).oat = s.oat := rfl
@[simp] theorem State.setPending_rules : (s.setPending v).rules = s.rules := rfl
@[simp] theorem State.setPending_readings : (s.setPending v).readings = s.readings := rfl
@[simp] theorem State.setPending_filling : (s.setPending v).filling = s.filling := rfl
@[simp] theorem State.setPending_closing : (s.setPending v).closing = s.closing := rfl
@[simp] theorem State.setPending_live : (s.setPending v).live = s.live := rfl
@[simp] theorem State.setPending_contracts : (s.setPending v).contracts = s.contracts := rfl
@[simp] theorem State.setPending_curtail : (s.setPending v).curtail = s.curtail := rfl
@[simp] theorem State.setPending_notices : (s.setPending v).notices = s.notices := rfl
@[simp] theorem State.setPending_uplink : (s.setPending v).uplink = s.uplink := rfl
@[simp] theorem State.setPending_mgmt : (s.setPending v).mgmt = s.mgmt := rfl
@[simp] theorem State.setPending_settings : (s.setPending v).settings = s.settings := rfl
@[simp] theorem State.setPending_extMemory : (s.setPending v).extMemory = s.extMemory := rfl
end

section
variable (v : Nat)
@[simp] theorem State.setNow_pending : (s.setNow v).pending = s.pending := rfl
@[simp] theorem State.setNow_now : (s.setNow v).now = v := rfl
@[simp] theorem State.setNow_freeCount : (s.setNow v).freeCount = s.freeCount := rfl
@[simp] theorem State.setNow_timer : (s.setNow v).timer = s.timer := rfl
@[simp] theorem State.setNow_ports : (s.setNow v).ports = s.ports := rfl
@[simp] theorem State.setNow_presence : (s.setNow v).presence = s.presence := rfl
@[simp] theorem State.setNow_oat : (s.setNow v).oat = s.oat := rfl
@[simp] theorem State.setNow_rules : (s.setNow v).rules = s.rules := rfl
@[simp] theorem State.setNow_readings : (s.setNow v).readings = s.readings := rfl
@[simp] theorem State.setNow_filling : (s.setNow v).filling = s.filling := rfl
@[simp] theorem State.setNow_closing : (s.setNow v).closing = s.closing := rfl
@[simp] theorem State.setNow_live : (s.setNow v).live = s.live := rfl
@[simp] theorem State.setNow_contracts : (s.setNow v).contracts = s.contracts := rfl
@[simp] theorem State.setNow_curtail : (s.setNow v).curtail = s.curtail := rfl
@[simp] theorem State.setNow_notices : (s.setNow v).notices = s.notices := rfl
@[simp] theorem State.setNow_uplink : (s.setNow v).uplink = s.uplink := rfl
@[simp] theorem State.setNow_mgmt : (s.setNow v).mgmt = s.mgmt := rfl
@[simp] theorem State.setNow_settings : (s.setNow v).settings = s.settings := rfl
@[simp] theorem State.setNow_extMemory : (s.setNow v).extMemory = s.extMemory := rfl
end

section
variable (v : Nat)
@[simp] theorem State.setFreeCount_pending : (s.setFreeCount v).pending = s.pending := rfl
@[simp] theorem State.setFreeCount_now : (s.setFreeCount v).now = s.now := rfl
@[simp] theorem State.setFreeCount_freeCount : (s.setFreeCount v).freeCount = v := rfl
@[simp] theorem State.setFreeCount_timer : (s.setFreeCount v).timer = s.timer := rfl
@[simp] theorem State.setFreeCount_ports : (s.setFreeCount v).ports = s.ports := rfl
@[simp] theorem State.setFreeCount_presence : (s.setFreeCount v).presence = s.presence := rfl
@[simp] theorem State.setFreeCount_oat : (s.setFreeCount v).oat = s.oat := rfl
@[simp] theorem State.setFreeCount_rules : (s.setFreeCount v).rules = s.rules := rfl
@[simp] theorem State.setFreeCount_readings : (s.setFreeCount v).readings = s.readings := rfl
@[simp] theorem State.setFreeCount_filling : (s.setFreeCount v).filling = s.filling := rfl
@[simp] theorem State.setFreeCount_closing : (s.setFreeCount v).closing = s.closing := rfl
@[simp] theorem State.setFreeCount_live : (s.setFreeCount v).live = s.live := rfl
@[simp] theorem State.setFreeCount_contracts : (s.setFreeCount v).contracts = s.contracts := rfl
@[simp] theorem State.setFreeCount_curtail : (s.setFreeCount v).curtail = s.curtail := rfl
@[simp] theorem State.setFreeCount_notices : (s.setFreeCount v).notices = s.notices := rfl
@[simp] theorem State.setFreeCount_uplink : (s.setFreeCount v).uplink = s.uplink := rfl
@[simp] theorem State.setFreeCount_mgmt : (s.setFreeCount v).mgmt = s.mgmt := rfl
@[simp] theorem State.setFreeCount_settings : (s.setFreeCount v).settings = s.settings := rfl
@[simp] theorem State.setFreeCount_extMemory : (s.setFreeCount v).extMemory = s.extMemory := rfl
end

section
variable (v : Timer)
@[simp] theorem State.setTimer_pending : (s.setTimer v).pending = s.pending := rfl
@[simp] theorem State.setTimer_now : (s.setTimer v).now = s.now := rfl
@[simp] theorem State.setTimer_freeCount : (s.setTimer v).freeCount = s.freeCount := rfl
@[simp] theorem State.setTimer_timer : (s.setTimer v).timer = v := rfl
@[simp] theorem State.setTimer_ports : (s.setTimer v).ports = s.ports := rfl
@[simp] theorem State.setTimer_presence : (s.setTimer v).presence = s.presence := rfl
@[simp] theorem State.setTimer_oat : (s.setTimer v).oat = s.oat := rfl
@[simp] theorem State.setTimer_rules : (s.setTimer v).rules = s.rules := rfl
@[simp] theorem State.setTimer_readings : (s.setTimer v).readings = s.readings := rfl
@[simp] theorem State.setTimer_filling : (s.setTimer v).filling = s.filling := rfl
@[simp] theorem State.setTimer_closing : (s.setTimer v).closing = s.closing := rfl
@[simp] theorem State.setTimer_live : (s.setTimer v).live = s.live := rfl
@[simp] theorem State.setTimer_contracts : (s.setTimer v).contracts = s.contracts := rfl
@[simp] theorem State.setTimer_curtail : (s.setTimer v).curtail = s.curtail := rfl
@[simp] theorem State.setTimer_notices : (s.setTimer v).notices = s.notices := rfl
@[simp] theorem State.setTimer_uplink : (s.setTimer v).uplink = s.uplink := rfl
@[simp] theorem State.setTimer_mgmt : (s.setTimer v).mgmt = s.mgmt := rfl
@[simp] theorem State.setTimer_settings : (s.setTimer v).settings = s.settings := rfl
@[simp] theorem State.setTimer_extMemory : (s.setTimer v).extMemory = s.extMemory := rfl
end

section
variable (v : Table Port)
@[simp] theorem State.setPorts_pending : (s.setPorts v).pending = s.pending := rfl
@[simp] theorem State.setPorts_now : (s.setPorts v).now = s.now := rfl
@[simp] theorem State.setPorts_freeCount : (s.setPorts v).freeCount = s.freeCount := rfl
@[simp] theorem State.setPorts_timer : (s.setPorts v).timer = s.timer := rfl
@[simp] theorem State.setPorts_ports : (s.setPorts v).ports = v := rfl
@[simp] theorem State.setPorts_presence : (s.setPorts v).presence = s.presence := rfl
@[simp] theorem State.setPorts_oat : (s.setPorts v).oat = s.oat := rfl
@[simp] theorem State.setPorts_rules : (s.setPorts v).rules = s.rules := rfl
@[simp] theorem State.setPorts_readings : (s.setPorts v).readings = s.readings := rfl
@[simp] theorem State.setPorts_filling : (s.setPorts v).filling = s.filling := rfl
@[simp] theorem State.setPorts_closing : (s.setPorts v).closing = s.closing := rfl
@[simp] theorem State.setPorts_live : (s.setPorts v).live = s.live := rfl
@[simp] theorem State.setPorts_contracts : (s.setPorts v).contracts = s.contracts := rfl
@[simp] theorem State.setPorts_curtail : (s.setPorts v).curtail = s.curtail := rfl
@[simp] theorem State.setPorts_notices : (s.setPorts v).notices = s.notices := rfl
@[simp] theorem State.setPorts_uplink : (s.setPorts v).uplink = s.uplink := rfl
@[simp] theorem State.setPorts_mgmt : (s.setPorts v).mgmt = s.mgmt := rfl
@[simp] theorem State.setPorts_settings : (s.setPorts v).settings = s.settings := rfl
@[simp] theorem State.setPorts_extMemory : (s.setPorts v).extMemory = s.extMemory := rfl
end

section
variable (v : Table Presence)
@[simp] theorem State.setPresence_pending : (s.setPresence v).pending = s.pending := rfl
@[simp] theorem State.setPresence_now : (s.setPresence v).now = s.now := rfl
@[simp] theorem State.setPresence_freeCount : (s.setPresence v).freeCount = s.freeCount := rfl
@[simp] theorem State.setPresence_timer : (s.setPresence v).timer = s.timer := rfl
@[simp] theorem State.setPresence_ports : (s.setPresence v).ports = s.ports := rfl
@[simp] theorem State.setPresence_presence : (s.setPresence v).presence = v := rfl
@[simp] theorem State.setPresence_oat : (s.setPresence v).oat = s.oat := rfl
@[simp] theorem State.setPresence_rules : (s.setPresence v).rules = s.rules := rfl
@[simp] theorem State.setPresence_readings : (s.setPresence v).readings = s.readings := rfl
@[simp] theorem State.setPresence_filling : (s.setPresence v).filling = s.filling := rfl
@[simp] theorem State.setPresence_closing : (s.setPresence v).closing = s.closing := rfl
@[simp] theorem State.setPresence_live : (s.setPresence v).live = s.live := rfl
@[simp] theorem State.setPresence_contracts : (s.setPresence v).contracts = s.contracts := rfl
@[simp] theorem State.setPresence_curtail : (s.setPresence v).curtail = s.curtail := rfl
@[simp] theorem State.setPresence_notices : (s.setPresence v).notices = s.notices := rfl
@[simp] theorem State.setPresence_uplink : (s.setPresence v).uplink = s.uplink := rfl
@[simp] theorem State.setPresence_mgmt : (s.setPresence v).mgmt = s.mgmt := rfl
@[simp] theorem State.setPresence_settings : (s.setPresence v).settings = s.settings := rfl
@[simp] theorem State.setPresence_extMemory : (s.setPresence v).extMemory = s.extMemory := rfl
end

section
variable (v : Table (Stored (Option OatEntry)))
@[simp] theorem State.setOat_pending : (s.setOat v).pending = s.pending := rfl
@[simp] theorem State.setOat_now : (s.setOat v).now = s.now := rfl
@[simp] theorem State.setOat_freeCount : (s.setOat v).freeCount = s.freeCount := rfl
@[simp] theorem State.setOat_timer : (s.setOat v).timer = s.timer := rfl
@[simp] theorem State.setOat_ports : (s.setOat v).ports = s.ports := rfl
@[simp] theorem State.setOat_presence : (s.setOat v).presence = s.presence := rfl
@[simp] theorem State.setOat_oat : (s.setOat v).oat = v := rfl
@[simp] theorem State.setOat_rules : (s.setOat v).rules = s.rules := rfl
@[simp] theorem State.setOat_readings : (s.setOat v).readings = s.readings := rfl
@[simp] theorem State.setOat_filling : (s.setOat v).filling = s.filling := rfl
@[simp] theorem State.setOat_closing : (s.setOat v).closing = s.closing := rfl
@[simp] theorem State.setOat_live : (s.setOat v).live = s.live := rfl
@[simp] theorem State.setOat_contracts : (s.setOat v).contracts = s.contracts := rfl
@[simp] theorem State.setOat_curtail : (s.setOat v).curtail = s.curtail := rfl
@[simp] theorem State.setOat_notices : (s.setOat v).notices = s.notices := rfl
@[simp] theorem State.setOat_uplink : (s.setOat v).uplink = s.uplink := rfl
@[simp] theorem State.setOat_mgmt : (s.setOat v).mgmt = s.mgmt := rfl
@[simp] theorem State.setOat_settings : (s.setOat v).settings = s.settings := rfl
@[simp] theorem State.setOat_extMemory : (s.setOat v).extMemory = s.extMemory := rfl
end

section
variable (v : Table (Stored Rule))
@[simp] theorem State.setRules_pending : (s.setRules v).pending = s.pending := rfl
@[simp] theorem State.setRules_now : (s.setRules v).now = s.now := rfl
@[simp] theorem State.setRules_freeCount : (s.setRules v).freeCount = s.freeCount := rfl
@[simp] theorem State.setRules_timer : (s.setRules v).timer = s.timer := rfl
@[simp] theorem State.setRules_ports : (s.setRules v).ports = s.ports := rfl
@[simp] theorem State.setRules_presence : (s.setRules v).presence = s.presence := rfl
@[simp] theorem State.setRules_oat : (s.setRules v).oat = s.oat := rfl
@[simp] theorem State.setRules_rules : (s.setRules v).rules = v := rfl
@[simp] theorem State.setRules_readings : (s.setRules v).readings = s.readings := rfl
@[simp] theorem State.setRules_filling : (s.setRules v).filling = s.filling := rfl
@[simp] theorem State.setRules_closing : (s.setRules v).closing = s.closing := rfl
@[simp] theorem State.setRules_live : (s.setRules v).live = s.live := rfl
@[simp] theorem State.setRules_contracts : (s.setRules v).contracts = s.contracts := rfl
@[simp] theorem State.setRules_curtail : (s.setRules v).curtail = s.curtail := rfl
@[simp] theorem State.setRules_notices : (s.setRules v).notices = s.notices := rfl
@[simp] theorem State.setRules_uplink : (s.setRules v).uplink = s.uplink := rfl
@[simp] theorem State.setRules_mgmt : (s.setRules v).mgmt = s.mgmt := rfl
@[simp] theorem State.setRules_settings : (s.setRules v).settings = s.settings := rfl
@[simp] theorem State.setRules_extMemory : (s.setRules v).extMemory = s.extMemory := rfl
end

section
variable (v : Table Reading)
@[simp] theorem State.setReadings_pending : (s.setReadings v).pending = s.pending := rfl
@[simp] theorem State.setReadings_now : (s.setReadings v).now = s.now := rfl
@[simp] theorem State.setReadings_freeCount : (s.setReadings v).freeCount = s.freeCount := rfl
@[simp] theorem State.setReadings_timer : (s.setReadings v).timer = s.timer := rfl
@[simp] theorem State.setReadings_ports : (s.setReadings v).ports = s.ports := rfl
@[simp] theorem State.setReadings_presence : (s.setReadings v).presence = s.presence := rfl
@[simp] theorem State.setReadings_oat : (s.setReadings v).oat = s.oat := rfl
@[simp] theorem State.setReadings_rules : (s.setReadings v).rules = s.rules := rfl
@[simp] theorem State.setReadings_readings : (s.setReadings v).readings = v := rfl
@[simp] theorem State.setReadings_filling : (s.setReadings v).filling = s.filling := rfl
@[simp] theorem State.setReadings_closing : (s.setReadings v).closing = s.closing := rfl
@[simp] theorem State.setReadings_live : (s.setReadings v).live = s.live := rfl
@[simp] theorem State.setReadings_contracts : (s.setReadings v).contracts = s.contracts := rfl
@[simp] theorem State.setReadings_curtail : (s.setReadings v).curtail = s.curtail := rfl
@[simp] theorem State.setReadings_notices : (s.setReadings v).notices = s.notices := rfl
@[simp] theorem State.setReadings_uplink : (s.setReadings v).uplink = s.uplink := rfl
@[simp] theorem State.setReadings_mgmt : (s.setReadings v).mgmt = s.mgmt := rfl
@[simp] theorem State.setReadings_settings : (s.setReadings v).settings = s.settings := rfl
@[simp] theorem State.setReadings_extMemory : (s.setReadings v).extMemory = s.extMemory := rfl
end

section
variable (v : AccSet)
@[simp] theorem State.setFilling_pending : (s.setFilling v).pending = s.pending := rfl
@[simp] theorem State.setFilling_now : (s.setFilling v).now = s.now := rfl
@[simp] theorem State.setFilling_freeCount : (s.setFilling v).freeCount = s.freeCount := rfl
@[simp] theorem State.setFilling_timer : (s.setFilling v).timer = s.timer := rfl
@[simp] theorem State.setFilling_ports : (s.setFilling v).ports = s.ports := rfl
@[simp] theorem State.setFilling_presence : (s.setFilling v).presence = s.presence := rfl
@[simp] theorem State.setFilling_oat : (s.setFilling v).oat = s.oat := rfl
@[simp] theorem State.setFilling_rules : (s.setFilling v).rules = s.rules := rfl
@[simp] theorem State.setFilling_readings : (s.setFilling v).readings = s.readings := rfl
@[simp] theorem State.setFilling_filling : (s.setFilling v).filling = v := rfl
@[simp] theorem State.setFilling_closing : (s.setFilling v).closing = s.closing := rfl
@[simp] theorem State.setFilling_live : (s.setFilling v).live = s.live := rfl
@[simp] theorem State.setFilling_contracts : (s.setFilling v).contracts = s.contracts := rfl
@[simp] theorem State.setFilling_curtail : (s.setFilling v).curtail = s.curtail := rfl
@[simp] theorem State.setFilling_notices : (s.setFilling v).notices = s.notices := rfl
@[simp] theorem State.setFilling_uplink : (s.setFilling v).uplink = s.uplink := rfl
@[simp] theorem State.setFilling_mgmt : (s.setFilling v).mgmt = s.mgmt := rfl
@[simp] theorem State.setFilling_settings : (s.setFilling v).settings = s.settings := rfl
@[simp] theorem State.setFilling_extMemory : (s.setFilling v).extMemory = s.extMemory := rfl
end

section
variable (v : AccSet)
@[simp] theorem State.setClosing_pending : (s.setClosing v).pending = s.pending := rfl
@[simp] theorem State.setClosing_now : (s.setClosing v).now = s.now := rfl
@[simp] theorem State.setClosing_freeCount : (s.setClosing v).freeCount = s.freeCount := rfl
@[simp] theorem State.setClosing_timer : (s.setClosing v).timer = s.timer := rfl
@[simp] theorem State.setClosing_ports : (s.setClosing v).ports = s.ports := rfl
@[simp] theorem State.setClosing_presence : (s.setClosing v).presence = s.presence := rfl
@[simp] theorem State.setClosing_oat : (s.setClosing v).oat = s.oat := rfl
@[simp] theorem State.setClosing_rules : (s.setClosing v).rules = s.rules := rfl
@[simp] theorem State.setClosing_readings : (s.setClosing v).readings = s.readings := rfl
@[simp] theorem State.setClosing_filling : (s.setClosing v).filling = s.filling := rfl
@[simp] theorem State.setClosing_closing : (s.setClosing v).closing = v := rfl
@[simp] theorem State.setClosing_live : (s.setClosing v).live = s.live := rfl
@[simp] theorem State.setClosing_contracts : (s.setClosing v).contracts = s.contracts := rfl
@[simp] theorem State.setClosing_curtail : (s.setClosing v).curtail = s.curtail := rfl
@[simp] theorem State.setClosing_notices : (s.setClosing v).notices = s.notices := rfl
@[simp] theorem State.setClosing_uplink : (s.setClosing v).uplink = s.uplink := rfl
@[simp] theorem State.setClosing_mgmt : (s.setClosing v).mgmt = s.mgmt := rfl
@[simp] theorem State.setClosing_settings : (s.setClosing v).settings = s.settings := rfl
@[simp] theorem State.setClosing_extMemory : (s.setClosing v).extMemory = s.extMemory := rfl
end

section
variable (v : Table LiveRecord)
@[simp] theorem State.setLive_pending : (s.setLive v).pending = s.pending := rfl
@[simp] theorem State.setLive_now : (s.setLive v).now = s.now := rfl
@[simp] theorem State.setLive_freeCount : (s.setLive v).freeCount = s.freeCount := rfl
@[simp] theorem State.setLive_timer : (s.setLive v).timer = s.timer := rfl
@[simp] theorem State.setLive_ports : (s.setLive v).ports = s.ports := rfl
@[simp] theorem State.setLive_presence : (s.setLive v).presence = s.presence := rfl
@[simp] theorem State.setLive_oat : (s.setLive v).oat = s.oat := rfl
@[simp] theorem State.setLive_rules : (s.setLive v).rules = s.rules := rfl
@[simp] theorem State.setLive_readings : (s.setLive v).readings = s.readings := rfl
@[simp] theorem State.setLive_filling : (s.setLive v).filling = s.filling := rfl
@[simp] theorem State.setLive_closing : (s.setLive v).closing = s.closing := rfl
@[simp] theorem State.setLive_live : (s.setLive v).live = v := rfl
@[simp] theorem State.setLive_contracts : (s.setLive v).contracts = s.contracts := rfl
@[simp] theorem State.setLive_curtail : (s.setLive v).curtail = s.curtail := rfl
@[simp] theorem State.setLive_notices : (s.setLive v).notices = s.notices := rfl
@[simp] theorem State.setLive_uplink : (s.setLive v).uplink = s.uplink := rfl
@[simp] theorem State.setLive_mgmt : (s.setLive v).mgmt = s.mgmt := rfl
@[simp] theorem State.setLive_settings : (s.setLive v).settings = s.settings := rfl
@[simp] theorem State.setLive_extMemory : (s.setLive v).extMemory = s.extMemory := rfl
end

section
variable (v : ContractStore)
@[simp] theorem State.setContracts_pending : (s.setContracts v).pending = s.pending := rfl
@[simp] theorem State.setContracts_now : (s.setContracts v).now = s.now := rfl
@[simp] theorem State.setContracts_freeCount : (s.setContracts v).freeCount = s.freeCount := rfl
@[simp] theorem State.setContracts_timer : (s.setContracts v).timer = s.timer := rfl
@[simp] theorem State.setContracts_ports : (s.setContracts v).ports = s.ports := rfl
@[simp] theorem State.setContracts_presence : (s.setContracts v).presence = s.presence := rfl
@[simp] theorem State.setContracts_oat : (s.setContracts v).oat = s.oat := rfl
@[simp] theorem State.setContracts_rules : (s.setContracts v).rules = s.rules := rfl
@[simp] theorem State.setContracts_readings : (s.setContracts v).readings = s.readings := rfl
@[simp] theorem State.setContracts_filling : (s.setContracts v).filling = s.filling := rfl
@[simp] theorem State.setContracts_closing : (s.setContracts v).closing = s.closing := rfl
@[simp] theorem State.setContracts_live : (s.setContracts v).live = s.live := rfl
@[simp] theorem State.setContracts_contracts : (s.setContracts v).contracts = v := rfl
@[simp] theorem State.setContracts_curtail : (s.setContracts v).curtail = s.curtail := rfl
@[simp] theorem State.setContracts_notices : (s.setContracts v).notices = s.notices := rfl
@[simp] theorem State.setContracts_uplink : (s.setContracts v).uplink = s.uplink := rfl
@[simp] theorem State.setContracts_mgmt : (s.setContracts v).mgmt = s.mgmt := rfl
@[simp] theorem State.setContracts_settings : (s.setContracts v).settings = s.settings := rfl
@[simp] theorem State.setContracts_extMemory : (s.setContracts v).extMemory = s.extMemory := rfl
end

section
variable (v : Curtailment)
@[simp] theorem State.setCurtail_pending : (s.setCurtail v).pending = s.pending := rfl
@[simp] theorem State.setCurtail_now : (s.setCurtail v).now = s.now := rfl
@[simp] theorem State.setCurtail_freeCount : (s.setCurtail v).freeCount = s.freeCount := rfl
@[simp] theorem State.setCurtail_timer : (s.setCurtail v).timer = s.timer := rfl
@[simp] theorem State.setCurtail_ports : (s.setCurtail v).ports = s.ports := rfl
@[simp] theorem State.setCurtail_presence : (s.setCurtail v).presence = s.presence := rfl
@[simp] theorem State.setCurtail_oat : (s.setCurtail v).oat = s.oat := rfl
@[simp] theorem State.setCurtail_rules : (s.setCurtail v).rules = s.rules := rfl
@[simp] theorem State.setCurtail_readings : (s.setCurtail v).readings = s.readings := rfl
@[simp] theorem State.setCurtail_filling : (s.setCurtail v).filling = s.filling := rfl
@[simp] theorem State.setCurtail_closing : (s.setCurtail v).closing = s.closing := rfl
@[simp] theorem State.setCurtail_live : (s.setCurtail v).live = s.live := rfl
@[simp] theorem State.setCurtail_contracts : (s.setCurtail v).contracts = s.contracts := rfl
@[simp] theorem State.setCurtail_curtail : (s.setCurtail v).curtail = v := rfl
@[simp] theorem State.setCurtail_notices : (s.setCurtail v).notices = s.notices := rfl
@[simp] theorem State.setCurtail_uplink : (s.setCurtail v).uplink = s.uplink := rfl
@[simp] theorem State.setCurtail_mgmt : (s.setCurtail v).mgmt = s.mgmt := rfl
@[simp] theorem State.setCurtail_settings : (s.setCurtail v).settings = s.settings := rfl
@[simp] theorem State.setCurtail_extMemory : (s.setCurtail v).extMemory = s.extMemory := rfl
end

section
variable (v : NoticeUnit)
@[simp] theorem State.setNotices_pending : (s.setNotices v).pending = s.pending := rfl
@[simp] theorem State.setNotices_now : (s.setNotices v).now = s.now := rfl
@[simp] theorem State.setNotices_freeCount : (s.setNotices v).freeCount = s.freeCount := rfl
@[simp] theorem State.setNotices_timer : (s.setNotices v).timer = s.timer := rfl
@[simp] theorem State.setNotices_ports : (s.setNotices v).ports = s.ports := rfl
@[simp] theorem State.setNotices_presence : (s.setNotices v).presence = s.presence := rfl
@[simp] theorem State.setNotices_oat : (s.setNotices v).oat = s.oat := rfl
@[simp] theorem State.setNotices_rules : (s.setNotices v).rules = s.rules := rfl
@[simp] theorem State.setNotices_readings : (s.setNotices v).readings = s.readings := rfl
@[simp] theorem State.setNotices_filling : (s.setNotices v).filling = s.filling := rfl
@[simp] theorem State.setNotices_closing : (s.setNotices v).closing = s.closing := rfl
@[simp] theorem State.setNotices_live : (s.setNotices v).live = s.live := rfl
@[simp] theorem State.setNotices_contracts : (s.setNotices v).contracts = s.contracts := rfl
@[simp] theorem State.setNotices_curtail : (s.setNotices v).curtail = s.curtail := rfl
@[simp] theorem State.setNotices_notices : (s.setNotices v).notices = v := rfl
@[simp] theorem State.setNotices_uplink : (s.setNotices v).uplink = s.uplink := rfl
@[simp] theorem State.setNotices_mgmt : (s.setNotices v).mgmt = s.mgmt := rfl
@[simp] theorem State.setNotices_settings : (s.setNotices v).settings = s.settings := rfl
@[simp] theorem State.setNotices_extMemory : (s.setNotices v).extMemory = s.extMemory := rfl
end

section
variable (v : Uplink)
@[simp] theorem State.setUplink_pending : (s.setUplink v).pending = s.pending := rfl
@[simp] theorem State.setUplink_now : (s.setUplink v).now = s.now := rfl
@[simp] theorem State.setUplink_freeCount : (s.setUplink v).freeCount = s.freeCount := rfl
@[simp] theorem State.setUplink_timer : (s.setUplink v).timer = s.timer := rfl
@[simp] theorem State.setUplink_ports : (s.setUplink v).ports = s.ports := rfl
@[simp] theorem State.setUplink_presence : (s.setUplink v).presence = s.presence := rfl
@[simp] theorem State.setUplink_oat : (s.setUplink v).oat = s.oat := rfl
@[simp] theorem State.setUplink_rules : (s.setUplink v).rules = s.rules := rfl
@[simp] theorem State.setUplink_readings : (s.setUplink v).readings = s.readings := rfl
@[simp] theorem State.setUplink_filling : (s.setUplink v).filling = s.filling := rfl
@[simp] theorem State.setUplink_closing : (s.setUplink v).closing = s.closing := rfl
@[simp] theorem State.setUplink_live : (s.setUplink v).live = s.live := rfl
@[simp] theorem State.setUplink_contracts : (s.setUplink v).contracts = s.contracts := rfl
@[simp] theorem State.setUplink_curtail : (s.setUplink v).curtail = s.curtail := rfl
@[simp] theorem State.setUplink_notices : (s.setUplink v).notices = s.notices := rfl
@[simp] theorem State.setUplink_uplink : (s.setUplink v).uplink = v := rfl
@[simp] theorem State.setUplink_mgmt : (s.setUplink v).mgmt = s.mgmt := rfl
@[simp] theorem State.setUplink_settings : (s.setUplink v).settings = s.settings := rfl
@[simp] theorem State.setUplink_extMemory : (s.setUplink v).extMemory = s.extMemory := rfl
end

section
variable (v : Mgmt)
@[simp] theorem State.setMgmt_pending : (s.setMgmt v).pending = s.pending := rfl
@[simp] theorem State.setMgmt_now : (s.setMgmt v).now = s.now := rfl
@[simp] theorem State.setMgmt_freeCount : (s.setMgmt v).freeCount = s.freeCount := rfl
@[simp] theorem State.setMgmt_timer : (s.setMgmt v).timer = s.timer := rfl
@[simp] theorem State.setMgmt_ports : (s.setMgmt v).ports = s.ports := rfl
@[simp] theorem State.setMgmt_presence : (s.setMgmt v).presence = s.presence := rfl
@[simp] theorem State.setMgmt_oat : (s.setMgmt v).oat = s.oat := rfl
@[simp] theorem State.setMgmt_rules : (s.setMgmt v).rules = s.rules := rfl
@[simp] theorem State.setMgmt_readings : (s.setMgmt v).readings = s.readings := rfl
@[simp] theorem State.setMgmt_filling : (s.setMgmt v).filling = s.filling := rfl
@[simp] theorem State.setMgmt_closing : (s.setMgmt v).closing = s.closing := rfl
@[simp] theorem State.setMgmt_live : (s.setMgmt v).live = s.live := rfl
@[simp] theorem State.setMgmt_contracts : (s.setMgmt v).contracts = s.contracts := rfl
@[simp] theorem State.setMgmt_curtail : (s.setMgmt v).curtail = s.curtail := rfl
@[simp] theorem State.setMgmt_notices : (s.setMgmt v).notices = s.notices := rfl
@[simp] theorem State.setMgmt_uplink : (s.setMgmt v).uplink = s.uplink := rfl
@[simp] theorem State.setMgmt_mgmt : (s.setMgmt v).mgmt = v := rfl
@[simp] theorem State.setMgmt_settings : (s.setMgmt v).settings = s.settings := rfl
@[simp] theorem State.setMgmt_extMemory : (s.setMgmt v).extMemory = s.extMemory := rfl
end

section
variable (v : List Nat)
@[simp] theorem State.setSettings_pending : (s.setSettings v).pending = s.pending := rfl
@[simp] theorem State.setSettings_now : (s.setSettings v).now = s.now := rfl
@[simp] theorem State.setSettings_freeCount : (s.setSettings v).freeCount = s.freeCount := rfl
@[simp] theorem State.setSettings_timer : (s.setSettings v).timer = s.timer := rfl
@[simp] theorem State.setSettings_ports : (s.setSettings v).ports = s.ports := rfl
@[simp] theorem State.setSettings_presence : (s.setSettings v).presence = s.presence := rfl
@[simp] theorem State.setSettings_oat : (s.setSettings v).oat = s.oat := rfl
@[simp] theorem State.setSettings_rules : (s.setSettings v).rules = s.rules := rfl
@[simp] theorem State.setSettings_readings : (s.setSettings v).readings = s.readings := rfl
@[simp] theorem State.setSettings_filling : (s.setSettings v).filling = s.filling := rfl
@[simp] theorem State.setSettings_closing : (s.setSettings v).closing = s.closing := rfl
@[simp] theorem State.setSettings_live : (s.setSettings v).live = s.live := rfl
@[simp] theorem State.setSettings_contracts : (s.setSettings v).contracts = s.contracts := rfl
@[simp] theorem State.setSettings_curtail : (s.setSettings v).curtail = s.curtail := rfl
@[simp] theorem State.setSettings_notices : (s.setSettings v).notices = s.notices := rfl
@[simp] theorem State.setSettings_uplink : (s.setSettings v).uplink = s.uplink := rfl
@[simp] theorem State.setSettings_mgmt : (s.setSettings v).mgmt = s.mgmt := rfl
@[simp] theorem State.setSettings_settings : (s.setSettings v).settings = v := rfl
@[simp] theorem State.setSettings_extMemory : (s.setSettings v).extMemory = s.extMemory := rfl
end

section
variable (v : Option Image)
@[simp] theorem State.setExtMemory_pending : (s.setExtMemory v).pending = s.pending := rfl
@[simp] theorem State.setExtMemory_now : (s.setExtMemory v).now = s.now := rfl
@[simp] theorem State.setExtMemory_freeCount : (s.setExtMemory v).freeCount = s.freeCount := rfl
@[simp] theorem State.setExtMemory_timer : (s.setExtMemory v).timer = s.timer := rfl
@[simp] theorem State.setExtMemory_ports : (s.setExtMemory v).ports = s.ports := rfl
@[simp] theorem State.setExtMemory_presence : (s.setExtMemory v).presence = s.presence := rfl
@[simp] theorem State.setExtMemory_oat : (s.setExtMemory v).oat = s.oat := rfl
@[simp] theorem State.setExtMemory_rules : (s.setExtMemory v).rules = s.rules := rfl
@[simp] theorem State.setExtMemory_readings : (s.setExtMemory v).readings = s.readings := rfl
@[simp] theorem State.setExtMemory_filling : (s.setExtMemory v).filling = s.filling := rfl
@[simp] theorem State.setExtMemory_closing : (s.setExtMemory v).closing = s.closing := rfl
@[simp] theorem State.setExtMemory_live : (s.setExtMemory v).live = s.live := rfl
@[simp] theorem State.setExtMemory_contracts : (s.setExtMemory v).contracts = s.contracts := rfl
@[simp] theorem State.setExtMemory_curtail : (s.setExtMemory v).curtail = s.curtail := rfl
@[simp] theorem State.setExtMemory_notices : (s.setExtMemory v).notices = s.notices := rfl
@[simp] theorem State.setExtMemory_uplink : (s.setExtMemory v).uplink = s.uplink := rfl
@[simp] theorem State.setExtMemory_mgmt : (s.setExtMemory v).mgmt = s.mgmt := rfl
@[simp] theorem State.setExtMemory_settings : (s.setExtMemory v).settings = s.settings := rfl
@[simp] theorem State.setExtMemory_extMemory : (s.setExtMemory v).extMemory = v := rfl
end

end Sys2Proof.Machine
end

