-- ==== Sys2Proof/Laws/Read.lean ====
section
/-! SUPPORT. What the named readers of State read is untouched by the update of any other field. -/

namespace Sys2Proof.Machine

variable (s : State)

section
variable (v : List Instr)
@[simp] theorem State.setPending_port (p : Nat) : (s.setPending v).port p = s.port p := rfl
@[simp] theorem State.setPending_presenceAt (i : Nat) : (s.setPending v).presenceAt i = s.presenceAt i := rfl
@[simp] theorem State.setPending_slotAt (k : Nat) : (s.setPending v).slotAt k = s.slotAt k := rfl
@[simp] theorem State.setPending_ruleAt (n : Nat) : (s.setPending v).ruleAt n = s.ruleAt n := rfl
@[simp] theorem State.setPending_readingAt (k : Nat) : (s.setPending v).readingAt k = s.readingAt k := rfl
@[simp] theorem State.setPending_liveAt (t : Nat) : (s.setPending v).liveAt t = s.liveAt t := rfl
@[simp] theorem State.setPending_activeAt (t : Nat) : (s.setPending v).activeAt t = s.activeAt t := rfl
@[simp] theorem State.setPending_stagedAt (t : Nat) : (s.setPending v).stagedAt t = s.stagedAt t := rfl
@[simp] theorem State.setPending_summaryAt (t : Nat) : (s.setPending v).summaryAt t = s.summaryAt t := rfl
@[simp] theorem State.setPending_entryAt (n : Nat) : (s.setPending v).entryAt n = s.entryAt n := rfl
@[simp] theorem State.setPending_curtailAt (t : Nat) : (s.setPending v).curtailAt t = s.curtailAt t := rfl
@[simp] theorem State.setPending_dueAt (p : Nat) : (s.setPending v).dueAt p = s.dueAt p := rfl
@[simp] theorem State.setPending_setting (i : Nat) : (s.setPending v).setting i = s.setting i := rfl
@[simp] theorem State.setPending_masked (k : NoticeKind) : (s.setPending v).masked k = s.masked k := rfl
@[simp] theorem State.setPending_errorThreshold : (s.setPending v).errorThreshold = s.errorThreshold := rfl
@[simp] theorem State.setPending_holdLimit : (s.setPending v).holdLimit = s.holdLimit := rfl
@[simp] theorem State.setPending_rowId : (s.setPending v).rowId = s.rowId := rfl
end

section
variable (v : Nat)
@[simp] theorem State.setNow_port (p : Nat) : (s.setNow v).port p = s.port p := rfl
@[simp] theorem State.setNow_presenceAt (i : Nat) : (s.setNow v).presenceAt i = s.presenceAt i := rfl
@[simp] theorem State.setNow_slotAt (k : Nat) : (s.setNow v).slotAt k = s.slotAt k := rfl
@[simp] theorem State.setNow_ruleAt (n : Nat) : (s.setNow v).ruleAt n = s.ruleAt n := rfl
@[simp] theorem State.setNow_readingAt (k : Nat) : (s.setNow v).readingAt k = s.readingAt k := rfl
@[simp] theorem State.setNow_liveAt (t : Nat) : (s.setNow v).liveAt t = s.liveAt t := rfl
@[simp] theorem State.setNow_activeAt (t : Nat) : (s.setNow v).activeAt t = s.activeAt t := rfl
@[simp] theorem State.setNow_stagedAt (t : Nat) : (s.setNow v).stagedAt t = s.stagedAt t := rfl
@[simp] theorem State.setNow_summaryAt (t : Nat) : (s.setNow v).summaryAt t = s.summaryAt t := rfl
@[simp] theorem State.setNow_entryAt (n : Nat) : (s.setNow v).entryAt n = s.entryAt n := rfl
@[simp] theorem State.setNow_curtailAt (t : Nat) : (s.setNow v).curtailAt t = s.curtailAt t := rfl
@[simp] theorem State.setNow_dueAt (p : Nat) : (s.setNow v).dueAt p = s.dueAt p := rfl
@[simp] theorem State.setNow_setting (i : Nat) : (s.setNow v).setting i = s.setting i := rfl
@[simp] theorem State.setNow_masked (k : NoticeKind) : (s.setNow v).masked k = s.masked k := rfl
@[simp] theorem State.setNow_errorThreshold : (s.setNow v).errorThreshold = s.errorThreshold := rfl
@[simp] theorem State.setNow_holdLimit : (s.setNow v).holdLimit = s.holdLimit := rfl
@[simp] theorem State.setNow_rowId : (s.setNow v).rowId = s.rowId := rfl
end

section
variable (v : Nat)
@[simp] theorem State.setFreeCount_port (p : Nat) : (s.setFreeCount v).port p = s.port p := rfl
@[simp] theorem State.setFreeCount_presenceAt (i : Nat) : (s.setFreeCount v).presenceAt i = s.presenceAt i := rfl
@[simp] theorem State.setFreeCount_slotAt (k : Nat) : (s.setFreeCount v).slotAt k = s.slotAt k := rfl
@[simp] theorem State.setFreeCount_ruleAt (n : Nat) : (s.setFreeCount v).ruleAt n = s.ruleAt n := rfl
@[simp] theorem State.setFreeCount_readingAt (k : Nat) : (s.setFreeCount v).readingAt k = s.readingAt k := rfl
@[simp] theorem State.setFreeCount_liveAt (t : Nat) : (s.setFreeCount v).liveAt t = s.liveAt t := rfl
@[simp] theorem State.setFreeCount_activeAt (t : Nat) : (s.setFreeCount v).activeAt t = s.activeAt t := rfl
@[simp] theorem State.setFreeCount_stagedAt (t : Nat) : (s.setFreeCount v).stagedAt t = s.stagedAt t := rfl
@[simp] theorem State.setFreeCount_summaryAt (t : Nat) : (s.setFreeCount v).summaryAt t = s.summaryAt t := rfl
@[simp] theorem State.setFreeCount_entryAt (n : Nat) : (s.setFreeCount v).entryAt n = s.entryAt n := rfl
@[simp] theorem State.setFreeCount_curtailAt (t : Nat) : (s.setFreeCount v).curtailAt t = s.curtailAt t := rfl
@[simp] theorem State.setFreeCount_dueAt (p : Nat) : (s.setFreeCount v).dueAt p = s.dueAt p := rfl
@[simp] theorem State.setFreeCount_setting (i : Nat) : (s.setFreeCount v).setting i = s.setting i := rfl
@[simp] theorem State.setFreeCount_masked (k : NoticeKind) : (s.setFreeCount v).masked k = s.masked k := rfl
@[simp] theorem State.setFreeCount_errorThreshold : (s.setFreeCount v).errorThreshold = s.errorThreshold := rfl
@[simp] theorem State.setFreeCount_holdLimit : (s.setFreeCount v).holdLimit = s.holdLimit := rfl
@[simp] theorem State.setFreeCount_rowId : (s.setFreeCount v).rowId = s.rowId := rfl
end

section
variable (v : Timer)
@[simp] theorem State.setTimer_port (p : Nat) : (s.setTimer v).port p = s.port p := rfl
@[simp] theorem State.setTimer_presenceAt (i : Nat) : (s.setTimer v).presenceAt i = s.presenceAt i := rfl
@[simp] theorem State.setTimer_slotAt (k : Nat) : (s.setTimer v).slotAt k = s.slotAt k := rfl
@[simp] theorem State.setTimer_ruleAt (n : Nat) : (s.setTimer v).ruleAt n = s.ruleAt n := rfl
@[simp] theorem State.setTimer_readingAt (k : Nat) : (s.setTimer v).readingAt k = s.readingAt k := rfl
@[simp] theorem State.setTimer_liveAt (t : Nat) : (s.setTimer v).liveAt t = s.liveAt t := rfl
@[simp] theorem State.setTimer_activeAt (t : Nat) : (s.setTimer v).activeAt t = s.activeAt t := rfl
@[simp] theorem State.setTimer_stagedAt (t : Nat) : (s.setTimer v).stagedAt t = s.stagedAt t := rfl
@[simp] theorem State.setTimer_summaryAt (t : Nat) : (s.setTimer v).summaryAt t = s.summaryAt t := rfl
@[simp] theorem State.setTimer_entryAt (n : Nat) : (s.setTimer v).entryAt n = s.entryAt n := rfl
@[simp] theorem State.setTimer_curtailAt (t : Nat) : (s.setTimer v).curtailAt t = s.curtailAt t := rfl
@[simp] theorem State.setTimer_dueAt (p : Nat) : (s.setTimer v).dueAt p = s.dueAt p := rfl
@[simp] theorem State.setTimer_setting (i : Nat) : (s.setTimer v).setting i = s.setting i := rfl
@[simp] theorem State.setTimer_masked (k : NoticeKind) : (s.setTimer v).masked k = s.masked k := rfl
@[simp] theorem State.setTimer_errorThreshold : (s.setTimer v).errorThreshold = s.errorThreshold := rfl
@[simp] theorem State.setTimer_holdLimit : (s.setTimer v).holdLimit = s.holdLimit := rfl
@[simp] theorem State.setTimer_rowId : (s.setTimer v).rowId = s.rowId := rfl
end

section
variable (v : Table Port)
@[simp] theorem State.setPorts_presenceAt (i : Nat) : (s.setPorts v).presenceAt i = s.presenceAt i := rfl
@[simp] theorem State.setPorts_slotAt (k : Nat) : (s.setPorts v).slotAt k = s.slotAt k := rfl
@[simp] theorem State.setPorts_ruleAt (n : Nat) : (s.setPorts v).ruleAt n = s.ruleAt n := rfl
@[simp] theorem State.setPorts_readingAt (k : Nat) : (s.setPorts v).readingAt k = s.readingAt k := rfl
@[simp] theorem State.setPorts_liveAt (t : Nat) : (s.setPorts v).liveAt t = s.liveAt t := rfl
@[simp] theorem State.setPorts_activeAt (t : Nat) : (s.setPorts v).activeAt t = s.activeAt t := rfl
@[simp] theorem State.setPorts_stagedAt (t : Nat) : (s.setPorts v).stagedAt t = s.stagedAt t := rfl
@[simp] theorem State.setPorts_summaryAt (t : Nat) : (s.setPorts v).summaryAt t = s.summaryAt t := rfl
@[simp] theorem State.setPorts_entryAt (n : Nat) : (s.setPorts v).entryAt n = s.entryAt n := rfl
@[simp] theorem State.setPorts_curtailAt (t : Nat) : (s.setPorts v).curtailAt t = s.curtailAt t := rfl
@[simp] theorem State.setPorts_dueAt (p : Nat) : (s.setPorts v).dueAt p = s.dueAt p := rfl
@[simp] theorem State.setPorts_setting (i : Nat) : (s.setPorts v).setting i = s.setting i := rfl
@[simp] theorem State.setPorts_masked (k : NoticeKind) : (s.setPorts v).masked k = s.masked k := rfl
@[simp] theorem State.setPorts_errorThreshold : (s.setPorts v).errorThreshold = s.errorThreshold := rfl
@[simp] theorem State.setPorts_holdLimit : (s.setPorts v).holdLimit = s.holdLimit := rfl
@[simp] theorem State.setPorts_rowId : (s.setPorts v).rowId = s.rowId := rfl
end

section
variable (v : Table Presence)
@[simp] theorem State.setPresence_port (p : Nat) : (s.setPresence v).port p = s.port p := rfl
@[simp] theorem State.setPresence_slotAt (k : Nat) : (s.setPresence v).slotAt k = s.slotAt k := rfl
@[simp] theorem State.setPresence_ruleAt (n : Nat) : (s.setPresence v).ruleAt n = s.ruleAt n := rfl
@[simp] theorem State.setPresence_readingAt (k : Nat) : (s.setPresence v).readingAt k = s.readingAt k := rfl
@[simp] theorem State.setPresence_liveAt (t : Nat) : (s.setPresence v).liveAt t = s.liveAt t := rfl
@[simp] theorem State.setPresence_activeAt (t : Nat) : (s.setPresence v).activeAt t = s.activeAt t := rfl
@[simp] theorem State.setPresence_stagedAt (t : Nat) : (s.setPresence v).stagedAt t = s.stagedAt t := rfl
@[simp] theorem State.setPresence_summaryAt (t : Nat) : (s.setPresence v).summaryAt t = s.summaryAt t := rfl
@[simp] theorem State.setPresence_entryAt (n : Nat) : (s.setPresence v).entryAt n = s.entryAt n := rfl
@[simp] theorem State.setPresence_curtailAt (t : Nat) : (s.setPresence v).curtailAt t = s.curtailAt t := rfl
@[simp] theorem State.setPresence_dueAt (p : Nat) : (s.setPresence v).dueAt p = s.dueAt p := rfl
@[simp] theorem State.setPresence_setting (i : Nat) : (s.setPresence v).setting i = s.setting i := rfl
@[simp] theorem State.setPresence_masked (k : NoticeKind) : (s.setPresence v).masked k = s.masked k := rfl
@[simp] theorem State.setPresence_errorThreshold : (s.setPresence v).errorThreshold = s.errorThreshold := rfl
@[simp] theorem State.setPresence_holdLimit : (s.setPresence v).holdLimit = s.holdLimit := rfl
@[simp] theorem State.setPresence_rowId : (s.setPresence v).rowId = s.rowId := rfl
end

section
variable (v : Table (Stored (Option OatEntry)))
@[simp] theorem State.setOat_port (p : Nat) : (s.setOat v).port p = s.port p := rfl
@[simp] theorem State.setOat_presenceAt (i : Nat) : (s.setOat v).presenceAt i = s.presenceAt i := rfl
@[simp] theorem State.setOat_ruleAt (n : Nat) : (s.setOat v).ruleAt n = s.ruleAt n := rfl
@[simp] theorem State.setOat_readingAt (k : Nat) : (s.setOat v).readingAt k = s.readingAt k := rfl
@[simp] theorem State.setOat_liveAt (t : Nat) : (s.setOat v).liveAt t = s.liveAt t := rfl
@[simp] theorem State.setOat_activeAt (t : Nat) : (s.setOat v).activeAt t = s.activeAt t := rfl
@[simp] theorem State.setOat_stagedAt (t : Nat) : (s.setOat v).stagedAt t = s.stagedAt t := rfl
@[simp] theorem State.setOat_summaryAt (t : Nat) : (s.setOat v).summaryAt t = s.summaryAt t := rfl
@[simp] theorem State.setOat_entryAt (n : Nat) : (s.setOat v).entryAt n = s.entryAt n := rfl
@[simp] theorem State.setOat_curtailAt (t : Nat) : (s.setOat v).curtailAt t = s.curtailAt t := rfl
@[simp] theorem State.setOat_dueAt (p : Nat) : (s.setOat v).dueAt p = s.dueAt p := rfl
@[simp] theorem State.setOat_setting (i : Nat) : (s.setOat v).setting i = s.setting i := rfl
@[simp] theorem State.setOat_masked (k : NoticeKind) : (s.setOat v).masked k = s.masked k := rfl
@[simp] theorem State.setOat_errorThreshold : (s.setOat v).errorThreshold = s.errorThreshold := rfl
@[simp] theorem State.setOat_holdLimit : (s.setOat v).holdLimit = s.holdLimit := rfl
@[simp] theorem State.setOat_rowId : (s.setOat v).rowId = s.rowId := rfl
end

section
variable (v : Table (Stored Rule))
@[simp] theorem State.setRules_port (p : Nat) : (s.setRules v).port p = s.port p := rfl
@[simp] theorem State.setRules_presenceAt (i : Nat) : (s.setRules v).presenceAt i = s.presenceAt i := rfl
@[simp] theorem State.setRules_slotAt (k : Nat) : (s.setRules v).slotAt k = s.slotAt k := rfl
@[simp] theorem State.setRules_readingAt (k : Nat) : (s.setRules v).readingAt k = s.readingAt k := rfl
@[simp] theorem State.setRules_liveAt (t : Nat) : (s.setRules v).liveAt t = s.liveAt t := rfl
@[simp] theorem State.setRules_activeAt (t : Nat) : (s.setRules v).activeAt t = s.activeAt t := rfl
@[simp] theorem State.setRules_stagedAt (t : Nat) : (s.setRules v).stagedAt t = s.stagedAt t := rfl
@[simp] theorem State.setRules_summaryAt (t : Nat) : (s.setRules v).summaryAt t = s.summaryAt t := rfl
@[simp] theorem State.setRules_entryAt (n : Nat) : (s.setRules v).entryAt n = s.entryAt n := rfl
@[simp] theorem State.setRules_curtailAt (t : Nat) : (s.setRules v).curtailAt t = s.curtailAt t := rfl
@[simp] theorem State.setRules_dueAt (p : Nat) : (s.setRules v).dueAt p = s.dueAt p := rfl
@[simp] theorem State.setRules_setting (i : Nat) : (s.setRules v).setting i = s.setting i := rfl
@[simp] theorem State.setRules_masked (k : NoticeKind) : (s.setRules v).masked k = s.masked k := rfl
@[simp] theorem State.setRules_errorThreshold : (s.setRules v).errorThreshold = s.errorThreshold := rfl
@[simp] theorem State.setRules_holdLimit : (s.setRules v).holdLimit = s.holdLimit := rfl
@[simp] theorem State.setRules_rowId : (s.setRules v).rowId = s.rowId := rfl
end

section
variable (v : Table Reading)
@[simp] theorem State.setReadings_port (p : Nat) : (s.setReadings v).port p = s.port p := rfl
@[simp] theorem State.setReadings_presenceAt (i : Nat) : (s.setReadings v).presenceAt i = s.presenceAt i := rfl
@[simp] theorem State.setReadings_slotAt (k : Nat) : (s.setReadings v).slotAt k = s.slotAt k := rfl
@[simp] theorem State.setReadings_ruleAt (n : Nat) : (s.setReadings v).ruleAt n = s.ruleAt n := rfl
@[simp] theorem State.setReadings_liveAt (t : Nat) : (s.setReadings v).liveAt t = s.liveAt t := rfl
@[simp] theorem State.setReadings_activeAt (t : Nat) : (s.setReadings v).activeAt t = s.activeAt t := rfl
@[simp] theorem State.setReadings_stagedAt (t : Nat) : (s.setReadings v).stagedAt t = s.stagedAt t := rfl
@[simp] theorem State.setReadings_summaryAt (t : Nat) : (s.setReadings v).summaryAt t = s.summaryAt t := rfl
@[simp] theorem State.setReadings_entryAt (n : Nat) : (s.setReadings v).entryAt n = s.entryAt n := rfl
@[simp] theorem State.setReadings_curtailAt (t : Nat) : (s.setReadings v).curtailAt t = s.curtailAt t := rfl
@[simp] theorem State.setReadings_dueAt (p : Nat) : (s.setReadings v).dueAt p = s.dueAt p := rfl
@[simp] theorem State.setReadings_setting (i : Nat) : (s.setReadings v).setting i = s.setting i := rfl
@[simp] theorem State.setReadings_masked (k : NoticeKind) : (s.setReadings v).masked k = s.masked k := rfl
@[simp] theorem State.setReadings_errorThreshold : (s.setReadings v).errorThreshold = s.errorThreshold := rfl
@[simp] theorem State.setReadings_holdLimit : (s.setReadings v).holdLimit = s.holdLimit := rfl
@[simp] theorem State.setReadings_rowId : (s.setReadings v).rowId = s.rowId := rfl
end

section
variable (v : AccSet)
@[simp] theorem State.setFilling_port (p : Nat) : (s.setFilling v).port p = s.port p := rfl
@[simp] theorem State.setFilling_presenceAt (i : Nat) : (s.setFilling v).presenceAt i = s.presenceAt i := rfl
@[simp] theorem State.setFilling_slotAt (k : Nat) : (s.setFilling v).slotAt k = s.slotAt k := rfl
@[simp] theorem State.setFilling_ruleAt (n : Nat) : (s.setFilling v).ruleAt n = s.ruleAt n := rfl
@[simp] theorem State.setFilling_readingAt (k : Nat) : (s.setFilling v).readingAt k = s.readingAt k := rfl
@[simp] theorem State.setFilling_liveAt (t : Nat) : (s.setFilling v).liveAt t = s.liveAt t := rfl
@[simp] theorem State.setFilling_activeAt (t : Nat) : (s.setFilling v).activeAt t = s.activeAt t := rfl
@[simp] theorem State.setFilling_stagedAt (t : Nat) : (s.setFilling v).stagedAt t = s.stagedAt t := rfl
@[simp] theorem State.setFilling_summaryAt (t : Nat) : (s.setFilling v).summaryAt t = s.summaryAt t := rfl
@[simp] theorem State.setFilling_entryAt (n : Nat) : (s.setFilling v).entryAt n = s.entryAt n := rfl
@[simp] theorem State.setFilling_curtailAt (t : Nat) : (s.setFilling v).curtailAt t = s.curtailAt t := rfl
@[simp] theorem State.setFilling_dueAt (p : Nat) : (s.setFilling v).dueAt p = s.dueAt p := rfl
@[simp] theorem State.setFilling_setting (i : Nat) : (s.setFilling v).setting i = s.setting i := rfl
@[simp] theorem State.setFilling_masked (k : NoticeKind) : (s.setFilling v).masked k = s.masked k := rfl
@[simp] theorem State.setFilling_errorThreshold : (s.setFilling v).errorThreshold = s.errorThreshold := rfl
@[simp] theorem State.setFilling_holdLimit : (s.setFilling v).holdLimit = s.holdLimit := rfl
@[simp] theorem State.setFilling_rowId : (s.setFilling v).rowId = s.rowId := rfl
end

section
variable (v : AccSet)
@[simp] theorem State.setClosing_port (p : Nat) : (s.setClosing v).port p = s.port p := rfl
@[simp] theorem State.setClosing_presenceAt (i : Nat) : (s.setClosing v).presenceAt i = s.presenceAt i := rfl
@[simp] theorem State.setClosing_slotAt (k : Nat) : (s.setClosing v).slotAt k = s.slotAt k := rfl
@[simp] theorem State.setClosing_ruleAt (n : Nat) : (s.setClosing v).ruleAt n = s.ruleAt n := rfl
@[simp] theorem State.setClosing_readingAt (k : Nat) : (s.setClosing v).readingAt k = s.readingAt k := rfl
@[simp] theorem State.setClosing_liveAt (t : Nat) : (s.setClosing v).liveAt t = s.liveAt t := rfl
@[simp] theorem State.setClosing_activeAt (t : Nat) : (s.setClosing v).activeAt t = s.activeAt t := rfl
@[simp] theorem State.setClosing_stagedAt (t : Nat) : (s.setClosing v).stagedAt t = s.stagedAt t := rfl
@[simp] theorem State.setClosing_summaryAt (t : Nat) : (s.setClosing v).summaryAt t = s.summaryAt t := rfl
@[simp] theorem State.setClosing_entryAt (n : Nat) : (s.setClosing v).entryAt n = s.entryAt n := rfl
@[simp] theorem State.setClosing_curtailAt (t : Nat) : (s.setClosing v).curtailAt t = s.curtailAt t := rfl
@[simp] theorem State.setClosing_dueAt (p : Nat) : (s.setClosing v).dueAt p = s.dueAt p := rfl
@[simp] theorem State.setClosing_setting (i : Nat) : (s.setClosing v).setting i = s.setting i := rfl
@[simp] theorem State.setClosing_masked (k : NoticeKind) : (s.setClosing v).masked k = s.masked k := rfl
@[simp] theorem State.setClosing_errorThreshold : (s.setClosing v).errorThreshold = s.errorThreshold := rfl
@[simp] theorem State.setClosing_holdLimit : (s.setClosing v).holdLimit = s.holdLimit := rfl
@[simp] theorem State.setClosing_rowId : (s.setClosing v).rowId = s.rowId := rfl
end

section
variable (v : Table LiveRecord)
@[simp] theorem State.setLive_port (p : Nat) : (s.setLive v).port p = s.port p := rfl
@[simp] theorem State.setLive_presenceAt (i : Nat) : (s.setLive v).presenceAt i = s.presenceAt i := rfl
@[simp] theorem State.setLive_slotAt (k : Nat) : (s.setLive v).slotAt k = s.slotAt k := rfl
@[simp] theorem State.setLive_ruleAt (n : Nat) : (s.setLive v).ruleAt n = s.ruleAt n := rfl
@[simp] theorem State.setLive_readingAt (k : Nat) : (s.setLive v).readingAt k = s.readingAt k := rfl
@[simp] theorem State.setLive_activeAt (t : Nat) : (s.setLive v).activeAt t = s.activeAt t := rfl
@[simp] theorem State.setLive_stagedAt (t : Nat) : (s.setLive v).stagedAt t = s.stagedAt t := rfl
@[simp] theorem State.setLive_summaryAt (t : Nat) : (s.setLive v).summaryAt t = s.summaryAt t := rfl
@[simp] theorem State.setLive_entryAt (n : Nat) : (s.setLive v).entryAt n = s.entryAt n := rfl
@[simp] theorem State.setLive_curtailAt (t : Nat) : (s.setLive v).curtailAt t = s.curtailAt t := rfl
@[simp] theorem State.setLive_dueAt (p : Nat) : (s.setLive v).dueAt p = s.dueAt p := rfl
@[simp] theorem State.setLive_setting (i : Nat) : (s.setLive v).setting i = s.setting i := rfl
@[simp] theorem State.setLive_masked (k : NoticeKind) : (s.setLive v).masked k = s.masked k := rfl
@[simp] theorem State.setLive_errorThreshold : (s.setLive v).errorThreshold = s.errorThreshold := rfl
@[simp] theorem State.setLive_holdLimit : (s.setLive v).holdLimit = s.holdLimit := rfl
@[simp] theorem State.setLive_rowId : (s.setLive v).rowId = s.rowId := rfl
end

section
variable (v : ContractStore)
@[simp] theorem State.setContracts_port (p : Nat) : (s.setContracts v).port p = s.port p := rfl
@[simp] theorem State.setContracts_presenceAt (i : Nat) : (s.setContracts v).presenceAt i = s.presenceAt i := rfl
@[simp] theorem State.setContracts_slotAt (k : Nat) : (s.setContracts v).slotAt k = s.slotAt k := rfl
@[simp] theorem State.setContracts_ruleAt (n : Nat) : (s.setContracts v).ruleAt n = s.ruleAt n := rfl
@[simp] theorem State.setContracts_readingAt (k : Nat) : (s.setContracts v).readingAt k = s.readingAt k := rfl
@[simp] theorem State.setContracts_liveAt (t : Nat) : (s.setContracts v).liveAt t = s.liveAt t := rfl
@[simp] theorem State.setContracts_entryAt (n : Nat) : (s.setContracts v).entryAt n = s.entryAt n := rfl
@[simp] theorem State.setContracts_curtailAt (t : Nat) : (s.setContracts v).curtailAt t = s.curtailAt t := rfl
@[simp] theorem State.setContracts_dueAt (p : Nat) : (s.setContracts v).dueAt p = s.dueAt p := rfl
@[simp] theorem State.setContracts_setting (i : Nat) : (s.setContracts v).setting i = s.setting i := rfl
@[simp] theorem State.setContracts_masked (k : NoticeKind) : (s.setContracts v).masked k = s.masked k := rfl
@[simp] theorem State.setContracts_errorThreshold : (s.setContracts v).errorThreshold = s.errorThreshold := rfl
@[simp] theorem State.setContracts_holdLimit : (s.setContracts v).holdLimit = s.holdLimit := rfl
@[simp] theorem State.setContracts_rowId : (s.setContracts v).rowId = s.rowId := rfl
end

section
variable (v : Curtailment)
@[simp] theorem State.setCurtail_port (p : Nat) : (s.setCurtail v).port p = s.port p := rfl
@[simp] theorem State.setCurtail_presenceAt (i : Nat) : (s.setCurtail v).presenceAt i = s.presenceAt i := rfl
@[simp] theorem State.setCurtail_slotAt (k : Nat) : (s.setCurtail v).slotAt k = s.slotAt k := rfl
@[simp] theorem State.setCurtail_ruleAt (n : Nat) : (s.setCurtail v).ruleAt n = s.ruleAt n := rfl
@[simp] theorem State.setCurtail_readingAt (k : Nat) : (s.setCurtail v).readingAt k = s.readingAt k := rfl
@[simp] theorem State.setCurtail_liveAt (t : Nat) : (s.setCurtail v).liveAt t = s.liveAt t := rfl
@[simp] theorem State.setCurtail_activeAt (t : Nat) : (s.setCurtail v).activeAt t = s.activeAt t := rfl
@[simp] theorem State.setCurtail_stagedAt (t : Nat) : (s.setCurtail v).stagedAt t = s.stagedAt t := rfl
@[simp] theorem State.setCurtail_summaryAt (t : Nat) : (s.setCurtail v).summaryAt t = s.summaryAt t := rfl
@[simp] theorem State.setCurtail_setting (i : Nat) : (s.setCurtail v).setting i = s.setting i := rfl
@[simp] theorem State.setCurtail_masked (k : NoticeKind) : (s.setCurtail v).masked k = s.masked k := rfl
@[simp] theorem State.setCurtail_errorThreshold : (s.setCurtail v).errorThreshold = s.errorThreshold := rfl
@[simp] theorem State.setCurtail_holdLimit : (s.setCurtail v).holdLimit = s.holdLimit := rfl
@[simp] theorem State.setCurtail_rowId : (s.setCurtail v).rowId = s.rowId := rfl
end

section
variable (v : NoticeUnit)
@[simp] theorem State.setNotices_port (p : Nat) : (s.setNotices v).port p = s.port p := rfl
@[simp] theorem State.setNotices_presenceAt (i : Nat) : (s.setNotices v).presenceAt i = s.presenceAt i := rfl
@[simp] theorem State.setNotices_slotAt (k : Nat) : (s.setNotices v).slotAt k = s.slotAt k := rfl
@[simp] theorem State.setNotices_ruleAt (n : Nat) : (s.setNotices v).ruleAt n = s.ruleAt n := rfl
@[simp] theorem State.setNotices_readingAt (k : Nat) : (s.setNotices v).readingAt k = s.readingAt k := rfl
@[simp] theorem State.setNotices_liveAt (t : Nat) : (s.setNotices v).liveAt t = s.liveAt t := rfl
@[simp] theorem State.setNotices_activeAt (t : Nat) : (s.setNotices v).activeAt t = s.activeAt t := rfl
@[simp] theorem State.setNotices_stagedAt (t : Nat) : (s.setNotices v).stagedAt t = s.stagedAt t := rfl
@[simp] theorem State.setNotices_summaryAt (t : Nat) : (s.setNotices v).summaryAt t = s.summaryAt t := rfl
@[simp] theorem State.setNotices_entryAt (n : Nat) : (s.setNotices v).entryAt n = s.entryAt n := rfl
@[simp] theorem State.setNotices_curtailAt (t : Nat) : (s.setNotices v).curtailAt t = s.curtailAt t := rfl
@[simp] theorem State.setNotices_dueAt (p : Nat) : (s.setNotices v).dueAt p = s.dueAt p := rfl
@[simp] theorem State.setNotices_setting (i : Nat) : (s.setNotices v).setting i = s.setting i := rfl
@[simp] theorem State.setNotices_masked (k : NoticeKind) : (s.setNotices v).masked k = s.masked k := rfl
@[simp] theorem State.setNotices_errorThreshold : (s.setNotices v).errorThreshold = s.errorThreshold := rfl
@[simp] theorem State.setNotices_holdLimit : (s.setNotices v).holdLimit = s.holdLimit := rfl
@[simp] theorem State.setNotices_rowId : (s.setNotices v).rowId = s.rowId := rfl
end

section
variable (v : Uplink)
@[simp] theorem State.setUplink_port (p : Nat) : (s.setUplink v).port p = s.port p := rfl
@[simp] theorem State.setUplink_presenceAt (i : Nat) : (s.setUplink v).presenceAt i = s.presenceAt i := rfl
@[simp] theorem State.setUplink_slotAt (k : Nat) : (s.setUplink v).slotAt k = s.slotAt k := rfl
@[simp] theorem State.setUplink_ruleAt (n : Nat) : (s.setUplink v).ruleAt n = s.ruleAt n := rfl
@[simp] theorem State.setUplink_readingAt (k : Nat) : (s.setUplink v).readingAt k = s.readingAt k := rfl
@[simp] theorem State.setUplink_liveAt (t : Nat) : (s.setUplink v).liveAt t = s.liveAt t := rfl
@[simp] theorem State.setUplink_activeAt (t : Nat) : (s.setUplink v).activeAt t = s.activeAt t := rfl
@[simp] theorem State.setUplink_stagedAt (t : Nat) : (s.setUplink v).stagedAt t = s.stagedAt t := rfl
@[simp] theorem State.setUplink_summaryAt (t : Nat) : (s.setUplink v).summaryAt t = s.summaryAt t := rfl
@[simp] theorem State.setUplink_entryAt (n : Nat) : (s.setUplink v).entryAt n = s.entryAt n := rfl
@[simp] theorem State.setUplink_curtailAt (t : Nat) : (s.setUplink v).curtailAt t = s.curtailAt t := rfl
@[simp] theorem State.setUplink_dueAt (p : Nat) : (s.setUplink v).dueAt p = s.dueAt p := rfl
@[simp] theorem State.setUplink_setting (i : Nat) : (s.setUplink v).setting i = s.setting i := rfl
@[simp] theorem State.setUplink_masked (k : NoticeKind) : (s.setUplink v).masked k = s.masked k := rfl
@[simp] theorem State.setUplink_errorThreshold : (s.setUplink v).errorThreshold = s.errorThreshold := rfl
@[simp] theorem State.setUplink_holdLimit : (s.setUplink v).holdLimit = s.holdLimit := rfl
@[simp] theorem State.setUplink_rowId : (s.setUplink v).rowId = s.rowId := rfl
end

section
variable (v : Mgmt)
@[simp] theorem State.setMgmt_port (p : Nat) : (s.setMgmt v).port p = s.port p := rfl
@[simp] theorem State.setMgmt_presenceAt (i : Nat) : (s.setMgmt v).presenceAt i = s.presenceAt i := rfl
@[simp] theorem State.setMgmt_slotAt (k : Nat) : (s.setMgmt v).slotAt k = s.slotAt k := rfl
@[simp] theorem State.setMgmt_ruleAt (n : Nat) : (s.setMgmt v).ruleAt n = s.ruleAt n := rfl
@[simp] theorem State.setMgmt_readingAt (k : Nat) : (s.setMgmt v).readingAt k = s.readingAt k := rfl
@[simp] theorem State.setMgmt_liveAt (t : Nat) : (s.setMgmt v).liveAt t = s.liveAt t := rfl
@[simp] theorem State.setMgmt_activeAt (t : Nat) : (s.setMgmt v).activeAt t = s.activeAt t := rfl
@[simp] theorem State.setMgmt_stagedAt (t : Nat) : (s.setMgmt v).stagedAt t = s.stagedAt t := rfl
@[simp] theorem State.setMgmt_summaryAt (t : Nat) : (s.setMgmt v).summaryAt t = s.summaryAt t := rfl
@[simp] theorem State.setMgmt_entryAt (n : Nat) : (s.setMgmt v).entryAt n = s.entryAt n := rfl
@[simp] theorem State.setMgmt_curtailAt (t : Nat) : (s.setMgmt v).curtailAt t = s.curtailAt t := rfl
@[simp] theorem State.setMgmt_dueAt (p : Nat) : (s.setMgmt v).dueAt p = s.dueAt p := rfl
@[simp] theorem State.setMgmt_setting (i : Nat) : (s.setMgmt v).setting i = s.setting i := rfl
@[simp] theorem State.setMgmt_masked (k : NoticeKind) : (s.setMgmt v).masked k = s.masked k := rfl
@[simp] theorem State.setMgmt_errorThreshold : (s.setMgmt v).errorThreshold = s.errorThreshold := rfl
@[simp] theorem State.setMgmt_holdLimit : (s.setMgmt v).holdLimit = s.holdLimit := rfl
@[simp] theorem State.setMgmt_rowId : (s.setMgmt v).rowId = s.rowId := rfl
end

section
variable (v : List Nat)
@[simp] theorem State.setSettings_port (p : Nat) : (s.setSettings v).port p = s.port p := rfl
@[simp] theorem State.setSettings_presenceAt (i : Nat) : (s.setSettings v).presenceAt i = s.presenceAt i := rfl
@[simp] theorem State.setSettings_slotAt (k : Nat) : (s.setSettings v).slotAt k = s.slotAt k := rfl
@[simp] theorem State.setSettings_ruleAt (n : Nat) : (s.setSettings v).ruleAt n = s.ruleAt n := rfl
@[simp] theorem State.setSettings_readingAt (k : Nat) : (s.setSettings v).readingAt k = s.readingAt k := rfl
@[simp] theorem State.setSettings_liveAt (t : Nat) : (s.setSettings v).liveAt t = s.liveAt t := rfl
@[simp] theorem State.setSettings_activeAt (t : Nat) : (s.setSettings v).activeAt t = s.activeAt t := rfl
@[simp] theorem State.setSettings_stagedAt (t : Nat) : (s.setSettings v).stagedAt t = s.stagedAt t := rfl
@[simp] theorem State.setSettings_summaryAt (t : Nat) : (s.setSettings v).summaryAt t = s.summaryAt t := rfl
@[simp] theorem State.setSettings_entryAt (n : Nat) : (s.setSettings v).entryAt n = s.entryAt n := rfl
@[simp] theorem State.setSettings_curtailAt (t : Nat) : (s.setSettings v).curtailAt t = s.curtailAt t := rfl
@[simp] theorem State.setSettings_dueAt (p : Nat) : (s.setSettings v).dueAt p = s.dueAt p := rfl
end

section
variable (v : Option Image)
@[simp] theorem State.setExtMemory_port (p : Nat) : (s.setExtMemory v).port p = s.port p := rfl
@[simp] theorem State.setExtMemory_presenceAt (i : Nat) : (s.setExtMemory v).presenceAt i = s.presenceAt i := rfl
@[simp] theorem State.setExtMemory_slotAt (k : Nat) : (s.setExtMemory v).slotAt k = s.slotAt k := rfl
@[simp] theorem State.setExtMemory_ruleAt (n : Nat) : (s.setExtMemory v).ruleAt n = s.ruleAt n := rfl
@[simp] theorem State.setExtMemory_readingAt (k : Nat) : (s.setExtMemory v).readingAt k = s.readingAt k := rfl
@[simp] theorem State.setExtMemory_liveAt (t : Nat) : (s.setExtMemory v).liveAt t = s.liveAt t := rfl
@[simp] theorem State.setExtMemory_activeAt (t : Nat) : (s.setExtMemory v).activeAt t = s.activeAt t := rfl
@[simp] theorem State.setExtMemory_stagedAt (t : Nat) : (s.setExtMemory v).stagedAt t = s.stagedAt t := rfl
@[simp] theorem State.setExtMemory_summaryAt (t : Nat) : (s.setExtMemory v).summaryAt t = s.summaryAt t := rfl
@[simp] theorem State.setExtMemory_entryAt (n : Nat) : (s.setExtMemory v).entryAt n = s.entryAt n := rfl
@[simp] theorem State.setExtMemory_curtailAt (t : Nat) : (s.setExtMemory v).curtailAt t = s.curtailAt t := rfl
@[simp] theorem State.setExtMemory_dueAt (p : Nat) : (s.setExtMemory v).dueAt p = s.dueAt p := rfl
@[simp] theorem State.setExtMemory_setting (i : Nat) : (s.setExtMemory v).setting i = s.setting i := rfl
@[simp] theorem State.setExtMemory_masked (k : NoticeKind) : (s.setExtMemory v).masked k = s.masked k := rfl
@[simp] theorem State.setExtMemory_errorThreshold : (s.setExtMemory v).errorThreshold = s.errorThreshold := rfl
@[simp] theorem State.setExtMemory_holdLimit : (s.setExtMemory v).holdLimit = s.holdLimit := rfl
@[simp] theorem State.setExtMemory_rowId : (s.setExtMemory v).rowId = s.rowId := rfl
end

end Sys2Proof.Machine
end

