-- ==== Sys2Proof/Laws/Table.lean ====
section
/-! SUPPORT. What the operations on a table by index do: reading after a write, a tabulation, a drop; and that each of
them keeps the canonical form. -/

namespace Sys2Proof

variable {α : Type}

theorem Table.read_nil (d : α) (k : Nat) : Table.read d [] k = d := rfl

theorem Table.read_cons (d : α) (i : Nat) (v : α) (t : Table α) (k : Nat) :
    Table.read d ((i, v) :: t) k = if i = k then v else Table.read d t k := rfl

/-- A table is read from the left: where it lists nothing, what stands on the right is the default. -/
theorem Table.read_append (d : α) (t u : Table α) (k : Nat) :
    Table.read d (t ++ u) k = Table.read (Table.read d u k) t k := by
  induction t with
  | nil => rfl
  | cons e t ih => obtain ⟨i, v⟩ := e; simp only [List.cons_append, Table.read_cons, ih]

theorem Table.read_of_absent (d : α) (t : Table α) (k : Nat) (h : ∀ e ∈ t, e.1 ≠ k) : Table.read d t k = d := by
  induction t with
  | nil => rfl
  | cons e t ih =>
    obtain ⟨i, v⟩ := e
    rw [Table.read_cons, if_neg (h (i, v) (by simp)), ih (fun e he => h e (by simp [he]))]

/-- Filtering by index returns the indices filtered out to the default. -/
theorem Table.read_filter (d : α) (p : Nat → Bool) (t : Table α) (k : Nat) :
    Table.read d (t.filter (fun e => p e.1)) k = if p k then Table.read d t k else d := by
  induction t with
  | nil => simp [Table.read_nil]
  | cons e t ih =>
    obtain ⟨i, v⟩ := e
    by_cases hi : i = k
    · subst hi
      by_cases hp : p i = true
      · simp [hp, Table.read_cons]
      · rw [List.filter_cons_of_neg (by simpa using hp), ih, if_neg hp, if_neg hp]
    · by_cases hp : p i = true
      · rw [List.filter_cons_of_pos (by simpa using hp), Table.read_cons, if_neg hi, ih, Table.read_cons, if_neg hi]
      · rw [List.filter_cons_of_neg (by simpa using hp), ih, Table.read_cons, if_neg hi]

/-- A drop returns the dropped indices to the default and leaves the rest. -/
theorem Table.read_drop (d : α) (p : Nat → Bool) (t : Table α) (k : Nat) :
    Table.read d (Table.drop p t) k = if p k then d else Table.read d t k := by
  unfold Table.drop
  rw [Table.read_filter d (fun i => !p i) t k]
  cases p k <;> rfl

variable [DecidableEq α]

/-- What a write leaves at every index. -/
theorem Table.read_write (d : α) (t : Table α) (k j : Nat) (v : α) :
    Table.read d (Table.write d t k v) j = if j = k then v else Table.read d t j := by
  unfold Table.write
  rw [List.append_assoc, Table.read_append, Table.read_append,
    Table.read_filter _ (fun i => decide (i < k)), Table.read_filter _ (fun i => decide (k < i))]
  have hmid : Table.read (if decide (k < j) = true then Table.read d t j else d)
      (if v = d then [] else [(k, v)]) j = if j = k then v else if k < j then Table.read d t j else d := by
    by_cases hv : v = d
    · rw [if_pos hv, Table.read_nil]
      by_cases hj : j = k
      · subst hj; simp [hv]
      · simp [hj]
    · rw [if_neg hv, Table.read_cons, Table.read_nil]
      by_cases hj : j = k
      · simp [hj]
      · simp [hj, Ne.symm hj]
  rw [hmid]
  by_cases hj : j = k
  · subst hj; simp
  · rcases Nat.lt_or_gt_of_ne hj with h | h
    · simp only [h, decide_true, if_true, hj, if_false, Nat.not_lt.2 (Nat.le_of_lt h)]
    · simp [hj, h, Nat.not_lt.2 (Nat.le_of_lt h)]

/-- What is written at an index is what it then reads. -/
@[simp] theorem Table.read_write_same (d : α) (t : Table α) (k : Nat) (v : α) :
    Table.read d (Table.write d t k v) k = v := by rw [Table.read_write, if_pos rfl]

/-- A write leaves every other index as it was. -/
theorem Table.read_write_other (d : α) (t : Table α) {k j : Nat} (v : α) (h : j ≠ k) :
    Table.read d (Table.write d t k v) j = Table.read d t j := by rw [Table.read_write, if_neg h]

/-- A tabulation reads as its function below the bound and as the default from it on. -/
theorem Table.read_tabulate (d : α) (n : Nat) (f : Nat → α) (k : Nat) :
    Table.read d (Table.tabulate d n f) k = if k < n then f k else d := by
  unfold Table.tabulate
  induction n with
  | zero => rfl
  | succ n ih =>
    rw [List.range_succ, List.filterMap_append, Table.read_append]
    have hlast : Table.read d ([n].filterMap (fun k => if f k = d then none else some (k, f k))) k
        = if k = n then f k else d := by
      by_cases hd : f n = d
      · simp only [List.filterMap_cons, hd, if_true, List.filterMap_nil, Table.read_nil]
        split
        · rename_i h; rw [h, hd]
        · rfl
      · simp only [List.filterMap_cons, hd, if_false, List.filterMap_nil, Table.read_cons, Table.read_nil]
        by_cases hk : k = n
        · subst hk; simp
        · simp [hk, Ne.symm hk]
    rw [hlast]
    by_cases hk : k = n
    · subst hk
      rw [if_pos rfl, if_pos (Nat.lt_succ_self k), Table.read_of_absent]
      intro e he
      simp only [List.mem_filterMap, List.mem_range] at he
      obtain ⟨a, ha, hs⟩ := he
      split at hs
      · simp at hs
      · simp only [Option.some.injEq] at hs
        subst hs
        exact Nat.ne_of_lt ha
    · rw [if_neg hk, ih]
      by_cases hlt : k < n
      · rw [if_pos hlt, if_pos (Nat.lt_succ_of_lt hlt)]
      · rw [if_neg hlt, if_neg (by omega)]

theorem Table.read_mapAll (d : α) (n : Nat) (f : Nat → α → α) (t : Table α) (k : Nat) :
    Table.read d (Table.mapAll d n f t) k = if k < n then f k (Table.read d t k) else d :=
  Table.read_tabulate d n _ k

/-! ### The canonical form -/

/-- The canonical form, said of the whole list. -/
theorem Table.wf_iff (d : α) (t : Table α) :
    Table.wf d t = true ↔ t.Pairwise (fun a b => a.1 < b.1) ∧ ∀ e ∈ t, e.2 ≠ d := by
  induction t with
  | nil => simp [Table.wf]
  | cons e t ih =>
    obtain ⟨i, v⟩ := e
    cases t with
    | nil => simp [Table.wf]
    | cons e' t =>
      obtain ⟨j, w⟩ := e'
      simp only [Table.wf, Bool.and_eq_true, decide_eq_true_eq, ih]
      constructor
      · rintro ⟨⟨hv, hij⟩, hp, hd⟩
        refine ⟨List.Pairwise.cons ?_ hp, ?_⟩
        · intro a ha
          rcases List.mem_cons.1 ha with rfl | ha
          · exact hij
          · exact Nat.lt_trans hij ((List.pairwise_cons.1 hp).1 a ha)
        · intro a ha
          rcases List.mem_cons.1 ha with rfl | ha
          · exact hv
          · exact hd a ha
      · rintro ⟨hp, hd⟩
        have hp' := List.pairwise_cons.1 hp
        exact ⟨⟨hd (i, v) (by simp), hp'.1 (j, w) (by simp)⟩, hp'.2, fun e he => hd e (by simp [he])⟩

theorem Table.wf_nil (d : α) : Table.wf d ([] : Table α) = true := rfl

theorem Table.wf_filter (d : α) (t : Table α) (p : Nat × α → Bool) (h : Table.wf d t = true) :
    Table.wf d (t.filter p) = true := by
  rw [Table.wf_iff] at h ⊢
  exact ⟨h.1.filter p, fun e he => h.2 e (List.mem_filter.1 he).1⟩

/-- A write keeps the canonical form. -/
theorem Table.wf_write (d : α) (t : Table α) (k : Nat) (v : α) (h : Table.wf d t = true) :
    Table.wf d (Table.write d t k v) = true := by
  rw [Table.wf_iff] at h ⊢
  unfold Table.write
  constructor
  · rw [List.pairwise_append, List.pairwise_append]
    refine ⟨⟨h.1.filter _, by split <;> simp, ?_⟩, h.1.filter _, ?_⟩
    · intro a ha b hb
      split at hb
      · simp at hb
      · simp only [List.mem_filter, decide_eq_true_eq, List.mem_singleton] at ha hb
        subst hb
        exact ha.2
    · intro a ha b hb
      simp only [List.mem_append, List.mem_filter, decide_eq_true_eq] at ha hb
      rcases ha with ha | ha
      · omega
      · split at ha
        · simp at ha
        · simp only [List.mem_singleton] at ha
          subst ha
          exact hb.2
  · intro e he
    simp only [List.mem_append, List.mem_filter] at he
    rcases he with (he | he) | he
    · exact h.2 e he.1
    · split at he
      · simp at he
      · simp only [List.mem_singleton] at he
        subst he
        assumption
    · exact h.2 e he.1

theorem Table.wf_tabulate (d : α) (n : Nat) (f : Nat → α) : Table.wf d (Table.tabulate d n f) = true := by
  rw [Table.wf_iff]
  unfold Table.tabulate
  constructor
  · rw [List.pairwise_filterMap]
    refine List.pairwise_lt_range.imp ?_
    intro a b hab x hx y hy
    split at hx
    · simp at hx
    · split at hy
      · simp at hy
      · simp only [Option.some.injEq] at hx hy
        subst hx hy
        exact hab
  · intro e he
    simp only [List.mem_filterMap] at he
    obtain ⟨a, -, ha⟩ := he
    split at ha
    · simp at ha
    · simp only [Option.some.injEq] at ha
      subst ha
      assumption

theorem Table.wf_mapAll (d : α) (n : Nat) (f : Nat → α → α) (t : Table α) :
    Table.wf d (Table.mapAll d n f t) = true := Table.wf_tabulate d n _

theorem Table.wf_drop (d : α) (p : Nat → Bool) (t : Table α) (h : Table.wf d t = true) :
    Table.wf d (Table.drop p t) = true := Table.wf_filter d t _ h

/-- In canonical form, an entry is listed exactly when its index reads it and it is not the default. -/
theorem Table.mem_iff (d : α) (t : Table α) (h : Table.wf d t = true) (k : Nat) (v : α) :
    (k, v) ∈ t ↔ Table.read d t k = v ∧ v ≠ d := by
  rw [Table.wf_iff] at h
  induction t with
  | nil => simp [Table.read_nil, eq_comm]
  | cons e t ih =>
    obtain ⟨i, w⟩ := e
    have hp := List.pairwise_cons.1 h.1
    have hw : w ≠ d := h.2 (i, w) (by simp)
    have ih := ih ⟨hp.2, fun e he => h.2 e (by simp [he])⟩
    rw [List.mem_cons, Table.read_cons, Prod.mk.injEq, ih]
    by_cases hi : i = k
    · subst hi
      have : Table.read d t i = d := Table.read_of_absent d t i (fun e he => Nat.ne_of_gt (hp.1 e he))
      rw [this]
      simp only [if_true, true_and]
      constructor
      · rintro (rfl | ⟨rfl, hv⟩)
        · exact ⟨rfl, hw⟩
        · exact absurd rfl hv
      · rintro ⟨rfl, -⟩
        exact Or.inl rfl
    · simp [hi, Ne.symm hi]

/-- Two tables in canonical form that read alike are equal data. -/
theorem Table.ext_of_wf (d : α) (t u : Table α) (ht : Table.wf d t = true) (hu : Table.wf d u = true)
    (h : ∀ k, Table.read d t k = Table.read d u k) : t = u := by
  have hmem : ∀ e, e ∈ t ↔ e ∈ u := by
    rintro ⟨k, v⟩
    rw [Table.mem_iff d t ht, Table.mem_iff d u hu, h]
  rw [Table.wf_iff] at ht hu
  have hlt : ∀ l : Table α, l.Pairwise (fun a b => a.1 < b.1) → l.Nodup := fun l hl =>
    hl.imp (fun {a b} hab hab' => by subst hab'; exact Nat.lt_irrefl _ hab)
  exact List.Perm.eq_of_pairwise (fun a b _ _ hab hba => absurd hab (Nat.lt_asymm hba)) ht.1 hu.1
    ((List.perm_ext_iff_of_nodup (hlt t ht.1) (hlt u hu.1)).2 hmem)

end Sys2Proof
end

