-- ==== Sys2Proof/Laws/Frames.lean ====
section
/-! SUPPORT. What the shared operations on links, queues, faults and answers do, each said once: its value where it acts
and a frame for the rest. -/

namespace Sys2Proof.Machine

/-! ### Frames compose -/

theorem SameOutside.refl (l : List Block) (s : State) : SameOutside l s s := by
  intro b _
  cases b <;> simp [Block.same]

theorem SameOutside.mono {l m : List Block} {s t : State} (h : SameOutside l s t) (hlm : l ⊆ m) : SameOutside m s t :=
  fun b hb => h b (fun hl => hb (hlm hl))

theorem SameOutside.trans {l : List Block} {s t u : State} (h : SameOutside l s t) (k : SameOutside l t u) :
    SameOutside l s u := by
  intro b hb
  have h1 := h b hb
  have h2 := k b hb
  cases b <;> simp only [Block.same] at h1 h2 ⊢
  case links => exact fun p => (h2 p).trans (h1 p)
  case downChoice => exact fun p => (h2 p).trans (h1 p)
  all_goals exact h2.trans h1

/-- Frames compose to any list that covers both. -/
theorem SameOutside.comp {l m n : List Block} {s t u : State} (h : SameOutside l s t) (k : SameOutside m t u)
    (hl : l ⊆ n) (hm : m ⊆ n) : SameOutside n s u := (h.mono hl).trans (k.mono hm)

/-! ### Frames of the field updates -/

section
variable (s : State)

theorem same_setPending (v) : SameOutside [.pending] s (s.setPending v) := by
  intro b hb; cases b <;> first | rfl | (intro p; rfl) | exact absurd (by decide) hb
theorem same_setNow (v) : SameOutside [.now] s (s.setNow v) := by
  intro b hb; cases b <;> first | rfl | (intro p; rfl) | exact absurd (by decide) hb
theorem same_setFreeCount (v) : SameOutside [.freeCount] s (s.setFreeCount v) := by
  intro b hb; cases b <;> first | rfl | (intro p; rfl) | exact absurd (by decide) hb
theorem same_setTimer (v) : SameOutside [.timer] s (s.setTimer v) := by
  intro b hb; cases b <;> first | rfl | (intro p; rfl) | exact absurd (by decide) hb
theorem same_setPorts (v) : SameOutside [.links, .downChoice] s (s.setPorts v) := by
  intro b hb; cases b <;> first | rfl | exact absurd (by decide) hb
theorem same_setPresence (v) : SameOutside [.presence] s (s.setPresence v) := by
  intro b hb; cases b <;> first | rfl | (intro p; rfl) | exact absurd (by decide) hb
theorem same_setOat (v) : SameOutside [.oat] s (s.setOat v) := by
  intro b hb; cases b <;> first | rfl | (intro p; rfl) | exact absurd (by decide) hb
theorem same_setRules (v) : SameOutside [.rules] s (s.setRules v) := by
  intro b hb; cases b <;> first | rfl | (intro p; rfl) | exact absurd (by decide) hb
theorem same_setReadings (v) : SameOutside [.readings] s (s.setReadings v) := by
  intro b hb; cases b <;> first | rfl | (intro p; rfl) | exact absurd (by decide) hb
theorem same_setFilling (v) : SameOutside [.filling] s (s.setFilling v) := by
  intro b hb; cases b <;> first | rfl | (intro p; rfl) | exact absurd (by decide) hb
theorem same_setClosing (v) : SameOutside [.closing] s (s.setClosing v) := by
  intro b hb; cases b <;> first | rfl | (intro p; rfl) | exact absurd (by decide) hb
theorem same_setLive (v) : SameOutside [.live] s (s.setLive v) := by
  intro b hb; cases b <;> first | rfl | (intro p; rfl) | exact absurd (by decide) hb
theorem same_setContracts (v) : SameOutside [.contracts] s (s.setContracts v) := by
  intro b hb; cases b <;> first | rfl | (intro p; rfl) | exact absurd (by decide) hb
theorem same_setCurtail (v) : SameOutside [.curtail] s (s.setCurtail v) := by
  intro b hb; cases b <;> first | rfl | (intro p; rfl) | exact absurd (by decide) hb
theorem same_setNotices (v) : SameOutside [.notices] s (s.setNotices v) := by
  intro b hb; cases b <;> first | rfl | (intro p; rfl) | exact absurd (by decide) hb
theorem same_setMgmt (v) : SameOutside [.mgmt] s (s.setMgmt v) := by
  intro b hb; cases b <;> first | rfl | (intro p; rfl) | exact absurd (by decide) hb
theorem same_setSettings (v) : SameOutside [.settings] s (s.setSettings v) := by
  intro b hb; cases b <;> first | rfl | (intro p; rfl) | exact absurd (by decide) hb
theorem same_setExtMemory (v) : SameOutside [.extMemory] s (s.setExtMemory v) := by
  intro b hb; cases b <;> first | rfl | (intro p; rfl) | exact absurd (by decide) hb

/-- An update of the uplink unit that keeps the arbiter's choice. -/
theorem same_setUplink (v : Uplink) (h : v.choice = s.uplink.choice) : SameOutside [.uplink] s (s.setUplink v) := by
  intro b hb; cases b <;> first | rfl | (intro p; rfl) | exact h | exact absurd (by decide) hb

/-- Any update of the uplink unit. -/
theorem same_setUplink_all (v) : SameOutside [.uplink, .upChoice] s (s.setUplink v) := by
  intro b hb; cases b <;> first | rfl | (intro p; rfl) | exact absurd (by decide) hb

/-- An update of the arbiter's choice alone. -/
theorem same_setUplink_choice (v : Uplink) (h : v.core = s.uplink.core) : SameOutside [.upChoice] s (s.setUplink v) := by
  intro b hb; cases b <;> first | rfl | (intro p; rfl) | exact h | exact absurd (by decide) hb

end

/-! ### Records by index -/

section
variable (s : State)

theorem port_putPort (p : Nat) (q : Port) (r : Nat) : (s.putPort p q).port r = if r = p then q else s.port r :=
  Table.read_write Port.initial s.ports p r q

@[simp] theorem port_putPort_same (p : Nat) (q : Port) : (s.putPort p q).port p = q := by rw [port_putPort, if_pos rfl]

theorem port_putPort_other {p r : Nat} (q : Port) (h : r ≠ p) : (s.putPort p q).port r = s.port r := by
  rw [port_putPort, if_neg h]

theorem same_putPort_all (p : Nat) (q : Port) : SameOutside [.links, .downChoice] s (s.putPort p q) := same_setPorts s _

/-- A port update that keeps the transmitter's choice. -/
theorem same_putPort (p : Nat) (q : Port) (h : q.choice = (s.port p).choice) : SameOutside [.links] s (s.putPort p q) := by
  intro b hb
  cases b
  case downChoice => intro r; rw [port_putPort]; split <;> simp_all
  case links => exact absurd (by decide) hb
  all_goals exact same_putPort_all s p q _ (by decide)

/-- A port update of the transmitter's choice alone. -/
theorem same_putPort_choice (p : Nat) (q : Port) (h : q.core = (s.port p).core) :
    SameOutside [.downChoice] s (s.putPort p q) := by
  intro b hb
  cases b
  case links => intro r; rw [port_putPort]; split <;> simp_all
  case downChoice => exact absurd (by decide) hb
  all_goals exact same_putPort_all s p q _ (by decide)

@[simp] theorem presenceAt_putPresence (i j : Nat) (e : Presence) :
    (s.putPresence i e).presenceAt j = if j = i then e else s.presenceAt j := Table.read_write _ _ _ _ _

theorem same_putPresence (i : Nat) (e : Presence) : SameOutside [.presence] s (s.putPresence i e) := same_setPresence s _

@[simp] theorem liveAt_putLive (t x : Nat) (r : LiveRecord) :
    (s.putLive t r).liveAt x = if x = t then r else s.liveAt x := Table.read_write _ _ _ _ _

theorem same_putLive (t : Nat) (r : LiveRecord) : SameOutside [.live] s (s.putLive t r) := same_setLive s _

@[simp] theorem curtailAt_putCurtail (t x : Nat) (c : TenantCurtail) :
    (s.putCurtail t c).curtailAt x = if x = t then c else s.curtailAt x := Table.read_write _ _ _ _ _

theorem same_putCurtail (t : Nat) (c : TenantCurtail) : SameOutside [.curtail] s (s.putCurtail t c) := same_setCurtail s _

/-- A tenant's curtailment record is all of the controller that an update of it changes. -/
theorem curtail_putCurtail (t : Nat) (c : TenantCurtail) :
    (s.putCurtail t c).curtail = { s.curtail with records := (s.putCurtail t c).curtail.records } := rfl

end

/-! ### Faults (R155) -/

/-- Recording a fault changes the notice unit alone, as R155 says. -/
theorem recordFault_eq (s : State) (cls : FaultClass) (loc : Location) :
    s.recordFault cls loc = s.setNotices (s.noticesWithFault cls loc) := by
  unfold State.recordFault State.noticesWithFault faultAfter severityHeld
  cases h : s.notices.fault with
  | none => cases cls <;> rfl
  | some f =>
    by_cases hlt : f.cls.severity < cls.severity
    · simp [hlt]
    · simp only [hlt, if_false, ← h]
      rfl

theorem same_recordFault (s : State) (cls : FaultClass) (loc : Location) :
    SameOutside [.notices] s (s.recordFault cls loc) := recordFault_eq s cls loc ▸ same_setNotices s _

/-- A recording that is not more severe than the one before it changes nothing. -/
theorem faultAfter_again (held : Option FaultRecord) (f g : FaultRecord) (h : g.cls.severity ≤ f.cls.severity) :
    faultAfter (faultAfter held f) g = faultAfter held f := by
  unfold faultAfter
  by_cases hl : severityHeld held < f.cls.severity
  · rw [if_pos hl, if_neg (by simp only [severityHeld]; omega)]
  · rw [if_neg hl, if_neg (by omega)]

/-- A second recording in the same event that is not more severe than the first keeps the first. -/
theorem noticesWithFault_again (s : State) (c d : FaultClass) (l m : Location) (h : d.severity ≤ c.severity) :
    (s.setNotices (s.noticesWithFault c l)).noticesWithFault d m = s.noticesWithFault c l := by
  have := faultAfter_again s.notices.fault { cls := c, location := l, epoch := s.timer.epoch }
    { cls := d, location := m, epoch := s.timer.epoch } h
  simp only [State.noticesWithFault, State.setNotices_notices, State.setNotices_timer, this]

/-- The bad items that a read found leave the first of them recorded (R45, R104, R155). -/
theorem recordParity_eq (s : State) (bad : List Location) :
    s.recordParity bad = s.setNotices (s.noticesAfterReading bad) := by
  cases bad with
  | nil => rfl
  | cons loc rest =>
    simp only [State.recordParity, State.noticesAfterReading, recordFault_eq]
    induction rest with
    | nil => rfl
    | cons m rest ih =>
      simp only [State.recordParity, recordFault_eq]
      rw [noticesWithFault_again s .tableParity .tableParity loc m (le_refl _)]
      exact ih

theorem same_recordParity (s : State) (bad : List Location) : SameOutside [.notices] s (s.recordParity bad) :=
  recordParity_eq s bad ▸ same_setNotices s _

/-! ### Frames heard (R16) -/

theorem wellFormedFrame_heard (s : State) (p : Nat) : Heard p s (s.wellFormedFrame p) := by
  have hheard : SameOutside [.links, .notices] s (s.putPort p { s.port p with silentPass := 0 }) :=
    SameOutside.mono (same_putPort s p _ rfl) (by decide)
  have hlink : ∀ l, SameOutside [.links, .notices] s
      ((s.putPort p { s.port p with silentPass := 0 }).putPort p { s.port p with silentPass := 0, link := l }) :=
    fun l => hheard.trans (SameOutside.mono (same_putPort _ p _ (by simp)) (by decide))
  unfold State.wellFormedFrame
  by_cases hd : (s.port p).link = .down
  · by_cases he : (s.port p).errorCount < s.errorThreshold
    · simp only [if_pos hd, if_pos he, port_putPort_same]
      refine ⟨by simp [Port.heard, Port.core, hd, he], fun q hq => by simp [port_putPort, hq], ?_, hlink .up⟩
      rw [if_neg (by omega)]; rfl
    · simp only [if_pos hd, if_neg he, State.degrade, recordFault_eq, port_putPort_same]
      refine ⟨by simp [Port.heard, Port.core, hd, he], fun q hq => by simp [port_putPort, hq], ?_, ?_⟩
      · rw [if_pos ⟨hd, by omega⟩]; rfl
      · exact (hlink .degraded).trans (SameOutside.mono (same_setNotices _ _) (by decide))
  · simp only [if_neg hd]
    refine ⟨by simp [Port.heard, Port.core, hd], fun q hq => by simp [port_putPort, hq], ?_, hheard⟩
    rw [if_neg (fun h => hd h.1)]; rfl

/-! ### Offers to a queue (R34, R161 to R163) -/

theorem offerForward_uplink (s : State) (f : Forward) : (s.offerForward f).uplink = { s.uplink with forwards :=
    if s.uplink.forwards.length < 16 then s.uplink.forwards ++ [f] else s.uplink.forwards } := by
  unfold State.offerForward; split <;> rfl

theorem same_offerForward (s : State) (f : Forward) : SameOutside [.uplink] s (s.offerForward f) := by
  unfold State.offerForward
  split
  · exact same_setUplink s _ rfl
  · exact SameOutside.refl _ _

theorem offerRequest_uplink (s : State) (r : Request) : (s.offerRequest r).uplink = { s.uplink with requests :=
    if s.uplink.requests.length < 4 then s.uplink.requests ++ [r] else s.uplink.requests } := by
  unfold State.offerRequest; split <;> rfl

theorem same_offerRequest (s : State) (r : Request) : SameOutside [.uplink] s (s.offerRequest r) := by
  unfold State.offerRequest
  split
  · exact same_setUplink s _ rfl
  · exact SameOutside.refl _ _

theorem passDownTaken_iff (s : State) (p : Nat) :
    s.passDownTaken p = true ↔ (s.port p).link ≠ .disabled ∧ (s.port p).passDown.length < 4 := by
  simp [State.passDownTaken]

theorem port_offerPassDown (s : State) (p : Nat) (f : PassDown) (q : Nat) : (s.offerPassDown p f).port q =
    if q = p ∧ (s.port p).link ≠ .disabled ∧ (s.port p).passDown.length < 4 then
      { s.port p with passDown := (s.port p).passDown ++ [f] } else s.port q := by
  unfold State.offerPassDown
  by_cases h : s.passDownTaken p = true
  · have h' := (passDownTaken_iff s p).1 h
    rw [if_pos h, port_putPort]
    by_cases hq : q = p <;> simp [hq, h']
  · have h' : ¬ _ := fun k => h ((passDownTaken_iff s p).2 k)
    rw [if_neg h, if_neg (fun k => h' k.2)]

theorem same_offerPassDown (s : State) (p : Nat) (f : PassDown) : SameOutside [.links] s (s.offerPassDown p f) := by
  unfold State.offerPassDown
  split
  · exact same_putPort s p _ rfl
  · exact SameOutside.refl _ _

/-- A response lands where R34, R162 and R169 say. -/
theorem respond_answered (s : State) (o : Origin) (r : Response) : Answered s (s.respond o r) o r := by
  cases o with
  | uplink =>
    simp only [Answered, State.respond, State.offerResponse, State.responseRoom]
    split
    · next h => exact ⟨fun _ => rfl, fun _ => ⟨rfl, rfl⟩, fun k => absurd h k⟩
    · next h => exact ⟨fun _ => rfl, fun k => absurd k h, fun _ => ⟨rfl, rfl⟩⟩
  | chain p position =>
    simp only [Answered, State.respond]
    have hsame := same_offerPassDown s p (.response position r)
    refine ⟨hsame .uplink (by decide), hsame .mgmt (by decide), fun q hq => ?_, fun h => ?_, fun h => ?_⟩
    · rw [port_offerPassDown, if_neg (fun k => hq k.1)]
    · rw [port_offerPassDown, if_pos ⟨rfl, h⟩]; rfl
    · rw [port_offerPassDown, if_neg (fun k => h k.2)]

theorem same_respond (s : State) (o : Origin) (r : Response) :
    SameOutside [.uplink, .mgmt, .links] s (s.respond o r) := by
  cases o with
  | uplink =>
    simp only [State.respond, State.offerResponse]
    split
    · exact SameOutside.mono (same_setUplink s _ rfl) (by decide)
    · exact (same_setMgmt s _).mono (by decide)
  | chain p position => exact (same_offerPassDown s p _).mono (by decide)

/-! ### The transmitters' choice (R32, R164) -/

theorem same_chooseDown (s : State) (p : Nat) : SameOutside [.downChoice] s (s.chooseDown p) := same_putPort_choice s p _ rfl

theorem same_chooseUp (s : State) : SameOutside [.upChoice] s s.chooseUp := same_setUplink_choice s _ rfl

/-- The choices change nothing else. -/
theorem same_arbitrate (s : State) : SameOutside choiceBlocks s s.arbitrate := by
  have h : ∀ p (t : State), SameOutside choiceBlocks t (t.chooseDown p) :=
    fun p t => (same_chooseDown t p).mono (by decide)
  exact ((((h 0 _).trans (h 1 _)).trans (h 2 _)).trans (h 3 _)).trans ((same_chooseUp _).mono (by decide))

theorem port_chooseDown (s : State) (p q : Nat) :
    (s.chooseDown p).port q = if q = p then { s.port p with choice := s.downChoice p } else s.port q :=
  port_putPort s p _ q

theorem downChoice_chooseDown (s : State) {p q : Nat} (h : q ≠ p) : (s.chooseDown p).downChoice q = s.downChoice q := by
  have hp : (s.chooseDown p).port q = s.port q := by rw [port_chooseDown, if_neg h]
  have ha : (s.chooseDown p).downAvailable q = s.downAvailable q := by
    funext k
    cases k <;> (simp only [State.downAvailable, hp]; try rfl)
  simp only [State.downChoice, State.downFirst, hp, ha]

/-- After the choices every port of the part holds the one it owes, and is otherwise as it was. -/
theorem port_arbitrate (s : State) (p : Nat) :
    s.arbitrate.port p = if p < 4 then { s.port p with choice := s.downChoice p } else s.port p := by
  have hup : ∀ t : State, t.chooseUp.port p = t.port p := fun _ => rfl
  simp only [State.arbitrate, hup]
  rcases lt_or_ge p 4 with h | h
  · interval_cases p <;> simp [port_chooseDown, downChoice_chooseDown]
  · rw [if_neg (by omega)]
    simp only [port_chooseDown]
    rw [if_neg (by omega), if_neg (by omega), if_neg (by omega), if_neg (by omega)]

theorem uplink_arbitrate (s : State) : s.arbitrate.uplink = { s.uplink with choice := s.upChoice } := rfl

theorem core_uplink_arbitrate (s : State) : s.arbitrate.uplink.core = s.uplink.core := by
  rw [uplink_arbitrate]
  rfl

theorem core_port_arbitrate (s : State) (p : Nat) : (s.arbitrate.port p).core = (s.port p).core := by
  rw [port_arbitrate]; split <;> rfl

@[simp] theorem arbitrate_pending (s : State) : s.arbitrate.pending = s.pending := rfl
@[simp] theorem arbitrate_now (s : State) : s.arbitrate.now = s.now := rfl
@[simp] theorem arbitrate_freeCount (s : State) : s.arbitrate.freeCount = s.freeCount := rfl
@[simp] theorem arbitrate_timer (s : State) : s.arbitrate.timer = s.timer := rfl
@[simp] theorem arbitrate_presence (s : State) : s.arbitrate.presence = s.presence := rfl
@[simp] theorem arbitrate_oat (s : State) : s.arbitrate.oat = s.oat := rfl
@[simp] theorem arbitrate_rules (s : State) : s.arbitrate.rules = s.rules := rfl
@[simp] theorem arbitrate_readings (s : State) : s.arbitrate.readings = s.readings := rfl
@[simp] theorem arbitrate_filling (s : State) : s.arbitrate.filling = s.filling := rfl
@[simp] theorem arbitrate_closing (s : State) : s.arbitrate.closing = s.closing := rfl
@[simp] theorem arbitrate_live (s : State) : s.arbitrate.live = s.live := rfl
@[simp] theorem arbitrate_contracts (s : State) : s.arbitrate.contracts = s.contracts := rfl
@[simp] theorem arbitrate_curtail (s : State) : s.arbitrate.curtail = s.curtail := rfl
@[simp] theorem arbitrate_notices (s : State) : s.arbitrate.notices = s.notices := rfl
@[simp] theorem arbitrate_mgmt (s : State) : s.arbitrate.mgmt = s.mgmt := rfl
@[simp] theorem arbitrate_settings (s : State) : s.arbitrate.settings = s.settings := rfl
@[simp] theorem arbitrate_extMemory (s : State) : s.arbitrate.extMemory = s.extMemory := rfl

/-! ### Requests (R169, R171) -/

/-- An answer after which the choices are made is still the answer. -/
theorem Answered.arbitrate {b t : State} {o : Origin} {r : Response} (h : Answered b t o r) :
    Answered b t.arbitrate o r := by
  cases o with
  | uplink =>
    simp only [Answered, core_port_arbitrate, core_uplink_arbitrate, arbitrate_mgmt] at h ⊢
    exact h
  | chain p position =>
    simp only [Answered, core_port_arbitrate, core_uplink_arbitrate, arbitrate_mgmt] at h ⊢
    exact h

/-- Offering a response and then making the choices. -/
theorem respond_arbitrate (b : State) (o : Origin) (r : Response) :
    Answered b (b.respond o r).arbitrate o r ∧ SameOutside answerBlocks b (b.respond o r).arbitrate :=
  ⟨(respond_answered b o r).arbitrate, (same_respond b o r).comp (same_arbitrate _) (by decide) (by decide)⟩

/-- A request that heads the queue is taken by its command. -/
theorem onRequest_heads {s : State} {row : RequestRow} {r : Request} (h : Heads s row r)
    (work : Request → State → State) : s.onRequest row work = .next (s.popRequest.execute r work).arbitrate := by
  obtain ⟨⟨hc, hk, hw⟩, hr, hrow⟩ := h
  simp [State.onRequest, State.takeable, State.ready, hc, hk, hw, hr, hrow]

/-- R190: the written-out list of codes and lengths is the model's test. -/
theorem requestFits_eq (code : Byte) (data : List Byte) : requestFits code data = (codeKnown code && dataFits code data) := by
  have hcode : code ∈ [0x01#8, 0x02#8, 0x03#8, 0x04#8, 0x05#8, 0x06#8, 0x07#8, 0x08#8, 0x09#8, 0x0A#8, 0x0B#8, 0x0C#8, 0x0D#8]
      ∨ (codeKnown code = false ∧ code ∉ [0x01#8, 0x02#8, 0x03#8, 0x04#8, 0x05#8, 0x06#8, 0x07#8, 0x08#8, 0x09#8, 0x0A#8,
        0x0B#8, 0x0C#8, 0x0D#8]) := by
    revert code; decide
  rcases hcode with h | ⟨hk, hn⟩
  · have hform : byteAt data 0 ≤ 1 ↔ data.getD 0 0x00#8 = 0x00#8 ∨ data.getD 0 0x00#8 = 0x01#8 := by
      unfold byteAt
      generalize data.getD 0 0x00#8 = first
      revert first; decide
    have htable : (3 ≤ data.length ∧ (data.getD 0 0x00#8 = 0x00#8 → data.length = 7) ∧ (data.getD 0 0x00#8 = 0x01#8 → data.length = 9)
        ∧ (data.getD 0 0x00#8 = 0x02#8 → data.length = 10) ∧ (data.getD 0 0x00#8 = 0x03#8 → data.length = 24))
        ↔ (if 1 ≤ data.length ∧ writtenTable data ≤ 3 then data.length = 3 + entryLength (writtenTable data)
            else 3 ≤ data.length) := by
      unfold writtenTable byteAt
      generalize data.getD 0 0x00#8 = first
      have hf : first = 0x00#8 ∨ first = 0x01#8 ∨ first = 0x02#8 ∨ first = 0x03#8 ∨ (3 < first.toNat ∧ first ≠ 0x00#8
          ∧ first ≠ 0x01#8 ∧ first ≠ 0x02#8 ∧ first ≠ 0x03#8) := by revert first; decide
      rcases hf with rfl | rfl | rfl | rfl | ⟨h3, h0, h1, h2, h4⟩
      · simp [entryLength]; split <;> omega
      · simp [entryLength]; split <;> omega
      · simp [entryLength]; split <;> omega
      · simp [entryLength]; split <;> omega
      · rw [if_neg (by omega)]; simp [h0, h1, h2, h4]
    simp only [List.mem_cons, List.not_mem_nil, or_false] at h
    rcases h with rfl | rfl | rfl | rfl | rfl | rfl | rfl | rfl | rfl | rfl | rfl | rfl | rfl
    case inr.inl =>
      have hr : requestFits 0x02#8 data = decide (if 1 ≤ data.length ∧ writtenTable data ≤ 3 then
          data.length = 3 + entryLength (writtenTable data) else 3 ≤ data.length) := decide_eq_decide.2 htable
      have hd : (codeKnown 0x02#8 && dataFits 0x02#8 data) = (if 1 ≤ data.length ∧ writtenTable data ≤ 3 then
          decide (data.length = 3 + entryLength (writtenTable data)) else decide (3 ≤ data.length)) := rfl
      rw [hr, hd]
      split <;> rfl
    all_goals simp [requestFits, codeKnown, dataFits, hform]
  · simp only [hk, Bool.false_and]
    simp only [List.mem_cons, List.not_mem_nil, or_false, not_or] at hn
    simp [requestFits, hn]

theorem isWrite_iff (code : Byte) : isWrite code ↔ writeType code = true := by
  unfold isWrite
  revert code
  decide

/-- A request that passes the general tests is worked on. -/
theorem execute_taken {s : State} {r : Request} (h : PassesGeneralTests s r) (work : Request → State → State) :
    s.popRequest.execute r work = work r s.popRequest := by
  obtain ⟨hl, hf, hp, hs⟩ := h
  rw [requestFits_eq] at hf
  simp only [isWrite_iff] at hp hs
  have hg : s.popRequest.generalTest r = none := by
    have hm : s.popRequest.mgmt = s.mgmt := rfl
    have hpm : s.popRequest.chainWritePermit = s.chainWritePermit := rfl
    simp only [State.generalTest, hm, hpm, hf]
    rw [if_neg (fun k => k.2 (hl k.1))]
    simp only [Bool.not_true, Bool.false_eq_true, if_false]
    rw [if_neg (by rintro ⟨h1, h2, h3⟩; rw [hp h1 h2] at h3; simp at h3), if_neg (fun k => hs k.1 k.2)]
  simp [State.execute, hg]

theorem onRequest_taken {s : State} {row : RequestRow} {r : Request} (h : Taken s row r)
    (work : Request → State → State) : s.onRequest row work = .next (work r s.popRequest).arbitrate := by
  rw [onRequest_heads h.1, execute_taken h.2]

theorem same_popRequest (s : State) : SameOutside [.uplink] s s.popRequest := same_setUplink s _ rfl

/-- A command whose work ends in an answer offered in `b` takes and answers the request. -/
theorem takesAndAnswers_of {c : Instr} {s : State} {r : Request} {status : Status} {data : List Byte}
    {changed : List Block} {what : State → Prop} (b : State)
    (hexec : exec c s = .next (b.answer r status data).arbitrate)
    (hsame : SameOutside (.uplink :: changed) s b)
    (hup : b.uplink.core = { s.uplink.core with requests := s.uplink.requests.tail }) (hwhat : what b) :
    TakesAndAnswers c s r status data changed what :=
  ⟨b, _, hexec, hsame, hup, hwhat, respond_arbitrate b r.origin _⟩

end Sys2Proof.Machine
end

