-- ==== Sys2Proof/Laws/Curtail.lean ====
section
/-! SUPPORT. What the shared operations on the curtailment table do: entries, due lists, owed list and tenant records, each
operation said once. -/

namespace Sys2Proof.Machine

variable (s : State)

/-! ### One entry -/

section
variable (slot : Nat) (e : CurtailEntry)

@[simp] theorem entryAt_putEntry (n : Nat) : (s.putEntry slot e).entryAt n = if n = slot then some e else s.entryAt n :=
  Table.read_write _ _ _ _ _
@[simp] theorem dueAt_putEntry (p : Nat) : (s.putEntry slot e).dueAt p = s.dueAt p := rfl
@[simp] theorem curtailAt_putEntry (t : Nat) : (s.putEntry slot e).curtailAt t = s.curtailAt t := rfl

/-- Only the slots change. -/
theorem putEntry_curtail :
    (s.putEntry slot e).curtail = { s.curtail with slots := (s.putEntry slot e).curtail.slots } := rfl

theorem same_putEntry : SameOutside [.curtail] s (s.putEntry slot e) := same_setCurtail s _

end

section
variable (p slot : Nat)

@[simp] theorem entryAt_joinDue (n : Nat) : (s.joinDue p slot).entryAt n = s.entryAt n := rfl
@[simp] theorem dueAt_joinDue (q : Nat) : (s.joinDue p slot).dueAt q = if q = p then s.dueAt p ++ [slot] else s.dueAt q :=
  Table.read_write _ _ _ _ _
@[simp] theorem curtailAt_joinDue (t : Nat) : (s.joinDue p slot).curtailAt t = s.curtailAt t := rfl

/-- Only the due lists change. -/
theorem joinDue_curtail : (s.joinDue p slot).curtail = { s.curtail with due := (s.joinDue p slot).curtail.due } := rfl

theorem same_joinDue : SameOutside [.curtail] s (s.joinDue p slot) := same_setCurtail s _

@[simp] theorem entryAt_leaveDue (n : Nat) : (s.leaveDue p slot).entryAt n = s.entryAt n := rfl
@[simp] theorem dueAt_leaveDue (q : Nat) : (s.leaveDue p slot).dueAt q =
    if q = p then (s.dueAt p).filter (fun n => decide (n ≠ slot)) else s.dueAt q :=
  Table.read_write _ _ _ _ _
@[simp] theorem curtailAt_leaveDue (t : Nat) : (s.leaveDue p slot).curtailAt t = s.curtailAt t := rfl

/-- Only the due lists change. -/
theorem leaveDue_curtail : (s.leaveDue p slot).curtail = { s.curtail with due := (s.leaveDue p slot).curtail.due } := rfl

theorem same_leaveDue : SameOutside [.curtail] s (s.leaveDue p slot) := same_setCurtail s _

@[simp] theorem entryAt_removeEntry (n : Nat) :
    (s.removeEntry slot).entryAt n = if n = slot then none else s.entryAt n := Table.read_write _ _ _ _ _
@[simp] theorem dueAt_removeEntry (q : Nat) : (s.removeEntry slot).dueAt q = s.dueAt q := rfl
@[simp] theorem curtailAt_removeEntry (t : Nat) : (s.removeEntry slot).curtailAt t = s.curtailAt t := rfl

/-- Only the slots and the owed list change. -/
theorem removeEntry_curtail : (s.removeEntry slot).curtail = { s.curtail with
    slots := (s.removeEntry slot).curtail.slots, owed := s.curtail.owed.filter (fun n => decide (n ≠ slot)) } := rfl

theorem same_removeEntry : SameOutside [.curtail] s (s.removeEntry slot) := same_setCurtail s _

end

/-! ### Results (R137) -/

/-- The entry a result leaves in its slot: none when its kind is masked and it is DONE; owed unless masked. -/
def State.resultEntry (e : CurtailEntry) : Option CurtailEntry :=
  if s.masked .curtail = true ∧ e.stage = .done then none
  else some { e with resultOwed := e.resultOwed || !s.masked .curtail }

section
variable (slot : Nat) (e : CurtailEntry)

@[simp] theorem entryAt_recordResult (n : Nat) :
    (s.recordResult slot e).entryAt n = if n = slot then s.resultEntry e else s.entryAt n := by
  unfold State.recordResult State.resultEntry
  cases hm : s.masked .curtail
  · simp only [Bool.false_eq_true, false_and, if_false, Bool.not_false, Bool.or_true]
    exact entryAt_putEntry s slot _ n
  · by_cases hd : e.stage = .done
    · simp [hd]
    · simp [hd]

@[simp] theorem dueAt_recordResult (q : Nat) : (s.recordResult slot e).dueAt q = s.dueAt q := by
  unfold State.recordResult; split <;> try split
  all_goals rfl

@[simp] theorem curtailAt_recordResult (t : Nat) : (s.recordResult slot e).curtailAt t = s.curtailAt t := by
  unfold State.recordResult; split <;> try split
  all_goals rfl

/-- The owed list after a result. -/
theorem owed_recordResult : (s.recordResult slot e).curtail.owed =
    if s.masked .curtail = true then
      (if e.stage = .done then s.curtail.owed.filter (fun n => decide (n ≠ slot)) else s.curtail.owed)
    else if slot ∈ s.curtail.owed then s.curtail.owed else s.curtail.owed ++ [slot] := by
  unfold State.recordResult; split <;> try split
  all_goals rfl

/-- Only the slots and the owed list change. -/
theorem recordResult_curtail : (s.recordResult slot e).curtail = { s.curtail with
    slots := (s.recordResult slot e).curtail.slots, owed := (s.recordResult slot e).curtail.owed } := by
  unfold State.recordResult; split <;> try split
  all_goals rfl

theorem same_recordResult : SameOutside [.curtail] s (s.recordResult slot e) := by
  unfold State.recordResult
  split
  · split
    · exact same_removeEntry s slot
    · exact same_putEntry s slot e
  · exact (same_putEntry s slot _).trans (same_setCurtail _ _)

end

/-! ### Timeouts and losses (R134 to R136) -/

/-- The entry a timeout leaves. -/
def State.timedOutEntry (e : CurtailEntry) : CurtailEntry :=
  if e.attempts = 1 then { e with sent := false, remaining := 0 }
  else { e.ended .unconfirmed with resultOwed := e.resultOwed || !s.masked .curtail }

theorem resultEntry_ended (e : CurtailEntry) :
    s.resultEntry (e.ended .unconfirmed)
      = some { e.ended .unconfirmed with resultOwed := e.resultOwed || !s.masked .curtail } := by
  unfold State.resultEntry
  rw [if_neg (by simp [CurtailEntry.ended])]
  rfl

theorem entryAt_timeOut (slot : Nat) (e : CurtailEntry) (n : Nat) :
    (s.timeOut slot e).entryAt n = if n = slot then some (s.timedOutEntry e) else s.entryAt n := by
  unfold State.timeOut State.timedOutEntry
  split
  · exact entryAt_putEntry s slot _ n
  · rw [entryAt_recordResult, resultEntry_ended]

theorem same_timeOut (slot : Nat) (e : CurtailEntry) : SameOutside [.curtail] s (s.timeOut slot e) := by
  unfold State.timeOut
  split
  · exact (same_putEntry s slot _).trans (same_joinDue _ _ _)
  · exact same_recordResult s slot _

/-- R134: one entry after the advance has aged it. -/
def State.agedEntry (e : CurtailEntry) : CurtailEntry :=
  if e.pending && e.sent then
    (if e.remaining - 1 = 0 then s.timedOutEntry { e with remaining := e.remaining - 1 }
     else { e with remaining := e.remaining - 1 })
  else e

theorem entryAt_ageEntry (slot n : Nat) :
    (s.ageEntry slot).entryAt n = if n = slot then (s.entryAt n).map s.agedEntry else s.entryAt n := by
  unfold State.ageEntry
  cases he : s.entryAt slot with
  | none => by_cases h : n = slot <;> simp [h, he]
  | some e =>
    unfold State.agedEntry
    by_cases h : n = slot
    · subst h
      rw [if_pos rfl, he, Option.map_some]
      dsimp only
      by_cases hp : (e.pending && e.sent) = true
      · rw [if_pos hp, if_pos hp]
        by_cases hr : e.remaining - 1 = 0
        · rw [if_pos hr, if_pos hr, entryAt_timeOut, if_pos rfl]
        · rw [if_neg hr, if_neg hr, entryAt_putEntry, if_pos rfl]
      · rw [if_neg hp, if_neg hp, he]
    · rw [if_neg h]
      dsimp only
      by_cases hp : (e.pending && e.sent) = true
      · rw [if_pos hp]
        by_cases hr : e.remaining - 1 = 0
        · rw [if_pos hr, entryAt_timeOut, if_neg h]
        · rw [if_neg hr, entryAt_putEntry, if_neg h]
      · rw [if_neg hp]

theorem same_ageEntry (slot : Nat) : SameOutside [.curtail] s (s.ageEntry slot) := by
  unfold State.ageEntry
  split
  · split
    · dsimp only
      split
      · exact same_timeOut s slot _
      · exact same_putEntry s slot _
    · exact SameOutside.refl _ _
  · exact SameOutside.refl _ _

/-- The tenants' records and the counters outlive a timeout, an aging and a loss. -/
structure KeepsRecords (s t : State) : Prop where
  records : t.curtail.records = s.curtail.records
  tagCounter : t.curtail.tagCounter = s.curtail.tagCounter
  creation : t.curtail.creation = s.curtail.creation

theorem KeepsRecords.refl : KeepsRecords s s := ⟨rfl, rfl, rfl⟩

theorem KeepsRecords.trans {s t u : State} (h : KeepsRecords s t) (k : KeepsRecords t u) : KeepsRecords s u :=
  ⟨k.1.trans h.1, k.2.trans h.2, k.3.trans h.3⟩

theorem keeps_recordResult (slot : Nat) (e : CurtailEntry) : KeepsRecords s (s.recordResult slot e) := by
  have h := recordResult_curtail s slot e
  exact ⟨by rw [h], by rw [h], by rw [h]⟩

theorem keeps_timeOut (slot : Nat) (e : CurtailEntry) : KeepsRecords s (s.timeOut slot e) := by
  unfold State.timeOut
  split
  · exact ⟨rfl, rfl, rfl⟩
  · exact keeps_recordResult s slot _

theorem keeps_ageEntry (slot : Nat) : KeepsRecords s (s.ageEntry slot) := by
  unfold State.ageEntry
  split
  · split
    · dsimp only
      split
      · exact keeps_timeOut s slot _
      · exact ⟨rfl, rfl, rfl⟩
    · exact KeepsRecords.refl s
  · exact KeepsRecords.refl s

/-- One slot after another changed by `f`, each by its own share, when `f` does not depend on what the shares change. -/
theorem fold_entries {f : State → CurtailEntry → CurtailEntry} {g : State → Nat → State} (inv : State → State → Prop)
    (hrefl : ∀ s, inv s s) (htrans : ∀ s t u, inv s t → inv t u → inv s u) (hg : ∀ s n, inv s (g s n))
    (hf : ∀ s t, inv s t → f t = f s)
    (hone : ∀ s n m, (g s n).entryAt m = if m = n then (s.entryAt m).map (f s) else s.entryAt m) (k : Nat) :
    inv s ((List.range k).foldl g s)
      ∧ ∀ m, ((List.range k).foldl g s).entryAt m = if m < k then (s.entryAt m).map (f s) else s.entryAt m := by
  induction k with
  | zero => exact ⟨hrefl s, fun m => by simp⟩
  | succ k ih =>
    rw [List.range_succ, List.foldl_append]
    simp only [List.foldl_cons, List.foldl_nil]
    refine ⟨htrans _ _ _ ih.1 (hg _ k), fun m => ?_⟩
    rw [hone, ih.2, hf _ _ ih.1]
    by_cases h : m = k
    · subst h; simp
    · rw [if_neg h]
      by_cases hl : m < k
      · rw [if_pos hl, if_pos (by omega)]
      · rw [if_neg hl, if_neg (by omega)]

/-- What an aging or a loss of commands leaves as it was: all but the entries, the due lists and the owed list. -/
def SameButEntries (s t : State) : Prop := SameOutside [.curtail] s t ∧ KeepsRecords s t

theorem SameButEntries.settings {s t : State} (h : SameButEntries s t) : t.settings = s.settings :=
  h.1 .settings (by decide)

theorem agedEntry_congr {s t : State} (h : SameButEntries s t) : t.agedEntry = s.agedEntry := by
  have hm : t.masked .curtail = s.masked .curtail := by
    unfold State.masked State.setting; rw [h.settings]
  funext e
  simp only [State.agedEntry, State.timedOutEntry, hm]

/-- R134: the advance ages every sent pending entry. -/
theorem ageCommands_spec : SameButEntries s s.ageCommands
    ∧ ∀ m, s.ageCommands.entryAt m = if m < 64 then (s.entryAt m).map s.agedEntry else s.entryAt m :=
  fold_entries s SameButEntries (fun s => ⟨SameOutside.refl _ s, KeepsRecords.refl s⟩)
    (fun _ _ _ h k => ⟨h.1.trans k.1, h.2.trans k.2⟩) (fun s n => ⟨same_ageEntry s n, keeps_ageEntry s n⟩)
    (fun _ _ h => agedEntry_congr h) (fun s n m => entryAt_ageEntry s n m) 64

theorem entryAt_loseEntry (p slot n : Nat) :
    (State.loseEntry p s slot).entryAt n = if n = slot then (s.entryAt n).map (s.entryAfterLoss p) else s.entryAt n := by
  unfold State.loseEntry
  cases he : s.entryAt slot with
  | none => by_cases h : n = slot <;> simp [h, he]
  | some e =>
    unfold State.entryAfterLoss
    by_cases hp : (e.pending && decide (keyPort e.outlet = p)) = true
    · have hp' : e.pending = true ∧ keyPort e.outlet = p := by simpa using hp
      simp only [hp, if_true, entryAt_recordResult, entryAt_leaveDue]
      by_cases h : n = slot
      · subst h
        have hm : (s.leaveDue p n).masked .curtail = s.masked .curtail := rfl
        rw [if_pos rfl, if_pos rfl, resultEntry_ended, he, hm]
        simp only [Option.map_some, if_pos hp']
        rfl
      · simp [h]
    · have hp' : ¬ (e.pending = true ∧ keyPort e.outlet = p) := by simpa using hp
      simp only [if_neg hp]
      by_cases h : n = slot
      · subst h; simp [he, hp']
      · simp [h]

theorem same_loseEntry (p slot : Nat) : SameButEntries s (State.loseEntry p s slot) := by
  unfold State.loseEntry
  split
  · split
    · refine ⟨(same_leaveDue s p slot).trans (same_recordResult _ _ _), ?_⟩
      exact KeepsRecords.trans (t := s.leaveDue p slot) ⟨rfl, rfl, rfl⟩ (keeps_recordResult _ _ _)
    · exact ⟨SameOutside.refl _ s, KeepsRecords.refl s⟩
  · exact ⟨SameOutside.refl _ s, KeepsRecords.refl s⟩

theorem entryAfterLoss_congr {s t : State} (p : Nat) (h : SameButEntries s t) :
    t.entryAfterLoss p = s.entryAfterLoss p := by
  have hm : t.masked .curtail = s.masked .curtail := by
    unfold State.masked State.setting; rw [h.settings]
  funext e
  simp only [State.entryAfterLoss, hm]

/-- R136: a lost or disabled port's pending entries become UNCONFIRMED. -/
theorem losePending_spec (p : Nat) : SameButEntries s (s.losePending p)
    ∧ ∀ m, (s.losePending p).entryAt m = if m < 64 then (s.entryAt m).map (s.entryAfterLoss p) else s.entryAt m :=
  fold_entries s SameButEntries (fun s => ⟨SameOutside.refl _ s, KeepsRecords.refl s⟩)
    (fun _ _ _ h k => ⟨h.1.trans k.1, h.2.trans k.2⟩) (fun s n => same_loseEntry s p n)
    (fun _ _ h => entryAfterLoss_congr p h) (fun s n m => entryAt_loseEntry s p n m) 64

/-! ### Searches of the table -/

/-- A slot is listed exactly when it holds an entry that passes the test. -/
theorem mem_slotsWhere (f : CurtailEntry → Bool) (n : Nat) :
    n ∈ s.slotsWhere f ↔ n < 64 ∧ ∃ e, s.entryAt n = some e ∧ f e = true := by
  unfold State.slotsWhere
  rw [List.mem_filter, List.mem_range]
  cases s.entryAt n <;> simp

theorem holdsOutlet_iff (key : Nat) :
    s.holdsOutlet key = true ↔ ∃ n e, n < 64 ∧ s.entryAt n = some e ∧ e.outlet = key := by
  have h : s.holdsOutlet key = true ↔ ∃ n, n ∈ s.slotsWhere (fun e => decide (e.outlet = key)) := by
    unfold State.holdsOutlet State.slotOf
    cases s.slotsWhere (fun e => decide (e.outlet = key)) with
    | nil => simp
    | cons a l => simp only [List.head?_cons, Option.isSome_some, true_iff]; exact ⟨a, by simp⟩
  rw [h]
  constructor
  · rintro ⟨n, hn⟩
    obtain ⟨hlt, e, he, hk⟩ := (mem_slotsWhere s _ n).1 hn
    exact ⟨n, e, hlt, he, by simpa using hk⟩
  · rintro ⟨n, e, hlt, he, hk⟩
    exact ⟨n, (mem_slotsWhere s _ n).2 ⟨hlt, e, he, by simpa using hk⟩⟩

theorem tenantPending_iff (t : Nat) :
    s.tenantPending t = true ↔ ∃ n e, n < 64 ∧ s.entryAt n = some e ∧ e.pending = true ∧ e.tenant = t := by
  have h : s.tenantPending t = true ↔ ∃ n, n ∈ s.slotsWhere (fun e => e.pending && decide (e.tenant = t)) := by
    unfold State.tenantPending
    cases s.slotsWhere (fun e => e.pending && decide (e.tenant = t)) with
    | nil => simp
    | cons a l => simp only [List.isEmpty_cons, Bool.not_false, true_iff]; exact ⟨a, by simp⟩
  rw [h]
  constructor
  · rintro ⟨n, hn⟩
    obtain ⟨hlt, e, he, hk⟩ := (mem_slotsWhere s _ n).1 hn
    exact ⟨n, e, hlt, he, by simpa using hk⟩
  · rintro ⟨n, e, hlt, he, hk⟩
    exact ⟨n, (mem_slotsWhere s _ n).2 ⟨hlt, e, he, by simpa using hk⟩⟩

/-- A slot found for an outlet holds an entry of that outlet. -/
theorem slotOf_some {key n : Nat} (h : s.slotOf key = some n) :
    n < 64 ∧ ∃ e, s.entryAt n = some e ∧ e.outlet = key := by
  have hn : n ∈ s.slotsWhere (fun e => decide (e.outlet = key)) := List.mem_of_mem_head? h
  obtain ⟨hlt, e, he, hk⟩ := (mem_slotsWhere s _ n).1 hn
  exact ⟨hlt, e, he, by simpa using hk⟩

/-- R120: under the law of one entry per outlet, an entry is the one found for its outlet. -/
theorem slotOf_of_laws (hlaw : CurtailLaws s) {n : Nat} {e : CurtailEntry} (hn : n < 64) (he : s.entryAt n = some e) :
    s.slotOf e.outlet = some n := by
  have hsome : (s.slotOf e.outlet).isSome = true := (holdsOutlet_iff s e.outlet).2 ⟨n, e, hn, he, rfl⟩
  obtain ⟨m, hm⟩ := Option.isSome_iff_exists.1 hsome
  obtain ⟨hlt, f, hf, hk⟩ := slotOf_some s hm
  rw [hm, (hlaw m n f e hlt hn hf he).1 hk]

/-! ### Restoring (R125, R138, R139) -/

theorem entryAt_setOnPending (slot : Nat) (e : CurtailEntry) (n : Nat) : (s.setOnPending slot e).entryAt n =
    if n = slot then some { e with stage := .onPending, sent := false, remaining := 0, attempts := 0 }
    else s.entryAt n := entryAt_putEntry s slot _ n

theorem dueAt_setOnPending (slot : Nat) (e : CurtailEntry) (p : Nat) : (s.setOnPending slot e).dueAt p =
    if p = keyPort e.outlet then s.dueAt (keyPort e.outlet) ++ [slot] else s.dueAt p := dueAt_joinDue _ _ _ _

theorem same_setOnPending (slot : Nat) (e : CurtailEntry) : SameOutside [.curtail] s (s.setOnPending slot e) :=
  (same_putEntry s slot _).trans (same_joinDue _ _ _)

end Sys2Proof.Machine
end

