-- ==== Sys2Proof/Laws/Due.lean ====
section
/-! SUPPORT. What a timeout, a port loss and the ages of an advance make of the due lists and the owed list (R128, R134 to
R137). -/

namespace Sys2Proof.Machine

/-! ### The owed list -/

/-- R137: the owed list after the results in `results`; it stays while the kind is masked. -/
def owe (masked : Bool) (owed results : List Nat) : List Nat :=
  if masked then owed else owed ++ results.filter (fun n => decide (n ∉ owed))

@[simp] theorem owe_nil (m : Bool) (o : List Nat) : owe m o [] = o := by cases m <;> simp [owe]

/-- Results of distinct slots come one after another. -/
theorem owe_owe (m : Bool) (o xs ys : List Nat) (h : ∀ n ∈ ys, n ∉ xs) : owe m (owe m o xs) ys = owe m o (xs ++ ys) := by
  cases m
  · simp only [owe, Bool.false_eq_true, if_false, List.filter_append, List.append_assoc]
    refine congrArg _ (congrArg _ (List.filter_congr fun n hn => ?_))
    simp [h n hn]
  · rfl

variable (s : State)

theorem owedAfter_eq (results : List Nat) :
    s.owedAfter results = owe (s.masked .curtail) s.curtail.owed results := rfl

theorem owed_recordResult_unconfirmed (slot : Nat) (e : CurtailEntry) :
    (s.recordResult slot (e.ended .unconfirmed)).curtail.owed = owe (s.masked .curtail) s.curtail.owed [slot] := by
  rw [owed_recordResult]
  cases s.masked .curtail
  · by_cases h : slot ∈ s.curtail.owed <;> simp [owe, h]
  · simp [owe, CurtailEntry.ended]

theorem masked_congr {s t : State} (h : t.settings = s.settings) (k : NoticeKind) : t.masked k = s.masked k := by
  unfold State.masked State.setting; rw [h]

/-! ### A port's lost commands (R136) -/

/-- A filtered range grows by its last number. -/
theorem filter_range_succ (f : Nat → Bool) (k : Nat) :
    (List.range (k + 1)).filter f = (List.range k).filter f ++ (if f k then [k] else []) := by
  rw [List.range_succ, List.filter_append]
  cases h : f k <;> simp [h]

theorem dueAt_loseEntry (p slot q : Nat) (h : slot < 64) : (State.loseEntry p s slot).dueAt q =
    if q = p ∧ s.pendingOn p slot = true then (s.dueAt p).filter (fun n => decide (n ≠ slot)) else s.dueAt q := by
  unfold State.loseEntry State.pendingOn
  cases s.entryAt slot with
  | none => simp
  | some e =>
    by_cases hp : (e.pending && decide (keyPort e.outlet = p)) = true
    · simp only [hp, h]
      by_cases hq : q = p <;> simp [hq]
    · simp [hp]

theorem owed_loseEntry (p slot : Nat) (h : slot < 64) : (State.loseEntry p s slot).curtail.owed =
    owe (s.masked .curtail) s.curtail.owed (if s.pendingOn p slot then [slot] else []) := by
  unfold State.loseEntry State.pendingOn
  cases s.entryAt slot with
  | none => simp
  | some e =>
    by_cases hp : (e.pending && decide (keyPort e.outlet = p)) = true
    · simp only [hp, h, decide_true, Bool.and_self, if_true]
      exact owed_recordResult_unconfirmed _ slot e
    · simp [hp]

theorem loseEntries_lists (p k : Nat) (hk : k ≤ 64) :
    (∀ q, ((List.range k).foldl (State.loseEntry p) s).dueAt q =
        if q = p then (s.dueAt p).filter (fun n => !(decide (n < k) && s.pendingOn p n)) else s.dueAt q)
      ∧ ((List.range k).foldl (State.loseEntry p) s).curtail.owed =
        owe (s.masked .curtail) s.curtail.owed ((List.range k).filter (s.pendingOn p)) := by
  induction k with
  | zero =>
    refine ⟨fun q => ?_, by simp⟩
    by_cases hq : q = p <;> simp [hq]
  | succ k ih =>
    obtain ⟨ihd, iho⟩ := ih (by omega)
    obtain ⟨hsame, hent⟩ := fold_entries s SameButEntries (fun s => ⟨SameOutside.refl _ s, KeepsRecords.refl s⟩)
      (fun _ _ _ h k => ⟨h.1.trans k.1, h.2.trans k.2⟩) (fun s n => same_loseEntry s p n)
      (fun _ _ h => entryAfterLoss_congr p h) (fun s n m => entryAt_loseEntry s p n m) k
    have hp : ((List.range k).foldl (State.loseEntry p) s).pendingOn p k = s.pendingOn p k := by
      unfold State.pendingOn; rw [hent, if_neg (lt_irrefl k)]
    rw [List.range_succ, List.foldl_append, ← List.range_succ]
    simp only [List.foldl_cons, List.foldl_nil]
    refine ⟨fun q => ?_, ?_⟩
    · rw [dueAt_loseEntry _ _ _ _ (by omega), hp, ihd, ihd, if_pos rfl, List.filter_filter]
      by_cases hq : q = p
      · simp only [hq, true_and, if_true]
        cases hs : s.pendingOn p k
        · refine List.filter_congr fun n _ => ?_
          by_cases hn : n = k
          · simp [hn, hs]
          · have : (n < k + 1) = (n < k) := by rw [eq_iff_iff]; omega
            simp [this]
        · refine List.filter_congr fun n _ => ?_
          by_cases hn : n = k
          · simp [hn, hs]
          · have : (n < k + 1) = (n < k) := by rw [eq_iff_iff]; omega
            simp [this, hn]
      · simp [hq]
    · rw [owed_loseEntry _ _ _ (by omega), hp, iho, masked_congr hsame.settings, owe_owe, filter_range_succ]
      intro n hn hm
      have hlt : n < k := by simpa using (List.mem_filter.1 hm).1
      have : n = k := by split at hn <;> simp_all
      omega

/-- R136: a lost or disabled port's due list keeps no pending entry of the port, and the results join the owed list. -/
theorem losePending_lists (p : Nat) :
    (∀ q, (s.losePending p).dueAt q = if q = p then (s.dueAt p).filter (fun n => !s.pendingOn p n) else s.dueAt q)
      ∧ (s.losePending p).curtail.owed = s.owedAfter ((List.range 64).filter (s.pendingOn p)) := by
  obtain ⟨hd, ho⟩ := loseEntries_lists s p 64 (le_refl _)
  unfold State.losePending
  refine ⟨fun q => ?_, by rw [ho, owedAfter_eq]⟩
  have hlt : ∀ n, (decide (n < 64) && s.pendingOn p n) = s.pendingOn p n := by
    intro n; unfold State.pendingOn; by_cases h : n < 64 <;> simp [h]
  rw [hd]
  simp only [hlt]

/-! ### The ages of an advance (R134, R135) -/

/-- R134: the slot's command is retried, on port `p`. -/
def State.retriedOn (p n : Nat) : Bool := s.pendingOn p n && s.timesOut n && s.sentOnce n

/-- R134: the slot's command is given up. -/
def State.givenUp (n : Nat) : Bool := s.timesOut n && !s.sentOnce n

theorem dueAt_timeOut (slot : Nat) (e : CurtailEntry) (q : Nat) : (s.timeOut slot e).dueAt q =
    if q = keyPort e.outlet ∧ e.attempts = 1 then s.dueAt q ++ [slot] else s.dueAt q := by
  unfold State.timeOut
  by_cases h : e.attempts = 1
  · by_cases hq : q = keyPort e.outlet <;> simp [h, hq]
  · simp [h]

theorem owed_timeOut (slot : Nat) (e : CurtailEntry) : (s.timeOut slot e).curtail.owed =
    owe (s.masked .curtail) s.curtail.owed (if e.attempts = 1 then [] else [slot]) := by
  unfold State.timeOut
  by_cases h : e.attempts = 1
  · rw [if_pos h, if_pos h, owe_nil]; rfl
  · rw [if_neg h, if_neg h]; exact owed_recordResult_unconfirmed s slot e

theorem ageEntry_lists (slot : Nat) (h : slot < 64) :
    (∀ q, (s.ageEntry slot).dueAt q = s.dueAt q ++ (if s.retriedOn q slot then [slot] else []))
      ∧ (s.ageEntry slot).curtail.owed
        = owe (s.masked .curtail) s.curtail.owed (if s.givenUp slot then [slot] else []) := by
  unfold State.ageEntry State.retriedOn State.givenUp State.pendingOn State.timesOut State.sentOnce
  cases s.entryAt slot with
  | none => simp
  | some e =>
    simp only [h, decide_true, Bool.true_and]
    cases hp : (e.pending && e.sent)
    · simp
    · have hpe : e.pending = true := (by simpa using hp : e.pending = true ∧ e.sent = true).1
      simp only [if_true, hpe, Bool.true_and]
      by_cases hr : e.remaining ≤ 1
      · rw [if_pos (by omega)]
        refine ⟨fun q => ?_, ?_⟩
        · rw [dueAt_timeOut]
          by_cases hq : q = keyPort e.outlet <;> by_cases ha : e.attempts = 1 <;> simp [hq, ha, hr, Ne.symm]
        · rw [owed_timeOut]
          by_cases ha : e.attempts = 1 <;> simp [ha, hr]
      · rw [if_neg (by omega), putEntry_curtail]
        simp [hr]

theorem ageEntries_lists (k : Nat) (hk : k ≤ 64) :
    (∀ q, ((List.range k).foldl State.ageEntry s).dueAt q = s.dueAt q ++ (List.range k).filter (s.retriedOn q))
      ∧ ((List.range k).foldl State.ageEntry s).curtail.owed
        = owe (s.masked .curtail) s.curtail.owed ((List.range k).filter s.givenUp) := by
  induction k with
  | zero => simp
  | succ k ih =>
    obtain ⟨ihd, iho⟩ := ih (by omega)
    obtain ⟨hsame, hent⟩ := fold_entries s SameButEntries (fun s => ⟨SameOutside.refl _ s, KeepsRecords.refl s⟩)
      (fun _ _ _ h k => ⟨h.1.trans k.1, h.2.trans k.2⟩) (fun s n => ⟨same_ageEntry s n, keeps_ageEntry s n⟩)
      (fun _ _ h => agedEntry_congr h) (fun s n m => entryAt_ageEntry s n m) k
    have he : ((List.range k).foldl State.ageEntry s).entryAt k = s.entryAt k := by rw [hent, if_neg (lt_irrefl k)]
    rw [List.range_succ, List.foldl_append, ← List.range_succ]
    simp only [List.foldl_cons, List.foldl_nil]
    obtain ⟨hd, ho⟩ := ageEntry_lists ((List.range k).foldl State.ageEntry s) k (by omega)
    have hr : ∀ q, ((List.range k).foldl State.ageEntry s).retriedOn q k = s.retriedOn q k := by
      intro q; simp only [State.retriedOn, State.pendingOn, State.timesOut, State.sentOnce, he]
    have hg : ((List.range k).foldl State.ageEntry s).givenUp k = s.givenUp k := by
      simp only [State.givenUp, State.timesOut, State.sentOnce, he]
    refine ⟨fun q => ?_, ?_⟩
    · rw [hd, hr, ihd, filter_range_succ, List.append_assoc]
    · rw [ho, hg, iho, masked_congr hsame.settings, owe_owe, filter_range_succ]
      intro n hn hm
      have hlt : n < k := by simpa using (List.mem_filter.1 hm).1
      have : n = k := by split at hn <;> simp_all
      omega

/-- R134, R135: a retried command joins its port's due list, and a given-up one's result the owed list, in slot order. -/
theorem ageCommands_lists :
    (∀ q, s.ageCommands.dueAt q = s.dueAt q ++ (List.range 64).filter (s.retriedOn q))
      ∧ s.ageCommands.curtail.owed = s.owedAfter ((List.range 64).filter s.givenUp) := by
  obtain ⟨hd, ho⟩ := ageEntries_lists s 64 (le_refl _)
  unfold State.ageCommands
  exact ⟨hd, by rw [ho, owedAfter_eq]⟩

/-- R134: what is still pending on a port after the ages: all but the commands given up. -/
theorem ageCommands_pendingOn (p n : Nat) : s.ageCommands.pendingOn p n = (s.pendingOn p n && !s.givenUp n) := by
  unfold State.pendingOn State.givenUp State.timesOut State.sentOnce
  rw [(ageCommands_spec s).2]
  by_cases h : n < 64
  · simp only [h, decide_true, Bool.true_and, if_true]
    cases s.entryAt n with
    | none => rfl
    | some e =>
      simp only [Option.map_some, State.agedEntry, State.timedOutEntry]
      cases hp : (e.pending && e.sent)
      · simp
      · simp only [if_true, Bool.true_and]
        by_cases hr : e.remaining ≤ 1
        · rw [if_pos (by omega)]
          by_cases ha : e.attempts = 1
          · simp [ha, CurtailEntry.pending]
          · simp [ha, hr, CurtailEntry.pending, CurtailEntry.ended]
        · rw [if_neg (by omega)]
          simp [hr, CurtailEntry.pending]
  · simp [h]

end Sys2Proof.Machine
end

