-- ==== Sys2Proof/Laws/Advance.lean ====
section
/-! SUPPORT. What an advance does (R8), put together from its parts: the aged commands (R134), one port's share (R9, R18)
and the four ports in turn. -/

namespace Sys2Proof.Machine

theorem carries_iff (l : LinkState) : l.carries = true ↔ l = .up ∨ l = .degraded := by cases l <;> simp [LinkState.carries]

theorem goesDown_iff (q : Port) : q.goesDown = true ↔ (q.link = .up ∨ q.link = .degraded) ∧ q.silentPass = 2 := by
  simp [Port.goesDown]

theorem carries_eq (l : LinkState) : l.carries = (decide (l = .up) || decide (l = .degraded)) := by cases l <;> rfl

theorem advanced_isLost (q : Port) (n : Epoch) (h : q.link ≠ .disabled) : (q.advanced n).isLost = q.goesDown := by
  unfold Port.advanced Port.isLost Port.goesDown
  rw [← carries_eq]
  rw [if_neg h]
  have : (min 255 (q.silentPass + 1) = 3) = (q.silentPass = 2) := by rw [eq_iff_iff]; omega
  simp only [this]

section
variable (s : State) (n : Epoch) (p : Nat)

/-- R136: an entry after port `p` has had its share of the advance. -/
def State.afterSignal (e : CurtailEntry) : CurtailEntry := if (s.port p).goesDown = true then s.entryAfterLoss p e else e

theorem losePort_port (q : Nat) :
    (s.losePort p).port q = if q = p then { s.port p with link := .down } else s.port q := by
  have h : (s.losePort p).ports = (s.putPort p { s.port p with link := .down }).ports := by
    have hs : ∀ (t : State) (slot : Nat), (State.loseEntry p t slot).ports = t.ports := by
      intro t slot
      unfold State.loseEntry State.recordResult
      split
      · split
        · split <;> try split
          all_goals rfl
        · rfl
      · rfl
    have hf : ∀ (l : List Nat) (t : State), (l.foldl (State.loseEntry p) t).ports = t.ports := by
      intro l
      induction l with
      | nil => intro t; rfl
      | cons a l ih => intro t; rw [List.foldl_cons, ih, hs]
    exact hf _ _
  unfold State.port
  rw [h]
  exact port_putPort s p _ q

theorem signalPort_port (q : Nat) : (State.signalPort n s p).port q = if q = p then (s.port p).afterAdvance n else s.port q := by
  unfold State.signalPort
  by_cases hd : (s.port p).link = .disabled
  · simp only [hd, ne_eq, not_true_eq_false, false_and, if_false, port_putPort]
    simp [Port.advanced, Port.afterAdvance, hd]
  · simp only [ne_eq, hd, not_false_eq_true, true_and, advanced_isLost _ n hd]
    have hcond := goesDown_iff (s.port p)
    by_cases hl : (s.port p).goesDown = true
    · rw [if_pos hl, losePort_port, port_putPort_same]
      by_cases hq : q = p
      · rw [if_pos hq, if_pos hq]
        simp only [Port.advanced, Port.afterAdvance, if_neg hd, if_pos (hcond.1 hl)]
      · rw [if_neg hq, if_neg hq, port_putPort_other _ _ hq]
    · rw [if_neg hl, port_putPort]
      by_cases hq : q = p
      · rw [if_pos hq, if_pos hq]
        simp only [Port.advanced, Port.afterAdvance, if_neg hd, if_neg (fun k => hl (hcond.2 k))]
      · rw [if_neg hq, if_neg hq]

/-- What a port's share of an advance leaves: all but the ports and the curtailment table's entries. -/
def SameButPortsAndEntries (s t : State) : Prop := SameOutside [.links, .curtail] s t ∧ KeepsRecords s t

theorem SameButPortsAndEntries.settings {s t : State} (h : SameButPortsAndEntries s t) : t.settings = s.settings :=
  h.1 .settings (by decide)

theorem advanced_choice (q : Port) : (q.advanced n).choice = q.choice := by unfold Port.advanced; split <;> rfl

theorem same_signalPort : SameButPortsAndEntries s (State.signalPort n s p) := by
  have h1 : SameOutside [.links] s (s.putPort p ((s.port p).advanced n)) := same_putPort s p _ (advanced_choice n _)
  unfold State.signalPort
  dsimp only
  split
  · have hlose : ∀ u : State, SameButPortsAndEntries u (u.losePort p) := fun u => by
      have h2 := losePending_spec (u.putPort p { u.port p with link := .down }) p
      have h3 : SameOutside [.links] u (u.putPort p { u.port p with link := .down }) := same_putPort u p _ rfl
      have h4 : SameOutside [.links, .curtail] _ (u.losePort p) := SameOutside.mono h2.1.1 (by decide)
      have h5 : KeepsRecords u (u.putPort p { u.port p with link := .down }) := ⟨rfl, rfl, rfl⟩
      exact ⟨(h3.mono (by decide)).trans h4, h5.trans h2.1.2⟩
    have h5 := hlose (s.putPort p ((s.port p).advanced n))
    exact ⟨(h1.mono (by decide)).trans h5.1, ⟨h5.2.1, h5.2.2, h5.2.3⟩⟩
  · exact ⟨h1.mono (by decide), rfl, rfl, rfl⟩

theorem signalPort_entry (m : Nat) : (State.signalPort n s p).entryAt m =
    if m < 64 then (s.entryAt m).map (s.afterSignal p) else s.entryAt m := by
  unfold State.signalPort
  by_cases hd : (s.port p).link = .disabled
  · have hg : (s.port p).goesDown = false := by simp [Port.goesDown, hd]
    have hid : s.afterSignal p = id := by funext e; simp [State.afterSignal, hg]
    simp only [hd, ne_eq, not_true_eq_false, false_and, if_false, hid, Option.map_id, id]
    split <;> rfl
  · simp only [ne_eq, hd, not_false_eq_true, true_and, advanced_isLost _ n hd]
    by_cases hl : (s.port p).goesDown = true
    · have hfun : s.afterSignal p = s.entryAfterLoss p := by funext e; simp [State.afterSignal, hl]
      rw [if_pos hl, hfun]
      exact (losePending_spec _ p).2 m
    · have hid : s.afterSignal p = id := by funext e; simp [State.afterSignal, hl]
      rw [if_neg hl, hid, Option.map_id]
      split <;> rfl

/-- R136: the slot's command is lost when port `p` has its share of an advance. -/
def State.lostWith (p n : Nat) : Bool := (s.port p).goesDown && s.pendingOn p n

/-- R136: a port that goes DOWN takes its pending commands from the due list, and their results join the owed list. -/
theorem signalPort_lists :
    (∀ q, (State.signalPort n s p).dueAt q =
        if q = p then (s.dueAt p).filter (fun m => !s.lostWith p m) else s.dueAt q)
      ∧ (State.signalPort n s p).curtail.owed = s.owedAfter ((List.range 64).filter (s.lostWith p)) := by
  unfold State.signalPort State.lostWith
  have hkeep : (s.port p).goesDown = false → (∀ q, s.dueAt q =
        if q = p then (s.dueAt p).filter (fun m => !((s.port p).goesDown && s.pendingOn p m)) else s.dueAt q)
      ∧ s.curtail.owed = s.owedAfter ((List.range 64).filter (fun m => (s.port p).goesDown && s.pendingOn p m)) := by
    intro hg
    refine ⟨fun q => ?_, ?_⟩
    · by_cases hq : q = p <;> simp [hg, hq]
    · simp [hg, owedAfter_eq]
  by_cases hd : (s.port p).link = .disabled
  · simp only [hd, ne_eq, not_true_eq_false, false_and, if_false]
    exact hkeep (by simp [Port.goesDown, hd])
  · simp only [ne_eq, hd, not_false_eq_true, true_and, advanced_isLost _ n hd]
    by_cases hl : (s.port p).goesDown = true
    · rw [if_pos hl]
      simp only [hl, Bool.true_and]
      have hput : ∀ (u : State) (r : Port), (u.putPort p r).pendingOn p = u.pendingOn p := fun _ _ => rfl
      have howe : ∀ (u : State) (r : Port), (u.putPort p r).owedAfter = u.owedAfter := fun _ _ => rfl
      have hdue : ∀ (u : State) (r : Port) (q : Nat), (u.putPort p r).dueAt q = u.dueAt q := fun _ _ _ => rfl
      obtain ⟨h1, h2⟩ := losePending_lists ((s.putPort p ((s.port p).advanced n)).putPort p
        { (s.putPort p ((s.port p).advanced n)).port p with link := .down }) p
      simp only [hput, howe, hdue] at h1 h2
      unfold State.losePort
      refine ⟨h1, ?_⟩
      rw [h2]
    · rw [if_neg hl]
      exact hkeep (by simpa using hl)

/-- A port's share leaves what is pending on another port as it was. -/
theorem signalPort_pendingOn {q : Nat} (h : q ≠ p) (m : Nat) :
    (State.signalPort n s p).pendingOn q m = s.pendingOn q m := by
  unfold State.pendingOn
  rw [signalPort_entry]
  by_cases hm : m < 64
  · rw [if_pos hm]
    cases s.entryAt m with
    | none => rfl
    | some e =>
      simp only [Option.map_some, State.afterSignal, State.entryAfterLoss]
      by_cases hk : keyPort e.outlet = q
      · have : keyPort e.outlet ≠ p := by omega
        simp [this]
      · split <;> [split; skip] <;> simp [hk]
  · rw [if_neg hm]

end

/-- What ports in turn make of the due lists and the owed list. -/
theorem signalPorts_lists (n : Epoch) (ps : List Nat) (hps : ps.Nodup) (s : State) :
    (∀ q, (ps.foldl (State.signalPort n) s).dueAt q =
        if q ∈ ps then (s.dueAt q).filter (fun m => !s.lostWith q m) else s.dueAt q)
      ∧ (ps.foldl (State.signalPort n) s).curtail.owed
        = s.owedAfter (ps.flatMap (fun p => (List.range 64).filter (s.lostWith p))) := by
  induction ps generalizing s with
  | nil => simp [owedAfter_eq]
  | cons p ps ih =>
    obtain ⟨hp, hps⟩ := List.nodup_cons.1 hps
    obtain ⟨ihd, iho⟩ := ih hps (State.signalPort n s p)
    obtain ⟨hd, ho⟩ := signalPort_lists s n p
    have hlost : ∀ q ∈ ps, (State.signalPort n s p).lostWith q = s.lostWith q := by
      intro q hq
      have hne : q ≠ p := fun h => hp (h ▸ hq)
      funext m
      simp only [State.lostWith, signalPort_port, if_neg hne, signalPort_pendingOn s n p hne]
    rw [List.foldl_cons]
    refine ⟨fun q => ?_, ?_⟩
    · rw [ihd, hd]
      by_cases hq : q = p
      · subst hq; simp [hp]
      · by_cases hm : q ∈ ps
        · simp [hm, hq, hlost q hm]
        · simp [hm, hq]
    · have hflat : ps.flatMap (fun q => (List.range 64).filter ((State.signalPort n s p).lostWith q))
          = ps.flatMap (fun q => (List.range 64).filter (s.lostWith q)) := by
        simp only [List.flatMap_def]
        exact congrArg _ (List.map_congr_left fun q hq => by rw [hlost q hq])
      rw [iho, owedAfter_eq, hflat, ho, owedAfter_eq, owedAfter_eq,
        masked_congr (same_signalPort s n p).settings, owe_owe, List.flatMap_cons]
      intro m hm hmp
      obtain ⟨q, hq, hmq⟩ := List.mem_flatMap.1 hm
      have h1 := (List.mem_filter.1 hmq).2
      have h2 := (List.mem_filter.1 hmp).2
      simp only [State.lostWith, State.pendingOn, Bool.and_eq_true] at h1 h2
      cases he : s.entryAt m with
      | none => simp [he] at h1
      | some e =>
        simp only [he, Bool.and_eq_true, decide_eq_true_eq] at h1 h2
        exact hp (h2.2.2.2 ▸ h1.2.2.2 ▸ hq)

/-- The four ports of an advance in turn: each has its share, and an entry loses its command with its port. -/
theorem signalPorts_spec (s : State) (n : Epoch) :
    let t := [0, 1, 2, 3].foldl (State.signalPort n) s
    (∀ q, t.port q = if q < 4 then (s.port q).afterAdvance n else s.port q)
      ∧ (∀ m, t.entryAt m = if m < 64 then (s.entryAt m).map (fun e =>
          if keyPort e.outlet < 4 ∧ (s.port (keyPort e.outlet)).goesDown = true then s.entryAfterLoss (keyPort e.outlet) e
          else e) else s.entryAt m)
      ∧ SameButPortsAndEntries s t := by
  have hports : ∀ (t : State) (k q : Nat), k ≠ q → (State.signalPort n t k).port q = t.port q := by
    intro t k q h; rw [signalPort_port, if_neg (Ne.symm h)]
  have hloss : ∀ (t : State) (k : Nat), SameButPortsAndEntries s t → t.entryAfterLoss k = s.entryAfterLoss k := by
    intro t k h
    have hm : t.masked .curtail = s.masked .curtail := by unfold State.masked State.setting; rw [h.settings]
    funext e; simp only [State.entryAfterLoss, hm]
  have htr : ∀ {a b c : State}, SameButPortsAndEntries a b → SameButPortsAndEntries b c → SameButPortsAndEntries a c :=
    fun h k => ⟨h.1.trans k.1, h.2.trans k.2⟩
  have h0 := same_signalPort s n 0
  have h1 := htr h0 (same_signalPort _ n 1)
  have h2 := htr h1 (same_signalPort _ n 2)
  have h3 := htr h2 (same_signalPort _ n 3)
  simp only [List.foldl_cons, List.foldl_nil]
  refine ⟨fun q => ?_, fun m => ?_, h3⟩
  · simp only [signalPort_port]
    rcases lt_or_ge q 4 with h | h
    · interval_cases q <;> simp
    · rw [if_neg (by omega), if_neg (by omega), if_neg (by omega), if_neg (by omega), if_neg (by omega)]
  · simp only [signalPort_entry]
    by_cases hm : m < 64
    · simp only [if_pos hm, Option.map_map]
      congr 1
      funext e
      have ha : ∀ (t : State) (k : Nat) (e : CurtailEntry), t.port k = s.port k → SameButPortsAndEntries s t →
          t.afterSignal k e = if (s.port k).goesDown = true then s.entryAfterLoss k e else e := by
        intro t k e hp ht; simp only [State.afterSignal, hp, hloss t k ht]
      have hout : ∀ k (e : CurtailEntry), (s.entryAfterLoss k e).outlet = e.outlet := by
        intro k e; simp only [State.entryAfterLoss]; split <;> rfl
      have hskip : ∀ k (e : CurtailEntry), keyPort e.outlet ≠ k → s.entryAfterLoss k e = e := by
        intro k e hk; simp only [State.entryAfterLoss]; rw [if_neg (fun h => hk h.2)]
      have hstep : ∀ k (e : CurtailEntry), (if (s.port k).goesDown = true then s.entryAfterLoss k e else e) =
          if keyPort e.outlet = k ∧ (s.port k).goesDown = true then s.entryAfterLoss k e else e := by
        intro k e
        by_cases hk : keyPort e.outlet = k
        · simp [hk]
        · rw [hskip k e hk, ite_self, ite_self]
      simp only [Function.comp_apply]
      rw [ha s 0 e rfl ⟨SameOutside.refl _ s, KeepsRecords.refl s⟩,
        ha _ 1 _ (hports s 0 1 (by decide)) h0,
        ha _ 2 _ ((hports _ 1 2 (by decide)).trans (hports s 0 2 (by decide))) h1,
        ha _ 3 _ ((hports _ 2 3 (by decide)).trans ((hports _ 1 3 (by decide)).trans (hports s 0 3 (by decide)))) h2]
      simp only [hstep]
      rcases lt_or_ge (keyPort e.outlet) 4 with h | h
      · interval_cases hk : keyPort e.outlet <;> simp [hk] <;> split <;> simp_all
      · have hne : ∀ k, k < 4 → ¬ (keyPort e.outlet = k) := fun k hk => by omega
        simp [hne 0, hne 1, hne 2, hne 3, Nat.not_lt.2 h]
    · simp only [if_neg hm]

/-- R8: the advance, whole. -/
theorem advance_spec (s : State) (n : Epoch) : Advanced s (s.advance n) n := by
  let point : PassPoint := .position 0
  let timed := ((s.setTimer { s.timer with epoch := n, refTime := s.now, pass := some { epoch := s.timer.epoch - 1, point := point } }).setClosing s.filling).setFilling
    AccSet.cleared
  have hadv : s.advance n = [0, 1, 2, 3].foldl (State.signalPort n) timed.ageCommands := by unfold State.advance; rfl
  have hage := ageCommands_spec timed
  have hsig := signalPorts_spec timed.ageCommands n
  rw [← hadv] at hsig
  obtain ⟨hport, hentry, hsame, hrec⟩ := hsig
  have hageOut : SameOutside [.links, .curtail] timed timed.ageCommands := hage.1.1.mono (by decide)
  have hall := hageOut.trans hsame
  have hports : ∀ p, timed.ageCommands.port p = s.port p := by
    intro p
    have hc : (timed.ageCommands.port p).core = (s.port p).core := hage.1.1 .links (by decide) p
    have hch : (timed.ageCommands.port p).choice = (s.port p).choice := hage.1.1 .downChoice (by decide) p
    have key : ∀ a b : Port, a.core = b.core → a.choice = b.choice → a = b := by
      rintro ⟨⟩ ⟨⟩ h1 h2; simp_all [Port.core]
    exact key _ _ hc hch
  have hagel := ageCommands_lists timed
  have hlists := signalPorts_lists n [0, 1, 2, 3] (by decide) timed.ageCommands
  have hlost : ∀ q m, timed.ageCommands.lostWith q m = s.lostAtAdvance q m := by
    intro q m
    rw [State.lostWith, hports, ageCommands_pendingOn, ← Bool.and_assoc]
    rfl
  have hlostf : ∀ q, timed.ageCommands.lostWith q = s.lostAtAdvance q := fun q => funext (hlost q)
  refine ⟨hall .timer (by decide), hall .closing (by decide), hall .filling (by decide), fun p hp => ?_, fun p hp => ?_,
    fun slot hslot => ?_, hrec.1.trans hage.1.2.1, hrec.2.trans hage.1.2.2, hrec.3.trans hage.1.2.3, fun q => ?_, ?_, ?_⟩
  · rw [hport, if_pos hp, hports]
  · rw [hport, if_neg (by omega), hports]
  · have hmask : timed.ageCommands.masked .curtail = s.masked .curtail := by
      have : timed.ageCommands.settings = s.settings := hage.1.1 .settings (by decide)
      unfold State.masked State.setting; rw [this]
    rw [hentry, if_pos hslot, hage.2, if_pos hslot, Option.map_map]
    refine congrArg (fun f => (s.entryAt slot).map f) (funext fun e => ?_)
    simp only [Function.comp_apply, hports]
    have hgd := goesDown_iff
    have hout : (timed.agedEntry e).outlet = e.outlet := by
      simp only [State.agedEntry, State.timedOutEntry]; split <;> [(split <;> [split; skip]); skip] <;> rfl
    have htmask : timed.masked .curtail = s.masked .curtail := rfl
    have haged : timed.agedEntry e =
        (let timedOut := e.pending && e.sent && decide (e.remaining ≤ 1)
         if timedOut then
          (if e.attempts = 1 then { e with sent := false, remaining := 0 }
           else { e with stage := .unconfirmed, sent := false, remaining := 0,
                         resultOwed := e.resultOwed || !s.masked .curtail })
         else if e.pending && e.sent then { e with remaining := e.remaining - 1 } else e) := by
      simp only [State.agedEntry, State.timedOutEntry, htmask]
      cases hps : (e.pending && e.sent)
      · simp
      · simp only [Bool.true_and, if_true]
        by_cases hr : e.remaining ≤ 1
        · rw [if_pos (by omega)]
          simp only [hr, decide_true, if_true]
          rfl
        · rw [if_neg (by omega)]
          simp only [hr, decide_false, Bool.false_eq_true, if_false]
    have howed : ((timed.agedEntry e).resultOwed || !s.masked .curtail) = (e.resultOwed || !s.masked .curtail) := by
      simp only [State.agedEntry, State.timedOutEntry, htmask]
      split <;> [(split <;> [split; skip]); skip] <;> simp
    unfold State.entryAfterAdvance
    dsimp only at haged ⊢
    rw [← haged]
    simp only [hout, State.entryAfterLoss, hmask]
    by_cases hk : keyPort e.outlet < 4 ∧ (s.port (keyPort e.outlet)).goesDown = true
    · rw [if_pos hk]
      have hk' := (hgd _).1 hk.2
      by_cases hp : (timed.agedEntry e).pending = true
      · rw [if_pos ⟨hp, trivial⟩, if_pos ⟨hp, hk.1, hk'⟩, howed]
      · rw [if_neg (fun h => hp h.1), if_neg (fun h => hp h.1)]
    · rw [if_neg hk, if_neg (fun h => hk ⟨h.2.1, (hgd _).2 h.2.2⟩)]
  · rw [hadv, hlists.1, hagel.1]
    unfold State.dueAfterAdvance
    by_cases hq : q < 4
    · rw [if_pos hq, if_pos (by simp; omega)]
      exact List.filter_congr fun m _ => by rw [hlost]
    · rw [if_neg hq, if_neg (by simp; omega)]
      rfl
  · rw [hadv, hlists.2, owedAfter_eq, hagel.2, owedAfter_eq, owedAfter_eq, masked_congr hage.1.settings, owe_owe]
    · simp only [hlostf]
      rfl
    · intro m hm hmg
      obtain ⟨q, -, hmq⟩ := List.mem_flatMap.1 hm
      have h1 := (List.mem_filter.1 hmq).2
      have h2 : s.givenUp m = true := (List.mem_filter.1 hmg).2
      rw [hlost] at h1
      rw [State.lostAtAdvance, show (s.timesOut m && !s.sentOnce m) = true from h2] at h1
      simp at h1
  · have hbase : SameOutside [.timer, .closing, .filling] s timed :=
      ((SameOutside.mono (same_setTimer s _) (by decide)).trans (SameOutside.mono (same_setClosing _ _) (by decide))).trans
        (SameOutside.mono (same_setFilling _ _) (by decide))
    exact hbase.comp hall (by decide) (by decide)

end Sys2Proof.Machine
end

