-- ==== Sys2Proof/Laws/Pass.lean ====
section
/-! SUPPORT. What the operations on the accumulator sets, the resolution of a key, the restoring mode, the pass completion and
a port's disable do, each said once. -/

namespace Sys2Proof.Machine

/-! ### Accumulator sets (R58, R61, R65, R71) -/

section
variable (a : AccSet)

/-- R61: a contribution adds to one sum, up to 16 777 215 W. -/
theorem sum_charge (r : Resolution) (v : Nat) (f : Feed) (x : Nat) :
    (a.charge r v).sum f x = if f = r.feed ∧ x = r.tenant then wattAdd (a.sum f x) v else a.sum f x := by
  have hw : ∀ (u : Table Nat), Table.read 0 (Table.write 0 u r.tenant (wattAdd (Table.read 0 u r.tenant) v)) x =
      if x = r.tenant then wattAdd (Table.read 0 u x) v else Table.read 0 u x := by
    intro u
    rw [Table.read_write]
    split <;> simp_all
  cases hf : r.feed <;> cases f <;> cases hl : r.outletLimit <;>
    simp only [AccSet.charge, AccSet.sum, hf, hl, reduceCtorEq, false_and, true_and, if_false] <;>
    first | rfl | exact hw _ | (split <;> first | rfl | exact hw _)

/-- R61: a contribution above its outlet limit counts once. -/
theorem over_charge (r : Resolution) (v x : Nat) : (a.charge r v).over x =
    if x = r.tenant then a.over x + (match r.outletLimit with | some limit => if limit < v then 1 else 0 | none => 0)
    else a.over x := by
  have hsum : ∀ b : AccSet, b.outletOver = a.outletOver → (match r.outletLimit with
      | some limit => if limit < v then { b with outletOver := Table.write 0 a.outletOver r.tenant (a.over r.tenant + 1) } else b
      | none => b).over x = if x = r.tenant then a.over x + (match r.outletLimit with
        | some limit => if limit < v then 1 else 0 | none => 0) else a.over x := by
    intro b hb
    have hbx : b.over x = a.over x := by simp only [AccSet.over, hb]
    cases hl : r.outletLimit with
    | none => simp [hbx]
    | some limit =>
      dsimp only
      by_cases hv : limit < v
      · rw [if_pos hv, if_pos hv]
        simp only [AccSet.over, Table.read_write]
        split <;> simp_all
      · rw [if_neg hv, if_neg hv, hbx]; simp
  unfold AccSet.charge
  apply hsum
  cases r.feed <;> rfl

/-- A contribution leaves every flag. -/
theorem charge_flags (r : Resolution) (v : Nat) : (a.charge r v).incomplete = a.incomplete
    ∧ (a.charge r v).outletReported = a.outletReported ∧ (a.charge r v).pduReported = a.pduReported := by
  unfold AccSet.charge
  cases r.feed <;> cases r.outletLimit <;> dsimp only <;> first | exact ⟨rfl, rfl, rfl⟩ | (split <;> exact ⟨rfl, rfl, rfl⟩)

@[simp] theorem sum_markOutlet (key : Nat) (f : Feed) (x : Nat) : (a.markOutlet key).sum f x = a.sum f x := by cases f <;> rfl
@[simp] theorem over_markOutlet (key x : Nat) : (a.markOutlet key).over x = a.over x := rfl
@[simp] theorem isIncomplete_markOutlet (key x : Nat) : (a.markOutlet key).isIncomplete x = a.isIncomplete x := rfl
@[simp] theorem pduFlag_markOutlet (key i : Nat) : (a.markOutlet key).pduFlag i = a.pduFlag i := rfl
theorem outletFlag_markOutlet (key k : Nat) : (a.markOutlet key).outletFlag k = if k = key then true else a.outletFlag k :=
  Table.read_write _ _ _ _ _

@[simp] theorem sum_markPdu (i : Nat) (f : Feed) (x : Nat) : (a.markPdu i).sum f x = a.sum f x := by cases f <;> rfl
@[simp] theorem over_markPdu (i x : Nat) : (a.markPdu i).over x = a.over x := rfl
@[simp] theorem isIncomplete_markPdu (i x : Nat) : (a.markPdu i).isIncomplete x = a.isIncomplete x := rfl
@[simp] theorem outletFlag_markPdu (i k : Nat) : (a.markPdu i).outletFlag k = a.outletFlag k := rfl
theorem pduFlag_markPdu (i j : Nat) : (a.markPdu i).pduFlag j = if j = i then true else a.pduFlag j :=
  Table.read_write _ _ _ _ _

@[simp] theorem sum_markIncomplete (t : Nat) (f : Feed) (x : Nat) : (a.markIncomplete t).sum f x = a.sum f x := by
  cases f <;> rfl
@[simp] theorem over_markIncomplete (t x : Nat) : (a.markIncomplete t).over x = a.over x := rfl
@[simp] theorem outletFlag_markIncomplete (t k : Nat) : (a.markIncomplete t).outletFlag k = a.outletFlag k := rfl
@[simp] theorem pduFlag_markIncomplete (t i : Nat) : (a.markIncomplete t).pduFlag i = a.pduFlag i := rfl
theorem isIncomplete_markIncomplete (t x : Nat) :
    (a.markIncomplete t).isIncomplete x = if x = t then true else a.isIncomplete x := Table.read_write _ _ _ _ _

/-- R71: the reported flags of the port clear. -/
theorem outletFlag_clearPort (p key : Nat) :
    (a.clearPort p).outletFlag key = if key / 1024 = p then false else a.outletFlag key := by
  unfold AccSet.clearPort AccSet.outletFlag
  rw [Table.read_drop]
  by_cases h : key / 1024 = p <;> simp [keyPort, h]

theorem pduFlag_clearPort (p i : Nat) : (a.clearPort p).pduFlag i = if i / 16 = p then false else a.pduFlag i := by
  unfold AccSet.clearPort AccSet.pduFlag
  rw [Table.read_drop]
  by_cases h : i / 16 = p <;> simp [h]

/-- R71: the sums, counts and incomplete flags stay. -/
theorem clearPort_sums (p : Nat) : a.clearPort p = { a with
    outletReported := (a.clearPort p).outletReported, pduReported := (a.clearPort p).pduReported } := rfl

theorem canonical_charge (r : Resolution) (v : Nat) (h : a.canonical) : (a.charge r v).canonical := by
  obtain ⟨h1, h2, h3, h4, h5, h6⟩ := h
  have hw : ∀ b : AccSet, b.canonical → ({ b with outletOver := Table.write 0 a.outletOver r.tenant (a.over r.tenant + 1) } : AccSet).canonical :=
    fun b k => ⟨k.1, k.2.1, Table.wf_write _ _ _ _ h3, k.2.2.2⟩
  have hb : ∀ b : AccSet, b.canonical → (match r.outletLimit with
      | some limit => if limit < v then { b with outletOver := Table.write 0 a.outletOver r.tenant (a.over r.tenant + 1) } else b
      | none => b).canonical := by
    intro b k
    split
    · split
      · exact hw b k
      · exact k
    · exact k
  unfold AccSet.charge
  apply hb
  cases r.feed
  · exact ⟨Table.wf_write _ _ _ _ h1, h2, h3, h4, h5, h6⟩
  · exact ⟨h1, Table.wf_write _ _ _ _ h2, h3, h4, h5, h6⟩

theorem canonical_cleared : AccSet.cleared.canonical := ⟨rfl, rfl, rfl, rfl, rfl, rfl⟩

theorem canonical_markOutlet (key : Nat) (h : a.canonical) : (a.markOutlet key).canonical :=
  ⟨h.1, h.2.1, h.2.2.1, h.2.2.2.1, Table.wf_write _ _ _ _ h.2.2.2.2.1, h.2.2.2.2.2⟩

theorem canonical_markPdu (i : Nat) (h : a.canonical) : (a.markPdu i).canonical :=
  ⟨h.1, h.2.1, h.2.2.1, h.2.2.2.1, h.2.2.2.2.1, Table.wf_write _ _ _ _ h.2.2.2.2.2⟩

theorem canonical_markIncomplete (t : Nat) (h : a.canonical) : (a.markIncomplete t).canonical :=
  ⟨h.1, h.2.1, h.2.2.1, Table.wf_write _ _ _ _ h.2.2.2.1, h.2.2.2.2⟩

theorem canonical_clearPort (p : Nat) (h : a.canonical) : (a.clearPort p).canonical :=
  ⟨h.1, h.2.1, h.2.2.1, h.2.2.2.1, Table.wf_drop false (fun key => decide (keyPort key = p)) _ h.2.2.2.2.1,
    Table.wf_drop false (fun i => decide (i / 16 = p)) _ h.2.2.2.2.2⟩

end

/-! ### Resolution (R41, R42, R44) -/

/-- R41: a key matches a rule when it agrees in every digit the mask selects. -/
theorem keyMatches_iff (r : Rule) (key : Nat) :
    keyMatches r key = true ↔ ∀ i, r.mask.testBit i = true → key.testBit i = r.compareKey.testBit i := by
  unfold keyMatches
  rw [decide_eq_true_iff]
  constructor
  · intro h i hi
    have := congrArg (fun n => n.testBit i) h
    simpa [Nat.testBit_and, hi] using this
  · intro h
    apply Nat.eq_of_testBit_eq
    intro i
    rw [Nat.testBit_and, Nat.testBit_and]
    cases hi : r.mask.testBit i
    · simp
    · rw [h i hi]

section
variable (s : State)

/-- R42: the deciding rule is the lowest-numbered one that matches. -/
theorem decidingRule_some (key n : Nat) : s.decidingRule key = some n
    ↔ n < 16 ∧ s.ruleMatches key n = true ∧ ∀ m, m < n → s.ruleMatches key m = false := by
  unfold State.decidingRule
  rw [List.find?_range_eq_some]
  simp only [List.mem_range, Bool.not_eq_true']
  tauto

theorem decidingRule_none (key : Nat) : s.decidingRule key = none ↔ ∀ n, n < 16 → s.ruleMatches key n = false := by
  unfold State.decidingRule
  simp

/-! ### Restoring (R125, R139) -/

/-- R125, R139: the tried flags of the tenant's entries clear, and nothing else changes. -/
theorem clearTried_spec (t : Nat) : (∀ n, (s.clearTried t).entryAt n = if n < 64 then
      (s.entryAt n).map (fun e => if e.tenant = t then { e with tried := false } else e) else s.entryAt n)
    ∧ (s.clearTried t).curtail = { s.curtail with slots := (s.clearTried t).curtail.slots }
    ∧ SameOutside [.curtail] s (s.clearTried t) := by
  let g : State → Nat → State := fun s slot => match s.entryAt slot with
    | some e => s.putEntry slot { e with tried := false }
    | none => s
  have hstep : ∀ (u : State) (k n : Nat), (g u k).entryAt n =
      if n = k then (u.entryAt n).map (fun e => { e with tried := false }) else u.entryAt n := by
    intro u k n
    show (match u.entryAt k with | some e => u.putEntry k { e with tried := false } | none => u).entryAt n = _
    cases hu : u.entryAt k with
    | none => by_cases h : n = k <;> simp [h, hu]
    | some e =>
      dsimp only
      rw [entryAt_putEntry]
      by_cases h : n = k <;> simp [h, hu]
  have hg : ∀ (u : State) (k : Nat), (g u k).curtail = { u.curtail with slots := (g u k).curtail.slots }
      ∧ SameOutside [.curtail] u (g u k) := by
    intro u k
    show (match u.entryAt k with | some e => u.putEntry k { e with tried := false } | none => u).curtail
        = { u.curtail with slots := (match u.entryAt k with | some e => u.putEntry k { e with tried := false } | none => u).curtail.slots }
      ∧ SameOutside [.curtail] u (match u.entryAt k with | some e => u.putEntry k { e with tried := false } | none => u)
    cases u.entryAt k with
    | none => exact ⟨rfl, SameOutside.refl _ _⟩
    | some e => exact ⟨rfl, same_putEntry u k _⟩
  have hfold : ∀ (l : List Nat) (u : State), (∀ n, (l.foldl g u).entryAt n =
        if n ∈ l then (u.entryAt n).map (fun e => { e with tried := false }) else u.entryAt n)
      ∧ (l.foldl g u).curtail = { u.curtail with slots := (l.foldl g u).curtail.slots }
      ∧ SameOutside [.curtail] u (l.foldl g u) := by
    intro l
    induction l with
    | nil => intro u; exact ⟨fun n => by simp, rfl, SameOutside.refl _ u⟩
    | cons k l ih =>
      intro u
      obtain ⟨h1, h2, h3⟩ := ih (g u k)
      refine ⟨fun n => ?_, ?_, (hg u k).2.trans h3⟩
      · rw [List.foldl_cons, h1, hstep]
        by_cases hk : n = k
        · subst hk
          by_cases hl : n ∈ l
          · simp [hl, Option.map_map, Function.comp_def]
          · simp [hl]
        · simp [hk]
      · rw [List.foldl_cons, h2, (hg u k).1]
  obtain ⟨h1, h2, h3⟩ := hfold (s.slotsWhere (fun e => decide (e.tenant = t))) s
  refine ⟨fun n => ?_, h2, h3⟩
  have h1n := h1 n
  show (List.foldl g s _).entryAt n = _
  rw [h1n]
  by_cases hm : n ∈ s.slotsWhere (fun e => decide (e.tenant = t))
  · obtain ⟨hlt, e, he, ht⟩ := (mem_slotsWhere s _ n).1 hm
    rw [if_pos hm, if_pos hlt, he, Option.map_some, Option.map_some, if_pos (by simpa using ht)]
  · rw [if_neg hm]
    by_cases hlt : n < 64
    · rw [if_pos hlt]
      cases he : s.entryAt n with
      | none => rfl
      | some e =>
        have : ¬ e.tenant = t := fun h => hm ((mem_slotsWhere s _ n).2 ⟨hlt, e, he, by simpa using h⟩)
        rw [Option.map_some, if_neg this]
    · rw [if_neg hlt]

/-- R125, R139: restoring ends with the tried flags. -/
theorem endRestoring_spec (t : Nat) : (∀ n, (s.endRestoring t).entryAt n = if n < 64 then
      (s.entryAt n).map (fun e => if e.tenant = t then { e with tried := false } else e) else s.entryAt n)
    ∧ (∀ x, (s.endRestoring t).curtailAt x = if x = t then { s.curtailAt t with restoring := .none } else s.curtailAt x)
    ∧ (s.endRestoring t).curtail = { s.curtail with
        slots := (s.endRestoring t).curtail.slots, records := (s.endRestoring t).curtail.records }
    ∧ SameOutside [.curtail] s (s.endRestoring t) := by
  obtain ⟨h1, h2, h3⟩ := clearTried_spec (s.putCurtail t { s.curtailAt t with restoring := .none }) t
  have hrec : (s.endRestoring t).curtail.records
      = Table.write TenantCurtail.clear s.curtail.records t { s.curtailAt t with restoring := .none } := by
    show (State.clearTried _ t).curtail.records = _
    rw [h2]; rfl
  refine ⟨h1, fun x => ?_, ?_, (same_putCurtail s t _).trans h3⟩
  · show Table.read _ (s.endRestoring t).curtail.records x = _
    rw [hrec, Table.read_write]; rfl
  · have h4 : (s.endRestoring t).curtail = { (s.putCurtail t { s.curtailAt t with restoring := .none }).curtail with
        slots := (s.endRestoring t).curtail.slots } := h2
    rw [h4]
    rfl

/-! ### The place of the pass (R64) -/

/-- R64: the sweep handles outlets below 48, not reported, of an entry that is not ABSENT, the lowest first. -/
theorem nextUnreported_some {i o x : Nat} : s.nextUnreported i o = some x ↔
    (s.presenceAt i).state ≠ .absent ∧ o ≤ x ∧ x < 48 ∧ s.closing.outletFlag (i * 64 + x) = false
      ∧ ∀ y, o ≤ y → y < x → s.closing.outletFlag (i * 64 + y) = true := by
  unfold State.nextUnreported
  by_cases h : (s.presenceAt i).state = .absent
  · simp [h]
  · rw [if_neg h, List.find?_range_eq_some]
    simp only [Bool.and_eq_true, decide_eq_true_eq, Bool.not_eq_true', Bool.not_and, Bool.or_eq_true, decide_eq_false_iff_not,
      List.mem_range, Bool.not_not]
    constructor
    · rintro ⟨⟨ho, hf⟩, hx, hb⟩
      exact ⟨h, ho, hx, hf, fun y hy hyx => by simpa [hy] using hb y hyx⟩
    · rintro ⟨-, ho, hx, hf, hb⟩
      refine ⟨⟨ho, hf⟩, hx, fun y hyx => ?_⟩
      by_cases hy : o ≤ y
      · simp [hb y hy hyx]
      · simp [hy]

/-- R64: the sweep leaves the entry when it is ABSENT or every outlet from its place on is reported. -/
theorem nextUnreported_none {i o : Nat} : s.nextUnreported i o = none ↔
    (s.presenceAt i).state = .absent ∨ ∀ y, o ≤ y → y < 48 → s.closing.outletFlag (i * 64 + y) = true := by
  unfold State.nextUnreported
  by_cases h : (s.presenceAt i).state = .absent
  · simp [h]
  · rw [if_neg h, List.find?_eq_none]
    simp only [List.mem_range, Bool.and_eq_true, decide_eq_true_eq, Bool.not_eq_true', not_and, Bool.not_eq_false, h, false_or]
    exact ⟨fun k y hy hl => k y hl hy, fun k y hl hy => k y hy hl⟩

/-! ### The pass completion (R10, R11, R19) -/

/-- R11, R19: the ports and the timer at an interval close. -/
theorem handClose_spec : s.handClose.timer = { s.timer with
      tickCount := 0, intervalNumber := s.timer.intervalNumber + 1, handedClose := some (s.timer.intervalNumber + 1) }
    ∧ (∀ p, s.handClose.port p = if p < 4 then (s.port p).closed s.errorThreshold else s.port p)
    ∧ SameOutside [.timer, .links] s s.handClose := by
  have hc : ∀ q : Port, ∀ e, (q.closed e).choice = q.choice := fun _ _ => rfl
  refine ⟨rfl, fun p => ?_, ?_⟩
  · show ((((State.setTimer s _).putPort 0 _).putPort 1 _).putPort 2 _ |>.putPort 3 _).port p = _
    simp only [port_putPort]
    rcases lt_or_ge p 4 with h | h
    · interval_cases p <;> simp <;> rfl
    · rw [if_neg (by omega), if_neg (by omega), if_neg (by omega), if_neg (by omega), if_neg (by omega)]
      rfl
  · have h0 : SameOutside [.timer, .links] s (s.setTimer { s.timer with
        tickCount := 0, intervalNumber := s.timer.intervalNumber + 1, handedClose := some (s.timer.intervalNumber + 1) }) :=
      SameOutside.mono (same_setTimer s _) (by decide)
    have hp : ∀ (u : State) (p : Nat), SameOutside [.timer, .links] u (u.putPort p ((u.port p).closed u.errorThreshold)) :=
      fun u p => SameOutside.mono (same_putPort u p _ (hc _ _)) (by decide)
    exact (((h0.trans (hp _ 0)).trans (hp _ 1)).trans (hp _ 2)).trans (hp _ 3)

/-- R10: one tick, and a close when the count reaches I. -/
theorem completePass_spec :
    (s.timer.tickCount + 1 < s.ticksPerInterval →
      s.completePass = s.setTimer { s.timer with pass := none, tickCount := s.timer.tickCount + 1 })
    ∧ (s.ticksPerInterval ≤ s.timer.tickCount + 1 →
      s.completePass = (s.setTimer { s.timer with pass := none, tickCount := s.timer.tickCount + 1 }).handClose) :=
  ⟨fun h => if_pos h, fun h => if_neg (Nat.not_lt.2 h)⟩

theorem same_completePass : SameOutside [.timer, .links] s s.completePass := by
  have h0 : SameOutside [.timer, .links] s (s.setTimer { s.timer with pass := none, tickCount := s.timer.tickCount + 1 }) :=
    SameOutside.mono (same_setTimer s _) (by decide)
  rcases Nat.lt_or_ge (s.timer.tickCount + 1) s.ticksPerInterval with h | h
  · rw [(completePass_spec s).1 h]; exact h0
  · rw [(completePass_spec s).2 h]; exact h0.trans (handClose_spec _).2.2

/-! ### A port disabled (R21, R71, R136) -/

/-- R21, R71, R136, R185: what a disable leaves. -/
theorem disablePort_spec (p : Nat) :
    (∀ q, (s.disablePort p).port q = if q = p then Port.initial else s.port q)
    ∧ (∀ i, (s.disablePort p).presenceAt i = if i / 16 = p then Presence.absent else s.presenceAt i)
    ∧ (∀ k, (s.disablePort p).readingAt k = if k / 1024 = p then Reading.initial else s.readingAt k)
    ∧ (s.disablePort p).filling = s.filling.clearPort p ∧ (s.disablePort p).closing = s.closing.clearPort p
    ∧ (∀ m, (s.disablePort p).entryAt m = if m < 64 then (s.entryAt m).map (s.entryAfterLoss p) else s.entryAt m)
    ∧ KeepsRecords s (s.disablePort p)
    ∧ (s.disablePort p).mgmt = (match s.mgmt.resetWaiting with
        | some (.chain q _) => if q = p then { s.mgmt with resetDue := true } else s.mgmt
        | _ => s.mgmt)
    ∧ SameOutside [.links, .downChoice, .presence, .readings, .filling, .closing, .curtail, .mgmt] s (s.disablePort p) := by
  obtain ⟨cleared, hcl⟩ : ∃ c : State, c = ((((s.putPort p Port.initial).setPresence
      (Table.drop (fun i => decide (i / 16 = p)) s.presence)).setReadings
      (Table.drop (fun key => decide (keyPort key = p)) s.readings)).setFilling (s.filling.clearPort p)).setClosing
      (s.closing.clearPort p) := ⟨_, rfl⟩
  obtain ⟨lost, hlost⟩ : ∃ l : State, l = cleared.losePending p := ⟨_, rfl⟩
  have hbody : s.disablePort p = (match lost.mgmt.resetWaiting with
      | some (.chain q _) => if q = p then lost.setMgmt { lost.mgmt with resetDue := true } else lost
      | _ => lost) := by
    unfold State.disablePort
    simp only [← hcl, ← hlost] <;> rfl
  obtain ⟨⟨hsame, hkeep⟩, hentry⟩ := losePending_spec cleared p
  have hports : lost.ports = cleared.ports := by
    have hs : ∀ (t : State) (slot : Nat), (State.loseEntry p t slot).ports = t.ports := by
      intro t slot
      unfold State.loseEntry State.recordResult
      split
      · split
        · split <;> try split
          all_goals rfl
        · rfl
      · rfl
    have hf : ∀ (l : List Nat) (t : State), (l.foldl (State.loseEntry p) t).ports = t.ports := by
      intro l
      induction l with
      | nil => intro t; rfl
      | cons a l ih => intro t; rw [List.foldl_cons, ih, hs]
    rw [hlost]
    exact hf _ _
  rw [← hlost] at hsame hkeep hentry
  clear hlost
  have hsame0 : SameOutside [.links, .downChoice, .presence, .readings, .filling, .closing, .curtail, .mgmt] s cleared := by
    rw [hcl]
    exact ((((SameOutside.mono (same_putPort_all s p _) (by decide)).trans
      (SameOutside.mono (same_setPresence _ _) (by decide))).trans
      (SameOutside.mono (same_setReadings _ _) (by decide))).trans
      (SameOutside.mono (same_setFilling _ _) (by decide))).trans
      (SameOutside.mono (same_setClosing _ _) (by decide))
  have hsame1 := hsame0.trans (SameOutside.mono hsame (by decide))
  have hmg : lost.mgmt = s.mgmt := by rw [hsame .mgmt (by decide), hcl]; rfl
  have hid : lost.setMgmt lost.mgmt = lost := rfl
  have hall : s.disablePort p = lost.setMgmt (match s.mgmt.resetWaiting with
        | some (.chain q _) => if q = p then { s.mgmt with resetDue := true } else s.mgmt
        | _ => s.mgmt) := by
    rw [hbody, ← hmg]
    split
    · split
      · rfl
      · exact hid.symm
    · exact hid.symm
  rw [hall]
  refine ⟨fun q => ?_, fun i => ?_, fun k => ?_, ?_, ?_, fun k => ?_, ?_, rfl, ?_⟩
  · show Table.read Port.initial lost.ports q = _
    rw [hports, hcl]
    exact port_putPort s p _ q
  · show Table.read Presence.absent lost.presence i = _
    rw [hsame .presence (by decide), hcl]
    show Table.read Presence.absent (Table.drop (fun i => decide (i / 16 = p)) s.presence) i = _
    rw [Table.read_drop]; simp [State.presenceAt]
  · show Table.read Reading.initial lost.readings k = _
    rw [hsame .readings (by decide), hcl]
    show Table.read Reading.initial (Table.drop (fun key => decide (keyPort key = p)) s.readings) k = _
    rw [Table.read_drop]; by_cases h : k / 1024 = p <;> simp [State.readingAt, keyPort, h]
  · show lost.filling = _
    rw [hsame .filling (by decide), hcl]; rfl
  · show lost.closing = _
    rw [hsame .closing (by decide), hcl]; rfl
  · show lost.entryAt k = _
    rw [hentry, hcl]
    rfl
  · have hk : KeepsRecords s cleared := by rw [hcl]; exact ⟨rfl, rfl, rfl⟩
    exact hk.trans ⟨hkeep.1, hkeep.2, hkeep.3⟩
  · exact hsame1.trans (SameOutside.mono (same_setMgmt _ _) (by decide))

end

end Sys2Proof.Machine
end

