-- ==== Sys2Proof/Laws/Arms.lean ====
section
/-! SUPPORT. Which parts of the state each command can change: `exec_changes` says it of every command at once, so that a law
that reads other parts is kept without unfolding the command. -/

namespace Sys2Proof

open Machine

/-- The parts that a request command changes whatever it does: the request leaves its queue, the response lands. -/
def requestBlocks : List Block := answerBlocks

/-- Every part but the queue of commands, the clock and the free-value counter. -/
def restartBlocks : List Block :=
  [.timer, .links, .downChoice, .presence, .oat, .rules, .readings, .filling, .closing, .live, .contracts, .curtail, .notices,
    .uplink, .upChoice, .mgmt, .settings, .extMemory]

/-- The parts that an advance changes, with the clock. -/
def advanceBlocks : List Block := [.now, .timer, .closing, .filling, .links, .downChoice, .curtail, .upChoice]

/-- The parts of the state that a command can change. -/
def Instr.changes : Instr → List Block
  | .powerOn => restartBlocks
  | .imageLoadEnd _ _ => [.timer, .now, .links, .downChoice, .upChoice, .oat, .rules, .contracts, .live, .notices, .mgmt, .settings]
  | .internalAdvance _ => advanceBlocks
  | .lossExpiry _ => .notices :: advanceBlocks
  | .epoch _ _ => .notices :: advanceBlocks
  | .commandTimeout _ => [.curtail, .downChoice, .upChoice]
  | .portLost _ => [.links, .curtail, .downChoice, .upChoice]
  | .holdSweepPosition => [.presence, .timer]
  | .holdSweepOutlet => [.readings, .closing, .notices, .timer]
  | .tenantEvaluation => [.live, .timer, .notices]
  | .curtailmentStep => [.curtail, .live, .notices, .timer, .links, .downChoice, .upChoice]
  | .intervalClose => [.timer, .contracts, .live, .curtail, .notices]
  | .sample _ _ => [.links, .notices, .filling, .presence, .readings, .uplink, .downChoice, .upChoice]
  | .chainMalformedFrame _ => [.links, .notices]
  | .switchAck _ _ => [.links, .notices, .curtail, .downChoice, .upChoice]
  | .pduReply _ _ => [.links, .notices, .uplink, .downChoice, .upChoice]
  | .chainRequest _ _ => [.links, .notices, .uplink, .downChoice, .upChoice]
  | .uplinkRequest _ => [.uplink]
  | .pduPass _ => [.links, .downChoice, .upChoice]
  | .uplinkFrameError => [.notices]
  | .markSend _ => [.links, .downChoice, .upChoice]
  | .switchSend _ => [.links, .curtail, .downChoice, .upChoice]
  | .passDownSend _ => [.links, .downChoice, .upChoice]
  | .downFrameEnd _ => [.links, .downChoice, .upChoice, .mgmt]
  | .uplinkFrameStart => [.uplink, .upChoice, .notices]
  | .uplinkFrameEnd => [.uplink, .upChoice, .mgmt, .downChoice]
  | .noticeQueuing => [.notices, .curtail, .downChoice, .upChoice]
  | .keptResponseOffer => [.mgmt, .uplink, .downChoice, .upChoice]
  | .readEntry => .notices :: .freeCount :: requestBlocks
  | .writeEntryOat => .oat :: requestBlocks
  | .oatClear => .oat :: requestBlocks
  | .writeEntryRules => .rules :: requestBlocks
  | .writeEntryStaged => .contracts :: requestBlocks
  | .writeEpochSource _ => .settings :: (advanceBlocks ++ requestBlocks)
  | .portDisable => .settings :: .presence :: .readings :: .filling :: .closing :: .curtail :: requestBlocks
  | .portEnable => .settings :: requestBlocks
  | .writeErrorThreshold => .settings :: .notices :: requestBlocks
  | .writeNoticeMask => .settings :: .notices :: .curtail :: requestBlocks
  | .writeSetting => .settings :: requestBlocks
  | .resolve => .notices :: requestBlocks
  | .commit => .contracts :: requestBlocks
  | .cancelCommit => .contracts :: requestBlocks
  | .copyActiveToStaged => .contracts :: .notices :: requestBlocks
  | .restoreTenant => .curtail :: .live :: requestBlocks
  | .restoreOutlet => .curtail :: requestBlocks
  | .discard => .curtail :: requestBlocks
  | .clearFault => .notices :: requestBlocks
  | .readStatus => requestBlocks
  | .unknownRequestCode => requestBlocks
  | .saveImage => .notices :: requestBlocks
  | .saveEnd _ => .extMemory :: requestBlocks
  | .resetLive => [.timer, .links, .downChoice, .presence, .readings, .filling, .closing, .live, .contracts, .curtail, .notices,
      .uplink, .upChoice, .mgmt]
  | .resetFull => requestBlocks
  | .resetFullStart => restartBlocks
  | .storageUpset _ _ => [.oat, .rules, .contracts]
  | .writeEntryBadTable => requestBlocks

end Sys2Proof

namespace Sys2Proof.Machine

section
variable {l : List Block}

/-! ### Requests -/

theorem same_answer (hl : requestBlocks ⊆ l) {s b : State} (h : SameOutside l s b) (r : Request) (status : Status)
    (data : List Byte) : SameOutside l s (b.answer r status data) :=
  h.trans (SameOutside.mono (same_respond b r.origin _) (fun _ hx => hl (by revert hx; simp [requestBlocks, answerBlocks]; tauto)))

theorem same_next_arbitrate (hl : choiceBlocks ⊆ l) {s b t : State} (h : SameOutside l s b)
    (ht : (Host.Outcome.next b.arbitrate : Host.Outcome State Fault Refusal) = .next t) : SameOutside l s t := by
  cases ht
  exact h.trans (SameOutside.mono (same_arbitrate b) hl)

/-- A request command changes what its work changes, and the parts of every answer. -/
theorem onRequest_same (hl : requestBlocks ⊆ l) {row : RequestRow} {work : Request → State → State}
    (hw : ∀ r u, SameOutside l u (work r u)) {s t : State} (h : s.onRequest row work = .next t) : SameOutside l s t := by
  have hpop : SameOutside l s s.popRequest := SameOutside.mono (same_popRequest s) (fun x hx => hl (by
    revert hx; simp [requestBlocks, answerBlocks]; tauto))
  have hex : ∀ r, SameOutside l s (s.popRequest.execute r work) := by
    intro r
    unfold State.execute
    split
    · exact same_answer hl hpop r _ _
    · exact hpop.trans (hw r _)
  unfold State.onRequest at h
  split at h
  · split at h
    · exact same_next_arbitrate (fun x hx => hl (by revert hx; simp [requestBlocks, answerBlocks, choiceBlocks]; tauto)) (hex _) h
    · cases h; exact SameOutside.refl _ _
  · cases h; exact SameOutside.refl _ _

theorem same_writeSettingWith (hl : requestBlocks ⊆ l) (hs : Block.settings ∈ l) {effect : Nat → Nat → Nat → State → State}
    (he : ∀ i old v u, SameOutside l u (effect i old v u)) (r : Request) (u : State) :
    SameOutside l u (State.writeSettingWith effect r u) := by
  unfold State.writeSettingWith
  dsimp only
  split
  · exact same_answer hl (SameOutside.refl _ u) r _ _
  · exact same_answer hl ((SameOutside.mono (same_setSettings u _) (by simpa using hs)).trans (he _ _ _ _)) r _ _

end

/-! ### Operations -/

section
variable (s : State)

theorem same_advance (n : Epoch) :
    SameOutside [.timer, .closing, .filling, .links, .downChoice, .curtail, .upChoice] s (s.advance n) :=
  (advance_spec s n).2.2.2.2.2.2.2.2.2.2.2

theorem same_elapse (n : Nat) : SameOutside [.now] s (s.elapse n) := same_setNow s _

theorem same_wellFormedFrame (p : Nat) : SameOutside [.links, .notices] s (s.wellFormedFrame p) :=
  (wellFormedFrame_heard s p).2.2.2

theorem same_degrade (p : Nat) : SameOutside [.links, .notices] s (s.degrade p) := by
  have h : SameOutside [.links] s (s.putPort p { s.port p with link := .degraded }) := same_putPort s p _ rfl
  exact (SameOutside.mono h (by decide)).trans (SameOutside.mono (same_recordFault _ _ _) (by decide))

theorem same_losePort (p : Nat) : SameOutside [.links, .curtail] s (s.losePort p) := by
  have h : SameOutside [.links] s (s.putPort p { s.port p with link := .down }) := same_putPort s p _ rfl
  exact (SameOutside.mono h (by decide)).trans (SameOutside.mono (losePending_spec _ p).1.1 (by decide))

theorem same_movePass (point : PassPoint) : SameOutside [.timer] s (s.movePass point) := same_setTimer s _

theorem same_measure (key v : Nat) : SameOutside [.notices, .readings, .filling] s (s.measure key v) :=
  ((SameOutside.mono (same_recordParity s _) (by decide)).trans (SameOutside.mono (same_setReadings _ _) (by decide))).trans
    (SameOutside.mono (same_setFilling _ _) (by decide))

theorem same_takeReadings (pdu : Nat) (seen : List Nat) (readings : List (Nat × Nat)) :
    SameOutside [.notices, .readings, .filling] s (State.takeReadings pdu s seen readings) := by
  induction readings generalizing s seen with
  | nil => exact SameOutside.refl _ s
  | cons a rest ih =>
    obtain ⟨o, v⟩ := a
    unfold State.takeReadings
    split
    · exact ih s _
    · exact (same_measure s _ _).trans (ih _ _)

theorem same_acceptSample (p position : Nat) (readings : List (Nat × Nat)) (body : List Byte) :
    SameOutside [.filling, .presence, .notices, .readings, .uplink] s (s.acceptSample p position readings body) := by
  unfold State.acceptSample
  dsimp only
  have h1 : SameOutside [.filling, .presence, .notices, .readings, .uplink] s
      ((s.setFilling (s.filling.markPdu (p * 16 + position))).putPresence (p * 16 + position) { state := .present, missed := 0 }) :=
    (SameOutside.mono (same_setFilling s _) (by decide)).trans (SameOutside.mono (same_putPresence _ _ _) (by decide))
  have h2 := h1.trans (SameOutside.mono (same_takeReadings _ (p * 16 + position) [] readings) (by decide))
  split
  · exact h2.trans (SameOutside.mono (same_offerForward _ _) (by decide))
  · exact h2

theorem same_window (p position : Nat) (e : Epoch) (readings : List (Nat × Nat)) (body : List Byte) :
    SameOutside [.filling, .presence, .notices, .readings, .uplink] s (s.window p position e readings body) := by
  unfold State.window
  split
  · exact SameOutside.refl _ s
  · split
    · exact SameOutside.refl _ s
    · split
      · split
        · exact SameOutside.refl _ s
        · exact same_acceptSample s _ _ _ _
      · exact SameOutside.mono (same_recordFault s _ _) (by decide)

theorem same_switchAnswer (p position outlet : Nat) (tag : BitVec 8) (done : Bool) :
    SameOutside [.notices, .curtail] s (s.switchAnswer p position outlet tag done) := by
  unfold State.switchAnswer
  split
  · exact SameOutside.mono (same_recordResult s _ _) (by decide)
  · exact SameOutside.mono (same_recordFault s _ _) (by decide)

theorem same_relay (port : Nat) (position : Byte) (payload : List Byte) :
    SameOutside [.links] s (s.relay port position payload) := by
  unfold State.relay
  split
  · exact SameOutside.refl _ s
  · split
    · exact SameOutside.refl _ s
    · exact same_offerPassDown s _ _

theorem same_startDown (p : Nat) (frame : DownFrame) : SameOutside [.links, .downChoice] s (s.startDown p frame) :=
  same_putPort_all s p _

theorem same_startUp (kind : UplinkKind) (frame : UplinkFrame) : SameOutside [.uplink, .upChoice] s (s.startUp kind frame) :=
  same_setUplink_all s _

theorem same_startSwitch (p slot : Nat) (e : CurtailEntry) :
    SameOutside [.links, .downChoice, .curtail] s (s.startSwitch p slot e) :=
  (((SameOutside.mono (same_putEntry s slot _) (by decide)).trans (SameOutside.mono (same_leaveDue _ p slot) (by decide))).trans
    (SameOutside.mono (same_setCurtail _ _) (by decide))).trans (SameOutside.mono (same_startDown _ p _) (by decide))

theorem same_handBack (slot : Nat) : SameOutside [.curtail] s (s.handBack slot) := by
  unfold State.handBack
  split
  · split
    · exact same_removeEntry s slot
    · exact (same_putEntry s slot _).trans (same_setCurtail _ _)
  · exact SameOutside.refl _ s

theorem same_settle (item : OwedItem) : SameOutside [.notices, .curtail] s (s.settle item) := by
  cases item
  case curtail slot => exact SameOutside.mono (same_handBack s slot) (by decide)
  all_goals exact SameOutside.mono (same_setNotices s _) (by decide)

/-! #### The pass -/

theorem same_sweepOutlet (key : Nat) : SameOutside [.readings, .closing, .notices] s (s.sweepOutlet key) :=
  ((SameOutside.mono (same_recordParity s _) (by decide)).trans (SameOutside.mono (same_setReadings _ _) (by decide))).trans
    (SameOutside.mono (same_setClosing _ _) (by decide))

theorem same_endRestoring (t : Nat) : SameOutside [.curtail] s (s.endRestoring t) := (endRestoring_spec s t).2.2.2

theorem same_actOnTransition (t : Nat) (tr : Transition) (auto : Bool) :
    SameOutside [.curtail] s (s.actOnTransition t tr auto) := by
  unfold State.actOnTransition
  cases tr <;> dsimp only
  · exact same_putCurtail s t _
  · split
    · exact same_endRestoring s t
    · exact SameOutside.refl _ s
  · exact (same_putCurtail s t _).trans (same_endRestoring _ t)
  · exact SameOutside.refl _ s

theorem same_restoreWalk (slots : List Nat) : SameOutside [.curtail] s (State.restoreWalk s slots).1 := by
  induction slots generalizing s with
  | nil => exact SameOutside.refl _ s
  | cons slot rest ih =>
    unfold State.restoreWalk
    split
    · split
      · exact (same_removeEntry s slot).trans (ih _)
      · split
        · exact same_setOnPending s slot _
        · exact ih s
    · exact ih s

theorem same_restoreStep (t : Nat) : SameOutside [.curtail, .live] s (s.restoreStep t) := by
  unfold State.restoreStep
  dsimp only
  have h := same_restoreWalk s (s.restoreOrder t)
  split
  · exact SameOutside.mono h (by decide)
  · split
    · exact ((SameOutside.mono h (by decide)).trans (SameOutside.mono (same_endRestoring _ t) (by decide))).trans
        (SameOutside.mono (same_putLive _ t _) (by decide))
    · exact SameOutside.mono h (by decide)

theorem same_makeEntry (t key slot : Nat) : SameOutside [.curtail] s (s.makeEntry t key slot) :=
  (((same_putEntry s slot _).trans (same_joinDue _ _ _)).trans (same_setCurtail _ _)).trans (same_putCurtail _ t _)

theorem same_shedStep (t : Nat) : SameOutside [.curtail, .notices] s (s.shedStep t) := by
  have h : SameOutside [.curtail, .notices] s (s.recordParity s.badSlots) := SameOutside.mono (same_recordParity s _) (by decide)
  unfold State.shedStep
  dsimp only
  split
  · exact h.trans (SameOutside.mono (same_putCurtail _ t _) (by decide))
  · split
    · exact h.trans (SameOutside.mono (same_putCurtail _ t _) (by decide))
    · exact h.trans (SameOutside.mono (same_makeEntry _ t _ _) (by decide))

theorem same_curtailStep (t : Nat) (tr : Transition) (c : Option Contract) :
    SameOutside [.curtail, .live, .notices] s (s.curtailStep t tr c) := by
  obtain ⟨auto, he⟩ : ∃ auto, s.curtailStep t tr c =
      (if ((s.actOnTransition t tr auto).curtailAt t).restoring ≠ .none ∧ !(s.actOnTransition t tr auto).tenantPending t then
        (s.actOnTransition t tr auto).restoreStep t
      else if (s.actOnTransition t tr auto).shedDue t c then (s.actOnTransition t tr auto).shedStep t
      else s.actOnTransition t tr auto) := ⟨_, rfl⟩
  have h := same_actOnTransition s t tr auto
  rw [he]
  split
  · exact (SameOutside.mono h (by decide)).trans (SameOutside.mono (same_restoreStep _ t) (by decide))
  · split
    · exact (SameOutside.mono h (by decide)).trans (SameOutside.mono (same_shedStep _ t) (by decide))
    · exact SameOutside.mono h (by decide)

/-! #### The close -/

theorem same_consequence (t : Nat) : SameOutside [.live, .curtail] s (s.consequence t) := by
  have h : SameOutside [.live, .curtail] s (s.putLive t ((s.liveAt t).switched (s.activeAt t).content)) :=
    SameOutside.mono (same_putLive s t _) (by decide)
  unfold State.consequence
  dsimp only
  split
  · exact h
  · split
    · split
      · exact h.trans (SameOutside.mono (same_endRestoring _ t) (by decide))
      · exact h
    · exact (h.trans (SameOutside.mono (same_putCurtail _ t _) (by decide))).trans
        (SameOutside.mono (same_endRestoring _ t) (by decide))

theorem same_foldl {l : List Block} {α : Type} (f : State → α → State) (hf : ∀ u a, SameOutside l u (f u a)) (as : List α) :
    SameOutside l s (as.foldl f s) := by
  induction as generalizing s with
  | nil => exact SameOutside.refl _ s
  | cons a as ih => exact (hf s a).trans (ih _)

theorem same_switchContracts : SameOutside [.live, .curtail, .notices, .contracts] s s.switchContracts := by
  unfold State.switchContracts
  dsimp only
  exact ((SameOutside.mono (same_recordParity s _) (by decide)).trans (SameOutside.mono (same_setContracts _ _) (by decide))).trans
    (SameOutside.mono (same_foldl _ State.consequence (fun u t => same_consequence u t) _) (by decide))

theorem same_oweInterval (n : BitVec 32) (switched : Bool) : SameOutside [.notices] s (s.oweInterval n switched) := by
  unfold State.oweInterval
  split
  · exact SameOutside.refl _ s
  · exact same_setNotices s _

theorem same_closeInterval (n : BitVec 32) : SameOutside [.contracts, .live, .curtail, .notices] s (s.closeInterval n) := by
  have h : SameOutside [.contracts, .live, .curtail, .notices] s (s.captureSummaries n).clearAccumulators :=
    (SameOutside.mono (same_setContracts s _) (by decide)).trans (SameOutside.mono (same_setLive _ _) (by decide))
  unfold State.closeInterval
  dsimp only
  split
  · exact (h.trans (SameOutside.mono (same_switchContracts _) (by decide))).trans
      (SameOutside.mono (same_oweInterval _ _ _) (by decide))
  · exact h.trans (SameOutside.mono (same_oweInterval _ _ _) (by decide))

/-! #### Reads -/

theorem same_copyStored {α : Type} (item : Stored α) (loc : Location) (bytes : α → List Byte) (n : Nat) :
    SameOutside [.notices, .freeCount] s (s.copyStored item loc bytes n).1 := by
  unfold State.copyStored
  split
  · exact SameOutside.refl _ s
  · exact SameOutside.mono (same_recordFault s _ _) (by decide)

theorem same_copyEntry (table i : Nat) : SameOutside [.notices, .freeCount] s (s.copyEntry table i).1 := by
  unfold State.copyEntry
  dsimp only
  split <;> first
    | exact SameOutside.refl _ s
    | exact same_copyStored s _ _ _ _
    | (unfold State.copyTenant
       dsimp only
       split
       · exact SameOutside.mono (same_setFreeCount s _) (by decide)
       · exact SameOutside.refl _ s)

theorem same_copyNext (j : ReadJob) : SameOutside (.notices :: .freeCount :: requestBlocks) s (s.copyNext j) := by
  have h : SameOutside (.notices :: .freeCount :: requestBlocks) s (s.copyEntry j.table (j.first + j.done)).1 :=
    SameOutside.mono (same_copyEntry s _ _) (by decide)
  unfold State.copyNext
  dsimp only
  split
  · exact (h.trans (SameOutside.mono (same_setMgmt _ _) (by decide))).trans (SameOutside.mono (same_respond _ _ _) (by decide))
  · exact h.trans (SameOutside.mono (same_setMgmt _ _) (by decide))

/-! #### Loads and resets -/

theorem same_restart : SameOutside restartBlocks s s.restart := by
  intro b hb; cases b <;> first | rfl | exact absurd (by decide) hb

/-- R180: what the end of a load does once settings and tables are filled. -/
def State.loadedWith (filled : State) (answer : MemoryAnswer) : State :=
  let timed := filled.setTimer { s.timer with refTime := s.now, mode := sourceOfSetting (filled.setting 1) }
  let ready := (timed.setPorts timed.freshPorts).setLive timed.freshLive
  let noticed := ready.setNotices (ready.resetAnnounced { s.notices with fault := none })
  let done := noticed.setMgmt { s.mgmt with imageState := s.loadState answer }
  if s.loadState answer = .invalid then done.recordFault .imageInvalid .none else done

/-- R180: the end of a load, by what the memory gave. -/
theorem endLoad_some {answer : MemoryAnswer} {m : Image} (h : s.imageRead answer = some m) :
    s.endLoad answer = s.loadedWith (s.takeImage m) answer := by
  unfold State.endLoad State.loadedWith
  rw [h]

theorem endLoad_none {answer : MemoryAnswer} (h : s.imageRead answer = none) :
    s.endLoad answer = s.loadedWith s.takeDefaults answer := by
  unfold State.endLoad State.loadedWith
  rw [h]

theorem same_loadedWith {filled : State} (answer : MemoryAnswer)
    (h : SameOutside [.timer, .links, .downChoice, .oat, .rules, .contracts, .live, .notices, .mgmt, .settings] s filled) :
    SameOutside [.timer, .links, .downChoice, .oat, .rules, .contracts, .live, .notices, .mgmt, .settings] s (s.loadedWith filled answer) := by
  have hdone : ∀ a b c d e, SameOutside [.timer, .links, .downChoice, .oat, .rules, .contracts, .live, .notices, .mgmt, .settings] s
      (((((filled.setTimer a).setPorts b).setLive c).setNotices d).setMgmt e) := fun a b c d e =>
    ((((h.trans (SameOutside.mono (same_setTimer _ _) (by decide))).trans
      (SameOutside.mono (same_setPorts _ _) (by decide))).trans (SameOutside.mono (same_setLive _ _) (by decide))).trans
      (SameOutside.mono (same_setNotices _ _) (by decide))).trans (SameOutside.mono (same_setMgmt _ _) (by decide))
  unfold State.loadedWith
  dsimp only
  split
  · exact (hdone _ _ _ _ _).trans (SameOutside.mono (same_recordFault _ _ _) (by decide))
  · exact hdone _ _ _ _ _

theorem same_endLoad (answer : MemoryAnswer) : SameOutside
    [.timer, .links, .downChoice, .oat, .rules, .contracts, .live, .notices, .mgmt, .settings] s (s.endLoad answer) := by
  cases h : s.imageRead answer with
  | some m =>
    rw [endLoad_some s h]
    exact same_loadedWith s answer ((((SameOutside.mono (same_setSettings s _) (by decide)).trans
      (SameOutside.mono (same_setOat _ _) (by decide))).trans (SameOutside.mono (same_setRules _ _) (by decide))).trans
      (SameOutside.mono (same_setContracts _ _) (by decide)))
  | none =>
    rw [endLoad_none s h]
    exact same_loadedWith s answer ((((SameOutside.mono (same_setSettings s _) (by decide)).trans
      (SameOutside.mono (same_setOat _ _) (by decide))).trans (SameOutside.mono (same_setRules _ _) (by decide))).trans
      (SameOutside.mono (same_setContracts _ _) (by decide)))

theorem same_strike (good : Bool) (item : Upset) : SameOutside [.oat, .rules, .contracts] s (s.strike good item) := by
  cases item <;> unfold State.strike <;> dsimp only <;> split <;> first
    | exact SameOutside.refl _ s
    | exact SameOutside.mono (same_setOat s _) (by decide)
    | exact SameOutside.mono (same_setRules s _) (by decide)
    | exact SameOutside.mono (same_setContracts s _) (by decide)

end

/-! ### The arms -/

section
variable {s t : State}

/-- The two ends of an arm: a state that changed only the parts listed, or the state itself. -/
theorem same_of_next {l : List Block} {u : State} (h : SameOutside l s u)
    (ht : (Host.Outcome.next u : Host.Outcome State Fault Refusal) = .next t) : SameOutside l s t := by
  cases ht; exact h

theorem requestBlocks_sub (l : List Block) : requestBlocks ⊆ l ++ requestBlocks := fun _ hx => List.mem_append_right l hx

theorem same_portDisableEffect (i old v : Nat) (u : State) :
    SameOutside (.settings :: .presence :: .readings :: .filling :: .closing :: .curtail :: requestBlocks) u
      (portDisableEffect i old v u) := by
  unfold portDisableEffect
  split
  · exact SameOutside.refl _ u
  · exact SameOutside.mono (disablePort_spec u _).2.2.2.2.2.2.2.2 (by decide)

theorem same_portEnableEffect (i old v : Nat) (u : State) :
    SameOutside (.settings :: requestBlocks) u (portEnableEffect i old v u) := by
  unfold portEnableEffect
  split
  · exact SameOutside.mono (same_putPort_all u _ _) (by decide)
  · exact SameOutside.refl _ u

theorem same_errorThresholdEffect (i old v : Nat) (u : State) :
    SameOutside (.settings :: .notices :: requestBlocks) u (errorThresholdEffect i old v u) := by
  refine same_foldl u State.testThreshold (fun w p => ?_) _
  unfold State.testThreshold
  split
  · exact SameOutside.mono (same_degrade w p) (by decide)
  · exact SameOutside.refl _ w

theorem same_noticeMaskEffect (i old v : Nat) (u : State) :
    SameOutside (.settings :: .notices :: .curtail :: requestBlocks) u (noticeMaskEffect i old v u) := by
  unfold noticeMaskEffect
  split
  · split
    · exact SameOutside.mono (same_setNotices u _) (by decide)
    · split
      · exact SameOutside.mono (same_setCurtail u _) (by decide)
      · exact SameOutside.refl _ u
  · exact SameOutside.refl _ u

theorem same_epochSourceEffect (i old v : Nat) (u : State) :
    SameOutside (.settings :: (advanceBlocks ++ requestBlocks)) u (epochSourceEffect i old v u) := by
  have h : SameOutside (.settings :: (advanceBlocks ++ requestBlocks)) u (u.setSource v) :=
    SameOutside.mono (same_setTimer u _) (by decide)
  unfold epochSourceEffect
  dsimp only
  split
  · exact h.trans (SameOutside.mono (same_advance _ _) (by decide))
  · exact h

theorem changes_time (c : Instr) (n : Nat) (body : List Byte) (hc : c = .internalAdvance n ∨ c = .lossExpiry n ∨ c = .epoch n body)
    (h : exec c s = .next t) : SameOutside c.changes s t := by
  have he : SameOutside (.notices :: advanceBlocks) s (s.elapse n) := SameOutside.mono (same_elapse s n) (by decide)
  rcases hc with rfl | rfl | rfl
  · have he' : SameOutside advanceBlocks s (s.elapse n) := SameOutside.mono (same_elapse s n) (by decide)
    change execInternalAdvance n s = _ at h
    unfold execInternalAdvance at h
    dsimp only at h
    split at h
    · exact same_next_arbitrate (by simp only [Instr.changes]; decide) (he'.trans (SameOutside.mono (same_advance _ _) (by decide))) h
    · exact same_of_next he' h
  · change execLossExpiry n s = _ at h
    unfold execLossExpiry at h
    dsimp only at h
    split at h
    · exact same_next_arbitrate (by simp only [Instr.changes]; decide) (((he.trans (SameOutside.mono (same_setTimer _ _) (by decide))).trans
        (SameOutside.mono (same_advance _ _) (by decide))).trans (SameOutside.mono (same_recordFault _ _ _) (by decide))) h
    · exact same_of_next he h
  · change execEpoch n body s = _ at h
    unfold execEpoch at h
    dsimp only at h
    split at h
    · exact same_of_next he h
    · split at h
      · exact same_of_next he h
      · split at h
        · exact same_of_next (he.trans (SameOutside.mono (same_recordFault _ _ _) (by decide))) h
        · exact same_next_arbitrate (by simp only [Instr.changes]; decide) (he.trans (SameOutside.mono (same_advance _ _) (by decide))) h

/-- Frames on the chains and the uplink. -/
theorem changes_sample (p : Nat) (body : List Byte) (h : execSample p body s = .next t) :
    SameOutside (Instr.sample p body).changes s t := by
  unfold execSample at h
  have hh : SameOutside (Instr.sample p body).changes s (s.wellFormedFrame p) :=
    SameOutside.mono (same_wellFormedFrame s p) (by simp only [Instr.changes]; decide)
  split at h
  · exact same_of_next (SameOutside.refl _ s) h
  · dsimp only at h
    split at h
    · exact same_next_arbitrate (by simp only [Instr.changes]; decide)
        (hh.trans (SameOutside.mono (same_window _ _ _ _ _ _) (by simp only [Instr.changes]; decide))) h
    · exact same_next_arbitrate (by simp only [Instr.changes]; decide) hh h

/-! #### Arms that are no request -/

theorem changes_commandTimeout {slot : Nat} (h : execCommandTimeout slot s = .next t) :
    SameOutside [.curtail, .downChoice, .upChoice] s t := by
  unfold execCommandTimeout at h
  split at h
  · split at h
    · exact same_next_arbitrate (by decide) (SameOutside.mono (same_timeOut s _ _) (by decide)) h
    · exact same_of_next (SameOutside.refl _ s) h
  · exact same_of_next (SameOutside.refl _ s) h

theorem changes_portLost {port : Nat} (h : execPortLost port s = .next t) :
    SameOutside [.links, .curtail, .downChoice, .upChoice] s t := by
  unfold execPortLost at h
  split at h
  · exact same_next_arbitrate (by decide) (SameOutside.mono (same_losePort s _) (by decide)) h
  · exact same_of_next (SameOutside.refl _ s) h

theorem changes_holdSweepPosition (h : execHoldSweepPosition s = .next t) : SameOutside [.presence, .timer] s t := by
  unfold execHoldSweepPosition at h
  split at h
  · exact same_of_next ((SameOutside.mono (same_putPresence s _ _) (by decide)).trans
      (SameOutside.mono (same_movePass _ _) (by decide))) h
  · exact same_of_next (SameOutside.refl _ s) h

theorem changes_holdSweepOutlet (h : execHoldSweepOutlet s = .next t) :
    SameOutside [.readings, .closing, .notices, .timer] s t := by
  unfold execHoldSweepOutlet at h
  split at h
  · exact same_of_next ((SameOutside.mono (same_sweepOutlet s _) (by decide)).trans
      (SameOutside.mono (same_movePass _ _) (by decide))) h
  · exact same_of_next (SameOutside.refl _ s) h

theorem changes_tenantEvaluation (h : execTenantEvaluation s = .next t) : SameOutside [.live, .timer, .notices] s t := by
  unfold execTenantEvaluation at h
  split at h
  · exact same_of_next (((SameOutside.mono (same_recordParity s _) (by decide)).trans
      (SameOutside.mono (same_putLive _ _ _) (by decide))).trans (SameOutside.mono (same_movePass _ _) (by decide))) h
  · exact same_of_next (SameOutside.refl _ s) h

theorem changes_curtailmentStep (h : execCurtailmentStep s = .next t) :
    SameOutside [.curtail, .live, .notices, .timer, .links, .downChoice, .upChoice] s t := by
  unfold execCurtailmentStep at h
  split at h
  case h_1 n tr c _ =>
    dsimp only at h
    have hs : SameOutside [.curtail, .live, .notices, .timer, .links, .downChoice, .upChoice] s (s.curtailStep n tr c) :=
      SameOutside.mono (same_curtailStep s n tr c) (by decide)
    split at h
    · exact same_next_arbitrate (by decide) (hs.trans (SameOutside.mono (same_movePass _ _) (by decide))) h
    · exact same_next_arbitrate (by decide) (hs.trans (SameOutside.mono (same_completePass _) (by decide))) h
  case h_2 => exact same_of_next (SameOutside.refl _ s) h

theorem changes_intervalClose (h : execIntervalClose s = .next t) :
    SameOutside [.timer, .contracts, .live, .curtail, .notices] s t := by
  unfold execIntervalClose at h
  split at h
  · exact same_of_next ((SameOutside.mono (same_setTimer s _) (by decide)).trans
      (SameOutside.mono (same_closeInterval _ _) (by decide))) h
  · exact same_of_next (SameOutside.refl _ s) h

theorem changes_chainMalformedFrame {port : Nat} (h : execChainMalformedFrame port s = .next t) :
    SameOutside [.links, .notices] s t := by
  unfold execChainMalformedFrame at h
  split at h
  · exact same_of_next (SameOutside.refl _ s) h
  · dsimp only at h
    have hc : SameOutside [.links, .notices] s
        (s.putPort port { s.port port with errorCount := min 65535 ((s.port port).errorCount + 1) }) :=
      SameOutside.mono (same_putPort s port _ rfl) (by decide)
    split at h
    · exact same_of_next (hc.trans (same_degrade _ _)) h
    · exact same_of_next hc h

theorem changes_switchAck {port : Nat} {body : List Byte} (h : execSwitchAck port body s = .next t) :
    SameOutside [.links, .notices, .curtail, .downChoice, .upChoice] s t := by
  unfold execSwitchAck at h
  have hh : SameOutside [.links, .notices, .curtail, .downChoice, .upChoice] s (s.wellFormedFrame port) :=
    SameOutside.mono (same_wellFormedFrame s port) (by decide)
  split at h
  · exact same_of_next (SameOutside.refl _ s) h
  · dsimp only at h
    split at h
    · exact same_next_arbitrate (by decide) (hh.trans (SameOutside.mono (same_switchAnswer _ _ _ _ _ _) (by decide))) h
    · exact same_next_arbitrate (by decide) hh h

theorem changes_pduReply {port : Nat} {body : List Byte} (h : execPduReply port body s = .next t) :
    SameOutside [.links, .notices, .uplink, .downChoice, .upChoice] s t := by
  unfold execPduReply at h
  have hh : SameOutside [.links, .notices, .uplink, .downChoice, .upChoice] s (s.wellFormedFrame port) :=
    SameOutside.mono (same_wellFormedFrame s port) (by decide)
  split at h
  · exact same_of_next (SameOutside.refl _ s) h
  · dsimp only at h
    split at h
    · exact same_next_arbitrate (by decide) hh h
    · exact same_next_arbitrate (by decide) (hh.trans (SameOutside.mono (same_offerForward _ _) (by decide))) h

theorem changes_chainRequest {port : Nat} {body : List Byte} (h : execChainRequest port body s = .next t) :
    SameOutside [.links, .notices, .uplink, .downChoice, .upChoice] s t := by
  unfold execChainRequest at h
  have hh : SameOutside [.links, .notices, .uplink, .downChoice, .upChoice] s (s.wellFormedFrame port) :=
    SameOutside.mono (same_wellFormedFrame s port) (by decide)
  split at h
  · exact same_of_next (SameOutside.refl _ s) h
  · dsimp only at h
    split at h
    · exact same_next_arbitrate (by decide) (hh.trans (SameOutside.mono (same_offerRequest _ _) (by decide))) h
    · exact same_next_arbitrate (by decide) hh h

theorem changes_uplinkRequest {body : List Byte} (h : execUplinkRequest body s = .next t) : SameOutside [.uplink] s t := by
  unfold execUplinkRequest at h
  split at h
  · exact same_of_next (same_offerRequest s _) h
  · exact same_of_next (SameOutside.refl _ s) h

theorem changes_pduPass {body : List Byte} (h : execPduPass body s = .next t) :
    SameOutside [.links, .downChoice, .upChoice] s t := by
  unfold execPduPass at h
  split at h
  · exact same_next_arbitrate (by decide) (SameOutside.mono (same_relay s _ _ _) (by decide)) h
  · exact same_of_next (SameOutside.refl _ s) h

theorem changes_markSend {port : Nat} (h : execMarkSend port s = .next t) :
    SameOutside [.links, .downChoice, .upChoice] s t := by
  unfold execMarkSend at h
  split at h
  · exact same_next_arbitrate (by decide) ((SameOutside.mono (same_putPort_all s _ _) (by decide)).trans
      (SameOutside.mono (same_startDown _ _ _) (by decide))) h
  · exact same_of_next (SameOutside.refl _ s) h

theorem changes_switchSend {port : Nat} (h : execSwitchSend port s = .next t) :
    SameOutside [.links, .curtail, .downChoice, .upChoice] s t := by
  unfold execSwitchSend at h
  split at h
  · split at h
    · exact same_next_arbitrate (by decide) (SameOutside.mono (same_startSwitch s _ _ _) (by decide)) h
    · exact same_of_next (SameOutside.refl _ s) h
  · exact same_of_next (SameOutside.refl _ s) h

theorem changes_passDownSend {port : Nat} (h : execPassDownSend port s = .next t) :
    SameOutside [.links, .downChoice, .upChoice] s t := by
  unfold execPassDownSend at h
  split at h
  · exact same_next_arbitrate (by decide) ((SameOutside.mono (same_putPort_all s _ _) (by decide)).trans
      (SameOutside.mono (same_startDown _ _ _) (by decide))) h
  · exact same_of_next (SameOutside.refl _ s) h

theorem changes_downFrameEnd {port : Nat} (h : execDownFrameEnd port s = .next t) :
    SameOutside [.links, .downChoice, .upChoice, .mgmt] s t := by
  unfold execDownFrameEnd at h
  split at h
  · have hi : SameOutside [.links, .downChoice, .upChoice, .mgmt] s (s.putPort port { s.port port with tx := none }) :=
      SameOutside.mono (same_putPort_all s port _) (by decide)
    dsimp only at h
    split at h
    · exact same_next_arbitrate (by decide) (hi.trans (SameOutside.mono (same_setMgmt _ _) (by decide))) h
    · exact same_next_arbitrate (by decide) hi h
  · exact same_of_next (SameOutside.refl _ s) h

theorem changes_uplinkFrameStart (h : execUplinkFrameStart s = .next t) :
    SameOutside [.uplink, .upChoice, .notices] s t := by
  unfold execUplinkFrameStart at h
  split at h
  · split at h
    · exact same_of_next ((SameOutside.mono (same_setUplink_all s _) (by decide)).trans
        (SameOutside.mono (same_startUp _ _ _) (by decide))) h
    · exact same_of_next (SameOutside.refl _ s) h
  · split at h
    · exact same_of_next ((SameOutside.mono (same_setNotices s _) (by decide)).trans
        (SameOutside.mono (same_startUp _ _ _) (by decide))) h
    · exact same_of_next (SameOutside.refl _ s) h
  · split at h
    · exact same_of_next ((SameOutside.mono (same_setUplink_all s _) (by decide)).trans
        (SameOutside.mono (same_startUp _ _ _) (by decide))) h
    · exact same_of_next (SameOutside.refl _ s) h
  · exact same_of_next (SameOutside.refl _ s) h

theorem changes_uplinkFrameEnd (h : execUplinkFrameEnd s = .next t) :
    SameOutside [.uplink, .upChoice, .mgmt, .downChoice] s t := by
  unfold execUplinkFrameEnd at h
  split at h
  · have hi : SameOutside [.uplink, .upChoice, .mgmt, .downChoice] s (s.setUplink { s.uplink with tx := none }) :=
      SameOutside.mono (same_setUplink_all s _) (by decide)
    dsimp only at h
    split at h
    · exact same_next_arbitrate (by decide) (hi.trans (SameOutside.mono (same_setMgmt _ _) (by decide))) h
    · exact same_next_arbitrate (by decide) hi h
  · exact same_of_next (SameOutside.refl _ s) h

theorem changes_noticeQueuing (h : execNoticeQueuing s = .next t) :
    SameOutside [.notices, .curtail, .downChoice, .upChoice] s t := by
  unfold execNoticeQueuing at h
  split at h
  · split at h
    · split at h
      · exact same_next_arbitrate (by decide) ((SameOutside.mono (same_settle s _) (by decide)).trans
          (SameOutside.mono (same_setNotices _ _) (by decide))) h
      · exact same_of_next (SameOutside.refl _ s) h
    · exact same_of_next (SameOutside.refl _ s) h
  · exact same_of_next (SameOutside.refl _ s) h

theorem changes_keptResponseOffer (h : execKeptResponseOffer s = .next t) :
    SameOutside [.mgmt, .uplink, .downChoice, .upChoice] s t := by
  unfold execKeptResponseOffer at h
  split at h
  · split at h
    · exact same_next_arbitrate (by decide) ((SameOutside.mono (same_setMgmt s _) (by decide)).trans
        (SameOutside.mono (same_setUplink_all _ _) (by decide))) h
    · exact same_of_next (SameOutside.refl _ s) h
  · exact same_of_next (SameOutside.refl _ s) h

theorem changes_imageLoadEnd {elapsed : Nat} {answer : MemoryAnswer} (h : execImageLoadEnd elapsed answer s = .next t) :
    SameOutside [.timer, .now, .links, .downChoice, .upChoice, .oat, .rules, .contracts, .live, .notices, .mgmt, .settings] s t := by
  have he : SameOutside [.timer, .now, .links, .downChoice, .upChoice, .oat, .rules, .contracts, .live, .notices, .mgmt, .settings]
      s (s.elapse elapsed) := SameOutside.mono (same_elapse s elapsed) (by decide)
  unfold execImageLoadEnd at h
  dsimp only at h
  split at h
  · exact same_next_arbitrate (by decide) (he.trans (SameOutside.mono (same_endLoad _ _) (by decide))) h
  · exact same_of_next he h

theorem changes_saveEnd {outcome : SaveOutcome} (h : execSaveEnd outcome s = .next t) :
    SameOutside (.extMemory :: requestBlocks) s t := by
  unfold execSaveEnd at h
  split at h
  · exact same_next_arbitrate (by decide) (((SameOutside.mono (same_setMgmt s _) (by decide)).trans
      (SameOutside.mono (same_setExtMemory _ _) (by decide))).trans (SameOutside.mono (same_respond _ _ _) (by decide))) h
  · exact same_of_next (SameOutside.refl _ s) h

theorem changes_resetFullStart (h : execResetFullStart s = .next t) : SameOutside restartBlocks s t := by
  unfold execResetFullStart at h
  split at h
  · exact same_of_next (same_restart s) h
  · exact same_of_next (SameOutside.refl _ s) h

/-! #### Requests -/

theorem changes_writeEpochSource {elapsed : Nat} (h : execWriteEpochSource elapsed s = .next t) :
    SameOutside (.settings :: (advanceBlocks ++ requestBlocks)) s t := by
  have he : SameOutside (.settings :: (advanceBlocks ++ requestBlocks)) s (s.elapse elapsed) :=
    SameOutside.mono (same_elapse s elapsed) (by decide)
  exact he.trans (onRequest_same (by decide)
    (fun r u => same_writeSettingWith (by decide) (by decide) same_epochSourceEffect r u) h)

theorem same_liveReset (u : State) : SameOutside [.timer, .links, .downChoice, .presence, .readings, .filling, .closing, .live,
    .contracts, .curtail, .notices, .uplink, .upChoice, .mgmt] u u.liveReset := by
  have h : SameOutside [.timer, .links, .downChoice, .presence, .readings, .filling, .closing, .live,
      .contracts, .curtail, .notices, .uplink, .upChoice, .mgmt] u (u.recordParity (badContracts .active u.activeAt)) :=
    SameOutside.mono (same_recordParity u _) (by decide)
  refine h.trans ?_
  unfold State.liveReset
  intro b hb; cases b <;> first | rfl | exact absurd (by decide) hb

theorem changes_readEntry (h : execReadEntry s = .next t) : SameOutside (.notices :: .freeCount :: requestBlocks) s t := by
  unfold execReadEntry at h
  split at h
  · exact same_next_arbitrate (by decide) (same_copyNext s _) h
  · refine onRequest_same (by decide) (fun r u => ?_) h
    unfold State.startRead
    dsimp only
    repeat' split
    all_goals first
      | exact same_answer (by decide) (SameOutside.refl _ u) r _ _
      | exact same_copyNext _ _

/-- A request whose work answers after one update, or answers only. -/
theorem same_updateAnswer {l : List Block} (hl : requestBlocks ⊆ l) {u v : State} {k : List Block} (h : SameOutside k u v)
    (hk : k ⊆ l) (r : Request) (status : Status) (data : List Byte) : SameOutside l u (v.answer r status data) :=
  same_answer hl (SameOutside.mono h hk) r status data

theorem same_writeOatRequest (r : Request) (u : State) : SameOutside (.oat :: requestBlocks) u (State.writeOatRequest r u) := by
  unfold State.writeOatRequest
  dsimp only
  repeat' split
  all_goals first
    | exact same_answer (by decide) (SameOutside.refl _ u) r _ _
    | exact same_updateAnswer (by decide) (same_setOat u _) (by decide) r _ _

theorem same_clearOatRequest (r : Request) (u : State) : SameOutside (.oat :: requestBlocks) u (State.clearOatRequest r u) := by
  unfold State.clearOatRequest
  dsimp only
  repeat' split
  all_goals first
    | exact same_answer (by decide) (SameOutside.refl _ u) r _ _
    | exact same_updateAnswer (by decide) (same_setOat u _) (by decide) r _ _

theorem same_writeRuleRequest (r : Request) (u : State) :
    SameOutside (.rules :: requestBlocks) u (State.writeRuleRequest r u) := by
  unfold State.writeRuleRequest
  dsimp only
  repeat' split
  all_goals first
    | exact same_answer (by decide) (SameOutside.refl _ u) r _ _
    | exact same_updateAnswer (by decide) (same_setRules u _) (by decide) r _ _

theorem same_writeStagedRequest (r : Request) (u : State) :
    SameOutside (.contracts :: requestBlocks) u (State.writeStagedRequest r u) := by
  unfold State.writeStagedRequest
  dsimp only
  repeat' split
  all_goals first
    | exact same_answer (by decide) (SameOutside.refl _ u) r _ _
    | exact same_updateAnswer (by decide) (same_setContracts u _) (by decide) r _ _

theorem same_resolveRequest (r : Request) (u : State) : SameOutside (.notices :: requestBlocks) u (State.resolveRequest r u) := by
  unfold State.resolveRequest
  dsimp only
  repeat' split
  all_goals first
    | exact same_answer (by decide) (SameOutside.refl _ u) r _ _
    | exact same_updateAnswer (by decide) (same_recordParity u _) (by decide) r _ _

theorem same_restoreTenantRequest (r : Request) (u : State) :
    SameOutside (.curtail :: .live :: requestBlocks) u (State.restoreTenantRequest r u) := by
  unfold State.restoreTenantRequest
  dsimp only
  split
  · exact same_answer (by decide) (SameOutside.refl _ u) r _ _
  · exact same_answer (by decide) ((SameOutside.mono (same_putCurtail u _ _) (by decide)).trans
      (SameOutside.mono (same_putLive _ _ _) (by decide))) r _ _

theorem same_restoreOutletRequest (r : Request) (u : State) :
    SameOutside (.curtail :: requestBlocks) u (State.restoreOutletRequest r u) := by
  unfold State.restoreOutletRequest
  repeat' split
  all_goals first
    | exact same_answer (by decide) (SameOutside.refl _ u) r _ _
    | exact same_updateAnswer (by decide) (same_removeEntry u _) (by decide) r _ _
    | exact same_updateAnswer (by decide) (same_setOnPending u _ _) (by decide) r _ _

theorem same_discardRequest (r : Request) (u : State) :
    SameOutside (.curtail :: requestBlocks) u (State.discardRequest r u) := by
  unfold State.discardRequest
  repeat' split
  all_goals first
    | exact same_answer (by decide) (SameOutside.refl _ u) r _ _
    | exact same_updateAnswer (by decide) (same_removeEntry u _) (by decide) r _ _

theorem same_grantReset (r : Request) (u : State) : SameOutside requestBlocks u (State.grantReset r u) := by
  unfold State.grantReset
  exact (same_answer (l := requestBlocks) (by decide) (SameOutside.refl _ u) r _ _).trans
    (SameOutside.mono (same_setMgmt _ _) (by decide))

/-! ### Every command -/

/-- The parts that a command can change, whatever the command: every other part is as it was. -/
theorem exec_changes (c : Instr) (h : exec c s = .next t) : SameOutside c.changes s t := by
  cases c with
  | powerOn => exact same_of_next (same_restart s) h
  | imageLoadEnd _ _ => exact changes_imageLoadEnd h
  | internalAdvance n => exact changes_time _ n [] (.inl rfl) h
  | lossExpiry n => exact changes_time _ n [] (.inr (.inl rfl)) h
  | epoch n body => exact changes_time _ n body (.inr (.inr rfl)) h
  | commandTimeout _ => exact changes_commandTimeout h
  | portLost _ => exact changes_portLost h
  | holdSweepPosition => exact changes_holdSweepPosition h
  | holdSweepOutlet => exact changes_holdSweepOutlet h
  | tenantEvaluation => exact changes_tenantEvaluation h
  | curtailmentStep => exact changes_curtailmentStep h
  | intervalClose => exact changes_intervalClose h
  | sample p body => exact changes_sample p body h
  | chainMalformedFrame _ => exact changes_chainMalformedFrame h
  | switchAck _ _ => exact changes_switchAck h
  | pduReply _ _ => exact changes_pduReply h
  | chainRequest _ _ => exact changes_chainRequest h
  | uplinkRequest _ => exact changes_uplinkRequest h
  | pduPass _ => exact changes_pduPass h
  | uplinkFrameError => exact same_of_next (same_recordFault s _ _) h
  | markSend _ => exact changes_markSend h
  | switchSend _ => exact changes_switchSend h
  | passDownSend _ => exact changes_passDownSend h
  | downFrameEnd _ => exact changes_downFrameEnd h
  | uplinkFrameStart => exact changes_uplinkFrameStart h
  | uplinkFrameEnd => exact changes_uplinkFrameEnd h
  | noticeQueuing => exact changes_noticeQueuing h
  | keptResponseOffer => exact changes_keptResponseOffer h
  | readEntry => exact changes_readEntry h
  | writeEntryOat => exact onRequest_same (by decide) same_writeOatRequest h
  | oatClear => exact onRequest_same (by decide) same_clearOatRequest h
  | writeEntryRules => exact onRequest_same (by decide) same_writeRuleRequest h
  | writeEntryStaged => exact onRequest_same (by decide) same_writeStagedRequest h
  | writeEpochSource _ => exact changes_writeEpochSource h
  | portDisable =>
    exact onRequest_same (l := .settings :: .presence :: .readings :: .filling :: .closing :: .curtail :: requestBlocks)
      (by decide) (fun r u => same_writeSettingWith (by decide) (by decide) same_portDisableEffect r u) h
  | portEnable =>
    exact onRequest_same (l := .settings :: requestBlocks) (by decide)
      (fun r u => same_writeSettingWith (by decide) (by decide) same_portEnableEffect r u) h
  | writeErrorThreshold =>
    exact onRequest_same (l := .settings :: .notices :: requestBlocks) (by decide)
      (fun r u => same_writeSettingWith (by decide) (by decide) same_errorThresholdEffect r u) h
  | writeNoticeMask =>
    exact onRequest_same (l := .settings :: .notices :: .curtail :: requestBlocks) (by decide)
      (fun r u => same_writeSettingWith (by decide) (by decide) same_noticeMaskEffect r u) h
  | writeSetting =>
    exact onRequest_same (l := .settings :: requestBlocks) (by decide)
      (fun r u => same_writeSettingWith (by decide) (by decide) (fun _ _ _ v => SameOutside.refl _ v) r u) h
  | resolve => exact onRequest_same (by decide) same_resolveRequest h
  | commit =>
    exact onRequest_same (l := .contracts :: requestBlocks) (by decide)
      (fun r u => same_updateAnswer (by decide) (same_setContracts u _) (by decide) r _ _) h
  | cancelCommit =>
    exact onRequest_same (l := .contracts :: requestBlocks) (by decide)
      (fun r u => same_updateAnswer (by decide) (same_setContracts u _) (by decide) r _ _) h
  | copyActiveToStaged =>
    exact onRequest_same (l := .contracts :: .notices :: requestBlocks) (by decide)
      (fun r u => same_answer (by decide) ((SameOutside.mono (same_recordParity u _) (by decide)).trans
        (SameOutside.mono (same_setContracts _ _) (by decide))) r _ _) h
  | restoreTenant => exact onRequest_same (by decide) same_restoreTenantRequest h
  | restoreOutlet => exact onRequest_same (by decide) same_restoreOutletRequest h
  | discard => exact onRequest_same (by decide) same_discardRequest h
  | clearFault =>
    exact onRequest_same (l := .notices :: requestBlocks) (by decide)
      (fun r u => same_updateAnswer (by decide) (same_setNotices u _) (by decide) r _ _) h
  | readStatus =>
    exact onRequest_same (l := requestBlocks) (by decide) (fun r u => same_answer (by decide) (SameOutside.refl _ u) r _ _) h
  | unknownRequestCode =>
    exact onRequest_same (l := requestBlocks) (by decide) (fun r u => same_answer (by decide) (SameOutside.refl _ u) r _ _) h
  | saveImage =>
    exact onRequest_same (l := .notices :: requestBlocks) (by decide)
      (fun r u => (SameOutside.mono (same_recordParity u _) (by decide)).trans
        (SameOutside.mono (same_setMgmt _ _) (by decide))) h
  | saveEnd _ => exact changes_saveEnd h
  | resetLive =>
    exact onRequest_same (l := [.timer, .links, .downChoice, .presence, .readings, .filling, .closing, .live, .contracts,
      .curtail, .notices, .uplink, .upChoice, .mgmt]) (by decide)
      (fun r u => same_answer (by decide) (same_liveReset u) r _ _) h
  | resetFull => exact onRequest_same (by decide) same_grantReset h
  | resetFullStart => exact changes_resetFullStart h
  | storageUpset item parityToo => exact same_of_next (same_strike s parityToo item) h
  | writeEntryBadTable =>
    exact onRequest_same (l := requestBlocks) (by decide) (fun r u => same_answer (by decide) (SameOutside.refl _ u) r _ _) h

end

end Sys2Proof.Machine
end

