-- ==== Sys2Proof/Laws/Layout.lean ====
section
/-! SUPPORT. The byte layouts that the statements write out field by field are the ones the block builds (R187, R190 to
R192). -/

namespace Sys2Proof.Machine

/-- A field written out byte by byte is the big-endian number. -/
theorem fieldBytes_eq (n v : Nat) : fieldBytes n v = beBytes n v := by
  induction n generalizing v with
  | zero => rfl
  | succ n ih =>
    rw [beBytes, ← ih]
    unfold fieldBytes
    rw [List.range_succ, List.map_append]
    congr 1
    · apply List.map_congr_left
      intro i hi
      have hi := List.mem_range.1 hi
      rw [show n + 1 - 1 - i = (n - 1 - i) + 1 by omega, Nat.pow_succ, Nat.mul_comm, ← Nat.div_div_eq_div_mul]
    · simp

theorem layout_nil : layout [] = [] := rfl

theorem layout_cons (n v : Nat) (fields : List (Nat × Nat)) : layout ((n, v) :: fields) = beBytes n v ++ layout fields := by
  rw [← fieldBytes_eq]; rfl

theorem layout_append (a b : List (Nat × Nat)) : layout (a ++ b) = layout a ++ layout b := List.flatMap_append

/-- One byte of a layout is the byte. -/
theorem beBytes_byte (b : Byte) : beBytes 1 b.toNat = [b] := by simp [beBytes]

theorem length_beBytes (n v : Nat) : (beBytes n v).length = n := by
  rw [← fieldBytes_eq]; simp [fieldBytes]

/-! ### Numbers of named values -/

@[simp] theorem idxOf_tenantStates (x : TenantState) : tenantStates.idxOf x = x.code := by cases x <;> rfl
@[simp] theorem idxOf_linkStates (x : LinkState) : linkStates.idxOf x = x.code := by cases x <;> rfl
@[simp] theorem idxOf_presenceStates (x : PresenceState) : presenceStates.idxOf x = x.code := by cases x <;> rfl
@[simp] theorem idxOf_stages (x : Stage) : stages.idxOf x = x.code := by cases x <;> rfl
@[simp] theorem idxOf_restorings (x : Restoring) : restorings.idxOf x = x.code := by cases x <;> rfl
@[simp] theorem idxOf_sourceModes (x : SourceMode) : sourceModes.idxOf x = x.code := by cases x <;> rfl
@[simp] theorem idxOf_imageStates (x : ImageState) : imageStates.idxOf x = x.code := by cases x <;> rfl
@[simp] theorem idxOf_feeds (x : Feed) : feeds.idxOf x = feedCode x := by cases x <;> rfl
@[simp] theorem idxOf_policies (x : Policy) : policies.idxOf x = policyCode x := by cases x <;> rfl
@[simp] theorem idxOf_statuses (x : Status) : statuses.idxOf x = x.code := by cases x <;> rfl
theorem number_faultClass (x : FaultClass) : 1 + faultClasses.idxOf x = x.code := by cases x <;> rfl
theorem number_parityTable (x : ParityTable) : 1 + parityTables.idxOf x = x.code := by cases x <;> rfl
theorem classSeverity_eq (x : FaultClass) : classSeverity x = x.severity := by cases x <;> rfl

/-! ### Entries and bodies -/

theorem settingLayout_eq (v : Nat) : layout [(4, v)] = settingBytes v := by
  simp [layout_cons, layout_nil, settingBytes]

theorem oatLayout_eq (e : Option OatEntry) : oatLayout e = oatBytes e := by
  cases e with
  | none => rfl
  | some e =>
    simp only [oatLayout, oatBytes, layout_cons, layout_nil, idxOf_feeds, List.append_assoc, List.append_nil]
    cases e.shedRank <;> cases e.outletLimit <;> rfl

theorem flag_one (b : Bool) : flag b 1 = boolCode b := rfl

theorem ruleLayout_eq (r : Rule) : ruleLayout r = ruleBytes r := by
  simp only [ruleLayout, ruleBytes, layout_cons, layout_nil, idxOf_feeds, flag_one, List.append_assoc, List.append_nil]

theorem contractLayout_eq (c : Contract) : contractLayout c = contractBytes c := by
  simp only [contractLayout, contractBytes, layout_cons, layout_nil, idxOf_policies, flag_one, List.append_assoc,
    List.append_nil]

theorem tenantFlags_eq (r : LiveRecord) : tenantFlags r = liveFlags r := by
  unfold tenantFlags liveFlags
  cases r.incomplete <;> cases r.feedOverA <;> cases r.feedOverB <;> cases r.lastEpoch.isNone <;> rfl

theorem flag_pair (a b : Bool) : flag a 1 + flag b 2 = flagByte [a, b] := by cases a <;> cases b <;> rfl

theorem tenantLayout_eq (free : BitVec 16) (r : LiveRecord) (c : TenantCurtail) :
    tenantLayout free r c = tenantBytes free r c := by
  unfold tenantLayout tenantBytes LiveRecord.watts
  rw [tenantFlags_eq, flag_pair]
  simp only [layout_cons, layout_nil, idxOf_tenantStates, idxOf_restorings, List.append_assoc, List.append_nil]

theorem summaryLayout_eq (m : Option Summary) : summaryLayout m = summaryBytes m := by
  cases m with
  | none => rfl
  | some m =>
    simp only [summaryLayout, summaryBytes, layout_cons, layout_nil, idxOf_tenantStates, List.append_assoc, List.append_nil]

theorem curtailLayout_eq (e : Option CurtailEntry) : curtailLayout e = curtailBytes e := by
  cases e with
  | none => rfl
  | some e =>
    simp only [curtailLayout, curtailBytes, layout_cons, layout_nil, idxOf_stages, List.append_assoc, List.append_nil]
    cases e.sent <;> cases e.tried <;> cases e.resultOwed <;> rfl

theorem presenceLayout_eq (e : Presence) (a b : Bool) : presenceLayout e a b = presenceBytes e a b := by
  simp only [presenceLayout, presenceBytes, layout_cons, layout_nil, idxOf_presenceStates, flag_pair,
    List.append_assoc, List.append_nil]

theorem portLayout_eq (q : Port) : portLayout q = portBytes q := by
  simp only [portLayout, portBytes, layout_cons, layout_nil, idxOf_linkStates, flag_pair, List.append_assoc,
    List.append_nil]

theorem locationLayout_eq (l : Location) : layout (locationFields l) = locationBytes l := by
  cases l <;> simp only [locationFields, locationBytes, layout_cons, layout_nil, number_parityTable, List.append_nil,
    List.append_assoc] <;> rfl

theorem faultLayout_eq (f : Option FaultRecord) : layout (faultFields f) = faultBytes f := by
  cases f with
  | none => rfl
  | some f =>
    simp only [faultFields, faultBytes, List.cons_append, List.nil_append, layout_cons, layout_append, layout_nil,
      locationLayout_eq, number_faultClass, classSeverity_eq, List.append_assoc, List.append_nil]

theorem responseLayout_eq (r : Response) : responseLayout r = responseBody r := by
  simp only [responseLayout, responseBody, layout_cons, layout_nil, idxOf_statuses, beBytes_byte, List.append_assoc,
    List.append_nil]

theorem passDownLayout_eq (f : PassDown) : passDownLayout f = passDownBody f := by
  cases f <;> simp only [passDownLayout, passDownBody, layout_cons, layout_nil, beBytes_byte, responseLayout_eq,
    List.append_nil] <;> rfl

theorem noticeLayout_eq (n : Notice) : noticeLayout n = noticeBody n := by
  cases n with
  | fault f => simp only [noticeLayout, noticeBody, layout_cons, faultLayout_eq]; rfl
  | interval n g sw =>
    simp only [noticeLayout, noticeBody, layout_cons, layout_nil, flag_one, List.append_assoc, List.append_nil]
    rfl
  | tenant | port | pdu | source | curtail =>
    simp only [noticeLayout, noticeBody, layout_cons, layout_nil, idxOf_tenantStates, idxOf_restorings, idxOf_linkStates,
      idxOf_presenceStates, idxOf_sourceModes, idxOf_stages, tenantFlags_eq, flag_pair, LiveRecord.watts,
      List.append_assoc, List.append_nil]
    all_goals rfl

theorem statusLayout_eq (s : State) : s.statusLayout = s.statusData := by
  simp only [State.statusLayout, State.statusData, List.cons_append, List.nil_append, layout_cons, faultLayout_eq,
    idxOf_sourceModes, idxOf_imageStates, idxOf_linkStates, flag_one, List.append_assoc]

theorem tableEntryLength_eq (table : Nat) : tableEntryLength table = entryLength table := by
  match table with
  | 0 | 1 | 2 | 3 | 4 | 5 | 6 | 7 | 8 | 9 => rfl
  | n + 10 => simp [tableEntryLength, entryLength]

end Sys2Proof.Machine
end

