-- ==== Sys2Proof/Tests/Slice0.lean ====
section
/-! SUPPORT. Tests. The expected results are the spec's worked examples, and bytes and sums worked out by hand from
its tables; each test names its source. `witness_<statement>` shows states and operands that meet the hypotheses of
Obligations.<statement>, one for each of its clauses. -/

namespace Sys2Proof.Tests

-- One theorem after the other: a thread for each test's evaluation takes more memory than the check allows.
set_option Elab.async false

open Sys2Proof Sys2Proof.Machine

/-! ### Small states -/

/-- What a command's next state shows; none when it stops. -/
def after {α : Type} (c : Instr) (s : State) (f : State → α) : Option α :=
  match exec c s with
  | .next t => some (f t)
  | _ => none

def upPort : Port := { Port.initial with link := .up }

/-- A part in service: image OK, four ports UP, source INTERNAL at epoch 1 000, 1 000 ms after the last advance. -/
def run : State :=
  { State.reset with
    mgmt := { Mgmt.initial with imageState := .ok }, now := 5000,
    timer := { Timer.initial with epoch := 1000, refTime := 4000 },
    ports := [(0, upPort), (1, upPort), (2, upPort), (3, upPort)] }

def withPort (p : Nat) (q : Port) : State := run.putPort p q

/-- In service with a pass of epoch 998 at a given point. -/
def passAt (point : PassPoint) : State :=
  run.setTimer { run.timer with pass := some { epoch := 998, point := point } }

/-- In service with one entry in the curtailment table, in `slot`. -/
def holding (slot : Nat) (e : CurtailEntry) : State :=
  run.setCurtail { run.curtail with slots := [(slot, some e)], creation := 881 }

def ask (code : Byte) (data : List Byte) : Request := { origin := .uplink, tag := 7, code := code, data := data }

/-- In service with one request waiting. -/
def State.asked (s : State) (r : Request) : State := s.setUplink { s.uplink with requests := [r] }

def asked (code : Byte) (data : List Byte) : State := State.asked run (ask code data)

/-- The status and data of the response that the next state's uplink transmitter is about to send. -/
def answerOf (t : State) : Option (Status × List Byte) := t.uplink.responses.head?.map (fun r => (r.status, r.data))

/-- The contract of 05, section 5.15. -/
def burstContract : Contract :=
  { valid := true, committed := 10000, tolerance := 100, hysteresis := 50, burstCap := 30000, refillCap := 2000,
    feedCap := 0, quiet := 3, grace := 2, policy := .auto }

theorem entryAt_holding (slot m : Nat) (e f : CurtailEntry) :
    (holding slot e).entryAt m = some f ↔ m = slot ∧ f = e := by
  show (if slot = m then some e else none) = some f ↔ _
  split <;> simp_all [eq_comm]

theorem curtailLists_holding (slot : Nat) (e : CurtailEntry) (h : slot < 64) (hs : e.sent = true)
    (ho : e.resultOwed = false) : CurtailLists (holding slot e) := by
  refine ⟨fun n hn => ?_, fun p => ⟨List.nodup_nil, fun n => ⟨fun hm => absurd hm (List.not_mem_nil), ?_⟩⟩,
    List.nodup_nil, fun n => ⟨fun hm => absurd hm (List.not_mem_nil), ?_⟩⟩
  · cases he : (holding slot e).entryAt n with
    | none => rfl
    | some f => have := ((entryAt_holding slot n e f).1 he).1; omega
  · rintro ⟨f, hf, -, hsent, -⟩
    rw [((entryAt_holding slot n e f).1 hf).2, hs] at hsent
    cases hsent
  · rintro ⟨f, hf, hr⟩
    rw [((entryAt_holding slot n e f).1 hf).2, ho] at hr
    cases hr

/-- An entry of the table is one of its listed slots. -/
theorem entryAt_mem {s : State} {m : Nat} {f : CurtailEntry} (h : s.entryAt m = some f) : (m, some f) ∈ s.curtail.slots := by
  have key : ∀ l : Table (Option CurtailEntry), Table.read none l m = some f → (m, some f) ∈ l := by
    intro l
    induction l with
    | nil => intro h; cases h
    | cons a l ih =>
      obtain ⟨k, v⟩ := a
      intro h
      unfold Table.read at h
      split at h
      · next hk => rw [← hk, ← h]; exact List.mem_cons_self
      · exact List.mem_cons_of_mem _ (ih h)
  exact key _ h

theorem curtailLaws_holding (slot : Nat) (e : CurtailEntry) : CurtailLaws (holding slot e) := by
  intro m n f g _ _ hm hn
  rw [entryAt_holding] at hm hn
  exact ⟨fun _ => by rw [hm.1, hn.1], fun _ _ _ => by rw [hm.1, hn.1]⟩

/-! ### Well-formedness: each check refuses an ill-formed term -/

def goodImage : Image :=
  { settings := defaultSettings, slots := [(1320, { tenant := 31, feed := 0, shedRank := some 2, outletLimit := some 2000 })],
    rules := List.replicate 16 { enabled := false, compareKey := 0, mask := 0, tenant := 0, feed := 0 },
    contracts := [(23, { valid := true, committed := 10000, tolerance := 100, hysteresis := 50, burstCap := 30000,
                         refillCap := 2000, feedCap := 0, quiet := 3, grace := 2, policy := 2 })],
    generation := 17 }

theorem test_wellFormed_accepts : goodImage.wellFormed = true ∧ (Instr.sample 3 [0x00#8]).wellFormed = true
    ∧ (Instr.storageUpset (.oatSlot 4079 none) false).wellFormed = true := by decide +kernel

theorem test_wellFormed_refuses_ports : (Instr.sample 4 []).wellFormed = false ∧ (Instr.chainMalformedFrame 4).wellFormed = false
    ∧ (Instr.markSend 4).wellFormed = false ∧ (Instr.portLost 4).wellFormed = false
    ∧ (Instr.commandTimeout 64).wellFormed = false := by decide

theorem test_wellFormed_refuses_long_bodies : (Instr.pduPass (List.replicate 65530 0x00#8)).wellFormed = false
    ∧ (Instr.chainRequest 0 (List.replicate 65530 0x00#8)).wellFormed = false := by
  simp only [Instr.wellFormed, bodyFits, List.length_replicate]; decide

theorem test_wellFormed_refuses_images : { goodImage with settings := [] }.wellFormed = false
    ∧ { goodImage with rules := [] }.wellFormed = false
    ∧ { goodImage with slots := [(48, { tenant := 0, feed := 0, shedRank := none, outletLimit := none })] }.wellFormed = false
    ∧ { goodImage with contracts := goodImage.contracts.map (fun e : Nat × RawContract => (0, e.2)) }.wellFormed = false
    ∧ { goodImage with contracts := goodImage.contracts ++ goodImage.contracts }.wellFormed = false := by decide

theorem test_wellFormed_refuses_upsets : (Upset.oatSlot 48 none).wellFormed = false
    ∧ (Upset.oatSlot 0 (some { tenant := 0, feed := .a, shedRank := some 16, outletLimit := none })).wellFormed = false
    ∧ (Upset.oatSlot 0 (some { tenant := 128, feed := .a, shedRank := none, outletLimit := none })).wellFormed = false
    ∧ (Upset.oatSlot 0 (some { tenant := 0, feed := .a, shedRank := none, outletLimit := some 0 })).wellFormed = false
    ∧ (Upset.rule 16 Rule.disabled).wellFormed = false
    ∧ (Upset.rule 0 { Rule.disabled with mask := 4096 }).wellFormed = false
    ∧ (Upset.active 0 Contract.empty).wellFormed = false ∧ (Upset.staged 128 Contract.empty).wellFormed = false
    ∧ (Upset.staged 1 { Contract.empty with quiet := 0 }).wellFormed = false := by decide

/-! ### Frames (R186) -/

/-- The check value of polynomial 0x1021 with initial value 0xFFFF over the characters 1 to 9 is 0x29B1 (published). -/
theorem test_frameCheck_of_digits :
    frameCheck [0x31#8, 0x32#8, 0x33#8, 0x34#8, 0x35#8, 0x36#8, 0x37#8, 0x38#8, 0x39#8] = 0x29B1#16 := by decide +kernel

/-- MARK(741) to row 5: delimiter, length 8, kind 0x01, row 0x05, epoch 0x02E5 (R186, R187). -/
theorem test_mark_frame : (downFrameBytes 0x05#8 (.mark 741)).take 7 =
    [0x5A#8, 0x00#8, 0x08#8, 0x01#8, 0x05#8, 0x02#8, 0xE5#8] := by decide +kernel

/-- A SAMPLE frame with its bytes in order is the SAMPLE, its outlet-free body holding a delimiter's value; with one byte
struck, a malformed frame; a SAMPLE on the uplink is malformed there; without its delimiter it is no frame (R16, R159,
R186). -/
theorem test_received_sample :
    let sample := buildFrame 0x11#8 0x00#8 [0x03#8, 0x5A#8, 0xE7#8]
    receiveChain 2 (0x5A#8 :: sample) = some (.sample 2 [0x03#8, 0x5A#8, 0xE7#8])
    ∧ receiveChain 2 (0x5A#8 :: sample.set 4 0x04#8) = some (.chainMalformedFrame 2)
    ∧ receiveUplink 0 (0x5A#8 :: sample) = some .uplinkFrameError ∧ receiveChain 2 sample = none
    ∧ receiveUplink 9 (0x5A#8 :: buildFrame 0x21#8 0x00#8 [0x01#8, 0x91#8]) = some (.epoch 9 [0x01#8, 0x91#8]) := by
  decide +kernel

/-- The table's rows have no bits: no word spells a command. -/
theorem test_no_word_decodes : decodeTableWord 8 1 = none ∧ run.withFetchWord 8 1 = run := by decide +kernel

/-! ### The queue -/

theorem witness_StepRunsTheFrontCommand :
    (run.setPending [.commit, .readStatus]).pending = .commit :: [.readStatus] ∧ run.pending = [] := ⟨rfl, rfl⟩

/-! ### Epochs (01) -/

/-- 01, "an external source that stalls": 300 ms after the advance EPOCH(401) is early; at 1 000 ms EPOCH(410) advances
with a jump; the loss expiry at 4 000 ms makes 411. -/
def external (now : Nat) (epoch : Epoch) (ref : Nat) : State :=
  { run with now := now, timer := { run.timer with epoch := epoch, refTime := ref, mode := .external } }

theorem test_epoch_early : after (.epoch 300 [0x01#8, 0x91#8]) (external 0 400 0) (fun t => (t.timer.epoch, t.notices.fault))
    = some (400, some { cls := .epochEarly, location := .none, epoch := 400 }) := by decide +kernel

theorem test_epoch_jump : after (.epoch 700 [0x01#8, 0x9A#8]) (external 300 400 0)
    (fun t => (t.timer.epoch, t.timer.refTime, t.timer.pass.map Pass.epoch, (t.port 2).dueMark)) =
    some (410, 1000, some 399, some 410) := by decide +kernel

theorem test_lossExpiry : after (.lossExpiry 3000) (external 1000 410 1000)
    (fun t => (t.timer.epoch, t.timer.mode, t.timer.refTime, t.notices.fault)) =
    some (411, .fallback, 4000, some { cls := .sourceLost, location := .none, epoch := 411 }) := by decide +kernel

theorem test_internalAdvance : after (.internalAdvance 1000) { run with now := 4000, timer := { run.timer with epoch := 411, mode := .fallback } }
    (fun t => (t.timer.epoch, t.timer.mode, t.timer.refTime)) = some (412, .fallback, 5000) := by decide +kernel

theorem witness_EachSourceMakesItsAdvance :
    (run.mgmt.imageState ≠ .loading ∧ run.timer.mode ≠ .external ∧ run.timer.refTime + 1000 ≤ run.now + 0)
    ∧ ((external 0 400 0).mgmt.imageState ≠ .loading ∧ (external 0 400 0).timer.mode = .external
      ∧ (external 0 400 0).timer.refTime + 500 ≤ (external 0 400 0).now + 500
      ∧ (external 0 400 0).timer.refTime + 3000 ≤ (external 0 400 0).now + 3000) := by decide +kernel

theorem witness_TooEarlyOrInTheWrongModeNothingAdvances :
    (State.reset.mgmt.imageState = .loading ∧ (external 0 400 0).timer.mode = .external ∧ run.timer.mode ≠ .external)
    ∧ ({ run with now := 4999 }.now + 0 < run.timer.refTime + 1000 ∧ (external 0 400 0).now + 2999 < 0 + 3000
      ∧ [0x01#8].length < 2)
    ∧ ((external 0 400 0).mgmt.imageState ≠ .loading ∧ (external 0 400 0).timer.mode = .external
      ∧ 2 ≤ [0x01#8, 0x91#8].length ∧ (external 0 400 0).now + 499 < (external 0 400 0).timer.refTime + 500) := by decide +kernel

theorem witness_AdvancesAreHalfASecondApart : (Instr.internalAdvance 0).restartsTimer = false
    ∧ ∃ t, exec (.internalAdvance 0) run = .next t := ⟨rfl, _, rfl⟩

/-! ### Reset and load (10) -/

theorem witness_PowerOnRestartsEveryBlock :
    (State.setMgmt run { run.mgmt with resetDue := true }).mgmt.resetDue = true ∧ run.mgmt.resetDue = false
    ∧ after .powerOn run (fun t => t.mgmt.imageState) = some .loading
    ∧ after .resetFullStart run (fun t => t.mgmt.imageState) = some .ok := by decide +kernel

theorem witness_LoadWithoutAGoodImageLeavesDefaults : State.reset.mgmt.imageState = .loading
    ∧ State.reset.extMemory = none := ⟨rfl, rfl⟩

/-- R180: a bad checksum records IMAGE_INVALID with the epoch 0 of the reset timer (08, the fault record's sequence). -/
theorem test_load_badChecksum : after (.imageLoadEnd 40 .badChecksum) State.reset
    (fun t => (t.mgmt.imageState, t.notices.fault, (t.port 3).link, t.timer.refTime)) =
    some (.invalid, some { cls := .imageInvalid, location := .none, epoch := 0 }, .down, 40) := by decide +kernel

theorem witness_LoadTakesAGoodImage : State.reset.mgmt.imageState = .loading ∧ goodImage.wellFormed = true
    ∧ { State.reset with extMemory := some goodImage }.extMemory = some goodImage
    ∧ (1320, ({ tenant := 31, feed := 0, shedRank := some 2, outletLimit := some 2000 } : RawOatEntry)) ∈ goodImage.slots
    ∧ (goodImage.contracts.map Prod.fst) = [23] ∧ (goodImage.rules[15]?).isSome = true := by decide +kernel

/-- R99, R180: T23 starts WITHIN with full credit. -/
theorem test_load_goodImage : after (.imageLoadEnd 0 (.image goodImage)) State.reset
    (fun t => ((t.liveAt 23).state, (t.liveAt 23).credit, (t.slotAt 1320).content.map OatEntry.tenant, t.contracts.generation))
    = some (.within, 30000, some 31, 17) := by decide +kernel

/-- A save of the tables with one bad item of each kind. -/
def saving : State :=
  let s := { run with
    oat := [(1, { content := some { tenant := 3, feed := .b, shedRank := none, outletLimit := none }, parityGood := true }),
            (2, { content := none, parityGood := false })],
    rules := [(0, { content := { Rule.disabled with enabled := true }, parityGood := true }),
              (1, { content := Rule.disabled, parityGood := false })],
    contracts := { ContractStore.initial with
      active := [(1, { content := burstContract, parityGood := true }), (2, { content := burstContract, parityGood := false })] } }
  s.setMgmt { s.mgmt with imageState := .saving, save := some { origin := .uplink, tag := 500, snapshot := s.snapshot } }

def saved : Option State := after (.saveEnd .agrees) saving id

theorem witness_SavedImageLoadsBack :
    (TablesCanonical saving ∧ SettingsInRange saving)
    ∧ (saving.mgmt.save.map SaveJob.snapshot = some saving.snapshot
      ∧ saved.map (fun t => ({ State.reset with extMemory := t.extMemory } : State).mgmt.imageState) = some .loading)
    ∧ ((saving.slotAt 1).parityGood = true ∧ (∀ e ∈ (saving.slotAt 1).content, e.inRange = true) ∧ (saving.slotAt 2).parityGood = false)
    ∧ ((saving.ruleAt 0).parityGood = true ∧ (saving.ruleAt 0).content.inRange = true ∧ (saving.ruleAt 1).parityGood = false)
    ∧ ((saving.activeAt 1).parityGood = true ∧ (saving.activeAt 1).content.inRange = true
      ∧ (saving.activeAt 2).parityGood = false) := by
  unfold TablesCanonical SettingsInRange AccSet.canonical
  decide +kernel

/-- 10, "a save with a close inside it": the end of the save answers tag 500 OK and the image state is IMAGE_OK. -/
theorem test_saveEnd : saved.map (fun t => (t.mgmt.imageState, t.uplink.responses.map Response.tag, t.extMemory.isSome))
    = some (.ok, [500], true) := by decide +kernel

theorem test_saveImage : after .saveImage (asked 0x0B#8 []) (fun t => (t.mgmt.imageState, t.uplink.responses.length))
    = some (.saving, 0) := by decide +kernel

/-- R184: a live reset ends the interval and asks nothing of the image; answered OK. -/
theorem test_resetLive : after .resetLive (asked 0x0C#8 [])
    (fun t => (t.timer.intervalNumber, (t.port 0).link, answerOf t)) = some (1, .down, some (.ok, [])) := by
  decide +kernel

theorem test_resetFull : after .resetFull (asked 0x0D#8 []) (fun t => (t.mgmt.resetWaiting, t.mgmt.resetDue, answerOf t))
    = some (some .uplink, false, some (.ok, [])) := by decide +kernel

/-- R44: the struck slot's parity is bad. -/
theorem test_storageUpset : after (.storageUpset (.oatSlot 4079 none) false) run (fun t => (t.slotAt 4079).parityGood)
    = some false := by decide +kernel

theorem witness_StorageUpsetStrikesOneItem : keyValid 4079 = true ∧ keyValid 0 = true ∧ 15 < 16 ∧ 1 ≤ 1 ∧ 127 ≤ 127 := by decide

/-! ### Curtailment commands (07) -/

/-- 07, section 7.12: outlet 3.02.08 shed for T42 in slot 11, sent with tag 118. -/
def shed : CurtailEntry := { newEntry 3208 42 881 with sent := true, tag := 118, remaining := 1, attempts := 1 }

/-- Event 7: the advance to 5 005 times out the first send; the command is due again, unsent. -/
theorem test_advance_times_out : after (.internalAdvance 0) (holding 11 shed)
    (fun t => (t.entryAt 11, t.dueAt 3)) = some (some { shed with sent := false, remaining := 0 }, [11]) := by decide +kernel

theorem witness_TimeoutRetriesOrGivesUp :
    (holding 63 { shed with remaining := 0 }).entryAt 63 = some { shed with remaining := 0 }
    ∧ (holding 0 { shed with remaining := 0, attempts := 2 }).entryAt 0 = some { shed with remaining := 0, attempts := 2 }
    ∧ shed.pending = true ∧ shed.sent = true ∧ shed.attempts = 1 := by decide +kernel

/-- R135: after the second send the entry is UNCONFIRMED and its notice owed. -/
theorem test_commandTimeout : after (.commandTimeout 11) (holding 11 { shed with remaining := 0, attempts := 2 })
    (fun t => ((t.entryAt 11).map CurtailEntry.stage, t.curtail.owed)) = some (some .unconfirmed, [11]) := by decide +kernel

theorem witness_SilentPortIsLost :
    (withPort 3 { upPort with silentPass := 3 }).port 3 = { upPort with silentPass := 3 }
    ∧ (withPort 0 { upPort with link := .degraded, silentPass := 3 }).port 0 = { upPort with link := .degraded, silentPass := 3 } := by
  decide +kernel

/-- R18, R136: the third silent pass in a row loses D3 and its pending command. -/
theorem test_portLost : after (.portLost 3) ((holding 11 shed).putPort 3 { upPort with silentPass := 3 })
    (fun t => ((t.port 3).link, (t.entryAt 11).map CurtailEntry.stage, t.curtail.owed)) = some (.down, some .unconfirmed, [11]) := by
  decide +kernel

/-! ### The hold sweep (02, 04) -/

/-- 04, section 4.8: PDU 0.05 PRESENT, no SAMPLE for epoch 802; outlet 0.05.01 at age 2 with last reading 350. -/
def sweeping (point : PassPoint) (missed age : Nat) : State :=
  { passAt point with
    presence := [(5, { state := .present, missed := missed })],
    oat := [(320, { content := some { tenant := 12, feed := .a, shedRank := none, outletLimit := some 410 }, parityGood := true }),
            (321, { content := some { tenant := 12, feed := .b, shedRank := none, outletLimit := none }, parityGood := true })],
    readings := [(320, { last := some 420, age := age }), (321, { last := some 350, age := age })] }

theorem witness_HoldSweepCountsAMissedEpoch :
    ((passAt (.position 63)).passPoint = some (.position 63) ∧ ((passAt (.position 63)).presenceAt 63).state = .absent)
    ∧ ((sweeping (.position 5) 0 0).passPoint = some (.position 5)
      ∧ ((sweeping (.position 5) 0 0).presenceAt 5).state ≠ .absent ∧ (sweeping (.position 5) 0 0).closing.pduFlag 5 = false)
    ∧ ((State.setClosing (sweeping (.position 5) 2 0) (AccSet.cleared.markPdu 5)).closing.pduFlag 5 = true
      ∧ (State.setClosing (sweeping (.position 5) 2 0) (AccSet.cleared.markPdu 5)).passPoint = some (.position 5)) := by
  decide +kernel

/-- 04, section 4.8, passes 802 and 805: HELD, 1 after one miss, SILENT, 4 after the fourth under L = 3. -/
theorem test_holdSweepPosition :
    after .holdSweepPosition (sweeping (.position 5) 0 0) (fun t => t.presenceAt 5) = some { state := .held, missed := 1 }
    ∧ after .holdSweepPosition (sweeping (.position 5) 3 0) (fun t => t.presenceAt 5) = some { state := .silent, missed := 4 } := by
  decide +kernel

/-- R64: an ABSENT entry's outlets are passed over when the sweep reaches the entry, the last entry's as well. -/
theorem test_absent_entry_is_passed_over :
    after .holdSweepPosition (passAt (.position 5)) State.passPoint = some (some (.position 6))
    ∧ after .holdSweepPosition (passAt (.position 63)) State.passPoint = some (some (.tenant 0)) := by decide +kernel

/-- 04, section 4.8: held 420 W counts against the limit of 410 W; at age 4 the outlet is missing. -/
theorem test_holdSweepOutlet :
    after .holdSweepOutlet (sweeping (.outlet 5 0) 0 2) (fun t => (t.closing.sum .a 12, t.closing.over 12, (t.readingAt 320).age))
      = some (420, 1, 3)
    ∧ after .holdSweepOutlet (sweeping (.outlet 5 1) 0 3) (fun t => (t.closing.sum .b 12, t.closing.isIncomplete 12, (t.readingAt 321).age))
      = some (0, true, 4) := by decide +kernel

theorem witness_HoldSweepHoldsOrMissesAnOutlet :
    ((sweeping (.outlet 5 0) 0 2).passPoint = some (.outlet 5 0) ∧ ((sweeping (.outlet 5 0) 0 2).readingAt 320).last = some 420
      ∧ min 255 (((sweeping (.outlet 5 0) 0 2).readingAt 320).age + 1) ≤ (sweeping (.outlet 5 0) 0 2).holdLimit)
    ∧ ((sweeping (.outlet 5 1) 0 3).passPoint = some (.outlet 5 1)
      ∧ (sweeping (.outlet 5 1) 0 3).holdLimit < min 255 (((sweeping (.outlet 5 1) 0 3).readingAt 321).age + 1))
    ∧ ((sweeping (.outlet 5 47) 0 0).passPoint = some (.outlet 5 47)
      ∧ ((sweeping (.outlet 5 47) 0 0).readingAt 367).last = none) := by decide +kernel

/-- R64: a pass among the outlets of PDU 5 (PRESENT), of which `flags` are reported in the closing set. -/
def sweepingPast (point : PassPoint) (flags : List Nat) : State :=
  (sweeping point 0 0).setClosing (flags.foldl (fun a o => a.markOutlet (320 + o)) AccSet.cleared)

/-- R64: a reported outlet is passed over; after the last one the pass is at the next entry or at T0; an ABSENT entry's outlets
are passed over; the other places stand. -/
theorem witness_HoldSweepHoldsOrMissesAnOutlet_place :
    ((sweepingPast (.outlet 5 1) [1, 2]).passPoint = some (.outlet 5 3)
      ∧ (sweepingPast (.outlet 5 47) [47]).passPoint = some (.position 6)
      ∧ ((passAt (.outlet 63 0)).presenceAt 63).state = .absent ∧ (passAt (.outlet 63 0)).passPoint = some (.tenant 0)
      ∧ (passAt (.tenant 9)).passPoint = some (.tenant 9))
    ∧ after .holdSweepOutlet (sweepingPast (.outlet 5 0) [1]) State.passPoint = some (some (.outlet 5 2))
    ∧ after .holdSweepOutlet (sweepingPast (.outlet 5 46) [47]) State.passPoint = some (some (.position 6)) := by decide +kernel

/-! ### Tenant evaluation (05) -/

/-- Tenant 24 about to be evaluated: state, demand, credit, ticks-in-OVER, quiet; its feed-A sum is `d`. -/
def judging (st : TenantState) (dm b ticks quiet d : Nat) : State :=
  let s := (passAt (.tenant 24)).putLive 24 { LiveRecord.idle with state := st, demand := dm, credit := b,
                                                                   ticksInOver := ticks, quiet := quiet }
  (s.setContracts { s.contracts with active := [(24, { content := burstContract, parityGood := true })] }).setClosing
    { AccSet.cleared with sumA := Table.write 0 [] 24 d } |>.setSettings (defaultSettings.set 4 2)

/-- Demand, credit, state, ticks-in-OVER and quiet counter after the evaluation. -/
def judgement (s : State) : Option (Nat × Nat × TenantState × Nat × Nat) :=
  after .tenantEvaluation s (fun t => let r := t.liveAt 24; (r.demand, r.credit, r.state, r.ticksInOver, r.quiet))

/-- The eight passes of the table in 05, section 5.15. -/
theorem test_burst_episode : ∀ row ∈ ([
    (judging .within 2304000 30000 0 0 13000, 2560000, 30000, .within, 0, 0),
    (judging .within 2560000 30000 0 0 13000, 2752000, 29250, .burst, 0, 0),
    (judging .burst 2752000 29250 0 0 13000, 2896000, 27938, .over, 1, 0),
    (judging .over 2896000 27938 1 0 8000, 2684000, 27454, .over, 2, 0),
    (judging .over 2684000 27454 2 0 8000, 2525000, 27591, .over, 3, 0),
    (judging .over 2525000 27591 3 0 8000, 2405750, 28194, .over, 4, 1),
    (judging .over 2405750 28194 4 1 8000, 2316313, 29146, .over, 5, 2),
    (judging .over 2316313 29146 5 2 8000, 2249235, 30000, .within, 0, 0)] :
      List (State × Nat × Nat × TenantState × Nat × Nat)), judgement row.1 = some row.2 := by decide +kernel

/-- R77, R95: what four of the evaluations hand to the curtailment step, and one of a tenant without a contract. -/
theorem test_evaluation_hands_on : ∀ row ∈ ([
    (judging .within 2304000 30000 0 0 13000, .curtail 24 .other (some burstContract)),
    (judging .burst 2752000 29250 0 0 13000, .curtail 24 .endedHot (some burstContract)),
    (judging .over 2316313 29146 5 2 8000, .curtail 24 .overToWithin (some burstContract)),
    ((judging .over 0 5 1 0 0).setContracts ContractStore.initial, .curtail 24 .becameIdle none),
    (judging .idle 0 0 0 0 0, .curtail 24 .other none)] : List (State × PassPoint)),
    after .tenantEvaluation row.1 State.passPoint = some (some row.2) := by decide +kernel

theorem witness_EvaluationMovesDemandTowardTheDraw :
    ((judging .within 2304000 30000 0 0 13000).timer.pass = some { epoch := 998, point := .tenant 24 }
      ∧ (judging .within 2304000 30000 0 0 13000).passPoint = some (.tenant 24))
    ∧ ((judging .within 2304000 0 0 0 13000).liveAt 24).demand < 13000 * 256
    ∧ 8000 * 256 < ((judging .over 2896000 0 1 0 8000).liveAt 24).demand
    ∧ ((judging .over 2048000 0 1 0 8000).liveAt 24).demand = 8000 * 256
    ∧ (judging .over 2048000 0 1 0 8000).closing.sum .a 24 = 8000 := by decide +kernel

theorem witness_EvaluationJudgesTheContract :
    (judging .over 2316313 29146 5 2 8000).passPoint = some (.tenant 24)
    ∧ ((judging .over 2316313 29146 5 2 8000).liveAt 24).state ≠ .idle
    ∧ ((judging .over 2316313 29146 5 2 8000).activeAt 24).parityGood = true
    ∧ ((judging .over 2316313 29146 5 2 8000).activeAt 24).content.valid = true
    -- from OVER at Rel = 9 500 W with the quiet count full; a credit spent to 0 between C and H
    ∧ judgement (judging .over 2432000 0 1 2 9500) = some (2432000, 500, .within, 0, 0)
    ∧ judgement (judging .burst 2752000 750 0 0 10750) = some (2752000, 0, .over, 1, 0) := by decide +kernel

theorem witness_EvaluationWithoutAContractEndsIdle :
    ((judging .idle 0 0 0 0 0).liveAt 24).state = .idle
    ∧ ((passAt (.tenant 0)).passPoint = some (.tenant 0) ∧ ((passAt (.tenant 0)).liveAt 0).state = .idle)
    ∧ ((judging .over 0 5 1 0 0).setContracts { ContractStore.initial with
        active := [(24, { content := burstContract, parityGood := false })] } |>.activeAt 24).parityGood = false
    ∧ (((judging .over 0 5 1 0 0).setContracts ContractStore.initial).activeAt 24).content.valid = false
    ∧ judgement ((judging .over 0 5 1 0 0).setContracts ContractStore.initial) = some (0, 0, .idle, 0, 0) := by decide +kernel

/-! ### The curtailment step (07) -/

/-- R125: an evaluation that ended hot while T42's AUTO restore was going on, its command pending. -/
theorem witness_CurtailmentStepActsOnTheTransition :
    let s := fun t tr => (holding 11 { shed with tenant := t }).setTimer
      { run.timer with pass := some { epoch := 998, point := .curtail t tr (some burstContract) } }
    (∀ tr ∈ [Transition.overToWithin, .endedHot, .becameIdle, .other],
      (s 42 tr).passPoint = some (.curtail 42 tr (some burstContract)) ∧ (s 42 tr).tenantPending 42 = true)
    ∧ (s 127 .endedHot).tenantPending 127 = true
    -- nothing pending, and one condition of R126 not met at a time: the state, Dw at C, ticks at G - 1, the policy
    ∧ (∀ c ∈ [(TenantState.burst, 10001, 2, Policy.auto), (.over, 10000, 2, .auto), (.over, 10001, 1, .auto), (.over, 10001, 2, .notify)],
      ∀ k ∈ [{ burstContract with policy := c.2.2.2 }],
      ∀ u ∈ [(passAt (.curtail 42 .endedHot (some k))).putLive 42
        { LiveRecord.idle with state := c.1, demand := c.2.1 * 256, ticksInOver := c.2.2.1 }],
      u.tenantPending 42 = false ∧ (u.curtailAt 42).restoring = .none
        ∧ (k.policy = .notify ∨ (u.liveAt 42).state ≠ .over ∨ (u.liveAt 42).demand / 256 ≤ k.committed
          ∨ (u.liveAt 42).ticksInOver < k.grace)
        ∧ after .curtailmentStep u (fun t => t.curtail) = some Curtailment.initial)
    ∧ after .curtailmentStep ((s 42 .endedHot).putCurtail 42 { TenantCurtail.clear with restoring := .auto })
        (fun t => (t.curtailAt 42).restoring) = some .none := by decide +kernel

def sheddable (rank : Nat) : Stored (Option OatEntry) :=
  { content := some { tenant := 42, feed := .a, shedRank := some rank, outletLimit := none }, parityGood := true }

/-- 07, section 7.12 before event 1: T42 OVER above C with ticks-in-OVER 2; slots 0 to 9 taken. -/
def overC : State :=
  { passAt (.curtail 42 .endedHot (some { burstContract with committed := 6000 })) with
    live := [(42, { LiveRecord.idle with state := .over, demand := 6001 * 256, ticksInOver := 2 })],
    oat := [(724, sheddable 2), (3207, sheddable 1), (3208, sheddable 1)],
    presence := [(11, { state := .held, missed := 1 }), (50, { state := .present, missed := 0 })],
    curtail := { Curtailment.initial with
      slots := (List.range 10).map (fun n => (n, some { newEntry n 1 0 with stage := .off })),
      tagCounter := 117, creation := 880 } }

/-- Event 1. -/
theorem test_shed : after .curtailmentStep overC (fun t => (t.entryAt 10, t.curtail.creation, t.dueAt 3)) =
    some (some (newEntry 3207 42 880), 881, [10]) := by decide +kernel

/-- R124, R125: the same with an AUTO restore, which part 1 ends: restoring NONE, the tried flags clear, and the shed. -/
def overAuto : State :=
  let s := overC.putCurtail 42 { TenantCurtail.clear with restoring := .auto }
  s.putEntry 9 { newEntry 9 42 0 with stage := .off, tried := true }

theorem witness_ShedStepShedsTheFirstEligibleOutlet_auto :
    ((overAuto.curtailAt 42).restoring = .auto ∧ overAuto.tenantPending 42 = false
      ∧ overAuto.passPoint = some (.curtail 42 .endedHot (some { burstContract with committed := 6000 })))
    ∧ after .curtailmentStep overAuto (fun t => (t.curtailAt 42, (t.entryAt 9).map CurtailEntry.tried, t.entryAt 10, t.passPoint)) =
        some (TenantCurtail.clear, some false, some (newEntry 3207 42 880), some (.tenant 43)) := by decide +kernel

/-- The slots of `overC` by key. -/
theorem overC_slot {k : Nat} {e : OatEntry} (h : (overC.slotAt k).content = some e) :
    k = 724 ∧ e.shedRank = some 2 ∨ k = 3207 ∧ e.shedRank = some 1 ∨ k = 3208 ∧ e.shedRank = some 1 := by
  have hs : overC.slotAt k = if 724 = k then sheddable 2 else if 3207 = k then sheddable 1 else if 3208 = k then sheddable 1
      else absentSlot := rfl
  rw [hs] at h
  split at h
  · exact .inl ⟨by omega, by cases h; rfl⟩
  · split at h
    · exact .inr (.inl ⟨by omega, by cases h; rfl⟩)
    · split at h
      · exact .inr (.inr ⟨by omega, by cases h; rfl⟩)
      · cases h

theorem witness_ShedStepShedsTheFirstEligibleOutlet :
    let eligible := fun (k r : Nat) => 1 ≤ r ∧ r ≤ 15 ∧ (overC.slotAt k).parityGood = true
      ∧ (∃ e, (overC.slotAt k).content = some e ∧ e.tenant = 42 ∧ e.shedRank = some r)
      ∧ (∀ n, n < 64 → ∀ e, overC.entryAt n = some e → e.outlet ≠ k)
      ∧ ((overC.port (keyPort k)).link = .up ∨ (overC.port (keyPort k)).link = .degraded)
      ∧ (overC.presenceAt (keyPdu k)).state = .present
    TablesCanonical overC
    ∧ overC.passPoint = some (.curtail 42 .endedHot (some { burstContract with committed := 6000 }))
    ∧ ((overC.liveAt 42).state = .over ∧ 6000 < (overC.liveAt 42).demand / 256
      ∧ burstContract.grace ≤ (overC.liveAt 42).ticksInOver ∧ (overC.curtailAt 42).restoring = .none
      ∧ overC.tenantPending 42 = false ∧ burstContract.policy ≠ .notify)
    ∧ eligible 3207 1 ∧ (∀ k r, eligible k r → 1 < r ∨ (1 = r ∧ 3207 ≤ k))
    ∧ overC.entryAt 10 = none ∧ (∀ n, n < 10 → overC.entryAt n ≠ none) := by
  refine ⟨by unfold TablesCanonical AccSet.canonical; decide +kernel, by decide +kernel, by decide +kernel, ?_, ?_,
    by decide +kernel, by decide +kernel⟩
  · refine ⟨by decide, by decide, by decide +kernel, ⟨_, rfl, rfl, rfl⟩, ?_, by decide +kernel, by decide +kernel⟩
    intro n hn e he
    have : ∀ n, n < 64 → (overC.entryAt n).all (fun e => decide (e.outlet ≠ 3207)) = true := by decide +kernel
    have h := this n hn
    rw [he] at h
    exact of_decide_eq_true h
  · rintro k r ⟨-, -, -, ⟨e, he, -, hr⟩, -⟩
    rcases overC_slot he with ⟨rfl, h⟩ | ⟨rfl, h⟩ | ⟨rfl, h⟩ <;> rw [h] at hr <;> cases hr
    · exact .inl (by decide)
    · exact .inr ⟨rfl, by decide⟩
    · exact .inr ⟨rfl, by decide⟩

/-- Event 11's state: the table full, or no PDU PRESENT, with or without an AUTO restore. -/
def overFull : State := { overC with curtail := { overC.curtail with
  slots := (List.range 64).map (fun n => (n, some { newEntry n 1 0 with stage := .off })) } }
def overIdle (s : State) : State := { s with presence := [] }

/-- Event 11 (no eligible candidate: exhausted), and a full table (blocked). -/
theorem witness_ShedStepReportsExhaustedOrBlocked :
    (∀ s ∈ [overIdle overC, overIdle overAuto],
      s.passPoint = some (.curtail 42 .endedHot (some { burstContract with committed := 6000 })) ∧ s.tenantPending 42 = false
      ∧ after .curtailmentStep s (fun t => (t.curtailAt 42, t.passPoint)) =
          some ({ TenantCurtail.clear with exhausted := true }, some (.tenant 43)))
    ∧ ((∀ n, n < 64 → overFull.entryAt n ≠ none)
      ∧ after .curtailmentStep overFull (fun t => t.curtailAt 42) = some { TenantCurtail.clear with blocked := true }) := by
  decide +kernel

/-- Nothing is eligible where no PDU is PRESENT; outlet 3.02.07 is in `overFull`. -/
theorem witness_ShedStepReportsExhaustedOrBlocked_eligible :
    (∀ k, ((overIdle overC).presenceAt (keyPdu k)).state ≠ .present)
    ∧ (overFull.slotAt 3207 = sheddable 1 ∧ (∀ n, n < 64 → ∀ e, overFull.entryAt n = some e → e.outlet ≠ 3207)
      ∧ (overFull.port (keyPort 3207)).link = .up ∧ (overFull.presenceAt (keyPdu 3207)).state = .present) := by
  refine ⟨fun k h => (by cases h), by decide +kernel, ?_, by decide +kernel⟩
  intro n hn e he
  have : ∀ n, n < 64 → (overFull.entryAt n).all (fun e => decide (e.outlet ≠ 3207)) = true := by decide +kernel
  have h := this n hn
  rw [he] at h
  exact of_decide_eq_true h

/-- T42 restoring, with the table's slots `slots`; PDU 3.02 (index 50) is PRESENT, PDU 0.11 (index 11) SILENT. -/
def restoring (tr : Transition) (mode : Restoring) (slots : Table (Option CurtailEntry)) : State :=
  { passAt (.curtail 42 tr (some burstContract)) with
    live := [(42, { LiveRecord.idle with state := .within, ticksInOver := 3 })],
    presence := [(11, { state := .silent, missed := 9 }), (50, { state := .present, missed := 0 })],
    curtail := { Curtailment.initial with
      slots := slots, owed := [12], creation := 882,
      records := Table.write TenantCurtail.clear [] 42 { TenantCurtail.clear with restoring := mode } } }

/-- The oldest entry, in service; a SKIPPED one; one out of service, of the same creation sequence. -/
def offEntry : CurtailEntry := { newEntry 3207 42 880 with stage := .off }
def skippedEntry : CurtailEntry := { newEntry 3208 42 881 with stage := .skipped, resultOwed := true }
def strandedEntry : CurtailEntry := { newEntry 724 42 881 with stage := .off }

/-- R138: the way a restore can begin or go on. -/
def ways : List (Transition × Restoring) := [(.overToWithin, .none), (.other, .auto), (.endedHot, .forced)]

def mixedSlots : Table (Option CurtailEntry) := [(10, some offEntry), (11, some strandedEntry), (12, some skippedEntry)]

/-- R138: past the SKIPPED entry, which is removed, and the one out of service to the entry in service. -/
theorem witness_RestoreStepTakesTheMostRecentEntry :
    (∀ c ∈ ways, ∀ s ∈ [restoring c.1 c.2 mixedSlots],
      s.passPoint = some (.curtail 42 c.1 (some burstContract)) ∧ (s.curtailAt 42).restoring = c.2
      ∧ s.tenantPending 42 = false ∧ s.entryAt 10 = some offEntry)
    ∧ (∀ c ∈ ways, ∀ s ∈ [restoring c.1 c.2 mixedSlots],
      (s.port (keyPort 3207)).link = .up ∧ (s.presenceAt (keyPdu 3207)).state = .present
      ∧ after .curtailmentStep s (fun t => (t.entryAt 11, t.entryAt 12, t.curtail.owed, t.dueAt 3)) =
          some (some strandedEntry, none, [], [10]))
    ∧ ∀ m f, (restoring .other .auto mixedSlots).entryAt m = some f → m ≠ 10 → f.stage = .skipped
        ∨ ¬ (((restoring .other .auto mixedSlots).presenceAt (keyPdu f.outlet)).state = .present
          ∨ ((restoring .other .auto mixedSlots).presenceAt (keyPdu f.outlet)).state = .held) := by
  refine ⟨by decide +kernel, by decide +kernel, fun m f h hm => ?_⟩
  rcases (by simpa [restoring, mixedSlots] using entryAt_mem h : _ ∨ _ ∨ _) with ⟨rfl, -⟩ | ⟨-, rfl⟩ | ⟨-, rfl⟩
  · exact absurd rfl hm
  · exact .inr (by decide +kernel)
  · exact .inl rfl

/-- R138: of two entries made alike the lower slot's is taken (log 27). -/
theorem test_restore_of_two_with_one_sequence :
    after .curtailmentStep (restoring .other .auto [(10, some offEntry), (11, some { offEntry with outlet := 3206 })])
      (fun t => t.dueAt 3) = some [10] := by decide +kernel

/-- Event 19, and the same at once for a restore that begins in the step; with an entry out of service it waits. -/
theorem witness_RestoreStepWithoutACommandEndsOrWaits :
    (∀ c ∈ ways, ∀ s ∈ [restoring c.1 c.2 [(10, some { offEntry with tried := true }), (12, some skippedEntry)]],
      s.passPoint = some (.curtail 42 c.1 (some burstContract)) ∧ s.tenantPending 42 = false
      ∧ after .curtailmentStep s (fun t => ((t.curtailAt 42).restoring, (t.liveAt 42).ticksInOver, t.entryAt 10, t.entryAt 12)) =
          some (.none, 0, some offEntry, none))
    ∧ (∀ c ∈ ways, ∀ s ∈ [restoring c.1 c.2 [(11, some strandedEntry), (12, some skippedEntry)]],
      s.passPoint = some (.curtail 42 c.1 (some burstContract)) ∧ s.tenantPending 42 = false
      ∧ (s.presenceAt (keyPdu 724)).state = .silent
      ∧ after .curtailmentStep s (fun t => ((t.curtailAt 42).restoring, (t.liveAt 42).ticksInOver, t.entryAt 11, t.entryAt 12)) =
          some (if c.1 = .overToWithin then .auto else c.2, 3, some strandedEntry, none)) :=
  ⟨by decide +kernel, by decide +kernel⟩

/-- R10, R11: the pass that brings the count to I = 900 is the close of interval 41. -/
theorem witness_LastCurtailmentStepCompletesThePass :
    let s := fun n => (passAt (.curtail 127 .other none)).setTimer
      { (passAt (.curtail 127 .other none)).timer with tickCount := n, intervalNumber := 40 }
    ((s 898).passPoint = some (.curtail 127 .other none) ∧ (s 898).timer.tickCount + 1 < (s 898).ticksPerInterval
      ∧ (s 899).ticksPerInterval ≤ (s 899).timer.tickCount + 1)
    ∧ after .curtailmentStep (s 899) (fun t => (t.timer.tickCount, t.timer.handedClose)) = some (0, some 41)
    ∧ after .curtailmentStep (s 898) (fun t => (t.timer.tickCount, t.timer.handedClose)) = some (899, none) := by decide +kernel

/-! ### The interval close (06) -/

/-- 06, section 6.10: T23, T24, T25 at the close of interval 41 under generation 17. -/
def closing (pending : Bool) (image : ImageState) : State :=
  { run with
    mgmt := { run.mgmt with imageState := image },
    timer := { run.timer with intervalNumber := 41, handedClose := some 41 },
    live := [(23, { LiveRecord.idle with state := .within, credit := 26500, energy := 8712000, minCredit := 24310 }),
             (24, { LiveRecord.idle with state := .over, ticksInOver := 37, overTicks := 37 })],
    contracts := { ContractStore.initial with
      active := [(23, { content := burstContract, parityGood := true })],
      staged := [(23, { content := { burstContract with committed := 12000, burstCap := 20000, policy := .hold }, parityGood := true }),
                 (25, { content := { Contract.empty with valid := true, committed := 2000, burstCap := 8000 }, parityGood := true })],
      commitPending := pending, generation := 17 },
    curtail := { Curtailment.initial with
      slots := [(0, some { newEntry 23 23 0 with stage := .off, tried := true }), (1, some { newEntry 25 25 1 with stage := .off, tried := true })],
      records := [(23, { TenantCurtail.clear with restoring := .auto })] } }

theorem witness_CloseCapturesAndClears :
    (closing false .ok).timer.handedClose = some 41 ∧ (closing false .ok).contracts.commitPending = false
    ∧ (closing true .saving).mgmt.imageState = .saving := ⟨rfl, rfl, rfl⟩

/-- Case A, stages 1 to 4; the AUTO restore of T23 ends with its tried flags, T25's flags stay (R114). -/
theorem test_close_case_A : after .intervalClose (closing true .ok) (fun t =>
    ((t.summaryAt 23).map (fun m => (m.interval, m.generation, m.minCredit)), (t.liveAt 23).credit, (t.liveAt 25).credit)) =
    some (some (41, 17, 24310), 20000, 8000) ∧ after .intervalClose (closing true .ok) (fun t =>
    ((t.liveAt 24).state, (t.curtailAt 23).restoring, (t.entryAt 0).map CurtailEntry.tried, (t.entryAt 1).map CurtailEntry.tried)) =
      some (.idle, .none, some false, some true) := by decide +kernel

/-- Cases A and C: what the INTERVAL notice will carry. -/
theorem test_close_owes_interval : after .intervalClose (closing true .ok) (fun t => t.notices.intervalOwed) = some (some (41, 18, true))
    ∧ after .intervalClose (closing true .saving) (fun t => t.notices.intervalOwed) = some (some (41, 17, false)) := by decide +kernel

theorem witness_SwitchPutsTheStagedContractsInForce :
    (closing true .ok).timer.handedClose = some 41 ∧ (closing true .ok).contracts.commitPending = true
    ∧ (closing true .ok).mgmt.imageState ≠ .saving
    ∧ (((closing true .ok).liveAt 23).state ≠ .idle ∧ ((closing true .ok).stagedAt 23).content.valid = true)
    ∧ (((closing true .ok).liveAt 25).state = .idle ∧ ((closing true .ok).stagedAt 25).content.valid = true)
    ∧ (((closing true .ok).liveAt 24).state ≠ .idle ∧ ((closing true .ok).stagedAt 24).content.valid = false)
    ∧ (((closing true .ok).liveAt 127).state = .idle ∧ ((closing true .ok).stagedAt 127).content.valid = false) := by decide +kernel

/-- The same with a bad staged record of T24 alone. -/
def closingBad : State := (closing true .ok).setContracts { (closing true .ok).contracts with
  staged := [(24, { content := burstContract, parityGood := false })] }

/-- R113, R116. -/
theorem witness_SwitchPutsTheStagedContractsInForce_bad :
    (∀ x, x < 128 → decide ((closingBad.stagedAt x).parityGood = false) = decide (x = 24))
    ∧ after .intervalClose closingBad (fun t => (t.notices.fault.map FaultRecord.location, t.notices.intervalOwed)) =
        some (some (.item .staged 24), some (41, 18, true)) := by decide +kernel

/-! ### Frames on the chains (02, 04, 07) -/

theorem witness_DisabledPortsDiscardAndMalformedFramesCount :
    (withPort 1 Port.initial).port 1 = Port.initial
    ∧ ((withPort 1 { upPort with errorCount := 15 }).port 1).link = .up
    ∧ (withPort 1 { upPort with errorCount := 15 }).errorThreshold ≤ min 65535 (15 + 1)
    ∧ ¬ ((withPort 1 { upPort with errorCount := 14 }).errorThreshold ≤ min 65535 (14 + 1)) := by decide +kernel

/-- 02, "one port through its link states", step 3, with E = 4. -/
theorem test_malformed_degrades : after (.chainMalformedFrame 1)
    ((withPort 1 { upPort with errorCount := 3 }).setSettings (defaultSettings.set 5 4))
    (fun t => (t.port 1, t.notices.fault)) =
    some ({ upPort with link := .degraded, errorCount := 4 }, some { cls := .portDegraded, location := .port 1, epoch := 1000 }) := by
  decide +kernel

/-- 02, the acceptance window with current epoch 1 000: position 3 and epoch 999. -/
theorem witness_DiscardedSampleChangesOnlyTheLink :
    ((run.port 0).link ≠ .disabled ∧ [0x00#8, 0x00#8].length < 3)
    ∧ 15 < (0x10#8 : Byte).toNat
    ∧ ((withPort 0 { upPort with settling := true }).port 0).settling = true
    ∧ (run.timer.epoch - BitVec.ofNat 16 999 = 1
      ∧ (run.setFilling (AccSet.cleared.markPdu 3)).filling.pduFlag (0 * 16 + 3) = true)
    ∧ (run.port 0).settling = false ∧ run.timer.epoch - BitVec.ofNat 16 1000 ≠ 1 := by decide +kernel

/-- Arrival 3 of that table: MISTIMED_SAMPLE with location 0, 3. -/
theorem test_mistimed_sample : after (.sample 0 [0x03#8, 0x03#8, 0xE8#8]) run (fun t => t.notices.fault) =
    some (some { cls := .mistimedSample, location := .portPosition 0 3, epoch := 1000 }) := by decide +kernel

/-- Arrival 1; outlet 0.03.00 reads 420 W, which goes to the pool. -/
theorem test_sample : after (.sample 0 [0x03#8, 0x03#8, 0xE7#8, 0x00#8, 0x01#8, 0xA4#8]) run
    (fun t => (t.presenceAt 3, t.readingAt 192, t.filling.sum .a 0)) =
    some ({ state := .present, missed := 0 }, { last := some 420, age := 0 }, 420) := by decide +kernel

theorem witness_AcceptedSampleReportsItsPdu :
    (run.port 3).link ≠ .disabled ∧ (0x0F#8 : Byte).toNat ≤ 15 ∧ (run.port 3).settling = false
    ∧ run.timer.epoch - BitVec.ofNat 16 ((0x03#8 : Byte).toNat * 256 + (0xE7#8 : Byte).toNat) = 1
    ∧ run.filling.pduFlag (3 * 16 + 15) = false ∧ ([] : List Byte).length < 3 := by decide +kernel

/-- A list with every kind of entry that does not count: a repeat, outlet 48, the unmeasured value, the 49th. -/
def readingList : List (Byte × Byte × Byte) :=
  [(0x2F#8, 0xFF#8, 0xFE#8), (0x2F#8, 0x00#8, 0x01#8), (0x30#8, 0x00#8, 0x02#8), (0x00#8, 0xFF#8, 0xFF#8), (0x00#8, 0x00#8, 0x04#8)]
    ++ List.replicate 43 (0x3F#8, 0x00#8, 0x00#8) ++ [(0x01#8, 0x00#8, 0x08#8)]

theorem witness_MeasuredReadingIsChargedOnce :
    ((run.port 3).link ≠ .disabled ∧ (run.port 3).settling = false ∧ run.filling.pduFlag (3 * 16 + 15) = false
      ∧ run.timer.epoch - BitVec.ofNat 16 ((0x03#8 : Byte).toNat * 256 + (0xE7#8 : Byte).toNat) = 1
      ∧ [0x01#8, 0x00#8].length < 3 ∧ readingList.length = 49)
    ∧ measured ((readingList.take 48).map (fun e => (e.1.toNat % 64, e.2.1.toNat * 256 + e.2.2.toNat))) = [(47, 65534)]
    ∧ after (.sample 3 (0x0F#8 :: 0x03#8 :: 0xE7#8 :: (readingList.flatMap (fun e => [e.1, e.2.1, e.2.2]) ++ [0x01#8, 0x00#8]))) run
        (fun t => (t.filling.sum .a 0, t.filling.outletReported, (t.readingAt 4079).last)) =
      some (65534, [(4079, true)], some 65534) := by decide +kernel

/-- The tables of 03, section 3.10. -/
def overlapping : State :=
  { run with
    rules := [(1, { content := { enabled := false, compareKey := 1280, mask := 4032, tenant := 3, feed := .a }, parityGood := true }),
              (2, { content := { enabled := true, compareKey := 1024, mask := 3072, tenant := 9, feed := .a }, parityGood := true }),
              (5, { content := { enabled := true, compareKey := 1280, mask := 4032, tenant := 14, feed := .b }, parityGood := true }),
              (7, { content := { enabled := true, compareKey := 32, mask := 32, tenant := 20, feed := .b }, parityGood := true }),
              (11, { content := { enabled := true, compareKey := 0, mask := 0, tenant := 40, feed := .a }, parityGood := false })],
    oat := [(1320, { content := some { tenant := 31, feed := .a, shedRank := some 2, outletLimit := some 2000 }, parityGood := true }),
            (4079, { content := some { tenant := 50, feed := .a, shedRank := none, outletLimit := none }, parityGood := false })] }

/-- Its four RESOLVE requests: source, tenant, feed, matching rules as bits, slot bad. -/
theorem test_resolve : ∀ row ∈ ([
    ([0x05#8, 0x05#8], [0x01#8, 0x02#8, 0x09#8, 0x00#8, 0x00#8, 0x24#8, 0x00#8]),
    ([0x05#8, 0x28#8], [0x00#8, 0x00#8, 0x1F#8, 0x00#8, 0x00#8, 0xA4#8, 0x00#8]),
    ([0x08#8, 0x61#8], [0x01#8, 0x07#8, 0x14#8, 0x01#8, 0x00#8, 0x80#8, 0x00#8]),
    ([0x0F#8, 0xEF#8], [0x01#8, 0x07#8, 0x14#8, 0x01#8, 0x00#8, 0x80#8, 0x01#8])] : List (List Byte × List Byte)),
    after .resolve (State.asked overlapping (ask 0x03#8 row.1)) answerOf = some (some (.ok, row.2)) := by decide +kernel

theorem witness_ResolutionTakesTheFirstLayerThatHolds :
    ((overlapping.slotAt 1320).parityGood = true ∧ (overlapping.slotAt 1320).content.isSome = true)
    ∧ (overlapping.slotAt 4079).parityGood = false ∧ (overlapping.slotAt 1285).content = none
    ∧ ((overlapping.ruleAt 2).content.enabled = true ∧ (overlapping.resolution 1285).source = .rule 2)
    ∧ (run.resolution 1285).source = .pool := by decide +kernel

/-- 07, section 7.12, events 9 and 10: after the retry with tag 119 the answer to tag 118 is stale. -/
def retried : State := holding 11 { shed with tag := 119, attempts := 2, remaining := 2 }

theorem test_switchAck :
    after (.switchAck 3 [0x02#8, 0x08#8, 0x76#8, 0x00#8]) retried (fun t => (t.notices.fault, t.curtail.owed)) =
      some (some { cls := .staleAck, location := .outlet 3 2 8, epoch := 1000 }, [])
    ∧ after (.switchAck 3 [0x02#8, 0x08#8, 0x77#8, 0x00#8]) retried (fun t => (t.entryAt 11).map CurtailEntry.stage) =
      some (some .off) := by decide +kernel

theorem witness_MatchedAnswerEndsTheCommand : CurtailLaws retried
    ∧ (retried.port 3).link ≠ .disabled ∧ retried.entryAt 11 = some { shed with tag := 119, attempts := 2, remaining := 2 }
    ∧ shed.outlet = 3 * 1024 + (0x02#8 : Byte).toNat * 64 + (0x08#8 : Byte).toNat ∧ shed.pending = true ∧ shed.sent = true
    ∧ retried.masked .curtail = false ∧ (retried.setSettings (defaultSettings.set 19 1)).masked .curtail = true :=
  ⟨curtailLaws_holding _ _, by decide +kernel⟩

theorem witness_UnmatchedAnswerIsStale : (retried.port 3).link ≠ .disabled ∧ 15 < (0x10#8 : Byte).toNat
    ∧ 47 < (0x30#8 : Byte).toNat ∧ [0x02#8, 0x08#8, 0x77#8].length < 4
    ∧ ∀ n e, n < 64 → retried.entryAt n = some e → e.tag ≠ 0x76#8 := by
  refine ⟨by decide +kernel, by decide, by decide, by decide, fun n e _ h => ?_⟩
  obtain ⟨-, rfl⟩ := (entryAt_holding _ _ _ _).1 h
  decide

/-- R24, R163: a PDU-REPLY goes up even with forwarding off. -/
theorem test_pduReply : after (.pduReply 2 [0x05#8, 0xAB#8]) (run.setSettings (defaultSettings.set 11 0))
    (fun t => t.uplink.forwards) = some [{ port := 2, kind := 0x13#8, body := [0x05#8, 0xAB#8] }] := by decide +kernel

theorem witness_PduReplyIsForwarded : (run.port 2).link ≠ .disabled := by decide +kernel

/-! ### Frames on the uplink (09) -/

/-- 09, "a request round trip": READ_STATUS with tag 9 001 = 0x2329 arrives on D2 behind U1. -/
theorem test_chainRequest : after (.chainRequest 2 [0x04#8, 0x23#8, 0x29#8, 0x0A#8]) (asked 0x04#8 [])
    (fun t => t.uplink.requests.map (fun r => (r.origin, r.tag))) = some [(.uplink, 7), (.chain 2 0x04#8, 9001)] := by
  decide +kernel

theorem test_uplinkRequest : after (.uplinkRequest [0x23#8, 0x29#8, 0x0A#8]) run (fun t => t.uplink.requests) =
    some [{ origin := .uplink, tag := 9001, code := 0x0A#8, data := [] }] := by decide +kernel

theorem witness_RequestJoinsTheInputQueue : [0x00#8, 0x00#8].length < 3 ∧ (run.port 2).link ≠ .disabled
    ∧ [0x00#8, 0x00#8, 0x00#8].length < 4 := by decide +kernel

theorem test_pduPass : after (.pduPass [0x03#8, 0x0F#8, 0xAB#8]) run (fun t => (t.port 3).passDown) =
    some [.relay 0x0F#8 [0xAB#8]] := by decide +kernel

theorem test_uplinkFrameError : after .uplinkFrameError run (fun t => t.notices.fault) =
    some (some { cls := .frameError, location := .port 4, epoch := 1000 }) := by decide +kernel

theorem witness_PduPassIsRelayedAndFrameErrorIsRecorded :
    ((0x03#8 : Byte).toNat ≤ 3 ∧ (0x0F#8 : Byte).toNat ≤ 15 ∧ (run.port 3).link = .up ∧ (run.port 3).passDown.length < 4)
    ∧ [0x00#8].length < 2 := by decide +kernel

theorem witness_FramesAreReceivedAsBuiltOrAsMalformed : bodyFits [] = true ∧ [0x00#8].length < 6
    ∧ beNat ([0x00#8, 0x07#8, 0x11#8, 0x00#8, 0x00#8, 0x00#8].take 2) ≠ 6
    ∧ beNat ([0x00#8, 0x06#8, 0x11#8, 0x00#8, 0x00#8, 0x00#8].drop 4)
        ≠ (frameCheck [0x00#8, 0x06#8, 0x11#8, 0x00#8]).toNat
    ∧ (0x21#8 : Byte) ≠ 0x11#8 ∧ (0x11#8 : Byte) ≠ 0x14#8 ∧ bodyFits [0x5A#8] = true ∧ (0x5B#8 : Byte) ≠ 0x5A#8 := by
  decide +kernel

/-! ### Transmitters (02, 09) -/

/-- 02, "one transmitter under load": D2 with a MARK due, two unsent commands, two relays waiting. -/
def loaded (mark : Option Epoch) (due : List Nat) : State :=
  { run with
    ports := (withPort 2 { upPort with dueMark := mark, passDown := [.relay 1 [], .relay 2 []],
                                       tx := some { frame := .passDown (.relay 0 []), bytes := [] } }).ports,
    curtail := { Curtailment.initial with
      slots := [(0, some (newEntry 2314 1 0)), (1, some (newEntry 2626 2 1))], due := Table.write [] [] 2 due } }

/-- Its column "waiting, in service order": MARK, then S1, then P2. -/
theorem test_downFrameEnd :
    after (.downFrameEnd 2) (loaded (some 741) [0, 1]) (fun t => (t.port 2).choice) = some (some .mark)
    ∧ after (.downFrameEnd 2) (loaded none [0, 1]) (fun t => (t.port 2).choice) = some (some .switch)
    ∧ after (.downFrameEnd 2) (loaded none []) (fun t => (t.port 2).choice) = some (some .passDown) := by decide +kernel

/-- The loaded port after its frame has ended. -/
def chosen (mark : Option Epoch) (due : List Nat) : State := (after (.downFrameEnd 2) (loaded mark due) id).getD run

theorem witness_ChosenDownFrameIsStarted :
    ((((chosen (some 741) [0, 1]).port 2).choice = some .mark ∧ ((chosen (some 741) [0, 1]).port 2).dueMark = some 741)
    ∧ (((chosen none []).port 2).choice = some .passDown ∧ ((chosen none []).port 2).passDown = .relay 1 [] :: [.relay 2 []]))
    ∧ (((chosen none [0, 1]).port 2).choice = some .switch ∧ (chosen none [0, 1]).dueAt 2 = 0 :: [1] ∧ 0 ∉ [1]
      ∧ (chosen none [0, 1]).entryAt 0 = some (newEntry 2314 1 0)) := by decide +kernel

/-- The due lists of `loaded` are exact, and D2's is not empty. -/
theorem witness_ChosenDownFrameIsStarted_dueLists :
    CurtailLists (loaded none [0, 1]) ∧ (loaded none [0, 1]).dueAt 2 = 0 :: [1] := by
  have hent : ∀ n, (loaded none [0, 1]).entryAt n =
      if 0 = n then some (newEntry 2314 1 0) else if 1 = n then some (newEntry 2626 2 1) else none := fun _ => rfl
  have hdue : ∀ p, (loaded none [0, 1]).dueAt p = if 2 = p then [0, 1] else [] := fun _ => rfl
  refine ⟨⟨fun n hn => ?_, fun p => ⟨?_, fun n => ?_⟩, List.nodup_nil, fun n => ⟨fun h => absurd h (List.not_mem_nil), ?_⟩⟩, rfl⟩
  · rw [hent, if_neg (by omega), if_neg (by omega)]
  · rw [hdue]; split <;> decide
  · rw [hdue, hent]
    by_cases hp : 2 = p
    · subst hp
      by_cases h0 : 0 = n
      · subst h0; exact ⟨fun _ => ⟨_, rfl, rfl, rfl, rfl⟩, fun _ => List.mem_cons_self⟩
      · by_cases h1 : 1 = n
        · subst h1; exact ⟨fun _ => ⟨_, rfl, rfl, rfl, rfl⟩, fun _ => by decide⟩
        · simp [h0, h1, Ne.symm h0, Ne.symm h1]
    · rw [if_neg hp]
      refine ⟨fun h => absurd h (List.not_mem_nil), ?_⟩
      rintro ⟨e, he, -, -, hk⟩
      split at he <;> [skip; split at he] <;> cases he <;> exact absurd hk hp
  · rintro ⟨e, he, hr⟩
    rw [hent] at he
    split at he <;> [skip; split at he] <;> cases he <;> cases hr

theorem test_markSend : after (.markSend 2) (chosen (some 741) [0, 1]) (fun t => ((t.port 2).dueMark, (t.port 2).tx.map DownSend.frame)) =
    some (none, some (.mark 741)) := by decide +kernel

/-- R129: tag from the counter, one attempt, remaining Tc = 2, sent. -/
theorem test_switchSend : after (.switchSend 2) (chosen none [0, 1])
    (fun t => (t.entryAt 0, t.dueAt 2, (t.port 2).tx.map DownSend.frame)) =
    some (some { newEntry 2314 1 0 with sent := true, attempts := 1, remaining := 2 }, [1], some (.switch 4 10 false 0)) := by
  decide +kernel

theorem test_passDownSend : after (.passDownSend 2) (chosen none [])
    (fun t => ((t.port 2).passDown, (t.port 2).tx.map DownSend.frame)) =
    some ([.relay 2 []], some (.passDown (.relay 1 []))) := by decide +kernel

theorem witness_DownFrameEndChoosesTheNextFrame :
    ((loaded none []).port 2).tx = some { frame := .passDown (.relay 0 []), bytes := [] } ∧ ((loaded none []).port 2).choice = none
    ∧ (let r : Response := { tag := 1, code := 0x0D#8, status := .ok, data := [] }
       let s := (withPort 2 { upPort with tx := some { frame := .passDown (.response 4 r), bytes := [] } }).setMgmt
         { run.mgmt with resetWaiting := some (.chain 2 4) }
       (s.port 2).tx = some { frame := .passDown (.response 4 r), bytes := [] } ∧ s.mgmt.resetWaiting = some (.chain 2 4)) := by
  decide +kernel

/-- 09, "one backlog under each mode": last served is NOTICE; a response, a notice and a forward wait. -/
def backlog (last : UplinkKind) (mode : Nat) (tx : Option UplinkSend) : State :=
  { run with
    uplink := { Uplink.initial with
      responses := [{ tag := 1, code := 0x0D#8, status := .ok, data := [] }],
      forwards := [{ port := 0, kind := 0x11#8, body := [] }], tx := tx, lastServed := last },
    notices := { NoticeUnit.initial with queue := [.source .internal 0] },
    settings := defaultSettings.set 12 mode }

def sending : Option UplinkSend := some { frame := .notice (.source .internal 0), bytes := [] }

/-- Start 1 under ROUND_ROBIN and under PRIORITY. -/
theorem test_uplinkFrameEnd :
    after .uplinkFrameEnd (backlog .notice 0 sending) (fun t => t.uplink.choice) = some (some .forward)
    ∧ after .uplinkFrameEnd (backlog .notice 1 sending) (fun t => t.uplink.choice) = some (some .response) := by decide +kernel

theorem test_uplinkFrameStart : after .uplinkFrameStart ((after .uplinkFrameEnd (backlog .notice 0 sending) id).getD run)
    (fun t => (t.uplink.forwards, t.uplink.lastServed, t.uplink.tx.isSome)) = some ([], .forward, true) := by decide +kernel

theorem witness_UplinkTransmitterServesItsQueues :
    (∀ last ∈ [UplinkKind.response, .notice, .forward],
      (let s := (after .uplinkFrameEnd (backlog last 0 sending) id).getD run
       s.uplink.choice.isSome = true ∧ s.uplink.responses ≠ [] ∧ s.notices.queue ≠ [] ∧ s.uplink.forwards ≠ []))
    ∧ ((backlog .forward 0 sending).uplink.tx = sending ∧ (backlog .forward 0 sending).uplink.choice = none)
    ∧ (let r : Response := { tag := 1, code := 0x0D#8, status := .ok, data := [] }
       let s := (backlog .notice 0 (some { frame := .response r, bytes := [] })).setMgmt { run.mgmt with resetWaiting := some .uplink }
       s.uplink.tx = some { frame := .response r, bytes := [] } ∧ s.mgmt.resetWaiting = some .uplink
       ∧ after .uplinkFrameEnd s (fun t => t.mgmt.resetDue) = some true) := by decide +kernel

/-- 08, "the queue during one pass", event 1: PDU 1.05 (index 21) HELD is owed against its announced PRESENT. -/
def owing : State :=
  { run with
    presence := [(21, { state := .held, missed := 1 })],
    notices := { NoticeUnit.initial with annPresence := [(21, .present)],
                                         annPort := [(0, .up), (1, .up), (2, .up), (3, .up)] } }

theorem test_noticeQueuing : after .noticeQueuing owing (fun t => (t.notices.queue, t.notices.annPresence)) =
    some ([.pdu 21 .held 1], [(21, .held)]) := by decide +kernel

theorem test_keptResponseOffer : after .keptResponseOffer
    (run.setMgmt { run.mgmt with kept := [{ tag := 1, code := 0x04#8, status := .ok, data := [] }] })
    (fun t => (t.mgmt.kept, t.uplink.responses.map Response.tag)) = some ([], [1]) := by decide +kernel

theorem witness_WaitingNoticesAndResponsesTakeAPlace :
    (owing.notices.queue.length < 8 ∧ owing.mgmt.imageState ≠ .loading
      ∧ ([OwedItem.fault, .source, .interval, .port 0, .port 1, .port 2, .port 3] ++ (List.range 64).map .pdu
          ++ owing.curtail.owed.map .curtail ++ (List.range 127).map (fun n => .tenant (n + 1)))
        = ([.fault, .source, .interval, .port 0, .port 1, .port 2, .port 3] ++ (List.range 21).map .pdu)
          ++ .pdu 21 :: ((List.range 42).map (fun i => .pdu (i + 22)) ++ (List.range 127).map (fun n => .tenant (n + 1)))
      ∧ (owing.notices.fault = owing.notices.annFault ∧ owing.timer.mode = owing.notices.annSource ∧ owing.notices.intervalOwed = none
        ∧ (∀ p ∈ [0, 1, 2, 3], (owing.port p).link = Table.read .disabled owing.notices.annPort p)
        ∧ (∀ i, i < 21 → (owing.presenceAt i).state = Table.read .absent owing.notices.annPresence i))
      ∧ (owing.setting 15 ≠ 1 ∧ (owing.presenceAt 21).state ≠ Table.read .absent owing.notices.annPresence 21))
    ∧ ((State.setNotices owing { owing.notices with queue := List.replicate 8 (.source .internal 0) }).notices.queue.length = 8
      ∧ State.reset.mgmt.imageState = .loading)
    ∧ ((State.setMgmt run { run.mgmt with kept := [{ tag := 1, code := 0x04#8, status := .ok, data := [] }] }).mgmt.kept ≠ []
      ∧ run.uplink.responses.length < 4 ∧ run.mgmt.kept = []) := by decide +kernel

/-! ### Requests (10) -/

/-- The request with this code and data is taken by the command of row `row`. -/
theorem taken_asked {s : State} {row : RequestRow} {r : Request}
    (h : s.ready = true ∧ requestRow r = row ∧ s.generalTest r = none) : Taken (State.asked s r) row r := by
  obtain ⟨hr, hrow, hg⟩ := h
  simp only [State.ready, Bool.and_eq_true, Option.isNone_iff_eq_none, List.isEmpty_iff] at hr
  refine ⟨⟨⟨hr.1.1, hr.1.2, hr.2⟩, rfl, hrow⟩, ?_⟩
  unfold State.generalTest at hg
  unfold PassesGeneralTests
  rw [requestFits_eq]
  simp only [isWrite_iff]
  split at hg
  · cases hg
  · split at hg
    · cases hg
    · split at hg
      · cases hg
      · split at hg
        · cases hg
        · show (s.mgmt.imageState = _ → _) ∧ _ ∧ (_ → _ → s.chainWritePermit = true) ∧ (_ → s.mgmt.imageState ≠ _)
          simp_all [codeReadStatus]

/-- A request command's response: its status and data. -/
def responds (c : Instr) (s : State) (code : Byte) (data : List Byte) : Option (Option (Status × List Byte)) :=
  after c (State.asked s (ask code data)) answerOf

theorem witness_GeneralTestsAnswerInOrder :
    let head := fun (s : State) (row : RequestRow) (r : Request) => (State.asked s r).ready = true ∧ requestRow r = row
    (head State.reset .commit (ask 0x04#8 []) ∧ State.reset.mgmt.imageState = .loading ∧ (0x04#8 : Byte) ≠ 0x0A#8)
    ∧ (head run .unknownRequestCode (ask 0x0E#8 []) ∧ requestFits 0x0E#8 [] = false)
    ∧ (head run .commit (ask 0x04#8 [0x00#8]) ∧ requestFits 0x04#8 [0x00#8] = false)
    ∧ (head run .commit { ask 0x04#8 [] with origin := .chain 1 0x00#8 } ∧ run.chainWritePermit = false)
    ∧ (head saving .commit (ask 0x04#8 []) ∧ saving.mgmt.imageState = .saving) := by decide +kernel

/-- 10, "a save with a close inside it": tags 501, 502 and 77 during the save. -/
theorem test_requests_during_a_save :
    responds .oatClear saving 0x02#8 [0x01#8, 0x05#8, 0x28#8, 0x00#8, 0x00#8, 0x00#8, 0x00#8, 0x00#8, 0x00#8] =
        some (some (.busy, []))
    ∧ after .clearFault (State.asked saving { ask 0x09#8 [] with origin := .chain 1 0x05#8 }) (fun t => (t.port 1).passDown) =
        some [.response 0x05#8 { tag := 7, code := 0x09#8, status := .locked, data := [] }] := by decide +kernel

theorem test_readStatus : responds .readStatus saving 0x0A#8 [] = some (some (.ok,
    [0x03#8, 0xE8#8, 0x00#8, 0x00#8, 0x00#8, 0x00#8, 0x00#8, 0x00#8, 0x00#8, 0x00#8, 0x00#8, 0x04#8, 0x02#8, 0x02#8, 0x02#8, 0x02#8,
     0x01#8, 0x00#8, 0x00#8, 0x00#8, 0x00#8, 0x00#8, 0x00#8, 0x00#8])) := by decide +kernel

/-- R190, R191: setting 2, ticks per interval, reads 900 = 0x384. -/
theorem test_readEntry : responds .readEntry run 0x01#8 [0x00#8, 0x00#8, 0x02#8, 0x01#8] =
    some (some (.ok, [0x00#8, 0x00#8, 0x02#8, 0x01#8, 0x00#8, 0x00#8, 0x00#8, 0x03#8, 0x84#8])) := by decide +kernel

/-- A READ_ENTRY of eight OAT slots with `done` copies made. -/
def reading (done : Nat) : State :=
  let job : ReadJob := { origin := .uplink, tag := 7, table := 1, first := 40, count := 8, done := done, copied := [] }
  run.setMgmt { run.mgmt with current := some job }

theorem witness_ReadEntryCopiesOneEntryPerEvent :
    (∀ data ∈ [[0x0A#8, 0x00#8, 0x00#8, 0x01#8], [0x09#8, 0x00#8, 0x00#8, 0x00#8], [0x09#8, 0x00#8, 0x00#8, 0x09#8],
        [0x09#8, 0x00#8, 0x04#8, 0x01#8], [0x09#8, 0x00#8, 0x03#8, 0x01#8], [0x01#8, 0x00#8, 0x28#8, 0x08#8]],
      run.ready = true ∧ requestRow (ask 0x01#8 data) = .readEntry ∧ run.generalTest (ask 0x01#8 data) = none)
    ∧ (rangeFits 9 4 1 = false ∧ rangeFits 9 3 1 = true ∧ rangeFits 1 40 8 = true ∧ rangeFits 1 41 8 = false)
    ∧ (∀ done ∈ [1, 7], (reading done).mgmt.current.isSome = true) := by
  decide +kernel

/-- T31, feed A, rank 2, limit 2 000 W = 0x7D0 for 1.04.40 (03, section 3.10). -/
def oatData : List Byte := [0x01#8, 0x05#8, 0x28#8, 0x07#8, 0x1F#8, 0x00#8, 0x02#8, 0x07#8, 0xD0#8]

def holding1320 : State := holding 0 { newEntry 1320 31 0 with stage := .off }

theorem test_writeEntryOat : responds .writeEntryOat run 0x02#8 oatData = some (some (.ok, oatData))
    ∧ responds .writeEntryOat holding1320 0x02#8 oatData = some (some (.held, []))
    ∧ responds .writeEntryOat run 0x02#8 (oatData.set 6 0x10#8) = some (some (.badValue, [])) := by decide +kernel

theorem test_oatClear : responds .oatClear run 0x02#8 (oatData.set 3 0x06#8) =
    some (some (.ok, [0x01#8, 0x05#8, 0x28#8, 0x00#8, 0x00#8, 0x00#8, 0x00#8, 0x00#8, 0x00#8])) := by decide +kernel

theorem witness_OatWritesTestThenStore :
    (Taken (State.asked run (ask 0x02#8 oatData)) .writeEntryOat (ask 0x02#8 oatData)
      ∧ Taken (State.asked run (ask 0x02#8 (oatData.set 3 0x06#8))) .oatClear (ask 0x02#8 (oatData.set 3 0x06#8)))
    ∧ (¬ (48 % 64 < 48) ∧ 1320 % 64 < 48 ∧ ∃ n e, n < 64 ∧ holding1320.entryAt n = some e ∧ e.outlet = 1320)
    ∧ ({ tenant := 31, feed := .a, shedRank := some 16, outletLimit := none } : OatEntry).inRange = false
    ∧ ({ tenant := 31, feed := .a, shedRank := some 2, outletLimit := some 2000 } : OatEntry).inRange = true :=
  ⟨⟨taken_asked (by decide +kernel), taken_asked (by decide +kernel)⟩, ⟨by decide, by decide, 0, _, by decide, rfl, rfl⟩,
    by decide, by decide⟩

/-- Rule 5 of 03, section 3.10: key 1 280 = 0x500, mask 4 032 = 0xFC0, T14, feed B. -/
def ruleData : List Byte := [0x02#8, 0x00#8, 0x05#8, 0x01#8, 0x05#8, 0x00#8, 0x0F#8, 0xC0#8, 0x0E#8, 0x01#8]

/-- T23's staged record of 06, section 6.10: C 12 000, T 100, Y 50, Bmax 20 000, Rf 1 500, F 0, Q 3, G 2, HOLD. -/
def stagedData : List Byte := [0x03#8, 0x00#8, 0x17#8, 0x01#8, 0x00#8, 0x2E#8, 0xE0#8, 0x00#8, 0x64#8, 0x00#8, 0x32#8,
  0x00#8, 0x00#8, 0x4E#8, 0x20#8, 0x00#8, 0x05#8, 0xDC#8, 0x00#8, 0x00#8, 0x00#8, 0x03#8, 0x02#8, 0x01#8]

theorem test_writeEntryRules : responds .writeEntryRules run 0x02#8 ruleData = some (some (.ok, ruleData))
    ∧ responds .writeEntryRules run 0x02#8 (ruleData.set 2 0x10#8) = some (some (.badIndex, [])) := by decide +kernel

theorem test_writeEntryStaged : responds .writeEntryStaged run 0x02#8 stagedData = some (some (.ok, stagedData))
    ∧ responds .writeEntryStaged run 0x02#8 (stagedData.set 21 0x00#8) = some (some (.badValue, [])) := by decide +kernel

theorem witness_RuleAndStagedWritesTestThenStore :
    (∀ data ∈ [ruleData, ruleData.set 2 0x10#8, ruleData.set 9 0x02#8],
      run.ready = true ∧ requestRow (ask 0x02#8 data) = .writeEntryRules ∧ run.generalTest (ask 0x02#8 data) = none)
    ∧ (∀ data ∈ [stagedData, stagedData.set 2 0x80#8, stagedData.set 2 0x00#8, stagedData.set 21 0x00#8],
      run.ready = true ∧ requestRow (ask 0x02#8 data) = .writeEntryStaged ∧ run.generalTest (ask 0x02#8 data) = none)
    ∧ (checkContract (parseContract (stagedData.drop 3))).isSome = true ∧ (parseContract (stagedData.drop 3)).committed = 12000
    ∧ (parseContract ((stagedData.set 21 0x00#8).drop 3)).quiet = 0
    ∧ burstContract.inRange = true := by decide +kernel

/-- Settings writes: index, value. -/
def settingData (i : Byte) (v : Byte) : List Byte := [0x00#8, 0x00#8, i, 0x00#8, 0x00#8, 0x00#8, v]

/-- R175: 59 ticks per interval become 60. -/
theorem test_writeSetting : responds .writeSetting run 0x02#8 (settingData 0x02#8 0x3B#8) =
    some (some (.ok, settingData 0x02#8 0x3C#8)) := by decide +kernel

/-- R20: E = 3 takes the UP port with 3 errors to DEGRADED. -/
theorem test_writeErrorThreshold : after .writeErrorThreshold
    (State.asked (withPort 1 { upPort with errorCount := 3 }) (ask 0x02#8 (settingData 0x05#8 0x03#8)))
    (fun t => ((t.port 1).link, (t.port 0).link)) = some (.degraded, .up) := by decide +kernel

/-- R153: masking CURTAIL removes a DONE entry. -/
def doneEntry : State :=
  let s := holding 11 { shed with stage := .done, sent := false, resultOwed := true }
  s.setCurtail { s.curtail with owed := [11] }

theorem test_writeNoticeMask : after .writeNoticeMask (State.asked doneEntry (ask 0x02#8 (settingData 0x13#8 0x01#8)))
    (fun t => (t.entryAt 11, t.curtail.owed)) = some (none, []) := by decide +kernel

theorem witness_SettingsWritesClampAndApply : SettingsInRange run
    ∧ (∀ c ∈ [(settingData 0x02#8 0x3B#8, RequestRow.writeSetting), (settingData 0x15#8 0x00#8, .writeSetting),
        (settingData 0x05#8 0x03#8, .writeErrorThreshold), (settingData 0x12#8 0x01#8, .writeNoticeMask),
        (settingData 0x13#8 0x01#8, .writeNoticeMask)],
      run.ready = true ∧ requestRow (ask 0x02#8 c.1) = c.2 ∧ run.generalTest (ask 0x02#8 c.1) = none)
    ∧ (20 < (0x15#8 : Byte).toNat ∧ run.setting 18 = 0 ∧ run.setting 19 = 0)
    ∧ ((withPort 1 { upPort with errorCount := 3 }).port 1).link = .up ∧ ¬ (3 ≤ (run.port 0).errorCount) := by
  unfold SettingsInRange
  decide +kernel

/-- R6: EXTERNAL to INTERNAL 1 000 ms after the reference time advances at once. -/
theorem test_writeEpochSource :
    after (.writeEpochSource 0) (State.asked (external 5000 412 4000) (ask 0x02#8 (settingData 0x01#8 0x00#8)))
      (fun t => (t.timer.mode, t.timer.epoch)) = some (.internal, 413)
    ∧ after (.writeEpochSource 400) (State.asked (run.setTimer { run.timer with mode := .fallback }) (ask 0x02#8 (settingData 0x01#8 0x01#8)))
      (fun t => (t.timer.mode, t.timer.epoch, t.timer.refTime)) = some (.external, 1000, 4000) := by decide +kernel

theorem witness_EpochSourceWriteSetsTheMode :
    (∀ v ∈ [(0x00#8 : Byte), 0x01#8], run.ready = true ∧ requestRow (ask 0x02#8 (settingData 0x01#8 v)) = .writeEpochSource
      ∧ run.generalTest (ask 0x02#8 (settingData 0x01#8 v)) = none)
    ∧ ((external 5000 412 4000).timer.mode = .external ∧ (external 5000 412 4000).timer.refTime + 1000 ≤ (external 5000 412 4000).now + 0)
    ∧ ¬ (run.timer.mode = .external) := by decide +kernel

theorem test_portDisable : after .portDisable (State.asked (holding 11 shed) (ask 0x02#8 (settingData 0x0A#8 0x00#8)))
    (fun t => (t.port 3, (t.entryAt 11).map CurtailEntry.stage)) = some (Port.initial, some .unconfirmed) := by decide +kernel

theorem test_portEnable : after .portEnable (State.asked (withPort 3 Port.initial) (ask 0x02#8 (settingData 0x0A#8 0x01#8)))
    (fun t => ((t.port 3).link, (t.port 3).settling)) = some (.down, true) := by decide +kernel

theorem witness_PortDisableAndEnable :
    (∀ c ∈ [(settingData 0x07#8 0x00#8, RequestRow.portDisable), (settingData 0x0A#8 0x01#8, .portEnable)],
      run.ready = true ∧ requestRow (ask 0x02#8 c.1) = c.2 ∧ run.generalTest (ask 0x02#8 c.1) = none)
    ∧ ((run.port 0).link ≠ .disabled ∧ ((withPort 3 Port.initial).port 3).link = .disabled)
    ∧ BitVec.ofNat 8 (7 + 0) = 0x07#8 ∧ BitVec.ofNat 8 (7 + 3) = 0x0A#8 := by decide +kernel

theorem witness_ResolveStatusAndBadRequestsAnswer :
    (∀ c ∈ [(ask 0x03#8 [0x00#8, 0x30#8], RequestRow.resolve), (ask 0x03#8 [0x0F#8, 0xEF#8], .resolve), (ask 0x0A#8 [], .readStatus),
        (ask 0x02#8 [0x04#8, 0x00#8, 0x00#8], .writeEntryBadTable)],
      run.ready = true ∧ requestRow c.1 = c.2 ∧ run.generalTest c.1 = none)
    ∧ (¬ (0x30 % 64 < 48) ∧ 4079 < 4096 ∧ 4079 % 64 < 48)
    ∧ requestRow (ask 0x00#8 []) = .unknownRequestCode := by decide +kernel

theorem test_badTable_and_unknownCode :
    responds .writeEntryBadTable run 0x02#8 [0x04#8, 0x00#8, 0x00#8] = some (some (.badTable, []))
    ∧ responds .unknownRequestCode run 0x0E#8 [] = some (some (.badRequest, [])) := by decide +kernel

theorem test_commit_and_cancel :
    after .commit (asked 0x04#8 []) (fun t => t.contracts.commitPending) = some true
    ∧ after .cancelCommit (State.asked (closing true .ok) (ask 0x05#8 [])) (fun t => t.contracts.commitPending) = some false := by
  decide +kernel

/-- R109: T2's bad active record is copied as the empty contract with good parity, T1's good one as it is. -/
theorem test_copyActiveToStaged : after .copyActiveToStaged (State.asked { saving with mgmt := run.mgmt } (ask 0x06#8 []))
    (fun t => (t.stagedAt 1, t.stagedAt 2)) = some ({ content := burstContract, parityGood := true }, emptyContract)
    ∧ after .copyActiveToStaged (State.asked { saving with mgmt := run.mgmt } (ask 0x06#8 [])) (fun t => t.notices.fault) =
    some (some { cls := .tableParity, location := .item .active 2, epoch := 1000 }) := by decide +kernel

/-- 08, "the fault record through a clear", step 7. -/
theorem test_clearFault : after .clearFault (State.asked (run.recordFault .staleAck (.outlet 3 2 8)) (ask 0x09#8 []))
    (fun t => (t.notices.fault, answerOf t)) = some (none, some (.ok, [])) := by decide +kernel

theorem witness_CommitCopyAndClearFault :
    (∀ c ∈ [(ask 0x04#8 [], RequestRow.commit), (ask 0x05#8 [], .cancelCommit), (ask 0x06#8 [], .copyActiveToStaged),
        (ask 0x09#8 [], .clearFault)], run.ready = true ∧ requestRow c.1 = c.2 ∧ run.generalTest c.1 = none)
    ∧ ((saving.activeAt 2).parityGood = false ∧ (saving.activeAt 1).parityGood = true) := by decide +kernel

theorem test_restoreTenant : after .restoreTenant (asked 0x07#8 [0x00#8, 0x00#8, 0x2A#8])
    (fun t => ((t.curtailAt 42).restoring, answerOf t)) = some (.forced, some (.ok, [])) := by decide +kernel

/-- 07, section 7.12, event 20: RESTORE naming 3.02.07, key 3 207 = 0x0C87. -/
def unconfirmed : State := holding 10 { newEntry 3207 42 880 with stage := .unconfirmed, tag := 121, attempts := 1 }

theorem test_restoreOutlet : after .restoreOutlet (State.asked unconfirmed (ask 0x07#8 [0x01#8, 0x0C#8, 0x87#8]))
    (fun t => (t.entryAt 10, t.dueAt 3)) = some (some { newEntry 3207 42 880 with stage := .onPending, tag := 121 }, [10]) := by
  decide +kernel

theorem test_discard : after .discard (State.asked unconfirmed (ask 0x08#8 [0x0C#8, 0x87#8])) (fun t => t.entryAt 10) = some none
    ∧ responds .discard (holding 11 shed) 0x08#8 [0x0C#8, 0x88#8] = some (some (.busy, [])) := by decide +kernel

/-- One entry for each clause; the RESTORE or DISCARD names its outlet. -/
theorem witness_RestoreAndDiscardActOnTheEntry :
    (∀ c ∈ [(ask 0x07#8 [0x00#8, 0x00#8, 0x00#8], RequestRow.restoreTenant), (ask 0x07#8 [0x00#8, 0x00#8, 0x7F#8], .restoreTenant),
        (ask 0x07#8 [0x01#8, 0x0C#8, 0x87#8], .restoreOutlet), (ask 0x08#8 [0x0C#8, 0x87#8], .discard)],
      run.ready = true ∧ requestRow c.1 = c.2 ∧ run.generalTest c.1 = none)
    ∧ (∀ stage ∈ [Stage.off, .unconfirmed, .skipped, .done, .onPending],
      CurtailLaws (holding 10 { newEntry 3207 42 880 with stage := stage })
        ∧ (holding 10 { newEntry 3207 42 880 with stage := stage }).entryAt 10 = some { newEntry 3207 42 880 with stage := stage })
    ∧ (unconfirmed.tenantPending 42 = false ∧ (unconfirmed.port 3).link ≠ .disabled
      ∧ ((unconfirmed.putPort 3 Port.initial).port 3).link = .disabled)
    ∧ keyValid 3207 = true ∧ ∀ n e, n < 64 → run.entryAt n = some e → e.outlet ≠ 3207 := by
  refine ⟨by decide +kernel, fun stage _ => ⟨curtailLaws_holding _ _, rfl⟩, by decide +kernel, by decide, ?_⟩
  intro n e _ h
  cases h

theorem witness_SaveImageThenItsEndAnswers :
    Taken (asked 0x0B#8 []) .saveImage (ask 0x0B#8 []) ∧ saving.mgmt.save.isSome = true :=
  ⟨taken_asked (by decide +kernel), by decide +kernel⟩

theorem witness_ResetRequestsResetAndAnswer :
    Taken (asked 0x0C#8 []) .resetLive (ask 0x0C#8 []) ∧ Taken (asked 0x0D#8 []) .resetFull (ask 0x0D#8 [])
    ∧ ((closing false .ok).activeAt 23).content.valid = true ∧ (saving.activeAt 2).parityGood = false
    ∧ (4 ≤ ((withPort 1 { upPort with passDown := List.replicate 4 (.relay 0 []) }).port 1).passDown.length) :=
  ⟨taken_asked (by decide +kernel), taken_asked (by decide +kernel), by decide +kernel, by decide +kernel, by decide +kernel⟩

/-! ### Laws -/

theorem queueBounds_run : QueueBounds run := by
  refine ⟨fun p => ?_, by decide, by decide, by decide, by decide⟩
  show (Table.read Port.initial run.ports p).passDown.length ≤ 4
  simp only [run, Table.read]
  split <;> [decide; split] <;> [decide; split] <;> [decide; split] <;> decide

theorem witness_StepKeepsQueuesTablesAndSettings : QueueBounds run ∧ (TablesCanonical run ∧ SettingsInRange run)
    ∧ (match step (run.setPending [.internalAdvance 0]) with | .next _ => true | _ => false) = true := by
  refine ⟨queueBounds_run, ?_⟩
  unfold TablesCanonical SettingsInRange AccSet.canonical
  decide +kernel

theorem witness_StepKeepsTheCurtailmentLaws : CurtailLaws (holding 11 shed) ∧ CurtailLists (holding 11 shed)
    ∧ (match step (State.setPending (holding 11 shed) [.internalAdvance 0]) with | .next t => t.dueAt 3 | _ => []) = [11] :=
  ⟨curtailLaws_holding _ _, curtailLists_holding _ _ (by decide) rfl rfl, by decide +kernel⟩

theorem witness_StepKeepsTheCreditLaw : CreditLaw (judging .over 2316313 29146 5 2 8000)
    ∧ (∀ item, Instr.tenantEvaluation ≠ .storageUpset item true)
    ∧ judgement (judging .over 2316313 29146 5 2 8000) = some (2249235, 30000, .within, 0, 0) := by
  refine ⟨?_, fun _ => by simp, by decide +kernel⟩
  unfold CreditLaw
  intro t ht
  have : ∀ t, t ≤ 127 → (((judging .over 2316313 29146 5 2 8000).liveAt t).state = .idle →
      ((judging .over 2316313 29146 5 2 8000).liveAt t).credit = 0)
      ∧ (1 ≤ t → ((judging .over 2316313 29146 5 2 8000).activeAt t).parityGood = true →
        ((judging .over 2316313 29146 5 2 8000).liveAt t).credit ≤ ((judging .over 2316313 29146 5 2 8000).activeAt t).content.burstCap) := by
    decide +kernel
  exact this t ht

theorem witness_StepKeepsFiguresBoundedAndThePoolIdle : FiguresBounded run ∧ PoolIdle run := by
  refine ⟨⟨fun f t => ?_, fun t => ?_⟩, by unfold PoolIdle; decide +kernel⟩
  · cases f <;> exact ⟨Nat.zero_le _, Nat.zero_le _⟩
  · exact ⟨Nat.zero_le _, Nat.zero_le _, Nat.zero_le _, Nat.zero_le _, Nat.zero_le _, Nat.zero_le _⟩

theorem witness_StepKeepsDisabledPortsInert : DisabledPortsInert (withPort 3 Port.initial)
    ∧ ((withPort 3 Port.initial).port 3).link = .disabled := by
  refine ⟨⟨fun p hp hd => ⟨?_, fun i _ => rfl⟩, fun h => by cases h⟩, by decide +kernel⟩
  have : ∀ p, p < 4 → ((withPort 3 Port.initial).port p).link = .disabled → (withPort 3 Port.initial).port p = Port.initial := by
    decide +kernel
  exact this p hp hd

theorem witness_StepKeepsTransmittersChoosing : TransmittersChoose (chosen (some 741) [0, 1])
    ∧ (chosen (some 741) [0, 1]).downAvailable 2 .mark = true := by
  have hd : ∀ p, p < 4 → ((chosen (some 741) [0, 1]).port p).link ≠ .disabled → ((chosen (some 741) [0, 1]).port p).tx = none →
      ∀ k ∈ [DownKind.mark, .switch, .passDown], (chosen (some 741) [0, 1]).downAvailable p k = true →
        ((chosen (some 741) [0, 1]).port p).choice = some .mark ∧ (chosen (some 741) [0, 1]).downAvailable p .mark = true := by
    decide +kernel
  have hu : ∀ k ∈ [UplinkKind.response, .notice, .forward], (chosen (some 741) [0, 1]).upAvailable k = false := by decide +kernel
  refine ⟨⟨fun p hp hl ht k hk => ?_, by decide +kernel, fun _ _ k hk => ?_, by decide +kernel⟩, by decide +kernel⟩
  · exact ⟨.mark, hd p hp hl ht k (by cases k <;> decide) hk⟩
  · rw [hu k (by cases k <;> decide)] at hk
    cases hk

theorem witness_FaultRecordOnlyRisesInSeverity : Instr.uplinkFrameError.emptiesFault = false
    ∧ ∃ t, exec .uplinkFrameError run = .next t ∧ severityHeld run.notices.fault < severityHeld t.notices.fault :=
  ⟨rfl, _, rfl, by decide +kernel⟩

end Sys2Proof.Tests
end

