-- ==== Sys2Proof/Proofs/PortSwitch.lean ====
section
/-! PROOF. What a write of off or on to a port's enable setting does (R21, R22, R71, R136, R175). -/

namespace Sys2Proof.Machine

/-! ### A write of a port's enable setting, as a request (R174, R175) -/

/-- The data of a WRITE_ENTRY that names SETTINGS, an index below 256 and the four bytes of a value. -/
def settingWrite (i : Nat) (b3 b2 b1 b0 : Byte) : List Byte := [0x00#8, 0x00#8, BitVec.ofNat 8 i, b3, b2, b1, b0]

section
variable {i p : Nat} (b3 b2 b1 b0 : Byte)

theorem writtenIndex_settingWrite (hi : i < 256) : writtenIndex (settingWrite i b3 b2 b1 b0) = i := by
  simp [writtenIndex, settingWrite, half, beNat, Nat.mod_eq_of_lt hi]

theorem field_settingWrite : field (writtenEntry (settingWrite i b3 b2 b1 b0)) 0 4 = beNat [b3, b2, b1, b0] := rfl

theorem writeRow_settingWrite (hi : i < 256) :
    writeRow (settingWrite i b3 b2 b1 b0) = settingRow i (beNat [b3, b2, b1, b0]) := by
  have hfits : dataFits codeWriteEntry (settingWrite i b3 b2 b1 b0) = true := rfl
  have hrow : writeRow (settingWrite i b3 b2 b1 b0)
      = if dataFits codeWriteEntry (settingWrite i b3 b2 b1 b0) = true then
          settingRow (writtenIndex (settingWrite i b3 b2 b1 b0)) (field (writtenEntry (settingWrite i b3 b2 b1 b0)) 0 4)
        else .writeSetting := rfl
  rw [hrow, if_pos hfits, writtenIndex_settingWrite b3 b2 b1 b0 hi, field_settingWrite]

/-- R173: the reply carries the setting back as it is stored. -/
theorem writeReply_settings (v : Nat) (hi : i < 256) (hv : v < 256) :
    writeReply tableSettings i (settingBytes v) = settingWrite i 0x00#8 0x00#8 0x00#8 (BitVec.ofNat 8 v) := by
  have hi' : i / 256 = 0 := by omega
  have hv' : v / 256 = 0 := by omega
  simp [writeReply, tableSettings, settingBytes, settingWrite, beBytes, hi', hv']

theorem settingRow_port (hp : p < 4) (v : Nat) :
    settingRow (7 + p) v = if v = 0 then .portDisable else .portEnable := by
  unfold settingRow
  rw [if_neg (by omega), if_pos (by omega)]

/-- R175: a port's enable setting takes 0 for off and 1 for any other value. -/
theorem clampSetting_port (hp : p < 4) (v : Nat) : clampSetting (7 + p) v = min 1 v := by
  interval_cases p <;> simp [clampSetting, settingRanges]

/-- Only a WRITE_ENTRY is of a port's row. -/
theorem writeRow_of_portRow {r : Request} {row : RequestRow} (h : requestRow r = row)
    (hrow : row = .portDisable ∨ row = .portEnable) : writeRow r.data = row := by
  subst h
  unfold requestRow at hrow ⊢
  split at hrow
  case h_2 => rfl
  case h_7 => split at hrow <;> simp at hrow
  all_goals simp at hrow

/-- A port's row is taken by the value written: off, or on. -/
theorem portRow_value (hp : p < 4) {r : Request} (hdata : r.data = settingWrite (7 + p) b3 b2 b1 b0) :
    (requestRow r = .portDisable → beNat [b3, b2, b1, b0] = 0)
      ∧ (requestRow r = .portEnable → beNat [b3, b2, b1, b0] ≠ 0) := by
  have hrow : writeRow r.data = if beNat [b3, b2, b1, b0] = 0 then .portDisable else .portEnable := by
    rw [hdata, writeRow_settingWrite b3 b2 b1 b0 (by omega), settingRow_port hp]
  constructor
  · intro h
    by_contra hv
    rw [writeRow_of_portRow h (.inl rfl)] at hrow
    simp [hv] at hrow
  · intro h hv
    rw [writeRow_of_portRow h (.inr rfl)] at hrow
    simp [hv] at hrow

/-- R175: the work of a write of a port's enable setting. -/
theorem writeSettingWith_port (effect : Nat → Nat → Nat → State → State) (s : State) (hp : p < 4) {r : Request}
    (hdata : r.data = settingWrite (7 + p) b3 b2 b1 b0) {v : Nat} (hv : min 1 (beNat [b3, b2, b1, b0]) = v) :
    State.writeSettingWith effect r s = (effect (7 + p) (s.setting (7 + p)) v (s.storeSetting (7 + p) v)).answer r .ok
      (settingWrite (7 + p) 0x00#8 0x00#8 0x00#8 (BitVec.ofNat 8 v)) := by
  have hv' : v < 256 := by omega
  unfold State.writeSettingWith
  simp only [hdata, writtenIndex_settingWrite b3 b2 b1 b0 (show 7 + p < 256 by omega), field_settingWrite,
    clampSetting_port hp, hv, writeReply_settings v (show 7 + p < 256 by omega) hv']
  rw [if_neg (by omega)]

end

/-! ### The setting stored: what it leaves to the links and the curtailment controller -/

/-- The state in which the effect takes place: the taken request is gone, port `p`'s enable setting is `v` (R161,
R175). -/
def State.portStored (s : State) (p v : Nat) : State := s.popRequest.storeSetting (7 + p) v

section
variable (s : State) {p : Nat}

theorem same_portStored (p v : Nat) : SameOutside [.uplink, .settings] s (s.portStored p v) :=
  (same_popRequest s).comp (same_setSettings _ _) (by decide) (by decide)

/-- A port's enable setting is no notice mask (R174). -/
theorem masked_portStored (hp : p < 4) (v : Nat) (k : NoticeKind) : (s.portStored p v).masked k = s.masked k := by
  have hne : 7 + p ≠ 13 + k.code := by omega
  show decide ((s.settings.set (7 + p) v).getD (13 + k.code) 0 = 1) = decide (s.settings.getD (13 + k.code) 0 = 1)
  simp [List.getD_eq_getElem?_getD, List.getElem?_set_ne hne]

theorem entryAfterLoss_portStored (hp : p < 4) (v q : Nat) :
    (s.portStored p v).entryAfterLoss q = s.entryAfterLoss q := by
  funext e
  simp only [State.entryAfterLoss, masked_portStored s hp]

theorem owedAfter_portStored (hp : p < 4) (v : Nat) (results : List Nat) :
    (s.portStored p v).owedAfter results = s.owedAfter results := by
  rw [owedAfter_eq, owedAfter_eq, masked_portStored s hp]
  rfl

/-! ### The effects (R21, R22) -/

theorem portDisableEffect_port (old v : Nat) : portDisableEffect (7 + p) old v s =
    if (s.port p).link = .disabled then s else s.disablePort p := by
  unfold portDisableEffect
  rw [Nat.add_sub_cancel_left]

theorem portEnableEffect_port (old v : Nat) : portEnableEffect (7 + p) old v s =
    if (s.port p).link = .disabled then s.enablePort p else s := by
  unfold portEnableEffect
  rw [Nat.add_sub_cancel_left]

/-- R71: a port's disable clears reported flags and nothing else of a set. -/
theorem clearPort_eq (a : AccSet) (p : Nat) : a.clearPort p =
    { a with outletReported := (a.clearPort p).outletReported, pduReported := (a.clearPort p).pduReported } := rfl

/-- R136: the lists after a loss in a state with the curtailment controller and the settings of `s`. -/
theorem losePending_lists_congr {c : State} (hcurtail : c.curtail = s.curtail) (hsettings : c.settings = s.settings)
    (p : Nat) :
    (∀ q, (c.losePending p).dueAt q = if q = p then (s.dueAt p).filter (fun n => !s.pendingOn p n) else s.dueAt q)
      ∧ (c.losePending p).curtail.owed = s.owedAfter ((List.range 64).filter (s.pendingOn p)) := by
  have hdue : c.dueAt = s.dueAt := by unfold State.dueAt; rw [hcurtail]
  have hpending : c.pendingOn p = s.pendingOn p := by
    unfold State.pendingOn State.entryAt; rw [hcurtail]
  have howed : c.owedAfter = s.owedAfter := by
    unfold State.owedAfter; rw [hcurtail, masked_congr hsettings]
  simpa only [hdue, hpending, howed] using losePending_lists c p

/-- R128, R136, R137: the pending entries of a disabled port leave its due list and join the owed list. -/
theorem disablePort_lists (p : Nat) :
    (∀ q, (s.disablePort p).dueAt q = if q = p then (s.dueAt p).filter (fun n => !s.pendingOn p n) else s.dueAt q)
      ∧ (s.disablePort p).curtail.owed = s.owedAfter ((List.range 64).filter (s.pendingOn p)) := by
  unfold State.disablePort
  generalize hcleared : State.setClosing _ (s.closing.clearPort p) = cleared
  have hlists := losePending_lists_congr s (c := cleared) (by rw [← hcleared]; rfl) (by rw [← hcleared]; rfl) p
  dsimp only
  generalize cleared.losePending p = lost at hlists ⊢
  split
  · split <;> exact hlists
  · exact hlists

/-- R185: with no full reset waiting a disable leaves the management unit as it was. -/
theorem same_disablePort (p : Nat) (hw : s.mgmt.resetWaiting = none) :
    SameOutside [.links, .downChoice, .presence, .readings, .filling, .closing, .curtail] s (s.disablePort p) := by
  obtain ⟨-, -, -, -, -, -, -, hmgmt, hsame⟩ := disablePort_spec s p
  intro b hb
  by_cases hm : b = .mgmt
  · subst hm
    show (s.disablePort p).mgmt = s.mgmt
    rw [hmgmt, hw]
  · exact hsame b (by simpa [hm] using hb)

end

/-! ### The two commands -/

theorem exec_portDisable (s : State) : exec .portDisable s = execPortDisable s := rfl

theorem exec_portEnable (s : State) : exec .portEnable s = execPortEnable s := rfl

section
variable {s : State} {r : Request} {p : Nat} {b3 b2 b1 b0 : Byte}

/-- A taken PORT_DISABLE stores off, has its effect and answers. -/
theorem exec_portDisable_taken (hp : p < 4) (hdata : r.data = settingWrite (7 + p) b3 b2 b1 b0)
    (h : Taken s .portDisable r) :
    exec .portDisable s = .next
      ((if (s.port p).link = .disabled then s.portStored p 0 else (s.portStored p 0).disablePort p).answer r .ok
        (settingWrite (7 + p) 0x00#8 0x00#8 0x00#8 0x00#8)).arbitrate := by
  obtain ⟨-, -, hrow⟩ := h.1
  have hv : min 1 (beNat [b3, b2, b1, b0]) = 0 := by
    rw [(portRow_value b3 b2 b1 b0 hp hdata).1 hrow]; rfl
  rw [exec_portDisable, execPortDisable, onRequest_taken h,
    writeSettingWith_port b3 b2 b1 b0 _ _ hp hdata hv, portDisableEffect_port]
  rfl

/-- A taken PORT_ENABLE stores on, has its effect and answers. -/
theorem exec_portEnable_taken (hp : p < 4) (hdata : r.data = settingWrite (7 + p) b3 b2 b1 b0)
    (h : Taken s .portEnable r) :
    exec .portEnable s = .next
      ((if (s.port p).link = .disabled then (s.portStored p 1).enablePort p else s.portStored p 1).answer r .ok
        (settingWrite (7 + p) 0x00#8 0x00#8 0x00#8 0x01#8)).arbitrate := by
  obtain ⟨-, -, hrow⟩ := h.1
  have hv : min 1 (beNat [b3, b2, b1, b0]) = 1 := by
    have := (portRow_value b3 b2 b1 b0 hp hdata).2 hrow
    omega
  rw [exec_portEnable, execPortEnable, onRequest_taken h,
    writeSettingWith_port b3 b2 b1 b0 _ _ hp hdata hv, portEnableEffect_port]
  rfl

end

end Sys2Proof.Machine

open Sys2Proof Sys2Proof.Machine

/-- Settles O46: each command stores the setting, and its effect is the disable, the enable, or nothing, by the link
state. -/
theorem portDisableAndEnable : Obligations.PortDisableAndEnable := by
  intro s r p b3 b2 b1 b0 hp hdata
  refine ⟨fun h => ⟨fun hd => ?_, fun hd => ?_⟩, fun h => ⟨fun hd => ?_, fun hd => ?_⟩⟩
  · have hexec := exec_portDisable_taken hp hdata h
    rw [if_pos hd] at hexec
    exact takesAndAnswers_of _ hexec (same_portStored s _ _) rfl rfl
  · have hexec := exec_portDisable_taken hp hdata h
    rw [if_neg hd] at hexec
    obtain ⟨⟨-, -, hwaiting⟩, -⟩ := h.1
    obtain ⟨hport, hpresence, hreading, hfilling, hclosing, hentry, hkeep, -, -⟩ :=
      disablePort_spec (s.portStored p 0) p
    obtain ⟨hdue, howed⟩ := disablePort_lists (s.portStored p 0) p
    have hsame := same_disablePort (s.portStored p 0) p hwaiting
    refine takesAndAnswers_of _ hexec ((same_portStored s _ _).comp hsame (by decide) (by decide))
      (hsame .uplink (by decide))
      ⟨hsame .settings (by decide), by rw [hport, if_pos rfl], fun q hq => by rw [hport, if_neg hq]; rfl, hpresence,
        hreading, fun k => ?_, fun i => ?_, fun k => ?_, fun i => ?_, ?_, ?_, fun slot hslot => ?_, ?_, fun q hq => ?_, ?_,
        hkeep.records, hkeep.tagCounter, hkeep.creation⟩
    · rw [hfilling]; exact outletFlag_clearPort _ p k
    · rw [hfilling]; exact pduFlag_clearPort _ p i
    · rw [hclosing]; exact outletFlag_clearPort _ p k
    · rw [hclosing]; exact pduFlag_clearPort _ p i
    · rw [hfilling]; exact clearPort_eq s.filling p
    · rw [hclosing]; exact clearPort_eq s.closing p
    · rw [hentry, if_pos hslot, entryAfterLoss_portStored s hp]; rfl
    · rw [hdue, if_pos rfl]; rfl
    · rw [hdue, if_neg hq]; rfl
    · rw [howed, owedAfter_portStored s hp]; rfl
  · have hexec := exec_portEnable_taken hp hdata h
    rw [if_neg hd] at hexec
    exact takesAndAnswers_of _ hexec (same_portStored s _ _) rfl rfl
  · have hexec := exec_portEnable_taken hp hdata h
    rw [if_pos hd] at hexec
    exact takesAndAnswers_of _ hexec ((same_portStored s _ _).comp (same_putPort_all _ p _) (by decide) (by decide)) rfl
      ⟨rfl, port_putPort_same _ p _, fun q hq => port_putPort_other _ _ hq⟩
end

