-- ==== Sys2Proof/Proofs/Resolution.lean ====
section
/-! PROOF. What each layer of a resolution answers, and which bad item its reading finds first (R41, R42, R44, R45). -/

namespace Sys2Proof.Machine

section
variable {s : State} {key : Nat}

/-! ### The slot (R42, R44) -/

theorem slotEntry_eq_some_iff {e : OatEntry} : s.slotEntry key = some e
    ↔ (s.slotAt key).parityGood = true ∧ (s.slotAt key).content = some e := by
  unfold State.slotEntry
  split <;> simp [*]

theorem slotEntry_eq_none_iff : s.slotEntry key = none
    ↔ (s.slotAt key).parityGood = false ∨ (s.slotAt key).content = none := by
  unfold State.slotEntry
  split <;> simp [*]

/-! ### The rules (R41, R42, R44) -/

theorem ruleMatches_iff (s : State) (key n : Nat) : s.ruleMatches key n = true
    ↔ (s.ruleAt n).parityGood = true ∧ (s.ruleAt n).content.enabled = true
      ∧ ∀ i, (s.ruleAt n).content.mask.testBit i = true →
          key.testBit i = (s.ruleAt n).content.compareKey.testBit i := by
  rw [State.ruleMatches, Bool.and_eq_true, Bool.and_eq_true, keyMatches_iff, and_assoc]

/-! ### The answer of each layer (R42) -/

theorem resolution_of_entry {e : OatEntry} (h : s.slotEntry key = some e) :
    s.resolution key = { source := .entry, tenant := e.tenant, feed := e.feed, shedRank := e.shedRank,
                         outletLimit := e.outletLimit } := by
  simp only [State.resolution, h]

theorem resolution_of_rule {n : Nat} (hslot : s.slotEntry key = none) (h : s.decidingRule key = some n) :
    s.resolution key = { source := .rule n, tenant := (s.ruleAt n).content.tenant,
                         feed := (s.ruleAt n).content.feed, shedRank := none, outletLimit := none } := by
  simp only [State.resolution, hslot, h]

theorem resolution_of_pool (hslot : s.slotEntry key = none) (h : s.decidingRule key = none) :
    s.resolution key = { source := .pool, tenant := 0, feed := .a, shedRank := none, outletLimit := none } := by
  simp only [State.resolution, hslot, h]

/-! ### The rules a resolution reads (R45) -/

/-- R45: how many rules a resolution reads when its slot does not decide it. -/
def State.rulesRead (s : State) (key : Nat) : Nat :=
  match s.decidingRule key with
  | some n => n + 1
  | none => 16

theorem rulesRead_le : s.rulesRead key ≤ 16 := by
  unfold State.rulesRead
  split
  next n h =>
    obtain ⟨hn, -, -⟩ := (decidingRule_some s key n).1 h
    exact hn
  next => exact le_rfl

/-- A rule is read when no rule before it matches. -/
theorem lt_rulesRead {n : Nat} (hn : n < 16) (hbefore : ∀ m, m < n → s.ruleMatches key m = false) :
    n < s.rulesRead key := by
  unfold State.rulesRead
  split
  next d h =>
    obtain ⟨-, hmatch, -⟩ := (decidingRule_some s key d).1 h
    by_contra hlt
    have hd : s.ruleMatches key d = false := hbefore d (by omega)
    exact absurd (hd.symm.trans hmatch) (by decide)
  next => exact hn

/-- No rule past a matching one is read. -/
theorem rulesRead_le_of_match {m : Nat} (hm : m < 16) (hmatch : s.ruleMatches key m = true) :
    s.rulesRead key ≤ m + 1 := by
  unfold State.rulesRead
  split
  next d h =>
    obtain ⟨-, -, hfirst⟩ := (decidingRule_some s key d).1 h
    by_contra hlt
    exact absurd ((hfirst m (by omega)).symm.trans hmatch) (by decide)
  next h => exact absurd (((decidingRule_none s key).1 h m hm).symm.trans hmatch) (by decide)

/-! ### The bad items read, in order (R45) -/

theorem parityLocation_good {α : Type} {item : Stored α} {loc : Location} (h : item.parityGood = true) :
    parityLocation item loc = [] := if_pos h

theorem parityLocation_bad {α : Type} {item : Stored α} {loc : Location} (h : item.parityGood = false) :
    parityLocation item loc = [loc] := if_neg (by rw [h]; decide)

theorem badRules_succ (n : Nat) :
    s.badRules (n + 1) = s.badRules n ++ parityLocation (s.ruleAt n) (.item .rules n) := by
  simp only [State.badRules, List.range_succ, List.flatMap_append, List.flatMap_singleton]

theorem badRules_eq_nil {n : Nat} (h : ∀ m, m < n → (s.ruleAt m).parityGood = true) : s.badRules n = [] :=
  List.flatMap_eq_nil_iff.2 fun m hm => parityLocation_good (h m (List.mem_range.1 hm))

/-- The lowest-numbered bad rule heads the bad rules of any range that reaches it. -/
theorem head?_badRules {n limit : Nat} (hn : n < limit) (hbad : (s.ruleAt n).parityGood = false)
    (hgood : ∀ m, m < n → (s.ruleAt m).parityGood = true) :
    (s.badRules limit).head? = some (.item .rules n) := by
  induction limit, hn using Nat.le_induction with
  | base => rw [badRules_succ, badRules_eq_nil hgood, parityLocation_bad hbad]; rfl
  | succ limit _ ih => rw [badRules_succ, List.head?_append, ih]; rfl

theorem resolutionFaults_of_entry {e : OatEntry} (h : s.slotEntry key = some e) : s.resolutionFaults key = [] := by
  simp only [State.resolutionFaults, h]

theorem resolutionFaults_of_noEntry (h : s.slotEntry key = none) :
    s.resolutionFaults key = parityLocation (s.slotAt key) (.item .oat key) ++ s.badRules (s.rulesRead key) := by
  simp only [State.resolutionFaults, h]
  rfl

/-- A good slot that is not present adds nothing to the bad rules read. -/
theorem resolutionFaults_of_goodSlot (h : s.slotEntry key = none) (hgood : (s.slotAt key).parityGood = true) :
    s.resolutionFaults key = s.badRules (s.rulesRead key) := by
  rw [resolutionFaults_of_noEntry h, parityLocation_good hgood, List.nil_append]

end

end Sys2Proof.Machine

open Sys2Proof Sys2Proof.Machine

/-- Settles O29: the layers of `State.resolution` in turn, then the bad items read, headed by the slot or by the first bad
rule up to the deciding one. -/
theorem resolutionTakesTheFirstLayerThatHolds : Obligations.ResolutionTakesTheFirstLayerThatHolds := by
  intro s key
  refine ⟨fun e hgood he => resolution_of_entry (slotEntry_eq_some_iff.2 ⟨hgood, he⟩), fun hslot => ?_,
    fun e hgood he => resolutionFaults_of_entry (slotEntry_eq_some_iff.2 ⟨hgood, he⟩)⟩
  have hnone : s.slotEntry key = none := slotEntry_eq_none_iff.2 hslot
  intro matched
  have hmatched : ∀ n, matched n ↔ s.ruleMatches key n = true := fun n => (ruleMatches_iff s key n).symm
  have hunmatched : ∀ n, ¬ matched n → s.ruleMatches key n = false := fun n h =>
    Bool.eq_false_iff.2 (mt (hmatched n).2 h)
  refine ⟨fun n hn hm hfirst => ?rule, fun hno => ?pool, fun hbad => ?badSlot, fun hgood =>
    ⟨fun n hn hbad hbefore => ?badRule, fun n hn hrules hlast => ?noBad⟩⟩
  case rule =>
    exact resolution_of_rule hnone ((decidingRule_some s key n).2
      ⟨hn, (hmatched n).1 hm, fun m hlt => hunmatched m (hfirst m hlt)⟩)
  case pool =>
    exact resolution_of_pool hnone ((decidingRule_none s key).2 fun n hn => hunmatched n (hno n hn))
  case badSlot =>
    rw [resolutionFaults_of_noEntry hnone, parityLocation_bad hbad]
    rfl
  case badRule =>
    have hread : n < s.rulesRead key := lt_rulesRead hn fun m hlt => hunmatched m (hbefore m hlt).2
    rw [resolutionFaults_of_goodSlot hnone hgood]
    exact head?_badRules hread hbad fun m hlt => (hbefore m hlt).1
  case noBad =>
    have hread : s.rulesRead key ≤ n := by
      obtain rfl | ⟨m, hlt, hm⟩ := hlast
      · exact rulesRead_le
      · exact (rulesRead_le_of_match (by omega) ((hmatched m).1 hm)).trans hlt
    rw [resolutionFaults_of_goodSlot hnone hgood]
    exact badRules_eq_nil fun m hlt => hrules m (by omega)
end

