-- ==== Sys2Proof/Proofs/Demand.lean ====
section
/-! PROOF. What a tenant's evaluation measures: draw, energy and peaks (R79), the demand's step (R80), and the flags and counts
of step 6 (R92, R93), which the judging between them leaves as measured. -/

namespace Sys2Proof.Machine

/-! ### The demand's step (R80) -/

section
variable {dm d : Nat} (k : Nat)

theorem demandStep_of_eq (h : dm = d * 256) : demandStep dm d k = 0 := by
  simp [demandStep, h]

theorem demandStep_of_lt (h : dm < d * 256) :
    demandStep dm d k = (max 1 ((d * 256 - dm) / 2 ^ k) : Nat) := by
  have hdiff : ((d * 256 : Nat) : Int) - dm = (d * 256 - dm : Nat) := by omega
  simp only [demandStep, hdiff, ← Int.ofNat_tdiv]
  generalize (d * 256 - dm) / 2 ^ k = quotient
  split <;> omega

theorem demandStep_of_gt (h : d * 256 < dm) :
    demandStep dm d k = -(max 1 ((dm - d * 256) / 2 ^ k) : Nat) := by
  have hdiff : ((d * 256 : Nat) : Int) - dm = -(dm - d * 256 : Nat) := by omega
  simp only [demandStep, hdiff, Int.neg_tdiv, ← Int.ofNat_tdiv]
  generalize (dm - d * 256) / 2 ^ k = quotient
  split <;> omega

theorem nextDemand_of_eq (h : dm = d * 256) : nextDemand dm d k = dm := by
  rw [nextDemand, demandStep_of_eq k h, Int.add_zero, Int.toNat_natCast]

theorem nextDemand_of_lt (h : dm < d * 256) :
    nextDemand dm d k = dm + max 1 ((d * 256 - dm) / 2 ^ k) := by
  rw [nextDemand, demandStep_of_lt k h, ← Int.natCast_add, Int.toNat_natCast]

theorem nextDemand_of_gt (h : d * 256 < dm) :
    nextDemand dm d k = dm - max 1 ((dm - d * 256) / 2 ^ k) := by
  rw [nextDemand, demandStep_of_gt k h, ← Int.sub_eq_add_neg, Int.toNat_sub]

end

/-! ### The record an evaluation leaves (R78) -/

/-- Steps 3 to 5 (R84 to R89) touch only the standing of the tenant: its record is the measured one under some standing,
with step 6 made of it. -/
theorem evaluated_eq_drawn_flagged (s : State) (x : Nat) (epoch : Epoch) :
    ∃ state credit ticksInOver quiet burstTicks overTicks cap, s.evaluated x epoch =
      LiveRecord.flagged
        { (s.liveAt x).drawn (s.closing.sum .a x) (s.closing.sum .b x) s.demandShift with
          state, credit, ticksInOver, quiet, burstTicks, overTicks }
        cap (s.closing.over x) (s.closing.isIncomplete x) epoch := by
  unfold State.evaluated
  dsimp only
  by_cases hidle : (s.liveAt x).state = .idle
  · rw [if_pos hidle]
    exact ⟨_, _, _, _, _, _, _, rfl⟩
  · rw [if_neg hidle]
    cases s.contractRead x with
    | none => exact ⟨_, _, _, _, _, _, _, rfl⟩
    | some c => exact ⟨_, _, _, _, _, _, _, rfl⟩

theorem exec_tenantEvaluation_at {s : State} {pass : Pass} {x : Nat} (hpass : s.timer.pass = some pass)
    (hpoint : s.passPoint = some (.tenant x)) :
    exec .tenantEvaluation s = .next
      (((s.recordParity (s.stepThreeFaults x)).putLive x (s.evaluated x pass.epoch)).movePass
        (.curtail x (transitionOf (s.liveAt x).state (s.evaluated x pass.epoch).state) (s.stepThree x))) := by
  change execTenantEvaluation s = _
  simp only [execTenantEvaluation, hpass, hpoint]

theorem liveAt_recordParity (s : State) (bad : List Location) (y : Nat) : (s.recordParity bad).liveAt y = s.liveAt y := by
  rw [recordParity_eq, State.setNotices_liveAt]

theorem liveAt_movePass (s : State) (point : PassPoint) (y : Nat) : (s.movePass point).liveAt y = s.liveAt y := rfl

/-- TENANT_EVALUATION writes the evaluated record at the tenant the pass has reached, and no other. -/
theorem exec_tenantEvaluation_live {s : State} {pass : Pass} {x : Nat} (hpass : s.timer.pass = some pass)
    (hpoint : s.passPoint = some (.tenant x)) :
    ∃ t, exec .tenantEvaluation s = .next t ∧ t.liveAt x = s.evaluated x pass.epoch
      ∧ (∀ y, y ≠ x → t.liveAt y = s.liveAt y) ∧ SameOutside [.live, .timer, .notices] s t := by
  have hexec := exec_tenantEvaluation_at hpass hpoint
  refine ⟨_, hexec, ?_, fun y hy => ?_, changes_tenantEvaluation hexec⟩
  · rw [liveAt_movePass, liveAt_putLive, if_pos rfl]
  · rw [liveAt_movePass, liveAt_putLive, if_neg hy, liveAt_recordParity]

end Sys2Proof.Machine

open Sys2Proof Sys2Proof.Machine

/-- Settles O14: the record is the measured one under some standing, so the draw, energy, peaks, flags and counts are read off
it, and the three rows of the demand are the three signs of the gap. -/
theorem evaluationMovesDemandTowardTheDraw : Obligations.EvaluationMovesDemandTowardTheDraw := by
  intro s pass x hpass hpoint r d
  obtain ⟨t, hexec, hat, hothers, hsame⟩ := exec_tenantEvaluation_live hpass hpoint
  obtain ⟨state, credit, ticksInOver, quiet, burstTicks, overTicks, cap, heval⟩ :=
    evaluated_eq_drawn_flagged s x pass.epoch
  have hdemand : (t.liveAt x).demand = nextDemand r.demand d s.demandShift := by
    rw [hat, heval]; rfl
  refine ⟨t, hexec, ?lastDrawA, ?lastDrawB, ?energy, ?peakDraw, fun h => hdemand.trans (nextDemand_of_eq _ h),
    fun h => hdemand.trans (nextDemand_of_lt _ h), fun h => hdemand.trans (nextDemand_of_gt _ h),
    ?peakDemand, ?lastEpoch, ?incomplete, ?outletOver, ?incompleteTicks, ?minCredit, hothers, hsame⟩
  all_goals rw [hat, heval]; rfl
end

