-- ==== Sys2Proof/Proofs/SwitchAnswer.lean ====
section
/-! PROOF. What an answer that matches a sent entry does (R130, R132, R133, R137). -/

namespace Sys2Proof.Machine

/-! ### The table read through an equal curtailment controller -/

theorem entryAt_congr {s t : State} (h : t.curtail = s.curtail) (n : Nat) : t.entryAt n = s.entryAt n := by
  unfold State.entryAt; rw [h]

theorem curtailLaws_congr {s t : State} (h : t.curtail = s.curtail) (hlaw : CurtailLaws s) : CurtailLaws t := by
  intro m n e f hm hn he hf
  rw [entryAt_congr h] at he hf
  exact hlaw m n e f hm hn he hf

theorem entryAt_arbitrate (s : State) (n : Nat) : s.arbitrate.entryAt n = s.entryAt n := rfl

/-! ### The match (R130) -/

section
variable {s : State} {slot : Nat} {e : CurtailEntry}

/-- R120, R130: under the law of one entry per outlet, an answer that names a sent pending entry finds that entry. -/
theorem matching_of_laws (hlaw : CurtailLaws s) (hslot : slot < 64) (he : s.entryAt slot = some e) {p position outlet : Nat}
    (hkey : e.outlet = outletKey p position outlet) (hposition : position ≤ 15) (houtlet : outlet ≤ 47)
    (hpending : e.pending = true) (hsent : e.sent = true) :
    s.matching p position outlet e.tag = some (slot, e) := by
  have hfound : s.slotOf (outletKey p position outlet) = some slot := hkey ▸ slotOf_of_laws s hlaw hslot he
  unfold State.matching
  rw [if_neg (by omega), hfound]
  simp [he, hpending, hsent]

/-- R132, R133: the stage that an answer to a pending entry leaves. -/
theorem answeredStage_of_pending (hpending : e.pending = true) (done : Prop) [Decidable done] :
    answeredStage e.stage (decide done) =
      if e.stage = .offPending then (if done then .off else .skipped)
      else (if done then .done else .unconfirmed) := by
  have hstage : e.stage = .offPending ∨ e.stage = .onPending := by simpa [CurtailEntry.pending] using hpending
  obtain h | h := hstage <;> by_cases hdone : done <;> simp [h, hdone, answeredStage]

end

/-! ### The result (R137) -/

section
variable {s : State} (slot : Nat) (e : CurtailEntry) (stage : Stage)

theorem resultEntry_ended_unmasked (hm : s.masked .curtail = false) :
    s.resultEntry (e.ended stage) = some { e with stage := stage, sent := false, remaining := 0, resultOwed := true } := by
  simp [State.resultEntry, CurtailEntry.ended, hm]

theorem resultEntry_ended_masked (hm : s.masked .curtail = true) :
    s.resultEntry (e.ended stage) =
      if stage = .done then none else some { e with stage := stage, sent := false, remaining := 0 } := by
  simp [State.resultEntry, CurtailEntry.ended, hm]

theorem due_recordResult : (s.recordResult slot e).curtail.due = s.curtail.due := by rw [recordResult_curtail]

end

/-! ### The command -/

theorem exec_switchAck (s : State) (p : Nat) (body : List Byte) : exec (.switchAck p body) s = execSwitchAck p body s := rfl

/-- A matched answer that a port hears ends its entry's command. -/
theorem exec_switchAck_matched {s : State} {p slot : Nat} {position outlet tag outcome : Byte} (rest : List Byte)
    {e : CurtailEntry} (hlink : (s.port p).link ≠ .disabled)
    (hmatch : (s.wellFormedFrame p).matching p position.toNat outlet.toNat tag = some (slot, e)) :
    exec (.switchAck p (position :: outlet :: tag :: outcome :: rest)) s =
      .next ((s.wellFormedFrame p).recordResult slot
        (e.ended (answeredStage e.stage (decide (outcome = 0))))).arbitrate := by
  simp only [exec_switchAck, execSwitchAck, if_neg hlink, parseSwitchAck, State.switchAnswer, hmatch]

end Sys2Proof.Machine

open Sys2Proof Sys2Proof.Machine

/-- Settles O30: the answer finds the entry it names by R120's law, and what it leaves is a result recorded in the state that
heard the frame, whose curtailment controller and settings are those before it. -/
theorem matchedAnswerEndsTheCommand : Obligations.MatchedAnswerEndsTheCommand := by
  intro s p slot position outlet tag outcome rest e hlink hposition houtlet hlaw hslot he hkey hpending hsent htag after
  subst htag
  have hheard : Heard p s (s.wellFormedFrame p) := wellFormedFrame_heard s p
  obtain ⟨-, -, -, hsame⟩ := wellFormedFrame_heard s p
  generalize hh : s.wellFormedFrame p = h at hheard hsame
  have hcurtail : h.curtail = s.curtail := hsame .curtail (by decide)
  have hmasked : h.masked .curtail = s.masked .curtail := masked_congr (hsame .settings (by decide)) _
  have hmatch : h.matching p position.toNat outlet.toNat e.tag = some (slot, e) :=
    matching_of_laws (curtailLaws_congr hcurtail hlaw) hslot ((entryAt_congr hcurtail slot).trans he) hkey hposition houtlet
      hpending hsent
  have hexec := exec_switchAck_matched (outcome := outcome) rest hlink (hh ▸ hmatch)
  rw [hh, answeredStage_of_pending hpending] at hexec
  have hentry (n : Nat) : (h.recordResult slot (e.ended after)).arbitrate.entryAt n =
      if n = slot then h.resultEntry (e.ended after) else s.entryAt n := by
    rw [entryAt_arbitrate, entryAt_recordResult, entryAt_congr hcurtail]
  have hkeeps := keeps_recordResult h slot (e.ended after)
  refine ⟨h, _, hexec, hheard, fun hm => ⟨?unmasked, ?owed⟩, fun hm => ?masked, fun n hn => ?other, ?due, ?records,
    ?tagCounter, ?creation, ?frame⟩
  case unmasked => rw [hentry, if_pos rfl, resultEntry_ended_unmasked e after (hmasked.trans hm)]
  case owed =>
    rw [arbitrate_curtail, owed_recordResult, hmasked, hm, hcurtail]
    rfl
  case masked => rw [hentry, if_pos rfl, resultEntry_ended_masked e after (hmasked.trans hm)]
  case other => rw [hentry, if_neg hn]
  case due => rw [arbitrate_curtail, due_recordResult, hcurtail]
  case records => exact hkeeps.records.trans (congrArg _ hcurtail)
  case tagCounter => exact hkeeps.tagCounter.trans (congrArg _ hcurtail)
  case creation => exact hkeeps.creation.trans (congrArg _ hcurtail)
  case frame => exact (same_recordResult h slot _).comp (same_arbitrate _) (by decide) (by decide)
end

