-- ==== Sys2Proof/Proofs/RestoreDiscard.lean ====
section
/-! PROOF. What RESTORE of a tenant, RESTORE of an outlet and DISCARD do, row by row (R141, R142, R143). -/

namespace Sys2Proof.Machine

/-! ### The named tenant or outlet (R190) -/

theorem half_zero (hi lo : Byte) : half [hi, lo] 0 = hi.toNat * 256 + lo.toNat := by simp [half, beNat]

theorem half_one (form hi lo : Byte) : half [form, hi, lo] 1 = hi.toNat * 256 + lo.toNat := by simp [half, beNat]

section
variable {s : State} {key : Nat}

/-- An outlet without an entry names none. -/
theorem namedEntry_eq_none (h : keyValid key = false ∨ ∀ n e, n < 64 → s.entryAt n = some e → e.outlet ≠ key) :
    s.namedEntry key = none := by
  unfold State.namedEntry
  obtain hkey | hnone := h
  · simp [hkey]
  · cases hfound : s.slotOf key with
    | none => simp
    | some n =>
      obtain ⟨hn, e, he, hk⟩ := slotOf_some s hfound
      exact absurd hk (hnone n e hn he)

/-- R120: under the law of one entry per outlet, an outlet names its entry. -/
theorem namedEntry_of_laws (hlaw : CurtailLaws s) (hkey : keyValid key = true) {n : Nat} {e : CurtailEntry} (hn : n < 64)
    (he : s.entryAt n = some e) (hk : e.outlet = key) : s.namedEntry key = some (n, e) := by
  have hfound : s.slotOf key = some n := hk ▸ slotOf_of_laws s hlaw hn he
  simp [State.namedEntry, hkey, hfound, he]

end

/-! ### The work of each request -/

section
variable {s : State} {r : Request} {n : Nat} {e : CurtailEntry}

theorem restoreTenantRequest_badIndex (h : half r.data 1 = 0 ∨ 127 < half r.data 1) :
    State.restoreTenantRequest r s = s.answer r .badIndex [] := if_pos h

theorem restoreTenantRequest_ok {x : Nat} (hx : half r.data 1 = x) (h1 : 1 ≤ x) (h127 : x ≤ 127) :
    State.restoreTenantRequest r s = ((s.putCurtail x { s.curtailAt x with restoring := .forced }).putLive x
      { s.liveAt x with ticksInOver := 0 }).answer r .ok [] := by
  subst hx
  exact if_neg (by omega)

theorem restoreOutletRequest_none (h : s.namedEntry (half r.data 1) = none) :
    State.restoreOutletRequest r s = s.answer r .badIndex [] := by simp only [State.restoreOutletRequest, h]

/-- R142: the rows for an outlet with an entry, in their order. -/
theorem restoreOutletRequest_some (h : s.namedEntry (half r.data 1) = some (n, e)) :
    State.restoreOutletRequest r s =
      if s.tenantPending e.tenant then s.answer r .busy []
      else if e.stage = .done then s.answer r .busy []
      else if e.stage = .skipped then (s.removeEntry n).answer r .ok []
      else if (s.port (keyPort e.outlet)).link = .disabled then s.answer r .busy []
      else (s.setOnPending n e).answer r .ok [] := by simp only [State.restoreOutletRequest, h]

theorem discardRequest_none (h : s.namedEntry (half r.data 0) = none) :
    State.discardRequest r s = s.answer r .badIndex [] := by simp only [State.discardRequest, h]

theorem discardRequest_some (h : s.namedEntry (half r.data 0) = some (n, e)) :
    State.discardRequest r s = if e.pending then s.answer r .busy [] else (s.removeEntry n).answer r .ok [] := by
  simp only [State.discardRequest, h]

end

/-! ### The commands -/

section
variable {s : State} {r : Request}

theorem exec_restoreTenant_taken (h : Taken s .restoreTenant r) :
    exec .restoreTenant s = .next (State.restoreTenantRequest r s.popRequest).arbitrate := onRequest_taken h _

theorem exec_restoreOutlet_taken (h : Taken s .restoreOutlet r) :
    exec .restoreOutlet s = .next (State.restoreOutletRequest r s.popRequest).arbitrate := onRequest_taken h _

theorem exec_discard_taken (h : Taken s .discard r) :
    exec .discard s = .next (State.discardRequest r s.popRequest).arbitrate := onRequest_taken h _

/-- A command that answers at once changes nothing else. -/
theorem takesAndAnswers_unchanged {c : Instr} {status : Status} {data : List Byte}
    (hexec : exec c s = .next (s.popRequest.answer r status data).arbitrate) :
    TakesAndAnswers c s r status data [] (fun _ => True) :=
  takesAndAnswers_of _ hexec (same_popRequest s) rfl trivial

/-- R142, R143: a command that removes the entry in slot `n` takes it off the owed list too, and changes no other entry. -/
theorem takesAndAnswers_removeEntry {c : Instr} {n : Nat}
    (hexec : exec c s = .next ((s.popRequest.removeEntry n).answer r .ok []).arbitrate) :
    TakesAndAnswers c s r .ok [] [.curtail] (fun b =>
      b.entryAt n = none ∧ (∀ m, m ≠ n → b.entryAt m = s.entryAt m)
      ∧ b.curtail.owed = s.curtail.owed.filter (fun m => decide (m ≠ n)) ∧ b.curtail.due = s.curtail.due
      ∧ b.curtail.records = s.curtail.records ∧ b.curtail.creation = s.curtail.creation) := by
  have hentry := entryAt_removeEntry s.popRequest n
  refine takesAndAnswers_of _ hexec ((same_popRequest s).comp (same_removeEntry _ n) (by decide) (by decide)) rfl
    ⟨?_, fun m hm => ?_, rfl, rfl, rfl, rfl⟩
  · rw [hentry, if_pos rfl]
  · rw [hentry, if_neg hm]; rfl

/-- R142: a command that sets the entry in slot `n` ON_PENDING makes its command due on its port, and changes no other
entry or due list. -/
theorem takesAndAnswers_setOnPending {c : Instr} {n : Nat} {e : CurtailEntry}
    (hexec : exec c s = .next ((s.popRequest.setOnPending n e).answer r .ok []).arbitrate) :
    TakesAndAnswers c s r .ok [] [.curtail] (fun b =>
      b.entryAt n = some { e with stage := .onPending, sent := false, remaining := 0, attempts := 0 }
      ∧ (∀ m, m ≠ n → b.entryAt m = s.entryAt m)
      ∧ b.dueAt (keyPort e.outlet) = s.dueAt (keyPort e.outlet) ++ [n]
      ∧ (∀ p, p ≠ keyPort e.outlet → b.dueAt p = s.dueAt p)
      ∧ b.curtail.owed = s.curtail.owed ∧ b.curtail.records = s.curtail.records
      ∧ b.curtail.creation = s.curtail.creation ∧ b.curtail.tagCounter = s.curtail.tagCounter) := by
  have hentry := entryAt_setOnPending s.popRequest n e
  have hdue := dueAt_setOnPending s.popRequest n e
  refine takesAndAnswers_of _ hexec ((same_popRequest s).comp (same_setOnPending _ n e) (by decide) (by decide)) rfl
    ⟨?_, fun m hm => ?_, ?_, fun p hp => ?_, rfl, rfl, rfl, rfl⟩
  · rw [hentry, if_pos rfl]
  · rw [hentry, if_neg hm]; rfl
  · rw [hdue, if_pos rfl]; rfl
  · rw [hdue, if_neg hp]; rfl

/-- R141: RESTORE of tenant `x` sets its restoring FORCED and its ticks-in-OVER 0. -/
theorem takesAndAnswers_restoreTenant {x : Nat} (h : Taken s .restoreTenant r) (hx : half r.data 1 = x) (h1 : 1 ≤ x)
    (h127 : x ≤ 127) :
    TakesAndAnswers .restoreTenant s r .ok [] [.curtail, .live] (fun b =>
      b.curtailAt x = { s.curtailAt x with restoring := .forced } ∧ (∀ y, y ≠ x → b.curtailAt y = s.curtailAt y)
      ∧ b.curtail = { s.curtail with records := b.curtail.records }
      ∧ b.liveAt x = { s.liveAt x with ticksInOver := 0 } ∧ ∀ y, y ≠ x → b.liveAt y = s.liveAt y) := by
  have hexec := exec_restoreTenant_taken h
  rw [restoreTenantRequest_ok hx h1 h127] at hexec
  have hforced := curtailAt_putCurtail s.popRequest x
  have hcleared (t : State) := liveAt_putLive t x
  have hsame := (same_putCurtail s.popRequest x { s.curtailAt x with restoring := .forced }).comp
    (n := [.curtail, .live]) (same_putLive _ x { s.liveAt x with ticksInOver := 0 }) (by decide) (by decide)
  refine takesAndAnswers_of _ hexec ((same_popRequest s).comp hsame (by decide) (by decide)) rfl
    ⟨?_, fun y hy => ?_, rfl, ?_, fun y hy => ?_⟩
  · exact (hforced x _).trans (if_pos rfl)
  · exact (hforced y _).trans (if_neg hy)
  · rw [hcleared, if_pos rfl]; rfl
  · rw [hcleared, if_neg hy]; rfl

end

/-! ### The rows for an outlet with an entry -/

section
variable {s : State} {r : Request} {n : Nat} {e : CurtailEntry}

/-- R142: what a taken RESTORE does with the entry it names. -/
theorem exec_restoreOutlet_named (h : Taken s .restoreOutlet r) (hnamed : s.namedEntry (half r.data 1) = some (n, e)) :
    exec .restoreOutlet s = .next
      (if s.tenantPending e.tenant then s.popRequest.answer r .busy []
      else if e.stage = .done then s.popRequest.answer r .busy []
      else if e.stage = .skipped then (s.popRequest.removeEntry n).answer r .ok []
      else if (s.port (keyPort e.outlet)).link = .disabled then s.popRequest.answer r .busy []
      else (s.popRequest.setOnPending n e).answer r .ok []).arbitrate := by
  rw [exec_restoreOutlet_taken h, restoreOutletRequest_some (s := s.popRequest) hnamed]
  rfl

/-- R143: what a taken DISCARD does with the entry it names. -/
theorem exec_discard_named (h : Taken s .discard r) (hnamed : s.namedEntry (half r.data 0) = some (n, e)) :
    exec .discard s = .next (if e.pending then s.popRequest.answer r .busy []
      else (s.popRequest.removeEntry n).answer r .ok []).arbitrate := by
  rw [exec_discard_taken h, discardRequest_some (s := s.popRequest) hnamed]

end

end Sys2Proof.Machine

open Sys2Proof Sys2Proof.Machine

/-- Settles O49: an outlet names its entry by R120's law, and each row is the one its conditions leave of the request's
work. -/
theorem restoreAndDiscardActOnTheEntry : Obligations.RestoreAndDiscardActOnTheEntry := by
  intro s r hi lo i removes busy badIndex
  refine ⟨fun h hdata => ?tenant, fun h hdata => ?outlet, fun h hdata => ?discard⟩
  case tenant =>
    have hi : half r.data 1 = i := hdata ▸ half_one _ hi lo
    refine ⟨fun hout => takesAndAnswers_unchanged ?_, takesAndAnswers_restoreTenant h hi⟩
    rw [exec_restoreTenant_taken h, restoreTenantRequest_badIndex (hi ▸ hout)]
  case outlet =>
    have hi : half r.data 1 = i := hdata ▸ half_one _ hi lo
    refine ⟨fun hnone => takesAndAnswers_unchanged ?_, fun n e hlaw hvalid hn he hk => ?_⟩
    · rw [exec_restoreOutlet_taken h,
        restoreOutletRequest_none (s := s.popRequest) (hi.symm ▸ namedEntry_eq_none (s := s) hnone)]
    have hexec := exec_restoreOutlet_named h (hi.symm ▸ namedEntry_of_laws hlaw hvalid hn he hk)
    intro tenantBusy
    have hbusy : tenantBusy ↔ s.tenantPending e.tenant = true := by
      rw [tenantPending_iff]
      exact exists₂_congr fun m f => by tauto
    rw [hk] at hexec
    refine ⟨fun hb => ?pending, fun hdone => ?done, fun hfree hskipped => ?skipped, fun hfree hstage hport => ?disabled,
      fun hfree hstage hport => ?due⟩
    case pending =>
      rw [if_pos (hbusy.1 hb)] at hexec
      exact takesAndAnswers_unchanged hexec
    case done =>
      rw [if_pos hdone, ite_self] at hexec
      exact takesAndAnswers_unchanged hexec
    all_goals rw [if_neg (mt hbusy.2 hfree)] at hexec
    case skipped =>
      rw [if_neg (by simp [hskipped]), if_pos hskipped] at hexec
      exact takesAndAnswers_removeEntry hexec
    all_goals
      rw [if_neg (by intro hdone; simp [hdone] at hstage), if_neg (by intro hskipped; simp [hskipped] at hstage)] at hexec
    case disabled =>
      rw [if_pos hport] at hexec
      exact takesAndAnswers_unchanged hexec
    case due =>
      rw [if_neg hport] at hexec
      exact hk ▸ takesAndAnswers_setOnPending hexec
  case discard =>
    have hi : half r.data 0 = i := hdata ▸ half_zero hi lo
    refine ⟨fun hnone => takesAndAnswers_unchanged ?_, fun n e hlaw hvalid hn he hk => ?_⟩
    · rw [exec_discard_taken h, discardRequest_none (s := s.popRequest) (hi.symm ▸ namedEntry_eq_none (s := s) hnone)]
    have hexec := exec_discard_named h (hi.symm ▸ namedEntry_of_laws hlaw hvalid hn he hk)
    refine ⟨fun hpending => ?_, fun hpending => ?_⟩
    · rw [if_pos hpending] at hexec
      exact takesAndAnswers_unchanged hexec
    · rw [if_neg (by simp [hpending])] at hexec
      exact takesAndAnswers_removeEntry hexec
end

