-- ==== Sys2Proof/Proofs/PduRelay.lean ====
section
/-! PROOF. What a PDU-PASS and a malformed uplink frame do (R159, R160). -/

namespace Sys2Proof.Machine

/-! ### The relay (R160) -/

section
variable {s : State} {port : Nat} {position : Byte} {payload : List Byte}

/-- R15: a link that is neither DISABLED nor DOWN is UP or DEGRADED. -/
theorem up_or_degraded_iff (l : LinkState) : l = .up ∨ l = .degraded ↔ ¬ (l = .disabled ∨ l = .down) := by
  cases l <;> decide

/-- R160, last row: the offer is one that R34 takes. -/
theorem relay_taken (hport : port ≤ 3) (hposition : position.toNat ≤ 15)
    (hlink : (s.port port).link = .up ∨ (s.port port).link = .degraded) (hroom : (s.port port).passDown.length < 4) :
    s.relay port position payload =
      s.putPort port { s.port port with passDown := (s.port port).passDown ++ [.relay position payload] } := by
  have hcarries := (up_or_degraded_iff _).1 hlink
  have htaken : s.passDownTaken port = true := (passDownTaken_iff s port).2 ⟨fun hd => hcarries (.inl hd), hroom⟩
  rw [State.relay, if_neg (by omega), if_neg hcarries, State.offerPassDown, if_pos htaken]

/-- R160, the rows that discard: a number out of range, a port that carries no relay, a full queue. -/
theorem relay_discarded (h : ¬ (port ≤ 3 ∧ position.toNat ≤ 15
      ∧ ((s.port port).link = .up ∨ (s.port port).link = .degraded) ∧ (s.port port).passDown.length < 4)) :
    s.relay port position payload = s := by
  unfold State.relay
  split
  case isTrue => rfl
  case isFalse hrange =>
    split
    case isTrue => rfl
    case isFalse hlink =>
      have hfull : ¬ s.passDownTaken port = true := fun htaken =>
        h ⟨by omega, by omega, (up_or_degraded_iff _).2 hlink, ((passDownTaken_iff s port).1 htaken).2⟩
      rw [State.offerPassDown, if_neg hfull]

end

/-! ### The commands -/

theorem exec_pduPass (s : State) (port position : Byte) (payload : List Byte) :
    exec (.pduPass (port :: position :: payload)) s = .next (s.relay port.toNat position payload).arbitrate := rfl

/-- R188: a body without a port and a position is discarded. -/
theorem exec_pduPass_short (s : State) {body : List Byte} (h : body.length < 2) : exec (.pduPass body) s = .next s := by
  match body, h with
  | [], _ => rfl
  | [_], _ => rfl

theorem exec_uplinkFrameError (s : State) :
    exec .uplinkFrameError s = .next (s.setNotices (s.noticesWithFault .frameError (.port 4))) :=
  congrArg Host.Outcome.next (recordFault_eq s .frameError (.port 4))

end Sys2Proof.Machine

open Sys2Proof Sys2Proof.Machine

/-- Settles O34: the command is the relay and then the transmitters' choices, which leave every port's core as the relay put
it; the relay is one update of the named port's queue, or none. -/
theorem pduPassIsRelayedAndFrameErrorIsRecorded : Obligations.PduPassIsRelayedAndFrameErrorIsRecorded := by
  intro s port position payload p taken
  have hexec := exec_pduPass s port position payload
  refine ⟨⟨_, hexec, ?named, fun q hq => ?other, exec_changes _ hexec⟩, fun body => exec_pduPass_short s,
    ⟨_, exec_uplinkFrameError s, rfl, same_setNotices s _⟩⟩
  case named =>
    rw [core_port_arbitrate]
    by_cases h : taken
    · obtain ⟨hport, hposition, hlink, hroom⟩ := h
      rw [relay_taken hport hposition hlink hroom, port_putPort_same, if_pos ⟨hport, hposition, hlink, hroom⟩]
      rfl
    · rw [relay_discarded h, if_neg h, List.append_nil]
      rfl
  case other =>
    rw [core_port_arbitrate]
    by_cases h : taken
    · obtain ⟨hport, hposition, hlink, hroom⟩ := h
      rw [relay_taken hport hposition hlink hroom, port_putPort_other _ _ hq]
    · rw [relay_discarded h]
end

