-- ==== Sys2Proof/Proofs/Commands.lean ====
section
/-! PROOF. A step is the command at the front of the queue; every command completes and leaves the queue of commands as it
was (00_scope.md 3.5). -/

namespace Sys2Proof.Machine

/-! ### One step -/

section
variable {s t : State}

theorem step_cons {c : Instr} {q : List Instr} (h : s.pending = c :: q) : step s = exec c (s.setPending q) := by
  simp only [step, h]

theorem step_nil (h : s.pending = []) : step s = .next s := by
  simp only [step, h]

/-- A law that does not read the queue of commands and that every command keeps is kept by every step. -/
theorem step_keeps {P : State → Prop} (hpending : ∀ u q, P u → P (u.setPending q))
    (hexec : ∀ c u v, P u → exec c u = .next v → P v) (hs : P s) (h : step s = .next t) : P t := by
  cases hq : s.pending with
  | nil =>
    rw [step_nil hq] at h
    cases h
    exact hs
  | cons c q =>
    rw [step_cons hq] at h
    exact hexec c _ t (hpending s q hs) h

end

/-! ### The commands that take a request -/

/-- The milliseconds that pass before a request command: its operand, or none (log 2). -/
def timeBefore : Instr → Nat
  | .writeEpochSource elapsed => elapsed
  | _ => 0

/-- Every request command is the take of a request of its row, unless it is READ_ENTRY going on with its copies (R169,
R172). -/
theorem exec_request {c : Instr} {row : RequestRow} (h : c.takes = some row) :
    ∃ work, ∀ s, (c = .readEntry → s.mgmt.current = none) →
      exec c s = (s.elapse (timeBefore c)).onRequest row work := by
  cases c
  case readEntry =>
    cases h
    refine ⟨State.startRead, fun s hcurrent => ?_⟩
    change execReadEntry s = s.onRequest .readEntry State.startRead
    unfold execReadEntry
    rw [hcurrent rfl]
  all_goals
    cases h <;> exact ⟨_, fun s _ => rfl⟩

/-! ### What a request command can do -/

section
variable {s t : State}

/-- R169, R171: a request command does nothing, or takes the request that heads the queue; a general test answers it, or its
work is done. -/
theorem onRequest_cases {row : RequestRow} {work : Request → State → State} (h : s.onRequest row work = .next t) :
    t = s ∨ ∃ r, requestRow r = row ∧
      ((∃ status, t = (s.popRequest.answer r status []).arbitrate)
        ∨ (s.popRequest.generalTest r = none ∧ t = (work r s.popRequest).arbitrate)) := by
  unfold State.onRequest at h
  split at h
  next r _ =>
    split at h
    next hrow =>
      refine .inr ⟨r, hrow, ?_⟩
      unfold State.execute at h
      split at h
      next status _ => cases h; exact .inl ⟨status, rfl⟩
      next hpass => cases h; exact .inr ⟨hpass, rfl⟩
    next => cases h; exact .inl rfl
  next => cases h; exact .inl rfl

theorem same_popRequest_answer (s : State) : SameOutside answerBlocks s s.popRequest :=
  SameOutside.mono (same_popRequest s) (by decide)

theorem same_answer_arbitrate (s : State) (r : Request) (status : Status) (data : List Byte) :
    SameOutside answerBlocks s (s.answer r status data).arbitrate :=
  (same_respond s r.origin _).comp (same_arbitrate _) (by decide) (by decide)

theorem same_arbitrate_answer (s : State) : SameOutside answerBlocks s s.arbitrate :=
  SameOutside.mono (same_arbitrate s) (by decide)

/-- What holds before a request command and does not read where answers land holds when its work begins; what the work
then establishes, and does not read that either, holds after the command. -/
theorem onRequest_establishes {P Q : State → Prop} {row : RequestRow} {work : Request → State → State}
    (hP : ∀ u v, SameOutside answerBlocks u v → P u → P v) (hQ : ∀ u v, SameOutside answerBlocks u v → Q u → Q v)
    (hPQ : ∀ u, P u → Q u)
    (hwork : ∀ r u, requestRow r = row → u.generalTest r = none → P u → Q (work r u)) (hs : P s)
    (h : s.onRequest row work = .next t) : Q t := by
  have hpop : P s.popRequest := hP _ _ (same_popRequest_answer s) hs
  obtain rfl | ⟨r, hrow, ⟨status, rfl⟩ | ⟨hpass, rfl⟩⟩ := onRequest_cases h
  · exact hPQ _ hs
  · exact hQ _ _ (same_answer_arbitrate _ r status []) (hPQ _ hpop)
  · exact hQ _ _ (same_arbitrate_answer _) (hwork r _ hrow hpass hpop)

/-- A law that does not read where answers land is kept by a request command whose work keeps it. -/
theorem onRequest_keeps {P : State → Prop} {row : RequestRow} {work : Request → State → State}
    (hP : ∀ u v, SameOutside answerBlocks u v → P u → P v)
    (hwork : ∀ r u, requestRow r = row → u.generalTest r = none → P u → P (work r u)) (hs : P s)
    (h : s.onRequest row work = .next t) : P t :=
  onRequest_establishes hP hP (fun _ hu => hu) hwork hs h

/-- R175: a write of a setting answers, after the setting is stored and has had its effect or after neither. -/
theorem writeSettingWith_establishes {P Q : State → Prop} {effect : Nat → Nat → Nat → State → State}
    (hQ : ∀ u v, SameOutside answerBlocks u v → Q u → Q v) (hPQ : ∀ u, P u → Q u)
    (heffect : ∀ i raw u, i ≤ 20 → P u →
      Q (effect i (u.setting i) (clampSetting i raw) (u.storeSetting i (clampSetting i raw)))) (r : Request) (u : State)
    (hu : P u) : Q (State.writeSettingWith effect r u) := by
  have hanswer : ∀ v status data, Q v → Q (v.answer r status data) := fun v status data hv =>
    hQ _ _ (SameOutside.mono (same_respond v r.origin _) (by decide)) hv
  unfold State.writeSettingWith
  dsimp only
  split
  · exact hanswer _ _ _ (hPQ _ hu)
  · exact hanswer _ _ _ (heffect _ _ _ (by omega) hu)

end

/-! ### Every command completes -/

/-- The command answers a next state. -/
def Completes (o : Host.Outcome State Fault Refusal) : Prop := ∃ t, o = .next t

section
variable (s : State)

theorem completes_next : Completes (.next s) := ⟨s, rfl⟩

theorem onRequest_completes (row : RequestRow) (work : Request → State → State) : Completes (s.onRequest row work) := by
  unfold State.onRequest
  (repeat' split) <;> exact completes_next _

/-- R169: a request command takes the request at the head of the queue, or does nothing; READ_ENTRY may copy instead. -/
theorem request_completes {c : Instr} {row : RequestRow} (h : c.takes = some row) : Completes (exec c s) := by
  by_cases hcopies : c = .readEntry → s.mgmt.current = none
  · obtain ⟨work, hexec⟩ := exec_request h
    rw [hexec s hcopies]
    exact onRequest_completes _ row work
  · push Not at hcopies
    obtain ⟨rfl, hcurrent⟩ := hcopies
    obtain ⟨j, hj⟩ := Option.ne_none_iff_exists'.1 hcurrent
    change Completes (execReadEntry s)
    unfold execReadEntry
    rw [hj]
    exact completes_next _

/-- Each other command looks whether its event is due, and answers the changed state or the state itself (log 1). -/
theorem event_completes {c : Instr} (h : c.takes = none) : Completes (exec c s) := by
  cases c <;> cases h <;> dsimp only [exec]
  case powerOn | uplinkFrameError | storageUpset => exact completes_next _
  case imageLoadEnd => unfold execImageLoadEnd; dsimp only; split <;> exact completes_next _
  case internalAdvance => unfold execInternalAdvance; dsimp only; split <;> exact completes_next _
  case lossExpiry => unfold execLossExpiry; dsimp only; split <;> exact completes_next _
  case epoch => unfold execEpoch; dsimp only; (repeat' split) <;> exact completes_next _
  case commandTimeout => unfold execCommandTimeout; (repeat' split) <;> exact completes_next _
  case portLost => unfold execPortLost; split <;> exact completes_next _
  case holdSweepPosition => unfold execHoldSweepPosition; split <;> exact completes_next _
  case holdSweepOutlet => unfold execHoldSweepOutlet; split <;> exact completes_next _
  case tenantEvaluation => unfold execTenantEvaluation; split <;> exact completes_next _
  case curtailmentStep => unfold execCurtailmentStep; (repeat' split) <;> exact completes_next _
  case intervalClose => unfold execIntervalClose; split <;> exact completes_next _
  case sample => unfold execSample; (repeat' split) <;> exact completes_next _
  case chainMalformedFrame => unfold execChainMalformedFrame; dsimp only; (repeat' split) <;> exact completes_next _
  case switchAck => unfold execSwitchAck; (repeat' split) <;> exact completes_next _
  case pduReply => unfold execPduReply; (repeat' split) <;> exact completes_next _
  case chainRequest => unfold execChainRequest; (repeat' split) <;> exact completes_next _
  case uplinkRequest => unfold execUplinkRequest; split <;> exact completes_next _
  case pduPass => unfold execPduPass; split <;> exact completes_next _
  case markSend => unfold execMarkSend; split <;> exact completes_next _
  case switchSend => unfold execSwitchSend; (repeat' split) <;> exact completes_next _
  case passDownSend => unfold execPassDownSend; split <;> exact completes_next _
  case downFrameEnd => unfold execDownFrameEnd; (repeat' split) <;> exact completes_next _
  case uplinkFrameStart => unfold execUplinkFrameStart; (repeat' split) <;> exact completes_next _
  case uplinkFrameEnd => unfold execUplinkFrameEnd; (repeat' split) <;> exact completes_next _
  case noticeQueuing => unfold execNoticeQueuing; (repeat' split) <;> exact completes_next _
  case keptResponseOffer => unfold execKeptResponseOffer; (repeat' split) <;> exact completes_next _
  case saveEnd => unfold execSaveEnd; split <;> exact completes_next _
  case resetFullStart => unfold execResetFullStart; split <;> exact completes_next _

theorem exec_completes (c : Instr) : Completes (exec c s) := by
  cases h : c.takes with
  | none => exact event_completes s h
  | some row => exact request_completes s h

/-- No command can change the queue of waiting commands. -/
theorem pending_notMem_changes (c : Instr) : Block.pending ∉ c.changes := by
  cases c <;> simp only [Instr.changes] <;> decide

end

end Sys2Proof.Machine

open Sys2Proof Sys2Proof.Machine

/-- Settles O1: the two cases of `step`. -/
theorem stepRunsTheFrontCommand : Obligations.StepRunsTheFrontCommand :=
  fun _ _ _ => ⟨step_cons, step_nil⟩

/-- Settles O2: each command is due or not, and the queue is none of the parts it can change. -/
theorem everyCommandCompletes : Obligations.EveryCommandCompletes := by
  intro c s
  obtain ⟨t, h⟩ := exec_completes s c
  exact ⟨t, h, exec_changes c h .pending (pending_notMem_changes c)⟩
end

