-- ==== Sys2Proof/Proofs/Advances.lean ====
section
/-! PROOF. When the epoch advances, what each source's advance leaves, and that advances are 500 ms or more apart (R3 to R8,
section 1.3). -/

namespace Sys2Proof.Machine

/-! ### The three timer events (R3 to R5) -/

section
variable (s : State) (elapsed : Nat)

theorem exec_internalAdvance (h : s.mgmt.imageState ≠ .loading ∧ s.timer.mode ≠ .external
      ∧ s.timer.refTime + 1000 ≤ s.now + elapsed) :
    exec (.internalAdvance elapsed) s = .next ((s.elapse elapsed).advance (s.timer.epoch + 1)).arbitrate := by
  obtain ⟨hload, hmode, htime⟩ := h
  exact if_pos ⟨hload, hmode, (by show 1000 ≤ s.now + elapsed - s.timer.refTime; omega)⟩

theorem exec_internalAdvance_idle (h : s.mgmt.imageState = .loading ∨ s.timer.mode = .external
      ∨ s.now + elapsed < s.timer.refTime + 1000) :
    exec (.internalAdvance elapsed) s = .next (s.elapse elapsed) := by
  refine if_neg ?_
  rintro ⟨hload, hmode, htime⟩
  have htime : 1000 ≤ s.now + elapsed - s.timer.refTime := htime
  obtain h | h | h := h
  · exact hload h
  · exact hmode h
  · omega

theorem exec_lossExpiry (h : s.mgmt.imageState ≠ .loading ∧ s.timer.mode = .external
      ∧ s.timer.refTime + 3000 ≤ s.now + elapsed) :
    exec (.lossExpiry elapsed) s = .next (((((s.elapse elapsed).setTimer { s.timer with mode := .fallback }).advance
      (s.timer.epoch + 1)).recordFault .sourceLost .none).arbitrate) := by
  obtain ⟨hload, hmode, htime⟩ := h
  exact if_pos ⟨hload, hmode, (by show 3000 ≤ s.now + elapsed - s.timer.refTime; omega)⟩

theorem exec_lossExpiry_idle (h : s.mgmt.imageState = .loading ∨ s.timer.mode ≠ .external
      ∨ s.now + elapsed < s.timer.refTime + 3000) :
    exec (.lossExpiry elapsed) s = .next (s.elapse elapsed) := by
  refine if_neg ?_
  rintro ⟨hload, hmode, htime⟩
  have htime : 3000 ≤ s.now + elapsed - s.timer.refTime := htime
  obtain h | h | h := h
  · exact hload h
  · exact h hmode
  · omega

theorem exec_epoch (hi lo : Byte) (rest : List Byte) : exec (.epoch elapsed (hi :: lo :: rest)) s =
    if s.mgmt.imageState = .loading ∨ s.timer.mode ≠ .external then .next (s.elapse elapsed)
    else if (s.elapse elapsed).sinceReference < 500 then .next ((s.elapse elapsed).recordFault .epochEarly .none)
    else .next ((s.elapse elapsed).advance (BitVec.ofNat 16 (beNat [hi, lo]))).arbitrate := rfl

/-- R188: an EPOCH body without a whole epoch number is discarded. -/
theorem exec_epoch_short {body : List Byte} (h : body.length < 2) :
    exec (.epoch elapsed body) s = .next (s.elapse elapsed) := by
  match body, h with
  | [], _ => rfl
  | [_], _ => rfl

theorem exec_epoch_ignored (body : List Byte) (h : s.mgmt.imageState = .loading ∨ s.timer.mode ≠ .external) :
    exec (.epoch elapsed body) s = .next (s.elapse elapsed) := by
  match body with
  | [] => rfl
  | [_] => rfl
  | hi :: lo :: rest => rw [exec_epoch, if_pos h]

end

/-! ### An advance and the choices that follow it (R8) -/

theorem beNat_pair (hi lo : Byte) : beNat [hi, lo] = hi.toNat * 256 + lo.toNat := by simp [beNat]

/-- An advance after which the choices are made is still the advance. -/
theorem Advanced.arbitrate {s t : State} {n : Epoch} (h : Advanced s t n) : Advanced s t.arbitrate n := by
  obtain ⟨htimer, hclosing, hfilling, hports, hbeyond, hentries, hrecords, htag, hcreation, hdue, howed, hsame⟩ := h
  refine ⟨htimer, hclosing, hfilling, fun p hp => ?_, fun p hp => ?_, hentries, hrecords, htag, hcreation, hdue, howed,
    hsame.trans (SameOutside.mono (same_arbitrate t) (by decide))⟩
  · rw [core_port_arbitrate, hports p hp]
  · rw [core_port_arbitrate, hbeyond p hp]

theorem advance_arbitrate_spec (s : State) (n : Epoch) : Advanced s (s.advance n).arbitrate n :=
  (advance_spec s n).arbitrate

theorem advance_timer (s : State) (n : Epoch) : (s.advance n).timer = { s.timer with
    epoch := n, refTime := s.now, pass := some { epoch := s.timer.epoch - 1, point := .position 0 } } :=
  (advance_spec s n).1

theorem advance_now (s : State) (n : Epoch) : (s.advance n).now = s.now := same_advance s n .now (by decide)

/-! ### Advances are half a second apart (section 1.3) -/

/-- The epoch and the reference time of `t` are those of `timer`, or the reference time moved on 500 ms or more to the
present time. -/
def AdvancedLater (timer : Timer) (t : State) : Prop :=
  (t.timer.epoch = timer.epoch ∧ t.timer.refTime = timer.refTime)
    ∨ (timer.refTime + 500 ≤ t.timer.refTime ∧ t.timer.refTime = t.now)

section
variable {s t u v : State} {timer : Timer}

/-- No epoch and no reference time has changed. -/
theorem AdvancedLater.of_kept (hepoch : t.timer.epoch = s.timer.epoch) (href : t.timer.refTime = s.timer.refTime) :
    AdvancedLater s.timer t := .inl ⟨hepoch, href⟩

theorem AdvancedLater.of_timer (h : t.timer = s.timer) : AdvancedLater s.timer t := .inl (by rw [h]; exact ⟨rfl, rfl⟩)

/-- The law reads the timer and the clock alone. -/
theorem AdvancedLater.frame {l : List Block} (hframe : SameOutside l u v) (htimer : Block.timer ∉ l)
    (hnow : Block.now ∉ l) (h : AdvancedLater timer u) : AdvancedLater timer v := by
  have ht : v.timer = u.timer := hframe .timer htimer
  have hn : v.now = u.now := hframe .now hnow
  unfold AdvancedLater
  rw [ht, hn]
  exact h

theorem AdvancedLater.answer (u v : State) (hframe : SameOutside answerBlocks u v) (h : AdvancedLater timer u) :
    AdvancedLater timer v := h.frame hframe (by decide) (by decide)

/-- An advance 500 ms or more after the reference time. -/
theorem advancedLater_advance (n : Epoch) (h : timer.refTime + 500 ≤ s.now) : AdvancedLater timer (s.advance n) := by
  right
  rw [advance_timer, advance_now]
  exact ⟨h, rfl⟩

/-- The place of a pass is no part of the law. -/
theorem AdvancedLater.movePass (h : AdvancedLater timer u) (point : PassPoint) : AdvancedLater timer (u.movePass point) := h

theorem AdvancedLater.refl (s : State) : AdvancedLater s.timer s := .of_timer rfl

/-- A pass completion counts a tick and may close the interval. -/
theorem AdvancedLater.completePass (h : AdvancedLater timer u) : AdvancedLater timer u.completePass := by
  have hnow : u.completePass.now = u.now := same_completePass u .now (by decide)
  have hkept : u.completePass.timer.epoch = u.timer.epoch ∧ u.completePass.timer.refTime = u.timer.refTime := by
    obtain ⟨htick, hclose⟩ := completePass_spec u
    obtain h | h := Nat.lt_or_ge (u.timer.tickCount + 1) u.ticksPerInterval
    · rw [htick h]; exact ⟨rfl, rfl⟩
    · rw [hclose h, (handClose_spec _).1]; exact ⟨rfl, rfl⟩
  unfold AdvancedLater
  rw [hkept.1, hkept.2, hnow]
  exact h

/-- The commands of a pass move its place and count ticks, and leave epoch and reference time. -/
theorem passCommand_advancedLater {c : Instr}
    (hc : c = .holdSweepPosition ∨ c = .holdSweepOutlet ∨ c = .tenantEvaluation ∨ c = .curtailmentStep)
    (h : exec c s = .next t) : AdvancedLater s.timer t := by
  obtain rfl | rfl | rfl | rfl := hc
  · change execHoldSweepPosition s = _ at h
    unfold execHoldSweepPosition at h
    split at h <;> cases h
    · exact AdvancedLater.movePass (AdvancedLater.refl s) _
    · exact .refl s
  · change execHoldSweepOutlet s = _ at h
    unfold execHoldSweepOutlet at h
    split at h <;> cases h
    · exact ((AdvancedLater.refl s).frame (same_sweepOutlet s _) (by decide) (by decide)).movePass _
    · exact .refl s
  · change execTenantEvaluation s = _ at h
    unfold execTenantEvaluation at h
    split at h <;> cases h
    · exact (((AdvancedLater.refl s).frame (same_recordParity s _) (by decide) (by decide)).frame
        (same_putLive _ _ _) (by decide) (by decide)).movePass _
    · exact .refl s
  · change execCurtailmentStep s = _ at h
    unfold execCurtailmentStep at h
    split at h
    · next x tr c _ =>
      have hstep : AdvancedLater s.timer (s.curtailStep x tr c) :=
        (AdvancedLater.refl s).frame (same_curtailStep s x tr c) (by decide) (by decide)
      generalize s.curtailStep x tr c = u at h hstep
      dsimp only at h
      split at h <;> cases h
      · exact (hstep.movePass _).frame (same_arbitrate _) (by decide) (by decide)
      · exact hstep.completePass.frame (same_arbitrate _) (by decide) (by decide)
    · cases h; exact .refl s

/-- A timer event that is due advances 500 ms or more after the reference time. -/
theorem advancedLater_elapse_advance {v : State} {elapsed : Nat} (n : Epoch) (hv : v.now = s.now + elapsed)
    (htime : 500 ≤ (s.elapse elapsed).sinceReference) : AdvancedLater s.timer (v.advance n) := by
  have htime : 500 ≤ s.now + elapsed - s.timer.refTime := htime
  exact advancedLater_advance n (by omega)

theorem internalAdvance_advancedLater {elapsed : Nat} (h : execInternalAdvance elapsed s = .next t) :
    AdvancedLater s.timer t := by
  unfold execInternalAdvance at h
  dsimp only at h
  split at h <;> obtain rfl := Host.Outcome.next.inj h
  · exact (advancedLater_elapse_advance _ rfl (by omega)).frame (same_arbitrate _) (by decide) (by decide)
  · exact AdvancedLater.of_timer rfl

theorem lossExpiry_advancedLater {elapsed : Nat} (h : execLossExpiry elapsed s = .next t) :
    AdvancedLater s.timer t := by
  unfold execLossExpiry at h
  dsimp only at h
  split at h <;> obtain rfl := Host.Outcome.next.inj h
  · exact ((advancedLater_elapse_advance _ rfl (by omega)).frame (same_recordFault _ _ _) (by decide) (by decide)).frame
      (same_arbitrate _) (by decide) (by decide)
  · exact AdvancedLater.of_timer rfl

theorem epoch_advancedLater {elapsed : Nat} {body : List Byte} (h : execEpoch elapsed body s = .next t) :
    AdvancedLater s.timer t := by
  have hidle : AdvancedLater s.timer (s.elapse elapsed) := AdvancedLater.of_timer rfl
  unfold execEpoch at h
  dsimp only at h
  split at h
  · obtain rfl := Host.Outcome.next.inj h; exact hidle
  · split at h
    · obtain rfl := Host.Outcome.next.inj h; exact hidle
    · split at h <;> obtain rfl := Host.Outcome.next.inj h
      · exact hidle.frame (same_recordFault _ _ _) (by decide) (by decide)
      · exact (advancedLater_elapse_advance _ rfl (by omega)).frame (same_arbitrate _) (by decide) (by decide)

/-- The timer is as in `s`, and the clock `elapsed` later. -/
def OnlyClockMoved (s : State) (elapsed : Nat) (u : State) : Prop := u.timer = s.timer ∧ u.now = s.now + elapsed

theorem OnlyClockMoved.frame {elapsed : Nat} (u v : State) (hframe : SameOutside answerBlocks u v)
    (h : OnlyClockMoved s elapsed u) : OnlyClockMoved s elapsed v := by
  have htimer : v.timer = u.timer := hframe .timer (by decide)
  have hnow : v.now = u.now := hframe .now (by decide)
  exact ⟨htimer.trans h.1, hnow.trans h.2⟩

/-- R6: the write advances only when 1 000 ms have passed. -/
theorem epochSourceEffect_advancedLater {elapsed : Nat} (i old v : Nat) (h : OnlyClockMoved s elapsed u) :
    AdvancedLater s.timer (epochSourceEffect i old v u) := by
  obtain ⟨htimer, -⟩ := h
  have hsource : AdvancedLater s.timer (u.setSource v) := .inl (by rw [← htimer]; exact ⟨rfl, rfl⟩)
  unfold epochSourceEffect
  dsimp only
  split
  · next hcond =>
    have hsince : 1000 ≤ u.now - u.timer.refTime := hcond.2.2
    rw [htimer] at hsince
    exact advancedLater_advance _ (show s.timer.refTime + 500 ≤ u.now by omega)
  · exact hsource

theorem writeEpochSource_advancedLater {elapsed : Nat} (h : execWriteEpochSource elapsed s = .next t) :
    AdvancedLater s.timer t := by
  have hkept : ∀ u, OnlyClockMoved s elapsed u → AdvancedLater s.timer u := fun u hu => .of_timer hu.1
  have hclock : OnlyClockMoved s elapsed (s.elapse elapsed) := ⟨rfl, rfl⟩
  exact onRequest_establishes OnlyClockMoved.frame AdvancedLater.answer hkept
    (fun r u _ _ hu => writeSettingWith_establishes (P := OnlyClockMoved s elapsed) AdvancedLater.answer hkept
      (fun i _ w _ hw => epochSourceEffect_advancedLater (u := w.storeSetting i _) i _ _ hw) r u hu) hclock h

theorem resetLive_advancedLater (h : execResetLive s = .next t) : AdvancedLater s.timer t := by
  unfold execResetLive at h
  exact onRequest_keeps (P := AdvancedLater s.timer) AdvancedLater.answer
    (fun r u _ _ hu => AdvancedLater.answer u.liveReset _ (SameOutside.mono (same_respond _ _ _) (by decide)) (by
      have hnow : u.liveReset.now = u.now := same_liveReset u .now (by decide)
      unfold AdvancedLater
      rw [hnow]
      exact hu)) (.refl s) h

theorem intervalClose_advancedLater (h : execIntervalClose s = .next t) : AdvancedLater s.timer t := by
  unfold execIntervalClose at h
  split at h <;> cases h
  · exact (show AdvancedLater s.timer (s.setTimer { s.timer with handedClose := none }) from .inl ⟨rfl, rfl⟩).frame
      (same_closeInterval _ _) (by decide) (by decide)
  · exact .refl s

end

end Sys2Proof.Machine

open Sys2Proof Sys2Proof.Machine

/-- Settles O9: of the commands that change the timer, those of a pass, the close and the live reset leave epoch and
reference time, and each advance is 500 ms or more after the reference time. -/
theorem advancesAreHalfASecondApart : Obligations.AdvancesAreHalfASecondApart := by
  intro c s t hrestarts h
  by_cases hchanges : Block.timer ∈ c.changes
  case neg => exact AdvancedLater.of_timer (exec_changes c h .timer hchanges)
  cases c
  case internalAdvance elapsed => exact internalAdvance_advancedLater h
  case lossExpiry elapsed => exact lossExpiry_advancedLater h
  case epoch elapsed body => exact epoch_advancedLater h
  case holdSweepPosition => exact passCommand_advancedLater (.inl rfl) h
  case holdSweepOutlet => exact passCommand_advancedLater (.inr (.inl rfl)) h
  case tenantEvaluation => exact passCommand_advancedLater (.inr (.inr (.inl rfl))) h
  case curtailmentStep => exact passCommand_advancedLater (.inr (.inr (.inr rfl))) h
  case intervalClose => exact intervalClose_advancedLater h
  case writeEpochSource => exact writeEpochSource_advancedLater h
  case resetLive => exact resetLive_advancedLater h
  case powerOn | imageLoadEnd | resetFullStart => cases hrestarts
  all_goals exact absurd hchanges (by simp only [Instr.changes]; decide)

/-- Settles O7: each event is the advance of R8, whose parts `advance_spec` gives, with the choices after it. -/
theorem eachSourceMakesItsAdvance : Obligations.EachSourceMakesItsAdvance := by
  intro s elapsed hload
  refine ⟨fun hmode htime => ⟨_, exec_internalAdvance s elapsed ⟨hload, hmode, htime⟩, advance_arbitrate_spec _ _⟩,
    fun hi lo rest hmode htime => ⟨_, ?epoch, advance_arbitrate_spec _ _⟩,
    fun hmode htime => ⟨_, _, exec_lossExpiry s elapsed ⟨hload, hmode, htime⟩, advance_spec _ _, ?notices, ?frame⟩⟩
  case epoch =>
    have hsince : (s.elapse elapsed).sinceReference = s.now + elapsed - s.timer.refTime := rfl
    rw [exec_epoch, if_neg (by simp [hload, hmode]), if_neg (by omega), beNat_pair]
  case notices => rw [recordFault_eq]; rfl
  case frame => exact (same_recordFault _ _ _).comp (same_arbitrate _) (by decide) (by decide)

/-- Settles O8: the conditions of the three events, negated; an early EPOCH frame is recorded. -/
theorem tooEarlyOrInTheWrongModeNothingAdvances : Obligations.TooEarlyOrInTheWrongModeNothingAdvances := by
  intro s elapsed
  refine ⟨exec_internalAdvance_idle s elapsed, exec_lossExpiry_idle s elapsed, fun body h => ?ignored,
    fun body hload hmode hbody htime => ?early⟩
  case ignored =>
    obtain h | h | h := h
    · exact exec_epoch_ignored s elapsed body (.inl h)
    · exact exec_epoch_ignored s elapsed body (.inr h)
    · exact exec_epoch_short s elapsed h
  case early =>
    match body, hbody with
    | hi :: lo :: rest, _ =>
      have hsince : (s.elapse elapsed).sinceReference = s.now + elapsed - s.timer.refTime := rfl
      refine ⟨(s.elapse elapsed).setNotices (s.noticesWithFault .epochEarly .none), ?_, rfl, rfl,
        (same_elapse s elapsed).comp (same_setNotices _ _) (by decide) (by decide)⟩
      rw [exec_epoch, if_neg (by simp [hload, hmode]), if_pos (by omega), recordFault_eq]
      rfl
end

