-- ==== Sys2Proof/Proofs/Restarts.lean ====
section
/-! PROOF. The power-on values and the events that return to them (R179, R185), and storage upsets (R44, R104). -/

namespace Sys2Proof.Machine

/-! ### The power-on values meet every law -/

theorem restart_reset : State.reset.restart = State.reset := rfl

section
variable (s : State)

theorem port_restart (p : Nat) : s.restart.port p = Port.initial := rfl
theorem entryAt_restart (n : Nat) : s.restart.entryAt n = none := rfl
theorem dueAt_restart (p : Nat) : s.restart.dueAt p = [] := rfl
theorem liveAt_restart (t : Nat) : s.restart.liveAt t = LiveRecord.idle := rfl

theorem queueBounds_restart : QueueBounds s.restart :=
  ⟨fun _ => Nat.zero_le _, Nat.zero_le _, Nat.zero_le _, Nat.zero_le _, Nat.zero_le _⟩

theorem tablesCanonical_restart : TablesCanonical s.restart :=
  ⟨rfl, rfl, rfl, rfl, rfl, canonical_cleared, canonical_cleared, rfl, rfl, rfl, rfl, rfl, rfl, rfl, rfl, rfl, rfl⟩

theorem clampSetting_default : ∀ i, i < 21 → clampSetting i (defaultSettings.getD i 0) = defaultSettings.getD i 0 := by
  decide

theorem settingsInRange_restart : SettingsInRange s.restart := ⟨rfl, clampSetting_default⟩

theorem curtailLaws_restart : CurtailLaws s.restart := by
  intro m n e f _ _ he _
  cases he

theorem curtailLists_restart : CurtailLists s.restart := by
  refine ⟨fun n _ => entryAt_restart s n, fun p => ⟨List.nodup_nil, fun n => ⟨fun h => absurd h List.not_mem_nil, ?_⟩⟩,
    List.nodup_nil, fun n => ⟨fun h => absurd h List.not_mem_nil, ?_⟩⟩
  · rintro ⟨e, he, -⟩; cases he
  · rintro ⟨e, he, -⟩; cases he

theorem creditLaw_restart : CreditLaw s.restart := fun _ _ => ⟨fun _ => rfl, fun _ _ => Nat.zero_le _⟩

theorem sum_cleared (f : Feed) (t : Nat) : AccSet.cleared.sum f t = 0 := by cases f <;> rfl

theorem figuresBounded_restart : FiguresBounded s.restart := by
  refine ⟨fun f t => ?_, fun t => ?_⟩
  · change AccSet.cleared.sum f t ≤ wattTop ∧ AccSet.cleared.sum f t ≤ wattTop
    rw [sum_cleared]
    exact ⟨Nat.zero_le _, Nat.zero_le _⟩
  · exact ⟨Nat.zero_le _, Nat.zero_le _, Nat.zero_le _, Nat.zero_le _, Nat.zero_le _, Nat.zero_le _⟩

theorem poolIdle_restart : PoolIdle s.restart := ⟨rfl, rfl, rfl, rfl, rfl, rfl, rfl⟩

theorem disabledPortsInert_restart : DisabledPortsInert s.restart :=
  ⟨fun _ _ _ => ⟨rfl, fun _ _ => rfl⟩, fun _ _ _ => rfl⟩

theorem transmittersChoose_restart : TransmittersChoose s.restart := by
  refine ⟨fun _ _ h => absurd rfl h, fun _ _ h => absurd rfl h, fun _ _ k hk => ?_, fun h => absurd rfl h⟩
  cases k <;> cases hk

/-! ### The restart (R179, R185) -/

theorem exec_resetFullStart_due (h : s.mgmt.resetDue = true) : exec .resetFullStart s = .next s.restart := if_pos h

theorem exec_resetFullStart_idle (h : s.mgmt.resetDue = false) : exec .resetFullStart s = .next s :=
  if_neg (by rw [h]; decide)

theorem extMemory_restart : s.restart.extMemory = if s.mgmt.save = none then s.extMemory else none := by
  change (if s.mgmt.save.isSome then none else s.extMemory) = _
  cases s.mgmt.save <;> rfl

theorem same_reset_restart : SameOutside [.pending, .now, .freeCount, .extMemory] State.reset s.restart := by
  intro b hb
  cases b
  case pending | now | freeCount | extMemory => exact absurd hb (by decide)
  case links | downChoice => exact fun _ => rfl
  all_goals rfl

/-! ### What an upset strikes -/

section
variable (good : Bool)

theorem slotAt_strike {key : Nat} (h : keyValid key = true) (content : Option OatEntry) (k : Nat) :
    (s.strike good (.oatSlot key content)).slotAt k =
      if k = key then { content := content, parityGood := good } else s.slotAt k := by
  change (if keyValid key then _ else s : State).slotAt k = _
  rw [if_pos h]
  exact Table.read_write ..

theorem ruleAt_strike {n : Nat} (h : n < 16) (content : Rule) (m : Nat) :
    (s.strike good (.rule n content)).ruleAt m =
      if m = n then { content := content, parityGood := good } else s.ruleAt m := by
  change (if n < 16 then _ else s : State).ruleAt m = _
  rw [if_pos h]
  exact Table.read_write ..

theorem strike_active {t : Nat} (h : 1 ≤ t ∧ t ≤ 127) (content : Contract) :
    s.strike good (.active t content) = s.setContracts { s.contracts with
      active := Table.write emptyContract s.contracts.active t { content := content, parityGood := good } } := if_pos h

theorem strike_staged {t : Nat} (h : 1 ≤ t ∧ t ≤ 127) (content : Contract) :
    s.strike good (.staged t content) = s.setContracts { s.contracts with
      staged := Table.write emptyContract s.contracts.staged t { content := content, parityGood := good } } := if_pos h

/-- A slot's upset changes the OAT alone. -/
theorem same_strike_oatSlot (key : Nat) (content : Option OatEntry) :
    SameOutside [.oat] s (s.strike good (.oatSlot key content)) := by
  unfold State.strike
  dsimp only
  split
  · exact same_setOat _ _
  · exact .refl _ _

theorem same_strike_rule (n : Nat) (content : Rule) : SameOutside [.rules] s (s.strike good (.rule n content)) := by
  unfold State.strike
  dsimp only
  split
  · exact same_setRules _ _
  · exact .refl _ _

end

end

end Sys2Proof.Machine

open Sys2Proof Sys2Proof.Machine

/-- Settles O3: the values are those of `State.reset`, and `State.restart` is it but for the model's own fields. -/
theorem powerOnRestartsEveryBlock : Obligations.PowerOnRestartsEveryBlock := by
  refine ⟨⟨by decide, fun p => ?ports, fun i => ⟨rfl, rfl⟩, fun k => ⟨rfl, rfl⟩, rfl, rfl,
    fun t => ⟨rfl, rfl, rfl, rfl, rfl, rfl⟩, fun t => ⟨rfl, rfl, rfl⟩, rfl, rfl, fun n => ⟨rfl, rfl⟩, fun t => rfl,
    by decide⟩, fun s c hc => ⟨⟨s.restart, ?exec, same_reset_restart s, rfl, rfl, rfl, extMemory_restart s⟩,
    exec_resetFullStart_idle s⟩⟩
  case ports => exact ⟨rfl, rfl, rfl, rfl, rfl, rfl, rfl⟩
  case exec =>
    obtain rfl | ⟨rfl, hdue⟩ := hc
    · rfl
    · exact exec_resetFullStart_due s hdue

/-- Settles O52: one write of the struck table. -/
theorem storageUpsetStrikesOneItem : Obligations.StorageUpsetStrikesOneItem := by
  intro s good
  refine ⟨fun key content hkey => ⟨_, rfl, ?_, fun k hk => ?_, same_strike_oatSlot s good key content⟩,
    fun n rule hn => ⟨_, rfl, ?_, fun m hm => ?_, same_strike_rule s good n rule⟩, fun x c h1 h127 => ?contracts⟩
  · rw [slotAt_strike s good hkey, if_pos rfl]
  · rw [slotAt_strike s good hkey, if_neg hk]
  · rw [ruleAt_strike s good hn, if_pos rfl]
  · rw [ruleAt_strike s good hn, if_neg hm]
  case contracts =>
    refine ⟨⟨_, rfl, ?_⟩, ⟨_, rfl, ?_⟩⟩
    · rw [strike_active s good ⟨h1, h127⟩]
      exact ⟨Table.read_write_same .., fun y hy => Table.read_write_other _ _ _ hy, rfl, same_setContracts _ _⟩
    · rw [strike_staged s good ⟨h1, h127⟩]
      exact ⟨Table.read_write_same .., fun y hy => Table.read_write_other _ _ _ hy, rfl, same_setContracts _ _⟩

/-- Settles O60: the state after power is applied is a restart. -/
theorem resetMeetsEveryLaw : Obligations.ResetMeetsEveryLaw := by
  unfold Obligations.ResetMeetsEveryLaw
  rw [← restart_reset]
  exact ⟨queueBounds_restart _, tablesCanonical_restart _, settingsInRange_restart _, curtailLaws_restart _,
    curtailLists_restart _, creditLaw_restart _, figuresBounded_restart _, poolIdle_restart _,
    disabledPortsInert_restart _, transmittersChoose_restart _⟩
end

