-- ==== Sys2Proof/Proofs/FaultRecord.lean ====
section
/-! PROOF. The fault record keeps its fault or takes one of higher severity (R155, R156): the law is carried through each
operation that records a fault or writes the notice unit. -/

namespace Sys2Proof.Machine

/-! ### The three parts of a curtailment step (R124) -/

/-- The contract read at step 3 has policy AUTO. -/
def autoPolicy : Option Contract → Bool
  | some c => decide (c.policy = .auto)
  | none => false

theorem curtailStep_eq (s : State) (t : Nat) (tr : Transition) (c : Option Contract) : s.curtailStep t tr c =
    if ((s.actOnTransition t tr (autoPolicy c)).curtailAt t).restoring ≠ .none
        ∧ !(s.actOnTransition t tr (autoPolicy c)).tenantPending t then
      (s.actOnTransition t tr (autoPolicy c)).restoreStep t
    else if (s.actOnTransition t tr (autoPolicy c)).shedDue t c then (s.actOnTransition t tr (autoPolicy c)).shedStep t
    else s.actOnTransition t tr (autoPolicy c) := by
  cases c <;> rfl

/-- What part 1 establishes and both steps keep holds after the curtailment step. -/
theorem curtailStep_keeps {P : State → Prop} {s : State} {t : Nat} (tr : Transition) (c : Option Contract)
    (hact : ∀ auto, P (s.actOnTransition t tr auto)) (hrestore : ∀ u, P u → P (u.restoreStep t))
    (hshed : ∀ u, P u → P (u.shedStep t)) : P (s.curtailStep t tr c) := by
  rw [curtailStep_eq]
  split
  · exact hrestore _ (hact _)
  · split
    · exact hshed _ (hact _)
    · exact hact _

/-! ### The law -/

/-- The fault record of `t` is `held`, or holds a fault of higher severity. -/
def FaultRises (held : Option FaultRecord) (t : State) : Prop :=
  t.notices.fault = held ∨ severityHeld held < severityHeld t.notices.fault

theorem severityHeld_faultAfter (held : Option FaultRecord) (f : FaultRecord) :
    faultAfter held f = held ∨ severityHeld held < severityHeld (faultAfter held f) := by
  unfold faultAfter
  split
  · next h => exact .inr h
  · exact .inl rfl

namespace FaultRises

variable {held : Option FaultRecord} {u v : State}

theorem refl (s : State) : FaultRises s.notices.fault s := .inl rfl

/-- The law reads the fault record alone. -/
theorem of_fault (h : FaultRises held u) (hfault : v.notices.fault = u.notices.fault) : FaultRises held v := by
  unfold FaultRises
  rw [hfault]
  exact h

theorem frame {l : List Block} (h : FaultRises held u) (hframe : SameOutside l u v) (hl : Block.notices ∉ l) :
    FaultRises held v := by
  have hnotices : v.notices = u.notices := hframe .notices hl
  exact h.of_fault (by rw [hnotices])

theorem answer (u v : State) (hframe : SameOutside answerBlocks u v) (h : FaultRises held u) : FaultRises held v :=
  h.frame hframe (by decide)

theorem recordFault (h : FaultRises held u) (cls : FaultClass) (loc : Location) :
    FaultRises held (u.recordFault cls loc) := by
  have hnow : (u.recordFault cls loc).notices.fault
      = faultAfter u.notices.fault { cls := cls, location := loc, epoch := u.timer.epoch } := by
    rw [recordFault_eq]; rfl
  unfold FaultRises at h ⊢
  rw [hnow]
  obtain hkept | hrisen := severityHeld_faultAfter u.notices.fault ⟨cls, loc, u.timer.epoch⟩
  · rwa [hkept]
  · obtain h | h := h
    · exact .inr (h ▸ hrisen)
    · exact .inr (h.trans hrisen)

theorem recordParity (h : FaultRises held u) (bad : List Location) : FaultRises held (u.recordParity bad) := by
  induction bad generalizing u with
  | nil => exact h
  | cons loc rest ih => exact ih (h.recordFault _ _)

/-! ### Ports and frames heard -/

theorem degrade (h : FaultRises held u) (p : Nat) : FaultRises held (u.degrade p) :=
  (h.frame (same_putPort_all u p _) (by decide)).recordFault _ _

theorem wellFormedFrame (h : FaultRises held u) (p : Nat) : FaultRises held (u.wellFormedFrame p) := by
  have hheard := h.frame (same_putPort_all u p { u.port p with silentPass := 0 }) (by decide)
  unfold State.wellFormedFrame
  dsimp only
  split
  · split
    · exact hheard.frame (same_putPort_all _ p _) (by decide)
    · exact hheard.degrade p
  · exact hheard

theorem testThresholds (h : FaultRises held u) (ps : List Nat) : FaultRises held (ps.foldl State.testThreshold u) := by
  induction ps generalizing u with
  | nil => exact h
  | cons p rest ih =>
    refine ih ?_
    unfold State.testThreshold
    split
    · exact h.degrade p
    · exact h

/-! ### Samples and answers -/

theorem measure (h : FaultRises held u) (key v : Nat) : FaultRises held (u.measure key v) :=
  ((h.recordParity _).frame (same_setReadings _ _) (by decide)).frame (same_setFilling _ _) (by decide)

theorem takeReadings (pdu : Nat) (readings : List (Nat × Nat)) :
    ∀ {u : State} (seen : List Nat), FaultRises held u → FaultRises held (State.takeReadings pdu u seen readings) := by
  induction readings with
  | nil => exact fun _ h => h
  | cons r rest ih =>
    intro u seen h
    obtain ⟨o, v⟩ := r
    unfold State.takeReadings
    split
    · exact ih _ h
    · exact ih _ (h.measure _ _)

theorem window (h : FaultRises held u) (p position : Nat) (e : Epoch) (readings : List (Nat × Nat)) (body : List Byte) :
    FaultRises held (u.window p position e readings body) := by
  unfold State.window
  split
  · exact h
  · split
    · exact h
    · split
      · split
        · exact h
        · have hflagged := (h.frame (same_setFilling u (u.filling.markPdu (p * 16 + position))) (by decide)).frame
            (same_putPresence _ (p * 16 + position) { state := .present, missed := 0 }) (by decide)
          have htaken := hflagged.takeReadings (p * 16 + position) readings []
          unfold State.acceptSample
          dsimp only
          split
          · exact htaken.frame (same_offerForward _ _) (by decide)
          · exact htaken
      · exact h.recordFault _ _

theorem switchAnswer (h : FaultRises held u) (p position outlet : Nat) (tag : BitVec 8) (done : Bool) :
    FaultRises held (u.switchAnswer p position outlet tag done) := by
  unfold State.switchAnswer
  split
  · exact h.frame (same_recordResult _ _ _) (by decide)
  · exact h.recordFault _ _

/-! ### The pass and the close -/

theorem sweepOutlet (h : FaultRises held u) (key : Nat) : FaultRises held (u.sweepOutlet key) :=
  ((h.recordParity _).frame (same_setReadings _ _) (by decide)).frame (same_setClosing _ _) (by decide)

theorem shedStep (h : FaultRises held u) (t : Nat) : FaultRises held (u.shedStep t) := by
  have hread := h.recordParity u.badSlots
  unfold State.shedStep
  dsimp only
  split
  · exact hread.frame (same_putCurtail _ _ _) (by decide)
  · split
    · exact hread.frame (same_putCurtail _ _ _) (by decide)
    · exact hread.frame (same_makeEntry _ _ _ _) (by decide)

theorem curtailStep (h : FaultRises held u) (t : Nat) (tr : Transition) (c : Option Contract) :
    FaultRises held (u.curtailStep t tr c) :=
  curtailStep_keeps tr c (fun auto => h.frame (same_actOnTransition u t tr auto) (by decide))
    (fun v hv => hv.frame (same_restoreStep v t) (by decide)) (fun _ hv => hv.shedStep t)

theorem switchContracts (h : FaultRises held u) : FaultRises held u.switchContracts :=
  ((h.recordParity _).frame (same_setContracts _ _) (by decide)).frame
    (same_foldl _ State.consequence same_consequence _) (by decide)

theorem oweInterval (h : FaultRises held u) (n : BitVec 32) (switched : Bool) :
    FaultRises held (u.oweInterval n switched) := by
  unfold State.oweInterval
  split
  · exact h
  · exact h.of_fault rfl

theorem closeInterval (h : FaultRises held u) (n : BitVec 32) : FaultRises held (u.closeInterval n) := by
  have hcleared : FaultRises held (u.captureSummaries n).clearAccumulators :=
    (h.frame (same_setContracts u _) (by decide)).frame (same_setLive _ _) (by decide)
  unfold State.closeInterval
  dsimp only
  split
  · exact hcleared.switchContracts.oweInterval n true
  · exact hcleared.oweInterval n false

/-! ### Notices and reads -/

theorem settle (h : FaultRises held u) (item : OwedItem) : FaultRises held (u.settle item) := by
  cases item
  case curtail slot => exact h.frame (same_handBack u slot) (by decide)
  all_goals exact h.of_fault rfl

theorem copyStored (h : FaultRises held u) {α : Type} (item : Stored α) (loc : Location) (bytes : α → List Byte) (n : Nat) :
    FaultRises held (u.copyStored item loc bytes n).1 := by
  unfold State.copyStored
  split
  · exact h
  · exact h.recordFault _ _

theorem copyEntry (h : FaultRises held u) (table i : Nat) : FaultRises held (u.copyEntry table i).1 := by
  unfold State.copyEntry
  dsimp only
  split
  case h_2 | h_3 | h_4 | h_5 => exact h.copyStored ..
  case h_6 => unfold State.copyTenant; dsimp only; split <;> exact h
  all_goals exact h

theorem copyNext (h : FaultRises held u) (j : ReadJob) : FaultRises held (u.copyNext j) := by
  have hcopied := h.copyEntry j.table (j.first + j.done)
  unfold State.copyNext
  dsimp only
  split
  · exact (hcopied.frame (same_setMgmt _ _) (by decide)).frame (same_respond _ _ _) (by decide)
  · exact hcopied.frame (same_setMgmt _ _) (by decide)

theorem liveReset (h : FaultRises held u) : FaultRises held u.liveReset :=
  (h.recordParity (badContracts .active u.activeAt)).of_fault rfl

theorem arbitrate (h : FaultRises held u) : FaultRises held u.arbitrate := h.frame (same_arbitrate u) (by decide)

theorem thenAnswer (h : FaultRises held u) (r : Request) (status : Status) (data : List Byte) :
    FaultRises held (u.answer r status data) := h.frame (same_respond u r.origin _) (by decide)

end FaultRises

/-! ### The commands that write the notice unit -/

section
variable {s t : State}

theorem faultRises_of_epoch {elapsed : Nat} {body : List Byte} (h : execEpoch elapsed body s = .next t) :
    FaultRises s.notices.fault t := by
  have helapsed : FaultRises s.notices.fault (s.elapse elapsed) := .inl rfl
  unfold execEpoch at h
  dsimp only at h
  split at h
  · obtain rfl := Host.Outcome.next.inj h; exact helapsed
  · split at h
    · obtain rfl := Host.Outcome.next.inj h; exact helapsed
    · split at h <;> obtain rfl := Host.Outcome.next.inj h
      · exact helapsed.recordFault _ _
      · exact (helapsed.frame (same_advance _ _) (by decide)).arbitrate

theorem faultRises_of_lossExpiry {elapsed : Nat} (h : execLossExpiry elapsed s = .next t) :
    FaultRises s.notices.fault t := by
  have hfallen : FaultRises s.notices.fault ((s.elapse elapsed).setTimer { s.timer with mode := .fallback }) := .inl rfl
  unfold execLossExpiry at h
  dsimp only at h
  split at h <;> obtain rfl := Host.Outcome.next.inj h
  · exact ((hfallen.frame (same_advance _ _) (by decide)).recordFault _ _).arbitrate
  · exact hfallen

/-- The commands of a pass and the interval close. -/
theorem faultRises_of_pass {c : Instr}
    (hc : c = .holdSweepOutlet ∨ c = .tenantEvaluation ∨ c = .curtailmentStep ∨ c = .intervalClose)
    (h : exec c s = .next t) : FaultRises s.notices.fault t := by
  have hs := FaultRises.refl s
  obtain rfl | rfl | rfl | rfl := hc
  · change execHoldSweepOutlet s = _ at h
    unfold execHoldSweepOutlet at h
    split at h <;> obtain rfl := Host.Outcome.next.inj h
    · exact (hs.sweepOutlet _).frame (same_movePass _ _) (by decide)
    · exact hs
  · change execTenantEvaluation s = _ at h
    unfold execTenantEvaluation at h
    split at h <;> obtain rfl := Host.Outcome.next.inj h
    · exact ((hs.recordParity _).frame (same_putLive _ _ _) (by decide)).frame (same_movePass _ _) (by decide)
    · exact hs
  · change execCurtailmentStep s = _ at h
    unfold execCurtailmentStep at h
    split at h
    · next x tr c _ =>
      have hstep := hs.curtailStep x tr c
      generalize s.curtailStep x tr c = u at h hstep
      dsimp only at h
      split at h <;> obtain rfl := Host.Outcome.next.inj h
      · exact (hstep.frame (same_movePass _ _) (by decide)).arbitrate
      · exact (hstep.frame (same_completePass _) (by decide)).arbitrate
    · obtain rfl := Host.Outcome.next.inj h; exact hs
  · change execIntervalClose s = _ at h
    unfold execIntervalClose at h
    split at h <;> obtain rfl := Host.Outcome.next.inj h
    · exact (hs.frame (same_setTimer s _) (by decide)).closeInterval _
    · exact hs

/-- The frames that arrive on a chain. -/
theorem faultRises_of_chain {c : Instr} {p : Nat} {body : List Byte} (hc : c = .sample p body ∨ c = .chainMalformedFrame p
      ∨ c = .switchAck p body ∨ c = .pduReply p body ∨ c = .chainRequest p body)
    (h : exec c s = .next t) : FaultRises s.notices.fault t := by
  have hs := FaultRises.refl s
  have hheard := hs.wellFormedFrame p
  obtain rfl | rfl | rfl | rfl | rfl := hc
  · change execSample p body s = _ at h
    unfold execSample at h
    dsimp only at h
    split at h
    · obtain rfl := Host.Outcome.next.inj h; exact hs
    · split at h <;> obtain rfl := Host.Outcome.next.inj h
      · exact (hheard.window _ _ _ _ _).arbitrate
      · exact hheard.arbitrate
  · change execChainMalformedFrame p s = _ at h
    have hcounted := hs.frame (same_putPort_all s p { s.port p with errorCount := min 65535 ((s.port p).errorCount + 1) })
      (by decide)
    unfold execChainMalformedFrame at h
    dsimp only at h
    split at h
    · obtain rfl := Host.Outcome.next.inj h; exact hs
    · split at h <;> obtain rfl := Host.Outcome.next.inj h
      · exact hcounted.degrade p
      · exact hcounted
  · change execSwitchAck p body s = _ at h
    unfold execSwitchAck at h
    dsimp only at h
    split at h
    · obtain rfl := Host.Outcome.next.inj h; exact hs
    · split at h <;> obtain rfl := Host.Outcome.next.inj h
      · exact (hheard.switchAnswer _ _ _ _ _).arbitrate
      · exact hheard.arbitrate
  · change execPduReply p body s = _ at h
    unfold execPduReply at h
    dsimp only at h
    split at h
    · obtain rfl := Host.Outcome.next.inj h; exact hs
    · split at h <;> obtain rfl := Host.Outcome.next.inj h
      · exact hheard.arbitrate
      · exact (hheard.frame (same_offerForward _ _) (by decide)).arbitrate
  · change execChainRequest p body s = _ at h
    unfold execChainRequest at h
    dsimp only at h
    split at h
    · obtain rfl := Host.Outcome.next.inj h; exact hs
    · split at h <;> obtain rfl := Host.Outcome.next.inj h
      · exact (hheard.frame (same_offerRequest _ _) (by decide)).arbitrate
      · exact hheard.arbitrate

theorem faultRises_of_uplinkFrameStart (h : execUplinkFrameStart s = .next t) : FaultRises s.notices.fault t := by
  have hs := FaultRises.refl s
  unfold execUplinkFrameStart at h
  split at h
  · split at h <;> obtain rfl := Host.Outcome.next.inj h
    · exact (hs.frame (same_setUplink_all s _) (by decide)).frame (same_startUp _ _ _) (by decide)
    · exact hs
  · split at h <;> obtain rfl := Host.Outcome.next.inj h
    · next n rest _ =>
      have hleft : FaultRises s.notices.fault (s.setNotices { s.notices with queue := rest }) := .inl rfl
      exact hleft.frame (same_startUp _ _ _) (by decide)
    · exact hs
  · split at h <;> obtain rfl := Host.Outcome.next.inj h
    · exact (hs.frame (same_setUplink_all s _) (by decide)).frame (same_startUp _ _ _) (by decide)
    · exact hs
  · obtain rfl := Host.Outcome.next.inj h; exact hs

theorem faultRises_of_noticeQueuing (h : execNoticeQueuing s = .next t) : FaultRises s.notices.fault t := by
  have hs := FaultRises.refl s
  unfold execNoticeQueuing at h
  split at h
  · split at h
    · next item _ =>
      split at h
      · obtain rfl := Host.Outcome.next.inj h
        have hsettled := hs.settle item
        generalize s.settle item = u at hsettled
        exact (hsettled.of_fault (v := u.setNotices { u.notices with queue := _ }) rfl).arbitrate
      · obtain rfl := Host.Outcome.next.inj h; exact hs
    · obtain rfl := Host.Outcome.next.inj h; exact hs
  · obtain rfl := Host.Outcome.next.inj h; exact hs

/-- A request command whose work keeps the law keeps it. -/
theorem faultRises_of_onRequest {row : RequestRow} {work : Request → State → State}
    (hwork : ∀ r u, FaultRises s.notices.fault u → FaultRises s.notices.fault (work r u))
    (h : s.onRequest row work = .next t) : FaultRises s.notices.fault t :=
  onRequest_keeps FaultRises.answer (fun r u _ _ => hwork r u) (.refl s) h

theorem faultRises_of_readEntry (h : execReadEntry s = .next t) : FaultRises s.notices.fault t := by
  unfold execReadEntry at h
  split at h
  · obtain rfl := Host.Outcome.next.inj h; exact ((FaultRises.refl s).copyNext _).arbitrate
  · refine faultRises_of_onRequest (fun r u hu => ?_) h
    unfold State.startRead
    dsimp only
    split
    · exact hu.thenAnswer ..
    · split
      · exact hu.thenAnswer ..
      · split
        · exact hu.thenAnswer ..
        · exact hu.copyNext _

theorem faultRises_of_resolve (h : execResolve s = .next t) : FaultRises s.notices.fault t := by
  refine faultRises_of_onRequest (fun r u hu => ?_) h
  unfold State.resolveRequest
  dsimp only
  split
  · exact hu.thenAnswer ..
  · exact (hu.recordParity _).thenAnswer ..

theorem faultRises_of_writeSetting {row : RequestRow} {effect : Nat → Nat → Nat → State → State}
    (heffect : ∀ i old v u, FaultRises s.notices.fault u → FaultRises s.notices.fault (effect i old v u))
    (h : s.onRequest row (State.writeSettingWith effect) = .next t) : FaultRises s.notices.fault t :=
  faultRises_of_onRequest (fun r u hu => writeSettingWith_establishes FaultRises.answer (fun _ hu => hu)
    (fun _ _ w _ hw => heffect _ _ _ _ (hw.frame (same_setSettings w _) (by decide))) r u hu) h

theorem faultRises_noticeMaskEffect {held : Option FaultRecord} (i old v : Nat) (u : State) (h : FaultRises held u) :
    FaultRises held (noticeMaskEffect i old v u) := by
  unfold noticeMaskEffect
  split
  · split
    · exact h.of_fault rfl
    · split
      · exact h.frame (same_setCurtail u _) (by decide)
      · exact h
  · exact h

end

end Sys2Proof.Machine

open Sys2Proof Sys2Proof.Machine

/-- Settles O59: every operation that writes the notice unit records a fault by R155 or leaves the record. -/
theorem faultRecordOnlyRisesInSeverity : Obligations.FaultRecordOnlyRisesInSeverity := by
  intro c s t hempties h
  change FaultRises s.notices.fault t
  by_cases hchanges : Block.notices ∈ c.changes
  case neg => exact (FaultRises.refl s).frame (exec_changes c h) hchanges
  cases c
  case lossExpiry => exact faultRises_of_lossExpiry h
  case epoch => exact faultRises_of_epoch h
  case holdSweepOutlet => exact faultRises_of_pass (.inl rfl) h
  case tenantEvaluation => exact faultRises_of_pass (.inr (.inl rfl)) h
  case curtailmentStep => exact faultRises_of_pass (.inr (.inr (.inl rfl))) h
  case intervalClose => exact faultRises_of_pass (.inr (.inr (.inr rfl))) h
  case sample p body => exact faultRises_of_chain (.inl rfl) h
  case chainMalformedFrame p => exact faultRises_of_chain (body := []) (.inr (.inl rfl)) h
  case switchAck p body => exact faultRises_of_chain (.inr (.inr (.inl rfl))) h
  case pduReply p body => exact faultRises_of_chain (.inr (.inr (.inr (.inl rfl)))) h
  case chainRequest p body => exact faultRises_of_chain (.inr (.inr (.inr (.inr rfl)))) h
  case uplinkFrameError =>
    obtain rfl := Host.Outcome.next.inj h
    exact (FaultRises.refl s).recordFault _ _
  case uplinkFrameStart => exact faultRises_of_uplinkFrameStart h
  case noticeQueuing => exact faultRises_of_noticeQueuing h
  case readEntry => exact faultRises_of_readEntry h
  case writeErrorThreshold => exact faultRises_of_writeSetting (fun _ _ _ _ hu => hu.testThresholds _) h
  case writeNoticeMask => exact faultRises_of_writeSetting (fun i old v u hu => faultRises_noticeMaskEffect i old v u hu) h
  case resolve => exact faultRises_of_resolve h
  case copyActiveToStaged =>
    exact faultRises_of_onRequest (fun r u hu =>
      ((hu.recordParity _).frame (same_setContracts _ _) (by decide)).thenAnswer r .ok []) h
  case saveImage =>
    exact faultRises_of_onRequest (fun r u hu => (hu.recordParity _).frame (same_setMgmt _ _) (by decide)) h
  case resetLive => exact faultRises_of_onRequest (fun r u hu => hu.liveReset.thenAnswer r .ok []) h
  case powerOn | imageLoadEnd | resetFullStart | clearFault => cases hempties
  all_goals exact absurd hchanges (by simp only [Instr.changes]; decide)
end

