-- ==== Sys2Proof/Proofs/Transmitters.lean ====
section
/-! PROOF. An idle transmitter with something to send has chosen it, and one that sends holds no choice (R32, R164, log 4):
an event that ends with the choices establishes the law, and every other event leaves what it reads. -/

namespace Sys2Proof.Machine

/-! ### The choices of R32 and R164 -/

section
variable (s : State)

theorem downFirst_available {p : Nat} {k : DownKind} (h : s.downAvailable p k = true) :
    ∃ c, s.downFirst p = some c ∧ s.downAvailable p c = true := by
  have hsome : (s.downFirst p).isSome = true := by
    rw [State.downFirst, List.find?_isSome]
    exact ⟨k, by cases k <;> decide, h⟩
  obtain ⟨c, hc⟩ := Option.isSome_iff_exists.1 hsome
  exact ⟨c, hc, List.find?_some hc⟩

/-- An idle down transmitter with something to send chooses what is there. -/
theorem downChoice_available {p : Nat} {k : DownKind} (hlink : (s.port p).link ≠ .disabled) (htx : (s.port p).tx = none)
    (h : s.downAvailable p k = true) : ∃ c, s.downChoice p = some c ∧ s.downAvailable p c = true := by
  unfold State.downChoice
  rw [if_neg (by rw [htx]; simp [hlink])]
  split
  · next c _ =>
    split
    · next hc => exact ⟨c, rfl, hc⟩
    · exact downFirst_available s h
  · exact downFirst_available s h

theorem downChoice_sending {p : Nat} (h : (s.port p).tx ≠ none) : s.downChoice p = none :=
  if_pos (.inr (Option.isSome_iff_ne_none.2 h))

theorem mem_upOrder (k : UplinkKind) : k ∈ s.upOrder := by
  unfold State.upOrder
  split
  · cases k <;> decide
  · cases s.uplink.lastServed <;> (cases k <;> decide)

theorem upOrder_find {k : UplinkKind} (h : s.upAvailable k = true) :
    ∃ c, s.upOrder.find? s.upAvailable = some c ∧ s.upAvailable c = true := by
  have hsome : (s.upOrder.find? s.upAvailable).isSome = true := by
    rw [List.find?_isSome]
    exact ⟨k, mem_upOrder s k, h⟩
  obtain ⟨c, hc⟩ := Option.isSome_iff_exists.1 hsome
  exact ⟨c, hc, List.find?_some hc⟩

/-- An idle arbiter with a frame waiting and no full reset due chooses a queue that holds one. -/
theorem upChoice_available {k : UplinkKind} (htx : s.uplink.tx = none) (hdue : s.mgmt.resetDue = false)
    (h : s.upAvailable k = true) : ∃ c, s.upChoice = some c ∧ s.upAvailable c = true := by
  unfold State.upChoice
  rw [if_neg (by simp [htx, hdue])]
  split
  · next c _ =>
    split
    · next hc => exact ⟨c, rfl, hc⟩
    · exact upOrder_find s h
  · exact upOrder_find s h

theorem upChoice_sending (h : s.uplink.tx ≠ none) : s.upChoice = none :=
  if_pos (.inl (Option.isSome_iff_ne_none.2 h))

theorem port_arbitrate_lt {p : Nat} (h : p < 4) : s.arbitrate.port p = { s.port p with choice := s.downChoice p } := by
  rw [port_arbitrate, if_pos h]

theorem downAvailable_arbitrate {p : Nat} (h : p < 4) (k : DownKind) :
    s.arbitrate.downAvailable p k = s.downAvailable p k := by
  have hdue : s.arbitrate.dueAt p = s.dueAt p := rfl
  cases k <;> simp only [State.downAvailable, port_arbitrate_lt s h, hdue]

theorem upAvailable_arbitrate (k : UplinkKind) : s.arbitrate.upAvailable k = s.upAvailable k := by
  cases k <;> rfl

/-- R32, R164: after the choices every transmitter has made the one it owes. -/
theorem transmittersChoose_arbitrate : TransmittersChoose s.arbitrate := by
  refine ⟨fun p hp hlink htx k hk => ?_, fun p hp htx => ?_, fun htx hdue k hk => ?_, fun htx => upChoice_sending s htx⟩
  · rw [downAvailable_arbitrate s hp] at hk
    rw [port_arbitrate_lt s hp] at hlink htx ⊢
    simp only [downAvailable_arbitrate s hp]
    exact downChoice_available s hlink htx hk
  · rw [port_arbitrate_lt s hp] at htx ⊢
    exact downChoice_sending s htx
  · simp only [upAvailable_arbitrate] at hk ⊢
    exact upChoice_available s htx hdue hk

end

/-! ### Events without the choices -/

/-- What the law reads of a down transmitter and its port is in `t` as in `s`. -/
structure SameDown (s t : State) (p : Nat) : Prop where
  choice : (t.port p).choice = (s.port p).choice
  tx : (t.port p).tx = (s.port p).tx
  disabled : (t.port p).link = .disabled ↔ (s.port p).link = .disabled
  available : ∀ k, t.downAvailable p k = s.downAvailable p k

/-- What the law reads is in `t` as in `s`. -/
structure SameTransmitters (s t : State) : Prop where
  down : ∀ p, SameDown s t p
  choice : t.uplink.choice = s.uplink.choice
  tx : t.uplink.tx = s.uplink.tx
  resetDue : t.mgmt.resetDue = s.mgmt.resetDue
  available : ∀ k, t.upAvailable k = s.upAvailable k

theorem TransmittersChoose.of_same {s t : State} (h : SameTransmitters s t) (hs : TransmittersChoose s) :
    TransmittersChoose t := by
  obtain ⟨hdown, hchoice, htx, hreset, havailable⟩ := h
  obtain ⟨hidle, hsending, hupIdle, hupSending⟩ := hs
  refine ⟨fun p hp hlink hptx k hk => ?_, fun p hp hptx => ?_, fun hutx hdue k hk => ?_, fun hutx => ?_⟩
  · obtain ⟨c, hc, hcavailable⟩ := hidle p hp (fun h => hlink ((hdown p).disabled.2 h)) ((hdown p).tx ▸ hptx) k
      ((hdown p).available k ▸ hk)
    exact ⟨c, (hdown p).choice.trans hc, ((hdown p).available c).trans hcavailable⟩
  · exact (hdown p).choice.trans (hsending p hp ((hdown p).tx ▸ hptx))
  · obtain ⟨c, hc, hcavailable⟩ := hupIdle (htx ▸ hutx) (hreset ▸ hdue) k (havailable k ▸ hk)
    exact ⟨c, hchoice.trans hc, (havailable c).trans hcavailable⟩
  · exact hchoice.trans (hupSending (htx ▸ hutx))

/-- A port is its core and its choice. -/
theorem port_ext_core {a b : Port} (hcore : a.core = b.core) (hchoice : a.choice = b.choice) : a = b := by
  cases a; cases b
  simp only [Port.core, Port.mk.injEq] at hcore hchoice ⊢
  simp_all

theorem uplink_ext_core {a b : Uplink} (hcore : a.core = b.core) (hchoice : a.choice = b.choice) : a = b := by
  cases a; cases b
  simp only [Uplink.core, Uplink.mk.injEq] at hcore hchoice ⊢
  simp_all

section
variable {l : List Block} {s t : State}

theorem port_of_same (h : SameOutside l s t) (hlinks : Block.links ∉ l) (hchoice : Block.downChoice ∉ l) (p : Nat) :
    t.port p = s.port p := port_ext_core (h .links hlinks p) (h .downChoice hchoice p)

theorem uplink_of_same (h : SameOutside l s t) (hup : Block.uplink ∉ l) (hchoice : Block.upChoice ∉ l) :
    t.uplink = s.uplink := uplink_ext_core (h .uplink hup) (h .upChoice hchoice)

/-- An event that changes no port, no uplink queue, no due list and no notice queue. -/
theorem SameTransmitters.of_same (h : SameOutside l s t)
    (hl : ∀ b ∈ [Block.links, .downChoice, .uplink, .upChoice, .mgmt], b ∉ l) (hdue : ∀ p, t.dueAt p = s.dueAt p)
    (hqueue : t.notices.queue = s.notices.queue) : SameTransmitters s t := by
  have hport : ∀ p, t.port p = s.port p := port_of_same h (hl _ (by simp)) (hl _ (by simp))
  have hup : t.uplink = s.uplink := uplink_of_same h (hl _ (by simp)) (hl _ (by simp))
  have hmgmt : t.mgmt = s.mgmt := h .mgmt (hl _ (by simp))
  refine ⟨fun p => ⟨by rw [hport], by rw [hport], by rw [hport], fun k => ?_⟩, by rw [hup], by rw [hup], by rw [hmgmt],
    fun k => ?_⟩
  · cases k <;> simp only [State.downAvailable, hport, hdue]
  · cases k <;> simp only [State.upAvailable, hup, hqueue]

theorem dueAt_of_same (h : SameOutside l s t) (hl : Block.curtail ∉ l) (p : Nat) : t.dueAt p = s.dueAt p := by
  unfold State.dueAt
  rw [show t.curtail = s.curtail from h .curtail hl]

end

section
variable (s : State)

@[simp] theorem queue_recordFault (cls : FaultClass) (loc : Location) :
    (s.recordFault cls loc).notices.queue = s.notices.queue := by rw [recordFault_eq]; rfl

@[simp] theorem queue_recordParity (bad : List Location) : (s.recordParity bad).notices.queue = s.notices.queue := by
  induction bad generalizing s with
  | nil => rfl
  | cons loc rest ih => exact (ih _).trans (queue_recordFault s _ loc)

theorem sameTransmitters_recordFault (cls : FaultClass) (loc : Location) :
    SameTransmitters s (s.recordFault cls loc) :=
  .of_same (same_recordFault s cls loc) (by decide) (dueAt_of_same (same_recordFault s cls loc) (by decide))
    (queue_recordFault s cls loc)

/-- R17: a malformed frame counted, and a port gone from UP to DEGRADED, leave what the transmitters see. -/
theorem sameTransmitters_putPort {p : Nat} {q : Port} (hchoice : q.choice = (s.port p).choice) (htx : q.tx = (s.port p).tx)
    (hdisabled : q.link = .disabled ↔ (s.port p).link = .disabled) (hcarries : q.link.carries = (s.port p).link.carries)
    (hmark : q.dueMark = (s.port p).dueMark) (hpass : q.passDown = (s.port p).passDown) :
    SameTransmitters s (s.putPort p q) := by
  refine ⟨fun r => ?_, rfl, rfl, rfl, fun k => by cases k <;> rfl⟩
  obtain rfl | hr := eq_or_ne r p
  · refine ⟨by rw [port_putPort_same, hchoice], by rw [port_putPort_same, htx], by rw [port_putPort_same, hdisabled],
      fun k => ?_⟩
    have hdue : (s.putPort r q).dueAt r = s.dueAt r := rfl
    cases k <;> simp only [State.downAvailable, port_putPort_same, hcarries, hmark, hpass, hdue]
  · refine ⟨by rw [port_putPort_other s q hr], by rw [port_putPort_other s q hr], by rw [port_putPort_other s q hr],
      fun k => ?_⟩
    have hdue : (s.putPort p q).dueAt r = s.dueAt r := rfl
    cases k <;> simp only [State.downAvailable, port_putPort_other s q hr, hdue]

theorem sameTransmitters_degrade {p : Nat} (h : (s.port p).link = .up) :
    SameTransmitters s (s.putPort p { s.port p with link := .degraded }) :=
  sameTransmitters_putPort s rfl rfl (by simp [h]) (by rw [h]; rfl) rfl rfl

/-! ### The interval close leaves the due lists and the notice queue -/

theorem dueAt_endRestoring (t p : Nat) : (s.endRestoring t).dueAt p = s.dueAt p := by
  obtain ⟨-, -, hcurtail, -⟩ := endRestoring_spec s t
  unfold State.dueAt
  rw [hcurtail]

theorem dueAt_consequence (t p : Nat) : (s.consequence t).dueAt p = s.dueAt p := by
  unfold State.consequence
  dsimp only
  split
  · rfl
  · split
    · split
      · exact dueAt_endRestoring _ t p
      · rfl
    · exact dueAt_endRestoring _ t p

theorem dueAt_consequences (p : Nat) (ts : List Nat) : (ts.foldl State.consequence s).dueAt p = s.dueAt p := by
  induction ts generalizing s with
  | nil => rfl
  | cons t rest ih => exact (ih _).trans (dueAt_consequence s t p)

theorem switchContracts_transmitters :
    (∀ p, s.switchContracts.dueAt p = s.dueAt p) ∧ s.switchContracts.notices.queue = s.notices.queue := by
  have hread := same_recordParity s (badContracts .staged s.stagedAt)
  constructor
  · intro p
    exact (dueAt_consequences _ p _).trans (dueAt_of_same hread (by decide) p)
  · have hfold : ∀ (u : State) (ts : List Nat), (ts.foldl State.consequence u).notices = u.notices := fun u ts =>
      same_foldl u State.consequence same_consequence ts .notices (by decide)
    unfold State.switchContracts
    dsimp only
    rw [hfold]
    exact queue_recordParity s _

theorem queue_oweInterval (n : BitVec 32) (switched : Bool) : (s.oweInterval n switched).notices.queue = s.notices.queue := by
  unfold State.oweInterval
  split <;> rfl

theorem closeInterval_transmitters (n : BitVec 32) :
    (∀ p, (s.closeInterval n).dueAt p = s.dueAt p) ∧ (s.closeInterval n).notices.queue = s.notices.queue := by
  unfold State.closeInterval
  dsimp only
  split
  · obtain ⟨hdue, hqueue⟩ := switchContracts_transmitters (s.captureSummaries n).clearAccumulators
    generalize (s.captureSummaries n).clearAccumulators.switchContracts = u at hdue hqueue
    exact ⟨fun p => (dueAt_of_same (same_oweInterval u n true) (by decide) p).trans (hdue p),
      (queue_oweInterval u n true).trans hqueue⟩
  · have howe := same_oweInterval (s.captureSummaries n).clearAccumulators n false
    exact ⟨fun p => dueAt_of_same howe (by decide) p, queue_oweInterval (s.captureSummaries n).clearAccumulators n false⟩

end

/-! ### The commands -/

section
variable {s t : State}

/-- A request command ends with the choices or does nothing. -/
theorem transmittersChoose_of_onRequest {row : RequestRow} {work : Request → State → State} (hs : TransmittersChoose s)
    (h : s.onRequest row work = .next t) : TransmittersChoose t := by
  obtain rfl | ⟨r, -, ⟨status, rfl⟩ | ⟨-, rfl⟩⟩ := onRequest_cases h
  · exact hs
  · exact transmittersChoose_arbitrate _
  · exact transmittersChoose_arbitrate _

theorem transmittersChoose_of_request {c : Instr} {row : RequestRow} (hc : c.takes = some row) (hs : TransmittersChoose s)
    (h : exec c s = .next t) : TransmittersChoose t := by
  by_cases hcopies : c = .readEntry → s.mgmt.current = none
  · obtain ⟨work, hexec⟩ := exec_request hc
    rw [hexec s hcopies] at h
    exact transmittersChoose_of_onRequest (s := s.elapse (timeBefore c)) hs h
  · push Not at hcopies
    obtain ⟨rfl, hcurrent⟩ := hcopies
    obtain ⟨j, hj⟩ := Option.ne_none_iff_exists'.1 hcurrent
    change execReadEntry s = _ at h
    unfold execReadEntry at h
    rw [hj] at h
    obtain rfl := Host.Outcome.next.inj h
    exact transmittersChoose_arbitrate _

theorem transmittersChoose_of_chainMalformedFrame {port : Nat} (hs : TransmittersChoose s)
    (h : execChainMalformedFrame port s = .next t) : TransmittersChoose t := by
  have hcounted : ∀ counted : Port, counted = { s.port port with errorCount := counted.errorCount } →
      TransmittersChoose (s.putPort port counted) := fun counted h =>
    hs.of_same (by rw [h]; exact sameTransmitters_putPort s rfl rfl .rfl rfl rfl rfl)
  unfold execChainMalformedFrame at h
  dsimp only at h
  split at h
  · obtain rfl := Host.Outcome.next.inj h; exact hs
  · split at h <;> obtain rfl := Host.Outcome.next.inj h
    · next hup =>
      refine TransmittersChoose.of_same (sameTransmitters_recordFault _ _ _)
        ((hcounted _ rfl).of_same (sameTransmitters_degrade _ ?_))
      rw [port_putPort_same]
      exact hup.1
    · exact hcounted _ rfl

theorem transmittersChoose_of_uplinkRequest {body : List Byte} (hs : TransmittersChoose s)
    (h : execUplinkRequest body s = .next t) : TransmittersChoose t := by
  unfold execUplinkRequest at h
  split at h <;> obtain rfl := Host.Outcome.next.inj h
  · next r _ =>
    refine hs.of_same ⟨fun p => ⟨?_, ?_, ?_, fun k => ?_⟩, ?_, ?_, ?_, fun k => ?_⟩
    all_goals unfold State.offerRequest; split <;> rfl
  · exact hs

/-- R164, R165: a transmitter that has started a frame sends, and holds no choice. -/
theorem transmittersChoose_startUp {u : State} (kind : UplinkKind) (frame : UplinkFrame) (hs : TransmittersChoose s)
    (hdown : ∀ p, SameDown s u p) : TransmittersChoose (u.startUp kind frame) := by
  obtain ⟨hidle, hsending, -, -⟩ := hs
  have hsame : ∀ p, SameDown s (u.startUp kind frame) p := fun p =>
    ⟨(hdown p).choice, (hdown p).tx, (hdown p).disabled, fun k => by rw [← (hdown p).available k]; cases k <;> rfl⟩
  refine ⟨fun p hp hlink hptx k hk => ?_, fun p hp hptx => ?_, fun htx => (Option.some_ne_none _ htx).elim, fun _ => rfl⟩
  · obtain ⟨c, hc, havailable⟩ := hidle p hp (fun h => hlink ((hsame p).disabled.2 h)) ((hsame p).tx ▸ hptx) k
      ((hsame p).available k ▸ hk)
    exact ⟨c, (hsame p).choice.trans hc, ((hsame p).available c).trans havailable⟩
  · exact (hsame p).choice.trans (hsending p hp ((hsame p).tx ▸ hptx))

theorem transmittersChoose_of_uplinkFrameStart (hs : TransmittersChoose s) (h : execUplinkFrameStart s = .next t) :
    TransmittersChoose t := by
  have hdown : ∀ u : State, u.ports = s.ports → u.curtail = s.curtail → ∀ p, SameDown s u p := by
    intro u hports hcurtail p
    have hport : u.port p = s.port p := by unfold State.port; rw [hports]
    have hdue : u.dueAt p = s.dueAt p := by unfold State.dueAt; rw [hcurtail]
    refine ⟨by rw [hport], by rw [hport], by rw [hport], fun k => ?_⟩
    cases k <;> simp only [State.downAvailable, hport, hdue]
  unfold execUplinkFrameStart at h
  split at h
  · split at h <;> obtain rfl := Host.Outcome.next.inj h
    · exact transmittersChoose_startUp _ _ hs (hdown _ rfl rfl)
    · exact hs
  · split at h <;> obtain rfl := Host.Outcome.next.inj h
    · exact transmittersChoose_startUp _ _ hs (hdown _ rfl rfl)
    · exact hs
  · split at h <;> obtain rfl := Host.Outcome.next.inj h
    · exact transmittersChoose_startUp _ _ hs (hdown _ rfl rfl)
    · exact hs
  · obtain rfl := Host.Outcome.next.inj h; exact hs

/-- The commands of a pass and the close. -/
theorem transmittersChoose_of_pass {c : Instr} (hc : c = .holdSweepPosition ∨ c = .holdSweepOutlet ∨ c = .tenantEvaluation
      ∨ c = .curtailmentStep ∨ c = .intervalClose)
    (hs : TransmittersChoose s) (h : exec c s = .next t) : TransmittersChoose t := by
  obtain rfl | rfl | rfl | rfl | rfl := hc
  · have hsame := exec_changes _ h
    have hnotices : t.notices = s.notices := hsame .notices (by simp only [Instr.changes]; decide)
    exact hs.of_same (.of_same hsame (by simp only [Instr.changes]; decide)
      (dueAt_of_same hsame (by simp only [Instr.changes]; decide)) (by rw [hnotices]))
  · have hsame := exec_changes _ h
    refine hs.of_same (.of_same hsame (by simp only [Instr.changes]; decide)
      (dueAt_of_same hsame (by simp only [Instr.changes]; decide)) ?_)
    change execHoldSweepOutlet s = _ at h
    unfold execHoldSweepOutlet at h
    split at h <;> obtain rfl := Host.Outcome.next.inj h
    · exact queue_recordParity s _
    · rfl
  · have hsame := exec_changes _ h
    refine hs.of_same (.of_same hsame (by simp only [Instr.changes]; decide)
      (dueAt_of_same hsame (by simp only [Instr.changes]; decide)) ?_)
    change execTenantEvaluation s = _ at h
    unfold execTenantEvaluation at h
    split at h <;> obtain rfl := Host.Outcome.next.inj h
    · exact queue_recordParity s _
    · rfl
  · change execCurtailmentStep s = _ at h
    unfold execCurtailmentStep at h
    split at h
    · dsimp only at h
      split at h <;> obtain rfl := Host.Outcome.next.inj h <;> exact transmittersChoose_arbitrate _
    · obtain rfl := Host.Outcome.next.inj h; exact hs
  · have hsame := exec_changes _ h
    change execIntervalClose s = _ at h
    unfold execIntervalClose at h
    split at h <;> obtain rfl := Host.Outcome.next.inj h
    · obtain ⟨hdue, hqueue⟩ := closeInterval_transmitters (s.setTimer { s.timer with handedClose := none }) _
      exact hs.of_same (.of_same hsame (by simp only [Instr.changes]; decide) hdue hqueue)
    · exact hs

theorem transmittersChoose_of_time {c : Instr} {elapsed : Nat} {body : List Byte} {answer : MemoryAnswer}
    (hc : c = .internalAdvance elapsed ∨ c = .lossExpiry elapsed ∨ c = .epoch elapsed body ∨ c = .imageLoadEnd elapsed answer)
    (hs : TransmittersChoose s) (h : exec c s = .next t) : TransmittersChoose t := by
  have hwait : TransmittersChoose (s.elapse elapsed) := hs
  generalize hu : s.elapse elapsed = u at hwait
  obtain rfl | rfl | rfl | rfl := hc
  · change execInternalAdvance elapsed s = _ at h
    unfold execInternalAdvance at h
    simp only [hu] at h
    split at h <;> obtain rfl := Host.Outcome.next.inj h
    · exact transmittersChoose_arbitrate _
    · exact hwait
  · change execLossExpiry elapsed s = _ at h
    unfold execLossExpiry at h
    simp only [hu] at h
    split at h <;> obtain rfl := Host.Outcome.next.inj h
    · exact transmittersChoose_arbitrate _
    · exact hwait
  · change execEpoch elapsed body s = _ at h
    unfold execEpoch at h
    simp only [hu] at h
    split at h
    · obtain rfl := Host.Outcome.next.inj h; exact hwait
    · split at h
      · obtain rfl := Host.Outcome.next.inj h; exact hwait
      · split at h <;> obtain rfl := Host.Outcome.next.inj h
        · exact hwait.of_same (sameTransmitters_recordFault _ _ _)
        · exact transmittersChoose_arbitrate _
  · change execImageLoadEnd elapsed answer s = _ at h
    unfold execImageLoadEnd at h
    simp only [hu] at h
    split at h <;> obtain rfl := Host.Outcome.next.inj h
    · exact transmittersChoose_arbitrate _
    · exact hwait

end

/-! ### Commands that end with the choices or do nothing -/

/-- The answer is the state after its choices, or the state itself. -/
def ChoosesOrNothing (s : State) (o : Host.Outcome State Fault Refusal) : Prop :=
  o = .next s ∨ ∃ u : State, o = .next u.arbitrate

theorem choosesOrNothing_self (s : State) : ChoosesOrNothing s (.next s) := .inl rfl

theorem choosesOrNothing_arbitrate (s u : State) : ChoosesOrNothing s (.next u.arbitrate) := .inr ⟨u, rfl⟩

theorem transmittersChoose_of_choosesOrNothing {s t : State} {o : Host.Outcome State Fault Refusal}
    (ho : ChoosesOrNothing s o) (hs : TransmittersChoose s) (h : o = .next t) : TransmittersChoose t := by
  obtain rfl | ⟨u, rfl⟩ := ho <;> obtain rfl := Host.Outcome.next.inj h
  · exact hs
  · exact transmittersChoose_arbitrate u

section
variable (s : State)

theorem commandTimeout_chooses (slot : Nat) : ChoosesOrNothing s (execCommandTimeout slot s) := by
  unfold execCommandTimeout
  split
  · split
    · exact choosesOrNothing_arbitrate s _
    · exact choosesOrNothing_self s
  · exact choosesOrNothing_self s

theorem portLost_chooses (p : Nat) : ChoosesOrNothing s (execPortLost p s) := by
  unfold execPortLost
  split
  · exact choosesOrNothing_arbitrate s _
  · exact choosesOrNothing_self s

theorem sample_chooses (p : Nat) (body : List Byte) : ChoosesOrNothing s (execSample p body s) := by
  unfold execSample
  dsimp only
  split
  · exact choosesOrNothing_self s
  · split <;> exact choosesOrNothing_arbitrate s _

theorem switchAck_chooses (p : Nat) (body : List Byte) : ChoosesOrNothing s (execSwitchAck p body s) := by
  unfold execSwitchAck
  dsimp only
  split
  · exact choosesOrNothing_self s
  · split <;> exact choosesOrNothing_arbitrate s _

theorem pduReply_chooses (p : Nat) (body : List Byte) : ChoosesOrNothing s (execPduReply p body s) := by
  unfold execPduReply
  dsimp only
  split
  · exact choosesOrNothing_self s
  · split <;> exact choosesOrNothing_arbitrate s _

theorem chainRequest_chooses (p : Nat) (body : List Byte) : ChoosesOrNothing s (execChainRequest p body s) := by
  unfold execChainRequest
  dsimp only
  split
  · exact choosesOrNothing_self s
  · split <;> exact choosesOrNothing_arbitrate s _

theorem pduPass_chooses (body : List Byte) : ChoosesOrNothing s (execPduPass body s) := by
  unfold execPduPass
  split
  · exact choosesOrNothing_arbitrate s _
  · exact choosesOrNothing_self s

theorem markSend_chooses (p : Nat) : ChoosesOrNothing s (execMarkSend p s) := by
  unfold execMarkSend
  split
  · exact choosesOrNothing_arbitrate s _
  · exact choosesOrNothing_self s

theorem switchSend_chooses (p : Nat) : ChoosesOrNothing s (execSwitchSend p s) := by
  unfold execSwitchSend
  split
  · split
    · exact choosesOrNothing_arbitrate s _
    · exact choosesOrNothing_self s
  · exact choosesOrNothing_self s

theorem passDownSend_chooses (p : Nat) : ChoosesOrNothing s (execPassDownSend p s) := by
  unfold execPassDownSend
  split
  · exact choosesOrNothing_arbitrate s _
  · exact choosesOrNothing_self s

theorem downFrameEnd_chooses (p : Nat) : ChoosesOrNothing s (execDownFrameEnd p s) := by
  unfold execDownFrameEnd
  dsimp only
  split
  · split <;> exact choosesOrNothing_arbitrate s _
  · exact choosesOrNothing_self s

theorem uplinkFrameEnd_chooses : ChoosesOrNothing s (execUplinkFrameEnd s) := by
  unfold execUplinkFrameEnd
  dsimp only
  split
  · split <;> exact choosesOrNothing_arbitrate s _
  · exact choosesOrNothing_self s

theorem noticeQueuing_chooses : ChoosesOrNothing s (execNoticeQueuing s) := by
  unfold execNoticeQueuing
  dsimp only
  split
  · split
    · split
      · exact choosesOrNothing_arbitrate s _
      · exact choosesOrNothing_self s
    · exact choosesOrNothing_self s
  · exact choosesOrNothing_self s

theorem keptResponseOffer_chooses : ChoosesOrNothing s (execKeptResponseOffer s) := by
  unfold execKeptResponseOffer
  split
  · split
    · exact choosesOrNothing_arbitrate s _
    · exact choosesOrNothing_self s
  · exact choosesOrNothing_self s

theorem saveEnd_chooses (outcome : SaveOutcome) : ChoosesOrNothing s (execSaveEnd outcome s) := by
  unfold execSaveEnd
  split
  · exact choosesOrNothing_arbitrate s _
  · exact choosesOrNothing_self s

end

/-- A command that takes no request. -/
theorem transmittersChoose_of_event {c : Instr} {s t : State} (htakes : c.takes = none) (hs : TransmittersChoose s)
    (h : exec c s = .next t) : TransmittersChoose t := by
  cases c <;> cases htakes
  case powerOn => obtain rfl := Host.Outcome.next.inj h; exact transmittersChoose_restart s
  case resetFullStart =>
    cases hdue : s.mgmt.resetDue with
    | true =>
      rw [exec_resetFullStart_due s hdue] at h
      obtain rfl := Host.Outcome.next.inj h
      exact transmittersChoose_restart s
    | false =>
      rw [exec_resetFullStart_idle s hdue] at h
      obtain rfl := Host.Outcome.next.inj h
      exact hs
  case imageLoadEnd elapsed answer =>
    exact transmittersChoose_of_time (body := []) (.inr (.inr (.inr rfl))) hs h
  case internalAdvance elapsed => exact transmittersChoose_of_time (body := []) (answer := .noAnswer) (.inl rfl) hs h
  case lossExpiry elapsed =>
    exact transmittersChoose_of_time (body := []) (answer := .noAnswer) (.inr (.inl rfl)) hs h
  case epoch elapsed body =>
    exact transmittersChoose_of_time (answer := .noAnswer) (.inr (.inr (.inl rfl))) hs h
  case holdSweepPosition => exact transmittersChoose_of_pass (.inl rfl) hs h
  case holdSweepOutlet => exact transmittersChoose_of_pass (.inr (.inl rfl)) hs h
  case tenantEvaluation => exact transmittersChoose_of_pass (.inr (.inr (.inl rfl))) hs h
  case curtailmentStep => exact transmittersChoose_of_pass (.inr (.inr (.inr (.inl rfl)))) hs h
  case intervalClose => exact transmittersChoose_of_pass (.inr (.inr (.inr (.inr rfl)))) hs h
  case chainMalformedFrame => exact transmittersChoose_of_chainMalformedFrame hs h
  case uplinkRequest => exact transmittersChoose_of_uplinkRequest hs h
  case uplinkFrameStart => exact transmittersChoose_of_uplinkFrameStart hs h
  case uplinkFrameError =>
    obtain rfl := Host.Outcome.next.inj h
    exact hs.of_same (sameTransmitters_recordFault s _ _)
  case storageUpset =>
    have hsame := exec_changes _ h
    have hnotices : t.notices = s.notices := hsame .notices (by simp only [Instr.changes]; decide)
    exact hs.of_same (.of_same hsame (by simp only [Instr.changes]; decide)
      (dueAt_of_same hsame (by simp only [Instr.changes]; decide)) (by rw [hnotices]))
  case commandTimeout slot => exact transmittersChoose_of_choosesOrNothing (commandTimeout_chooses s slot) hs h
  case portLost p => exact transmittersChoose_of_choosesOrNothing (portLost_chooses s p) hs h
  case sample p body => exact transmittersChoose_of_choosesOrNothing (sample_chooses s p body) hs h
  case switchAck p body => exact transmittersChoose_of_choosesOrNothing (switchAck_chooses s p body) hs h
  case pduReply p body => exact transmittersChoose_of_choosesOrNothing (pduReply_chooses s p body) hs h
  case chainRequest p body => exact transmittersChoose_of_choosesOrNothing (chainRequest_chooses s p body) hs h
  case pduPass body => exact transmittersChoose_of_choosesOrNothing (pduPass_chooses s body) hs h
  case markSend p => exact transmittersChoose_of_choosesOrNothing (markSend_chooses s p) hs h
  case switchSend p => exact transmittersChoose_of_choosesOrNothing (switchSend_chooses s p) hs h
  case passDownSend p => exact transmittersChoose_of_choosesOrNothing (passDownSend_chooses s p) hs h
  case downFrameEnd p => exact transmittersChoose_of_choosesOrNothing (downFrameEnd_chooses s p) hs h
  case uplinkFrameEnd => exact transmittersChoose_of_choosesOrNothing (uplinkFrameEnd_chooses s) hs h
  case noticeQueuing => exact transmittersChoose_of_choosesOrNothing (noticeQueuing_chooses s) hs h
  case keptResponseOffer => exact transmittersChoose_of_choosesOrNothing (keptResponseOffer_chooses s) hs h
  case saveEnd outcome => exact transmittersChoose_of_choosesOrNothing (saveEnd_chooses s outcome) hs h

theorem transmittersChoose_exec (c : Instr) (s t : State) (hs : TransmittersChoose s) (h : exec c s = .next t) :
    TransmittersChoose t := by
  cases htakes : c.takes with
  | some row => exact transmittersChoose_of_request htakes hs h
  | none => exact transmittersChoose_of_event htakes hs h

end Sys2Proof.Machine

open Sys2Proof Sys2Proof.Machine

/-- Settles O58: most commands end with the choices; the others leave what the law reads, or start a frame. -/
theorem stepKeepsTransmittersChoosing : Obligations.StepKeepsTransmittersChoosing :=
  fun _ _ hs h => step_keeps (fun _ _ hu => hu) (fun c u v hu hv => transmittersChoose_exec c u v hu hv) hs h
end

