-- ==== Sys2Proof/Proofs/Requests.lean ====
section
/-! PROOF. What a request command keeps when a law does read where answers land (R161, R162, R169, R171): the law has to be
kept by the take, by the answer and by the choices, and the work of most requests is one update and an answer. -/

namespace Sys2Proof.Machine

section
variable {s t : State}

/-- A law that the take of a request, an answer and the choices keep is kept by a request command whose work keeps it. -/
theorem onRequest_preserves {P : State → Prop} {row : RequestRow} {work : Request → State → State}
    (hpop : ∀ u, P u → P u.popRequest) (hrespond : ∀ u o r, P u → P (u.respond o r)) (hchoose : ∀ u, P u → P u.arbitrate)
    (hwork : ∀ r u, requestRow r = row → u.generalTest r = none → P u → P (work r u)) (hs : P s)
    (h : s.onRequest row work = .next t) : P t := by
  obtain rfl | ⟨r, hrow, ⟨status, rfl⟩ | ⟨hpass, rfl⟩⟩ := onRequest_cases h
  · exact hs
  · exact hchoose _ (hrespond _ _ _ (hpop _ hs))
  · exact hchoose _ (hwork r _ hrow hpass (hpop _ hs))

/-- R171: during the load only READ_STATUS passes the general tests. -/
theorem notLoading_of_generalTest {r : Request} (hrow : requestRow r ≠ .readStatus) (h : s.generalTest r = none) :
    s.mgmt.imageState ≠ .loading := by
  intro hload
  have hcode : r.code ≠ codeReadStatus := by
    intro hcode
    exact hrow (by simp only [requestRow, hcode, codeReadStatus]; rfl)
  simp [State.generalTest, hload, hcode] at h

/-- The work of a settings write: an answer, after the setting is stored and has had its effect or after neither. -/
theorem writeSettingWith_cases (effect : Nat → Nat → Nat → State → State) (r : Request) (u : State) :
    (∃ status, State.writeSettingWith effect r u = u.answer r status []) ∨ ∃ i v data, i ≤ 20
      ∧ State.writeSettingWith effect r u = (effect i (u.setting i) v (u.storeSetting i v)).answer r .ok data
      ∧ v = clampSetting i v := by
  unfold State.writeSettingWith
  dsimp only
  split
  · exact .inl ⟨_, rfl⟩
  · refine .inr ⟨_, _, _, by omega, rfl, ?_⟩
    simp only [clampSetting]
    have hrange : ∀ i, (settingRanges.getD i (0, 0)).1 ≤ (settingRanges.getD i (0, 0)).2 := by
      intro i
      obtain h | h := Nat.lt_or_ge i 21
      · revert h; revert i; decide
      · rw [List.getD_eq_default _ _ (by exact h)]
    have := hrange (writtenIndex r.data)
    omega

/-! ### Requests of one update and an answer -/

/-- `v` is an answer to some request, offered in a state that differs from `u` in the parts of `l` alone. -/
def AnswersAfter (l : List Block) (u v : State) : Prop := ∃ w o resp, SameOutside l u w ∧ v = w.respond o resp

theorem answersAfter_self {l : List Block} (u : State) (r : Request) (status : Status) (data : List Byte) :
    AnswersAfter l u (u.answer r status data) := ⟨u, _, _, .refl l u, rfl⟩

theorem answersAfter_of {l m : List Block} {u w : State} (h : SameOutside m u w) (hm : m ⊆ l) (r : Request)
    (status : Status) (data : List Byte) : AnswersAfter l u (w.answer r status data) :=
  ⟨w, _, _, h.mono hm, rfl⟩

/-- The parts that the requests of one update and an answer change beside where the answer lands. -/
def plainBlocks : List Block := [.oat, .rules, .contracts, .curtail, .live, .notices, .settings]

/-- The requests whose work is at most one update of `plainBlocks` and an answer. -/
def plainRequest : Instr → Bool
  | .writeEntryOat | .oatClear | .writeEntryRules | .writeEntryStaged | .writeNoticeMask | .writeSetting
  | .writeEntryBadTable | .resolve | .commit | .cancelCommit | .copyActiveToStaged | .restoreTenant | .restoreOutlet
  | .discard | .clearFault | .readStatus | .unknownRequestCode => true
  | _ => false

section
variable (r : Request) (u : State)

theorem writeOatRequest_answers : AnswersAfter plainBlocks u (State.writeOatRequest r u) := by
  unfold State.writeOatRequest
  dsimp only
  split
  · exact answersAfter_self ..
  · split
    · exact answersAfter_self ..
    · split
      · exact answersAfter_self ..
      · exact answersAfter_of (same_setOat u _) (by decide) ..

theorem clearOatRequest_answers : AnswersAfter plainBlocks u (State.clearOatRequest r u) := by
  unfold State.clearOatRequest
  dsimp only
  split
  · exact answersAfter_self ..
  · split
    · exact answersAfter_self ..
    · exact answersAfter_of (same_setOat u _) (by decide) ..

theorem writeRuleRequest_answers : AnswersAfter plainBlocks u (State.writeRuleRequest r u) := by
  unfold State.writeRuleRequest
  dsimp only
  split
  · exact answersAfter_self ..
  · split
    · exact answersAfter_self ..
    · exact answersAfter_of (same_setRules u _) (by decide) ..

theorem writeStagedRequest_answers : AnswersAfter plainBlocks u (State.writeStagedRequest r u) := by
  unfold State.writeStagedRequest
  dsimp only
  split
  · exact answersAfter_self ..
  · split
    · exact answersAfter_self ..
    · exact answersAfter_of (same_setContracts u _) (by decide) ..

/-- A settings write whose effect stays within `plainBlocks`. -/
theorem writeSettingWith_answers {effect : Nat → Nat → Nat → State → State}
    (heffect : ∀ i old v w, SameOutside plainBlocks w (effect i old v w)) :
    AnswersAfter plainBlocks u (State.writeSettingWith effect r u) := by
  obtain ⟨status, h⟩ | ⟨i, v, data, -, h, -⟩ := writeSettingWith_cases effect r u <;> rw [h]
  · exact answersAfter_self ..
  · exact answersAfter_of ((same_setSettings u _).comp (heffect i _ v _) (by decide) (List.Subset.refl _))
      (List.Subset.refl _) ..

theorem same_noticeMaskEffect_plain (i old v : Nat) : SameOutside plainBlocks u (noticeMaskEffect i old v u) := by
  unfold noticeMaskEffect
  split
  · split
    · exact (same_setNotices u _).mono (by decide)
    · split
      · exact (same_setCurtail u _).mono (by decide)
      · exact .refl _ _
  · exact .refl _ _

theorem resolveRequest_answers : AnswersAfter plainBlocks u (State.resolveRequest r u) := by
  unfold State.resolveRequest
  dsimp only
  split
  · exact answersAfter_self ..
  · exact answersAfter_of (same_recordParity u _) (by decide) ..

theorem restoreTenantRequest_answers : AnswersAfter plainBlocks u (State.restoreTenantRequest r u) := by
  unfold State.restoreTenantRequest
  dsimp only
  split
  · exact answersAfter_self ..
  · exact answersAfter_of ((same_putCurtail u _ _).comp (same_putLive _ _ _) (by decide) (by decide))
      (List.Subset.refl plainBlocks) ..

theorem restoreOutletRequest_answers : AnswersAfter plainBlocks u (State.restoreOutletRequest r u) := by
  unfold State.restoreOutletRequest
  split
  · exact answersAfter_self ..
  · split
    · exact answersAfter_self ..
    · split
      · exact answersAfter_self ..
      · split
        · exact answersAfter_of (same_removeEntry u _) (by decide) ..
        · split
          · exact answersAfter_self ..
          · exact answersAfter_of (same_setOnPending u _ _) (by decide) ..

theorem discardRequest_answers : AnswersAfter plainBlocks u (State.discardRequest r u) := by
  unfold State.discardRequest
  split
  · exact answersAfter_self ..
  · split
    · exact answersAfter_self ..
    · exact answersAfter_of (same_removeEntry u _) (by decide) ..

end

/-- A plain request is the take of a request whose work is at most one update and an answer. -/
theorem exec_plain {c : Instr} (hc : plainRequest c = true) : ∃ row work, (∀ s, exec c s = s.onRequest row work)
    ∧ ∀ r u, AnswersAfter plainBlocks u (work r u) := by
  cases c <;> try cases hc
  case writeEntryOat => exact ⟨_, _, fun _ => rfl, writeOatRequest_answers⟩
  case oatClear => exact ⟨_, _, fun _ => rfl, clearOatRequest_answers⟩
  case writeEntryRules => exact ⟨_, _, fun _ => rfl, writeRuleRequest_answers⟩
  case writeEntryStaged => exact ⟨_, _, fun _ => rfl, writeStagedRequest_answers⟩
  case writeNoticeMask =>
    exact ⟨_, _, fun _ => rfl, fun r u => writeSettingWith_answers r u fun i old v w => same_noticeMaskEffect_plain w i old v⟩
  case writeSetting => exact ⟨_, _, fun _ => rfl, fun r u => writeSettingWith_answers r u fun _ _ _ w => .refl _ w⟩
  case writeEntryBadTable | readStatus | unknownRequestCode =>
    exact ⟨_, _, fun _ => rfl, fun r u => answersAfter_self u r _ _⟩
  case resolve => exact ⟨_, _, fun _ => rfl, resolveRequest_answers⟩
  case commit | cancelCommit =>
    exact ⟨_, _, fun _ => rfl, fun r u => answersAfter_of (same_setContracts u _) (by decide) r _ _⟩
  case copyActiveToStaged =>
    exact ⟨_, _, fun _ => rfl, fun r u => answersAfter_of
      ((same_recordParity u _).comp (same_setContracts _ _) (by decide) (by decide)) (List.Subset.refl plainBlocks) r _ _⟩
  case restoreTenant => exact ⟨_, _, fun _ => rfl, restoreTenantRequest_answers⟩
  case restoreOutlet => exact ⟨_, _, fun _ => rfl, restoreOutletRequest_answers⟩
  case discard => exact ⟨_, _, fun _ => rfl, discardRequest_answers⟩
  case clearFault => exact ⟨_, _, fun _ => rfl, fun r u => answersAfter_of (same_setNotices u _) (by decide) r _ _⟩

/-- A law that plain updates, answers, takes and choices keep is kept by the plain requests. -/
theorem plain_preserves {P : State → Prop} {c : Instr} (hc : plainRequest c = true) (hpop : ∀ u, P u → P u.popRequest)
    (hrespond : ∀ u o r, P u → P (u.respond o r)) (hchoose : ∀ u, P u → P u.arbitrate)
    (hplain : ∀ u w, SameOutside plainBlocks u w → P u → P w) (hs : P s) (h : exec c s = .next t) : P t := by
  obtain ⟨row, work, hexec, hwork⟩ := exec_plain hc
  rw [hexec] at h
  refine onRequest_preserves hpop hrespond hchoose (fun r u _ _ hu => ?_) hs h
  obtain ⟨w, o, resp, hsame, hv⟩ := hwork r u
  rw [hv]
  exact hrespond _ _ _ (hplain _ _ hsame hu)

end

end Sys2Proof.Machine
end

