-- ==== Sys2Proof/Proofs/DisabledPorts.lean ====
section
/-! PROOF. A DISABLED port stays inert and its PDUs ABSENT, and every port is DISABLED during the load (R21, R23, R36). -/

namespace Sys2Proof.Machine

/-- What an event that disables no port leaves: an inert port stays as it is, no port becomes DISABLED, an ABSENT entry of
an inert port stays ABSENT, and no load begins. -/
structure KeepsInert (s t : State) : Prop where
  inert : ∀ p, s.port p = Port.initial → t.port p = Port.initial
  enabled : ∀ p, (t.port p).link = .disabled → (s.port p).link = .disabled
  absent : ∀ i, s.port (i / 16) = Port.initial → s.presenceAt i = Presence.absent → t.presenceAt i = Presence.absent
  loading : t.mgmt.imageState = .loading → s.mgmt.imageState = .loading

theorem DisabledPortsInert.of_keeps {s t : State} (hs : DisabledPortsInert s) (h : KeepsInert s t) :
    DisabledPortsInert t := by
  obtain ⟨hinert, hload⟩ := hs
  refine ⟨fun p hp hlink => ?_, fun hloading p hp => ?_⟩
  · obtain ⟨hport, habsent⟩ := hinert p hp (h.enabled p hlink)
    exact ⟨h.inert p hport, fun i hi => h.absent i (by rw [hi]; exact hport) (habsent i hi)⟩
  · have hport := (hinert p hp (hload (h.loading hloading) p hp)).1
    rw [h.inert p hport]
    rfl

namespace KeepsInert

variable {s t u : State}

theorem refl (s : State) : KeepsInert s s := ⟨fun _ h => h, fun _ h => h, fun _ _ h => h, fun h => h⟩

theorem trans (h : KeepsInert s t) (k : KeepsInert t u) : KeepsInert s u :=
  ⟨fun p hp => k.inert p (h.inert p hp), fun p hp => h.enabled p (k.enabled p hp),
    fun i hp hi => k.absent i (h.inert _ hp) (h.absent i hp hi), fun hl => h.loading (k.loading hl)⟩

/-- An event that changes neither ports nor presence nor the management unit. -/
theorem of_same {l : List Block} (h : SameOutside l s t)
    (hl : ∀ b ∈ [Block.links, .downChoice, .presence, .mgmt], b ∉ l) : KeepsInert s t := by
  have hport : ∀ p, t.port p = s.port p := port_of_same h (hl _ (by simp)) (hl _ (by simp))
  have hpresence : t.presence = s.presence := h .presence (hl _ (by simp))
  have hmgmt : t.mgmt = s.mgmt := h .mgmt (hl _ (by simp))
  refine ⟨fun p hp => by rw [hport, hp], fun p hp => by rwa [hport] at hp, fun i _ hi => ?_, fun hi => by rwa [hmgmt] at hi⟩
  unfold State.presenceAt at hi ⊢
  rwa [hpresence]

/-- An event that changes ports alone, each one by a change that leaves an inert port and disables none. -/
theorem of_ports {l : List Block} (h : SameOutside l s t) (hl : ∀ b ∈ [Block.presence, .mgmt], b ∉ l)
    (hinert : ∀ p, s.port p = Port.initial → t.port p = Port.initial)
    (henabled : ∀ p, (t.port p).link = .disabled → (s.port p).link = .disabled) : KeepsInert s t := by
  have hpresence : t.presence = s.presence := h .presence (hl _ (by simp))
  have hmgmt : t.mgmt = s.mgmt := h .mgmt (hl _ (by simp))
  refine ⟨hinert, henabled, fun i _ hi => ?_, fun hi => by rwa [hmgmt] at hi⟩
  unfold State.presenceAt at hi ⊢
  rwa [hpresence]

/-- A port that is not inert is replaced by one that is not DISABLED, or is as DISABLED as it was. -/
theorem putPort {p : Nat} {q : Port} (hp : s.port p ≠ Port.initial)
    (hq : q.link = .disabled → (s.port p).link = .disabled) : KeepsInert s (s.putPort p q) := by
  refine of_ports (same_putPort_all s p q) (by decide) (fun r hr => ?_) (fun r hr => ?_)
  · rw [port_putPort_other _ _ (by rintro rfl; exact hp hr), hr]
  · rw [port_putPort] at hr
    split at hr
    · next h => exact h ▸ hq hr
    · exact hr

theorem setMgmt {v : Mgmt} (hv : v.imageState = .loading → s.mgmt.imageState = .loading) : KeepsInert s (s.setMgmt v) :=
  ⟨fun _ h => h, fun _ h => h, fun _ _ h => h, hv⟩

theorem chooses (s : State) : KeepsInert s s.arbitrate := by
  refine of_ports (same_arbitrate s) (by decide) (fun p hp => ?_) (fun p hp => ?_)
  · rw [port_arbitrate]
    split
    · have hchoice : s.downChoice p = none := if_pos (.inl (by rw [hp]; rfl))
      rw [hchoice, hp]
      rfl
    · exact hp
  · rw [port_arbitrate] at hp
    split at hp <;> exact hp

theorem arbitrate (h : KeepsInert s t) : KeepsInert s t.arbitrate := h.trans (chooses t)

theorem offerPassDown (s : State) (p : Nat) (f : PassDown) : KeepsInert s (s.offerPassDown p f) := by
  refine of_ports (same_offerPassDown s p f) (by decide) (fun q hq => ?_) (fun q hq => ?_)
  · rw [port_offerPassDown]
    split
    · next h => exact absurd (by rw [← h.1, hq]; rfl) h.2.1
    · exact hq
  · rw [port_offerPassDown] at hq
    split at hq
    · next h => rw [h.1]; exact hq
    · exact hq

theorem respond (s : State) (o : Origin) (r : Response) : KeepsInert s (s.respond o r) := by
  cases o with
  | uplink =>
    change KeepsInert s (s.offerResponse r)
    unfold State.offerResponse
    split
    · exact of_same (same_setUplink_all s _) (by decide)
    · exact setMgmt fun h => h
  | chain p position => exact offerPassDown s p _

theorem popRequest (s : State) : KeepsInert s s.popRequest := of_same (same_popRequest s) (by decide)

/-! ### Chain frames -/

theorem degrade {p : Nat} (hp : (s.port p).link ≠ .disabled) : KeepsInert s (s.degrade p) :=
  (putPort (fun h => hp (by rw [h]; rfl)) (fun h => by cases h)).trans (of_same (same_recordFault _ _ _) (by decide))

theorem wellFormedFrame {p : Nat} (hp : (s.port p).link ≠ .disabled) : KeepsInert s (s.wellFormedFrame p) := by
  have hne : s.port p ≠ Port.initial := fun h => hp (by rw [h]; rfl)
  have hheard : KeepsInert s (s.putPort p { s.port p with silentPass := 0 }) := putPort hne fun h => h
  have hlink : ((s.putPort p { s.port p with silentPass := 0 }).port p).link ≠ .disabled := by
    rw [port_putPort_same]; exact hp
  unfold State.wellFormedFrame
  dsimp only
  split
  · split
    · exact hheard.trans (putPort (fun h => hlink (by rw [h]; rfl)) (fun h => by cases h))
    · exact hheard.trans (degrade hlink)
  · exact hheard

theorem window {p : Nat} (hp : (s.port p).link ≠ .disabled) (position : Nat) (e : Epoch) (readings : List (Nat × Nat))
    (body : List Byte) : KeepsInert s (s.window p position e readings body) := by
  unfold State.window
  split
  · exact refl s
  · next hposition =>
    split
    · exact refl s
    · split
      · split
        · exact refl s
        · have hflagged : KeepsInert s ((s.setFilling (s.filling.markPdu (p * 16 + position))).putPresence
              (p * 16 + position) { state := .present, missed := 0 }) := by
            refine ⟨fun _ h => h, fun _ h => h, fun i hi habsent => ?_, fun h => h⟩
            rw [presenceAt_putPresence, if_neg, State.setFilling_presenceAt, habsent]
            rintro rfl
            have hport : (p * 16 + position) / 16 = p := by omega
            rw [hport] at hi
            exact hp (by rw [hi]; rfl)
          have htaken := hflagged.trans (of_same (same_takeReadings _ (p * 16 + position) [] readings) (by decide))
          unfold State.acceptSample
          dsimp only
          split
          · exact htaken.trans (of_same (same_offerForward _ _) (by decide))
          · exact htaken
      · exact of_same (same_recordFault s _ _) (by decide)

/-! ### The advance and the pass -/

theorem afterAdvance_initial (n : Epoch) : Port.initial.afterAdvance n = Port.initial := rfl

theorem link_afterAdvance {q : Port} {n : Epoch} (h : (q.afterAdvance n).link = .disabled) : q.link = .disabled := by
  by_contra hq
  unfold Port.afterAdvance at h
  rw [if_neg hq] at h
  dsimp only at h
  split at h
  · cases h
  · exact hq h

theorem advance (s : State) (n : Epoch) : KeepsInert s (s.advance n) := by
  have hsame := same_advance s n
  have hport : ∀ p, (s.advance n).port p = if p < 4 then (s.port p).afterAdvance n else s.port p := by
    intro p
    have hages := fun u : State => port_of_same (ageCommands_spec u).1.1 (by decide) (by decide) p
    unfold State.advance
    dsimp only
    rw [(signalPorts_spec _ n).1 p, hages]
    rfl
  refine of_ports hsame (by decide) (fun p hp => ?_) (fun p hp => ?_)
  · rw [hport, hp]
    split <;> rfl
  · rw [hport] at hp
    split at hp
    · exact link_afterAdvance hp
    · exact hp

theorem losePort {p : Nat} (hp : (s.port p).isLost = true) : KeepsInert s (s.losePort p) := by
  have hne : s.port p ≠ Port.initial := fun h => by rw [h] at hp; cases hp
  refine of_ports (same_losePort s p) (by decide) (fun q hq => ?_) (fun q hq => ?_)
  · rw [losePort_port, if_neg (by rintro rfl; exact hne hq), hq]
  · rw [losePort_port] at hq
    split at hq
    · cases hq
    · exact hq

theorem closed_initial (threshold : Nat) : Port.initial.closed threshold = Port.initial := rfl

theorem completePass (s : State) : KeepsInert s s.completePass := by
  obtain ⟨htick, hclose⟩ := completePass_spec s
  have hticked : KeepsInert s (s.setTimer { s.timer with pass := none, tickCount := s.timer.tickCount + 1 }) :=
    of_same (same_setTimer s _) (by decide)
  obtain h | h := Nat.lt_or_ge (s.timer.tickCount + 1) s.ticksPerInterval
  · rw [htick h]; exact hticked
  · rw [hclose h]
    refine hticked.trans ?_
    generalize s.setTimer { s.timer with pass := none, tickCount := s.timer.tickCount + 1 } = u
    obtain ⟨-, hport, hsame⟩ := handClose_spec u
    refine of_ports hsame (by decide) (fun p hp => ?_) (fun p hp => ?_)
    · rw [hport, hp]
      split <;> rfl
    · rw [hport] at hp
      split at hp
      · unfold Port.closed at hp
        dsimp only at hp
        split at hp
        · cases hp
        · exact hp
      · exact hp

/-- R29: the sweep leaves an ABSENT entry. -/
theorem holdSweepPosition (h : execHoldSweepPosition s = .next t) : KeepsInert s t := by
  unfold execHoldSweepPosition at h
  split at h <;> obtain rfl := Host.Outcome.next.inj h
  · next i _ =>
    refine ⟨fun _ h => h, fun _ h => h, fun j _ hj => ?_, fun h => h⟩
    have hput := presenceAt_putPresence s i j (sweptPresence s.holdLimit (s.closing.pduFlag i) (s.presenceAt i))
    change State.presenceAt (s.putPresence i _) j = _
    rw [hput]
    split
    · next hji =>
      subst hji
      rw [hj]
      rfl
    · exact hj
  · exact refl s

/-! ### Transmitters -/

/-- A port whose transmitter has chosen or sends is not inert. -/
theorem ne_initial_of_choice {p : Nat} {k : DownKind} (h : (s.port p).choice = some k) : s.port p ≠ Port.initial := by
  intro hp
  rw [hp] at h
  cases h

theorem ne_initial_of_tx {p : Nat} {sent : DownSend} (h : (s.port p).tx = some sent) : s.port p ≠ Port.initial := by
  intro hp
  rw [hp] at h
  cases h

theorem startDown {p : Nat} (hp : s.port p ≠ Port.initial) (frame : DownFrame) : KeepsInert s (s.startDown p frame) :=
  putPort hp fun h => h

/-- What is started leaves the port's record first. -/
theorem putPort_startDown {p : Nat} {q : Port} (hp : s.port p ≠ Port.initial) (hq : q.link = (s.port p).link)
    (frame : DownFrame) : KeepsInert s ((s.putPort p q).startDown p frame) := by
  have hport : ∀ r, r ≠ p → ((s.putPort p q).startDown p frame).port r = s.port r := fun r hr =>
    (port_putPort_other _ _ hr).trans (port_putPort_other _ _ hr)
  have hlink : (((s.putPort p q).startDown p frame).port p).link = (s.port p).link := by
    rw [State.startDown, port_putPort_same, port_putPort_same, ← hq]
  refine of_ports ((same_putPort_all s p q).trans (same_startDown _ p frame)) (by decide) (fun r hr => ?_) (fun r hr => ?_)
  · rw [hport r (by rintro rfl; exact hp hr), hr]
  · obtain rfl | hrp := eq_or_ne r p
    · rwa [hlink] at hr
    · rwa [hport r hrp] at hr

theorem markSend {p : Nat} (h : execMarkSend p s = .next t) : KeepsInert s t := by
  unfold execMarkSend at h
  split at h <;> obtain rfl := Host.Outcome.next.inj h
  · next n hchoice _ =>
    exact (putPort_startDown (q := { s.port p with dueMark := none }) (ne_initial_of_choice hchoice) rfl _).arbitrate
  · exact refl s

theorem passDownSend {p : Nat} (h : execPassDownSend p s = .next t) : KeepsInert s t := by
  unfold execPassDownSend at h
  split at h <;> obtain rfl := Host.Outcome.next.inj h
  · next frame rest hchoice _ =>
    exact (putPort_startDown (q := { s.port p with passDown := rest }) (ne_initial_of_choice hchoice) rfl _).arbitrate
  · exact refl s

theorem startSwitch {p slot : Nat} (hp : s.port p ≠ Port.initial) (e : CurtailEntry) :
    KeepsInert s (s.startSwitch p slot e) := by
  have hcurtail : ∃ c, s.startSwitch p slot e = (s.setCurtail c).startDown p
      (.switch (e.outlet / 64 % 16) (e.outlet % 64) (decide (e.stage = .onPending)) s.curtail.tagCounter) := ⟨_, rfl⟩
  obtain ⟨c, hc⟩ := hcurtail
  have hset : KeepsInert s (s.setCurtail c) := of_same (same_setCurtail s c) (by decide)
  rw [hc]
  exact hset.trans (startDown (s := s.setCurtail c) hp _)

theorem switchSend {p : Nat} (h : execSwitchSend p s = .next t) : KeepsInert s t := by
  unfold execSwitchSend at h
  split at h
  · next slot rest hchoice _ =>
    split at h <;> obtain rfl := Host.Outcome.next.inj h
    · exact (startSwitch (ne_initial_of_choice hchoice) _).arbitrate
    · exact refl s
  · obtain rfl := Host.Outcome.next.inj h; exact refl s

theorem downFrameEnd {p : Nat} (h : execDownFrameEnd p s = .next t) : KeepsInert s t := by
  unfold execDownFrameEnd at h
  split at h
  · next sent htx =>
    have hidle : KeepsInert s (s.putPort p { s.port p with tx := none }) := putPort (ne_initial_of_tx htx) fun h => h
    dsimp only at h
    split at h <;> obtain rfl := Host.Outcome.next.inj h
    · exact (hidle.trans (setMgmt (v := { s.mgmt with resetDue := true }) fun h => h)).arbitrate
    · exact hidle.arbitrate
  · obtain rfl := Host.Outcome.next.inj h; exact refl s

theorem uplinkFrameEnd (h : execUplinkFrameEnd s = .next t) : KeepsInert s t := by
  unfold execUplinkFrameEnd at h
  split at h
  · have hidle : KeepsInert s (s.setUplink { s.uplink with tx := none }) := of_same (same_setUplink_all s _) (by decide)
    dsimp only at h
    split at h <;> obtain rfl := Host.Outcome.next.inj h
    · exact (hidle.trans (setMgmt (v := { s.mgmt with resetDue := true }) fun h => h)).arbitrate
    · exact hidle.arbitrate
  · obtain rfl := Host.Outcome.next.inj h; exact refl s

theorem testThreshold (s : State) (p : Nat) : KeepsInert s (s.testThreshold p) := by
  unfold State.testThreshold
  split
  · next h => exact degrade (by rw [h.1]; decide)
  · exact refl s

theorem testThresholds (ps : List Nat) (s : State) : KeepsInert s (ps.foldl State.testThreshold s) := by
  induction ps generalizing s with
  | nil => exact refl s
  | cons p rest ih => exact (testThreshold s p).trans (ih _)

theorem copyNext (s : State) (j : ReadJob) : KeepsInert s (s.copyNext j) := by
  have hcopied : KeepsInert s (s.copyEntry j.table (j.first + j.done)).1 := of_same (same_copyEntry s _ _) (by decide)
  generalize hu : (s.copyEntry j.table (j.first + j.done)) = copied at hcopied
  unfold State.copyNext
  rw [hu]
  dsimp only
  split
  · exact (hcopied.trans (setMgmt (v := { copied.1.mgmt with current := none }) fun h => h)).trans (respond _ _ _)
  · exact hcopied.trans (setMgmt fun h => h)

/-! #### The events -/

section
variable {p : Nat} {body : List Byte}

theorem of_time {c : Instr} {elapsed : Nat}
    (hc : c = .internalAdvance elapsed ∨ c = .lossExpiry elapsed ∨ c = .epoch elapsed body) (h : exec c s = .next t) :
    KeepsInert s t := by
  have hwait : KeepsInert s (s.elapse elapsed) := of_same (same_elapse s elapsed) (by decide)
  generalize hu : s.elapse elapsed = u at hwait
  obtain rfl | rfl | rfl := hc
  · change execInternalAdvance elapsed s = _ at h
    unfold execInternalAdvance at h
    simp only [hu] at h
    split at h <;> obtain rfl := Host.Outcome.next.inj h
    · exact (hwait.trans (advance u _)).arbitrate
    · exact hwait
  · change execLossExpiry elapsed s = _ at h
    unfold execLossExpiry at h
    simp only [hu] at h
    split at h <;> obtain rfl := Host.Outcome.next.inj h
    · have hfallen : KeepsInert u (u.setTimer { u.timer with mode := .fallback }) := of_same (same_setTimer u _) (by decide)
      exact (((hwait.trans hfallen).trans (advance _ _)).trans (of_same (same_recordFault _ _ _) (by decide))).arbitrate
    · exact hwait
  · change execEpoch elapsed body s = _ at h
    unfold execEpoch at h
    simp only [hu] at h
    split at h
    · obtain rfl := Host.Outcome.next.inj h; exact hwait
    · split at h
      · obtain rfl := Host.Outcome.next.inj h; exact hwait
      · split at h <;> obtain rfl := Host.Outcome.next.inj h
        · exact hwait.trans (of_same (same_recordFault _ _ _) (by decide))
        · exact (hwait.trans (advance u _)).arbitrate

theorem of_commandTimeout {slot : Nat} (h : execCommandTimeout slot s = .next t) : KeepsInert s t := by
  unfold execCommandTimeout at h
  split at h
  · split at h <;> obtain rfl := Host.Outcome.next.inj h
    · exact (of_same (same_timeOut s slot _) (by decide)).arbitrate
    · exact refl s
  · obtain rfl := Host.Outcome.next.inj h; exact refl s

theorem of_portLost (h : execPortLost p s = .next t) : KeepsInert s t := by
  unfold execPortLost at h
  split at h <;> obtain rfl := Host.Outcome.next.inj h
  · next hlost => exact (losePort hlost).arbitrate
  · exact refl s

theorem of_curtailmentStep (h : execCurtailmentStep s = .next t) : KeepsInert s t := by
  unfold execCurtailmentStep at h
  split at h
  · next x tr c _ =>
    have hstep : KeepsInert s (s.curtailStep x tr c) := of_same (same_curtailStep s x tr c) (by decide)
    generalize s.curtailStep x tr c = u at h hstep
    dsimp only at h
    split at h <;> obtain rfl := Host.Outcome.next.inj h
    · exact (hstep.trans (of_same (same_movePass u _) (by decide))).arbitrate
    · exact (hstep.trans (completePass u)).arbitrate
  · obtain rfl := Host.Outcome.next.inj h; exact refl s

theorem of_sample (h : execSample p body s = .next t) : KeepsInert s t := by
  unfold execSample at h
  dsimp only at h
  split at h
  · obtain rfl := Host.Outcome.next.inj h; exact refl s
  · next hlink =>
    have hheard := wellFormedFrame (s := s) hlink
    have hstill : ((s.wellFormedFrame p).port p).link ≠ .disabled := fun h => hlink (hheard.enabled p h)
    split at h <;> obtain rfl := Host.Outcome.next.inj h
    · exact (hheard.trans (window hstill _ _ _ _)).arbitrate
    · exact hheard.arbitrate

/-- R17: a malformed frame counted on a port that is not DISABLED. -/
theorem of_chainMalformedFrame (h : execChainMalformedFrame p s = .next t) : KeepsInert s t := by
  unfold execChainMalformedFrame at h
  dsimp only at h
  split at h
  · obtain rfl := Host.Outcome.next.inj h; exact refl s
  · next hlink =>
    have hne : s.port p ≠ Port.initial := fun h => hlink (by rw [h]; rfl)
    have hcounted : ∀ n, KeepsInert s (s.putPort p { s.port p with errorCount := n }) := fun n => putPort hne fun h => h
    split at h <;> obtain rfl := Host.Outcome.next.inj h
    · refine (hcounted _).trans (degrade ?_)
      rw [port_putPort_same]
      exact hlink
    · exact hcounted _

theorem of_switchAck (h : execSwitchAck p body s = .next t) : KeepsInert s t := by
  unfold execSwitchAck at h
  dsimp only at h
  split at h
  · obtain rfl := Host.Outcome.next.inj h; exact refl s
  · next hlink =>
    have hheard := wellFormedFrame (s := s) hlink
    split at h <;> obtain rfl := Host.Outcome.next.inj h
    · exact (hheard.trans (of_same (same_switchAnswer _ _ _ _ _ _) (by decide))).arbitrate
    · exact hheard.arbitrate

theorem of_pduReply (h : execPduReply p body s = .next t) : KeepsInert s t := by
  unfold execPduReply at h
  dsimp only at h
  split at h
  · obtain rfl := Host.Outcome.next.inj h; exact refl s
  · next hlink =>
    have hheard := wellFormedFrame (s := s) hlink
    split at h <;> obtain rfl := Host.Outcome.next.inj h
    · exact hheard.arbitrate
    · exact (hheard.trans (of_same (same_offerForward _ _) (by decide))).arbitrate

theorem of_chainRequest (h : execChainRequest p body s = .next t) : KeepsInert s t := by
  unfold execChainRequest at h
  dsimp only at h
  split at h
  · obtain rfl := Host.Outcome.next.inj h; exact refl s
  · next hlink =>
    have hheard := wellFormedFrame (s := s) hlink
    split at h <;> obtain rfl := Host.Outcome.next.inj h
    · exact (hheard.trans (of_same (same_offerRequest _ _) (by decide))).arbitrate
    · exact hheard.arbitrate

theorem of_pduPass (h : execPduPass body s = .next t) : KeepsInert s t := by
  unfold execPduPass at h
  split at h <;> obtain rfl := Host.Outcome.next.inj h
  · refine KeepsInert.arbitrate ?_
    unfold State.relay
    split
    · exact refl s
    · split
      · exact refl s
      · exact offerPassDown s _ _
  · exact refl s

theorem of_noticeQueuing (h : execNoticeQueuing s = .next t) : KeepsInert s t := by
  unfold execNoticeQueuing at h
  split at h
  · split at h
    · next item _ =>
      split at h
      · obtain rfl := Host.Outcome.next.inj h
        have hsettled : KeepsInert s (s.settle item) := of_same (same_settle s item) (by decide)
        exact (hsettled.trans (of_same (same_setNotices _ _) (by decide))).arbitrate
      · obtain rfl := Host.Outcome.next.inj h; exact refl s
    · obtain rfl := Host.Outcome.next.inj h; exact refl s
  · obtain rfl := Host.Outcome.next.inj h; exact refl s

theorem of_keptResponseOffer (h : execKeptResponseOffer s = .next t) : KeepsInert s t := by
  unfold execKeptResponseOffer at h
  split at h
  · next r rest _ =>
    split at h <;> obtain rfl := Host.Outcome.next.inj h
    · have htaken : KeepsInert s (s.setMgmt { s.mgmt with kept := rest }) := setMgmt fun h => h
      exact (htaken.trans (of_same (same_setUplink_all _ _) (by decide))).arbitrate
    · exact refl s
  · obtain rfl := Host.Outcome.next.inj h; exact refl s

theorem of_saveEnd {outcome : SaveOutcome} (h : execSaveEnd outcome s = .next t) : KeepsInert s t := by
  unfold execSaveEnd at h
  split at h <;> obtain rfl := Host.Outcome.next.inj h
  · next j _ =>
    have hended : KeepsInert s (s.setMgmt { s.mgmt with imageState := savedState outcome, save := none }) :=
      setMgmt fun h => by cases outcome <;> cases h
    exact ((hended.trans (of_same (same_setExtMemory _ _) (by decide))).trans (respond _ _ _)).arbitrate
  · exact refl s

end

end KeepsInert

/-! ### The events that set ports anew -/

section
variable {s t : State}

theorem port_tabulate (f : Nat → Port) (u : State) (h : u.ports = Table.tabulate Port.initial 4 f) (p : Nat) :
    u.port p = if p < 4 then f p else Port.initial := by
  unfold State.port
  rw [h]
  exact Table.read_tabulate ..

/-- R36, R37: an empty presence table and freshly set ports are inert where a port is DISABLED. -/
theorem disabledPortsInert_fresh {u : State} (f : Nat → Port) (hf : ∀ p, (f p).link = .disabled → f p = Port.initial)
    (hports : u.ports = Table.tabulate Port.initial 4 f)
    (habsent : ∀ i, i / 16 < 4 → u.presenceAt i = Presence.absent) (hload : u.mgmt.imageState ≠ .loading) :
    DisabledPortsInert u := by
  refine ⟨fun p hp hlink => ?_, fun h => absurd h hload⟩
  rw [port_tabulate f u hports, if_pos hp] at hlink ⊢
  exact ⟨hf p hlink, fun i hi => habsent i (by omega)⟩

theorem portAfterReset_inert (u : State) (p : Nat) (h : (u.portAfterReset p).link = .disabled) :
    u.portAfterReset p = Port.initial := by
  unfold State.portAfterReset at h ⊢
  split at h
  · cases h
  · next hoff => rw [if_neg hoff]; rfl

theorem disabledPortsInert_recordFault {u : State} {cls : FaultClass} {loc : Location} (hu : DisabledPortsInert u) :
    DisabledPortsInert (u.recordFault cls loc) := hu.of_keeps (.of_same (same_recordFault u cls loc) (by decide))

/-- R180: a load that ends leaves the presence table, which is ABSENT throughout. -/
theorem disabledPortsInert_loadedWith {filled : State} (answer : MemoryAnswer) (hs : DisabledPortsInert s)
    (hload : s.mgmt.imageState = .loading) (hpresence : filled.presence = s.presence) :
    DisabledPortsInert (s.loadedWith filled answer) := by
  have habsent : ∀ i, i / 16 < 4 → s.presenceAt i = Presence.absent := fun i hi =>
    (hs.1 _ hi (hs.2 hload _ hi)).2 i rfl
  have hstate : s.loadState answer ≠ .loading := by
    unfold State.loadState
    split <;> decide
  have hdone : ∀ u : State, u.ports = Table.tabulate Port.initial 4 filled.portAfterReset → u.presence = s.presence →
      u.mgmt.imageState = s.loadState answer → DisabledPortsInert u := by
    intro u hports hpres hmgmt
    refine disabledPortsInert_fresh _ (portAfterReset_inert filled) hports (fun i hi => ?_) (hmgmt ▸ hstate)
    unfold State.presenceAt
    rw [hpres]
    exact habsent i hi
  unfold State.loadedWith
  dsimp only
  split
  · exact disabledPortsInert_recordFault (hdone _ rfl hpresence rfl)
  · exact hdone _ rfl hpresence rfl

theorem disabledPortsInert_imageLoadEnd {elapsed : Nat} {answer : MemoryAnswer} (hs : DisabledPortsInert s)
    (h : execImageLoadEnd elapsed answer s = .next t) : DisabledPortsInert t := by
  have hwait : DisabledPortsInert (s.elapse elapsed) := hs
  unfold execImageLoadEnd at h
  dsimp only at h
  generalize s.elapse elapsed = u at h hwait
  split at h <;> obtain rfl := Host.Outcome.next.inj h
  · next hload =>
    refine DisabledPortsInert.of_keeps ?_ (.chooses _)
    cases hread : u.imageRead answer with
    | none => rw [endLoad_none u hread]; exact disabledPortsInert_loadedWith answer hwait hload rfl
    | some m => rw [endLoad_some u hread]; exact disabledPortsInert_loadedWith answer hwait hload rfl
  · exact hwait

/-! ### Requests that set ports -/

theorem disabledPortsInert_respond (u : State) (o : Origin) (r : Response) (hu : DisabledPortsInert u) :
    DisabledPortsInert (u.respond o r) := hu.of_keeps (.respond u o r)

/-- R21: a disabled port is inert, its PDUs ABSENT. -/
theorem disabledPortsInert_disablePort {u : State} {p : Nat} (hu : DisabledPortsInert u)
    (hload : u.mgmt.imageState ≠ .loading) : DisabledPortsInert (u.disablePort p) := by
  obtain ⟨hport, hpresence, -, -, -, -, -, hmgmt, -⟩ := disablePort_spec u p
  have himage : (u.disablePort p).mgmt.imageState = u.mgmt.imageState := by
    rw [hmgmt]
    split
    · split <;> rfl
    · rfl
  refine ⟨fun q hq hlink => ?_, fun h => absurd (himage ▸ h) hload⟩
  rw [hport] at hlink ⊢
  simp only [hpresence]
  obtain rfl | hqp := eq_or_ne q p
  · exact ⟨if_pos rfl, fun i hi => if_pos hi⟩
  · rw [if_neg hqp] at hlink ⊢
    obtain ⟨hinitial, habsent⟩ := hu.1 q hq hlink
    exact ⟨hinitial, fun i hi => by rw [if_neg (by omega), habsent i hi]⟩

theorem disabledPortsInert_enablePort {u : State} {p : Nat} (hu : DisabledPortsInert u)
    (hload : u.mgmt.imageState ≠ .loading) : DisabledPortsInert (u.enablePort p) := by
  refine ⟨fun q hq hlink => ?_, fun h => absurd h hload⟩
  unfold State.enablePort at hlink ⊢
  rw [port_putPort] at hlink ⊢
  split at hlink
  · cases hlink
  · next hqp => rw [if_neg hqp]; exact hu.1 q hq hlink

/-- A settings write outside the load whose effect keeps the law there. -/
theorem disabledPortsInert_writeSetting {row : RequestRow} {effect : Nat → Nat → Nat → State → State}
    (hrow : row ≠ .readStatus) (heffect : ∀ i old v u, DisabledPortsInert u → u.mgmt.imageState ≠ .loading →
      DisabledPortsInert (effect i old v u)) (hs : DisabledPortsInert s)
    (h : s.onRequest row (State.writeSettingWith effect) = .next t) : DisabledPortsInert t := by
  refine onRequest_preserves (fun u hu => hu.of_keeps (.popRequest u)) disabledPortsInert_respond
    (fun u hu => hu.of_keeps (.chooses u)) (fun r u hr hpass hu => ?_) hs h
  have hload := notLoading_of_generalTest (hr ▸ hrow) hpass
  obtain ⟨status, hw⟩ | ⟨i, v, data, -, hw, -⟩ := writeSettingWith_cases effect r u <;> rw [hw]
  · exact disabledPortsInert_respond _ _ _ hu
  · refine disabledPortsInert_respond _ _ _ (heffect i _ v _ ?_ hload)
    exact hu.of_keeps (.of_same (same_setSettings u _) (by decide))

/-- R184: the ports and the presence table are set anew. -/
theorem disabledPortsInert_liveReset {u : State} (hload : u.mgmt.imageState ≠ .loading) :
    DisabledPortsInert u.liveReset :=
  disabledPortsInert_fresh _ (portAfterReset_inert u) rfl (fun _ _ => rfl) hload

/-- The requests that set ports, save, reset or copy. -/
theorem disabledPortsInert_otherRequest {c : Instr} {row : RequestRow} (hc : c.takes = some row)
    (hplain : plainRequest c = false) (hs : DisabledPortsInert s) (h : exec c s = .next t) : DisabledPortsInert t := by
  have hpop : ∀ u : State, DisabledPortsInert u → DisabledPortsInert u.popRequest := fun u hu => hu.of_keeps (.popRequest u)
  have hchoose : ∀ u : State, DisabledPortsInert u → DisabledPortsInert u.arbitrate := fun u hu => hu.of_keeps (.chooses u)
  cases c <;> cases hc <;> try cases hplain
  case readEntry =>
    change execReadEntry s = _ at h
    unfold execReadEntry at h
    split at h
    · obtain rfl := Host.Outcome.next.inj h
      exact hs.of_keeps (KeepsInert.copyNext s _).arbitrate
    · refine onRequest_preserves hpop disabledPortsInert_respond hchoose (fun r u _ _ hu => ?_) hs h
      unfold State.startRead
      dsimp only
      split
      · exact disabledPortsInert_respond _ _ _ hu
      · split
        · exact disabledPortsInert_respond _ _ _ hu
        · split
          · exact disabledPortsInert_respond _ _ _ hu
          · exact hu.of_keeps (.copyNext u _)
  case writeEpochSource elapsed =>
    refine disabledPortsInert_writeSetting (s := s.elapse elapsed) (by decide) (fun i old v u hu _ => ?_) hs h
    have hmoved : KeepsInert u (u.setSource v) := .of_same (same_setTimer u _) (by decide)
    unfold epochSourceEffect
    dsimp only
    split
    · exact hu.of_keeps (hmoved.trans (.advance _ _))
    · exact hu.of_keeps hmoved
  case portDisable =>
    refine disabledPortsInert_writeSetting (by decide) (fun i old v u hu hload => ?_) hs h
    unfold portDisableEffect
    split
    · exact hu
    · exact disabledPortsInert_disablePort hu hload
  case portEnable =>
    refine disabledPortsInert_writeSetting (by decide) (fun i old v u hu hload => ?_) hs h
    unfold portEnableEffect
    split
    · exact disabledPortsInert_enablePort hu hload
    · exact hu
  case writeErrorThreshold =>
    exact disabledPortsInert_writeSetting (by decide) (fun i old v u hu _ => hu.of_keeps (.testThresholds _ u)) hs h
  case saveImage =>
    refine onRequest_preserves hpop disabledPortsInert_respond hchoose (fun r u _ _ hu => ?_) hs h
    exact hu.of_keeps ((KeepsInert.of_same (same_recordParity u u.saveFaults) (by decide)).trans
      (.setMgmt fun h => by cases h))
  case resetLive =>
    refine onRequest_preserves hpop disabledPortsInert_respond hchoose (fun r u hr hpass _ => ?_) hs h
    exact disabledPortsInert_respond _ _ _
      (disabledPortsInert_liveReset (notLoading_of_generalTest (by rw [hr]; decide) hpass))
  case resetFull =>
    refine onRequest_preserves hpop disabledPortsInert_respond hchoose (fun r u _ _ hu => ?_) hs h
    have hanswered := KeepsInert.respond u r.origin (r.answer .ok [])
    generalize hv : u.respond r.origin (r.answer .ok []) = v at hanswered
    unfold State.grantReset State.answer
    rw [hv]
    exact hu.of_keeps (hanswered.trans (.setMgmt fun h => h))

theorem disabledPortsInert_request {c : Instr} {row : RequestRow} (hc : c.takes = some row) (hs : DisabledPortsInert s)
    (h : exec c s = .next t) : DisabledPortsInert t := by
  cases hplain : plainRequest c with
  | true =>
    exact plain_preserves hplain (fun u hu => hu.of_keeps (.popRequest u)) disabledPortsInert_respond
      (fun u hu => hu.of_keeps (.chooses u)) (fun u w hsame hu => hu.of_keeps (.of_same hsame (by decide))) hs h
  | false => exact disabledPortsInert_otherRequest hc hplain hs h

/-- The events and upsets, which take no request. -/
theorem disabledPortsInert_event {c : Instr} (hc : c.takes = none) (hs : DisabledPortsInert s) (h : exec c s = .next t) :
    DisabledPortsInert t := by
  cases c <;> cases hc
  case powerOn => obtain rfl := Host.Outcome.next.inj h; exact disabledPortsInert_restart s
  case resetFullStart =>
    cases hdue : s.mgmt.resetDue with
    | true =>
      rw [exec_resetFullStart_due s hdue] at h
      obtain rfl := Host.Outcome.next.inj h
      exact disabledPortsInert_restart s
    | false =>
      rw [exec_resetFullStart_idle s hdue] at h
      obtain rfl := Host.Outcome.next.inj h
      exact hs
  case imageLoadEnd => exact disabledPortsInert_imageLoadEnd hs h
  case internalAdvance => exact hs.of_keeps (.of_time (body := []) (.inl rfl) h)
  case lossExpiry => exact hs.of_keeps (.of_time (body := []) (.inr (.inl rfl)) h)
  case epoch => exact hs.of_keeps (.of_time (.inr (.inr rfl)) h)
  case commandTimeout => exact hs.of_keeps (.of_commandTimeout h)
  case portLost => exact hs.of_keeps (.of_portLost h)
  case holdSweepPosition => exact hs.of_keeps (.holdSweepPosition h)
  case curtailmentStep => exact hs.of_keeps (.of_curtailmentStep h)
  case sample => exact hs.of_keeps (.of_sample h)
  case chainMalformedFrame => exact hs.of_keeps (.of_chainMalformedFrame h)
  case switchAck => exact hs.of_keeps (.of_switchAck h)
  case pduReply => exact hs.of_keeps (.of_pduReply h)
  case chainRequest => exact hs.of_keeps (.of_chainRequest h)
  case pduPass => exact hs.of_keeps (.of_pduPass h)
  case markSend => exact hs.of_keeps (.markSend h)
  case switchSend => exact hs.of_keeps (.switchSend h)
  case passDownSend => exact hs.of_keeps (.passDownSend h)
  case downFrameEnd => exact hs.of_keeps (.downFrameEnd h)
  case uplinkFrameEnd => exact hs.of_keeps (.uplinkFrameEnd h)
  case noticeQueuing => exact hs.of_keeps (.of_noticeQueuing h)
  case keptResponseOffer => exact hs.of_keeps (.of_keptResponseOffer h)
  case saveEnd => exact hs.of_keeps (.of_saveEnd h)
  all_goals exact hs.of_keeps (.of_same (exec_changes _ h) (by simp only [Instr.changes]; decide))

theorem disabledPortsInert_exec (c : Instr) (hs : DisabledPortsInert s) (h : exec c s = .next t) :
    DisabledPortsInert t := by
  cases htakes : c.takes with
  | some row => exact disabledPortsInert_request htakes hs h
  | none => exact disabledPortsInert_event htakes hs h

end

end Sys2Proof.Machine

open Sys2Proof Sys2Proof.Machine

/-- Settles O57: events leave inert ports inert; a port is disabled by an operation that makes it so, and no request but
READ_STATUS is done during the load. -/
theorem stepKeepsDisabledPortsInert : Obligations.StepKeepsDisabledPortsInert :=
  fun _ _ hs h => step_keeps (fun _ _ hu => hu) (fun c _ _ hu hv => disabledPortsInert_exec c hu hv) hs h
end

