-- ==== Sys2Proof/Proofs/LiveRecords.lean ====
section
/-! PROOF. What the operations make of the live records, and the two laws about them: credit within Bmax (R85), and the
figures within their ranges with the pool IDLE (R69, R75, R79, R81, R91). -/

namespace Sys2Proof.Machine

/-! ### An evaluation, row by row (R88, R89) -/

section
variable (s : State) {x : Nat}

/-- Steps 1 and 2 of tenant `x`'s evaluation. -/
def State.drawnAt (x : Nat) : LiveRecord :=
  (s.liveAt x).drawn (s.closing.sum .a x) (s.closing.sum .b x) s.demandShift

theorem evaluated_of_idle (epoch : Epoch) (h : (s.liveAt x).state = .idle) :
    s.evaluated x epoch = (s.drawnAt x).flagged 0 (s.closing.over x) (s.closing.isIncomplete x) epoch := by
  simp only [State.evaluated, State.drawnAt, State.stepThree, if_pos h]

theorem evaluated_of_contract (epoch : Epoch) {c : Contract} (h : (s.liveAt x).state ≠ .idle)
    (hc : s.contractRead x = some c) : s.evaluated x epoch =
      ((s.drawnAt x).judged c).flagged c.feedCap (s.closing.over x) (s.closing.isIncomplete x) epoch := by
  simp only [State.evaluated, State.drawnAt, State.stepThree, if_neg h, hc]

theorem evaluated_of_none (epoch : Epoch) (h : (s.liveAt x).state ≠ .idle) (hc : s.contractRead x = none) :
    s.evaluated x epoch =
      (s.drawnAt x).idled.flagged 0 (s.closing.over x) (s.closing.isIncomplete x) epoch := by
  simp only [State.evaluated, State.drawnAt, State.stepThree, if_neg h, hc]

theorem contractRead_some {c : Contract} (h : s.contractRead x = some c) :
    (s.activeAt x).parityGood = true ∧ c.valid = true ∧ (s.activeAt x).content = c := by
  unfold State.contractRead at h
  split at h
  · next hgood => cases h; exact ⟨hgood.1, hgood.2, rfl⟩
  · cases h

/-- R86: a judged tenant is not IDLE. -/
theorem nextStanding_ne_idle (c : Contract) (st : TenantState) (quiet dw b : Nat) :
    (nextStanding c st quiet dw b).1 ≠ .idle := by
  unfold nextStanding
  (repeat' split) <;> exact TenantState.noConfusion

theorem nextCredit_le {c : Contract} {dw b : Nat} (h : b ≤ c.burstCap) : nextCredit c dw b ≤ c.burstCap := by
  unfold nextCredit
  split <;> omega

end

/-! ### Live records after a curtailment step, a close, a load, a live reset -/

section
variable (s : State)

theorem liveAt_of_same {l : List Block} {s t : State} (h : SameOutside l s t) (hl : Block.live ∉ l) (y : Nat) :
    t.liveAt y = s.liveAt y := by
  have hlive : t.live = s.live := h .live hl
  unfold State.liveAt
  rw [hlive]

theorem activeAt_of_same {l : List Block} {s t : State} (h : SameOutside l s t) (hl : Block.contracts ∉ l) (y : Nat) :
    t.activeAt y = s.activeAt y := by
  have hcontracts : t.contracts = s.contracts := h .contracts hl
  unfold State.activeAt
  rw [hcontracts]

/-- The live records of `t` are those of `s` but for ticks-in-OVER. -/
def SameButTicks (s t : State) : Prop := ∀ y, ∃ n, t.liveAt y = { s.liveAt y with ticksInOver := n }

theorem SameButTicks.refl : SameButTicks s s := fun _ => ⟨_, rfl⟩

theorem SameButTicks.of_live {s t u : State} (h : SameButTicks s t) (hu : ∀ y, u.liveAt y = t.liveAt y) :
    SameButTicks s u := fun y => by rw [hu]; exact h y

theorem SameButTicks.putLive {s t : State} (h : SameButTicks s t) (x n : Nat) :
    SameButTicks s (t.putLive x { t.liveAt x with ticksInOver := n }) := by
  intro y
  rw [liveAt_putLive]
  split
  · next hyx =>
    subst hyx
    obtain ⟨m, hm⟩ := h y
    exact ⟨n, by rw [hm]⟩
  · exact h y

/-- R139: a restore step changes no live record but the ticks-in-OVER of a tenant whose restore ends. -/
theorem SameButTicks.restoreStep {s t : State} (h : SameButTicks s t) (x : Nat) : SameButTicks s (t.restoreStep x) := by
  have hwalked := fun y => liveAt_of_same (same_restoreWalk t (t.restoreOrder x)) (by decide) y
  unfold State.restoreStep
  generalize t.restoreWalk (t.restoreOrder x) = walked at hwalked
  have hwalk : SameButTicks s walked.1 := h.of_live hwalked
  dsimp only
  split
  · exact hwalk
  · split
    · have hended := hwalk.of_live (liveAt_of_same (same_endRestoring walked.1 x) (by decide))
      have hlive := liveAt_of_same (same_endRestoring walked.1 x) (by decide) x
      unfold State.finishRestore
      rw [← hlive]
      exact hended.putLive x 0
    · exact hwalk

theorem sameButTicks_curtailStep (x : Nat) (tr : Transition) (c : Option Contract) :
    SameButTicks s (s.curtailStep x tr c) :=
  curtailStep_keeps tr c (fun auto => (SameButTicks.refl s).of_live
      (liveAt_of_same (same_actOnTransition s x tr auto) (by decide)))
    (fun _ hu => hu.restoreStep x) (fun u hu => hu.of_live (liveAt_of_same (same_shedStep u x) (by decide)))

theorem liveAt_clearAccumulators (n : BitVec 32) (y : Nat) : (s.captureSummaries n).clearAccumulators.liveAt y =
    if y < 128 then (s.liveAt y).cleared else LiveRecord.idle := Table.read_mapAll ..

/-- R114: a switch reads the tenant's record and its new contract. -/
theorem liveAt_consequence (x y : Nat) : (s.consequence x).liveAt y =
    if y = x then (s.liveAt x).switched (s.activeAt x).content else s.liveAt y := by
  have hput := liveAt_putLive s x y ((s.liveAt x).switched (s.activeAt x).content)
  have hended : ∀ u : State, (u.endRestoring x).liveAt y = u.liveAt y := fun u =>
    liveAt_of_same (same_endRestoring u x) (by decide) y
  unfold State.consequence
  dsimp only
  split
  · exact hput
  · split
    · split
      · rw [hended]; exact hput
      · exact hput
    · rw [hended]; exact hput

theorem liveAt_consequences (ts : List Nat) (hts : ts.Nodup) (y : Nat) : (ts.foldl State.consequence s).liveAt y =
    if y ∈ ts then (s.liveAt y).switched (s.activeAt y).content else s.liveAt y := by
  induction ts generalizing s with
  | nil => rfl
  | cons x rest ih =>
    obtain ⟨hx, hrest⟩ := List.nodup_cons.1 hts
    have hactive : ∀ z, (s.consequence x).activeAt z = s.activeAt z := activeAt_of_same (same_consequence s x) (by decide)
    rw [List.foldl_cons, ih _ hrest, liveAt_consequence, hactive]
    obtain rfl | hyx := eq_or_ne y x
    · simp [hx]
    · simp [hyx]

theorem mem_tenants (y : Nat) : y ∈ (List.range 127).map (fun n => n + 1) ↔ 1 ≤ y ∧ y ≤ 127 := by
  simp only [List.mem_map, List.mem_range]
  constructor
  · rintro ⟨n, hn, rfl⟩; omega
  · rintro ⟨h1, h127⟩; exact ⟨y - 1, by omega, by omega⟩

theorem nodup_tenants : ((List.range 127).map (fun n => n + 1)).Nodup :=
  List.nodup_range.map (fun a b h => by omega)

theorem read_copiedContracts (at' : Nat → Stored Contract) (y : Nat) : Table.read emptyContract (copiedContracts at') y =
    if 1 ≤ y ∧ y ≤ 127 then { content := readContract (at' y), parityGood := true } else emptyContract := by
  rw [copiedContracts, Table.read_tabulate]
  obtain rfl | hy := Nat.eq_zero_or_pos y
  · rfl
  · by_cases hlt : y < 128
    · rw [if_pos hlt, if_neg (by omega), if_pos ⟨hy, by omega⟩]
    · rw [if_neg hlt, if_neg (by omega)]

theorem activeAt_copied (u : State) (at' : Nat → Stored Contract) (h : u.contracts.active = copiedContracts at') (y : Nat) :
    u.activeAt y = if 1 ≤ y ∧ y ≤ 127 then { content := readContract (at' y), parityGood := true } else emptyContract := by
  unfold State.activeAt
  rw [h, read_copiedContracts]

theorem activeAt_switchContracts (y : Nat) : s.switchContracts.activeAt y =
    if 1 ≤ y ∧ y ≤ 127 then { content := readContract (s.stagedAt y), parityGood := true } else emptyContract := by
  unfold State.switchContracts
  dsimp only
  rw [activeAt_of_same (same_foldl _ State.consequence same_consequence _) (by decide)]
  exact activeAt_copied _ s.stagedAt rfl y

theorem liveAt_switchContracts (y : Nat) : s.switchContracts.liveAt y =
    if 1 ≤ y ∧ y ≤ 127 then (s.liveAt y).switched (readContract (s.stagedAt y)) else s.liveAt y := by
  unfold State.switchContracts
  dsimp only
  rw [liveAt_consequences _ _ nodup_tenants]
  simp only [mem_tenants]
  have hlive : ∀ c : ContractStore, ((s.recordParity (badContracts .staged s.stagedAt)).setContracts c).liveAt y = s.liveAt y :=
    fun c => liveAt_of_same (same_recordParity s _) (by decide) y
  split
  · next hy =>
    rw [hlive, activeAt_copied _ s.stagedAt rfl y, if_pos hy]
  · exact hlive _

/-- R113: a close with a switch. -/
theorem closeInterval_switch (n : BitVec 32) (h : s.switchDue = true) :
    s.closeInterval n = (s.captureSummaries n).clearAccumulators.switchContracts.oweInterval n true := if_pos h

theorem closeInterval_noSwitch (n : BitVec 32) (h : s.switchDue = false) :
    s.closeInterval n = (s.captureSummaries n).clearAccumulators.oweInterval n false := if_neg (by rw [h]; decide)

theorem liveAt_closeInterval (n : BitVec 32) (y : Nat) : (s.closeInterval n).liveAt y =
    if s.switchDue = true ∧ 1 ≤ y ∧ y ≤ 127 then (s.liveAt y).cleared.switched (readContract (s.stagedAt y))
    else if y < 128 then (s.liveAt y).cleared else LiveRecord.idle := by
  have hclear := liveAt_clearAccumulators s n y
  have howe := fun (u : State) b => liveAt_of_same (same_oweInterval u n b) (by decide) y
  cases hdue : s.switchDue with
  | true =>
    rw [closeInterval_switch s n hdue, howe, liveAt_switchContracts, hclear]
    by_cases hy : 1 ≤ y ∧ y ≤ 127
    · rw [if_pos hy, if_pos (show y < 128 by omega), if_pos ⟨rfl, hy⟩]
      rfl
    · rw [if_neg hy, if_neg (show ¬ (true = true ∧ 1 ≤ y ∧ y ≤ 127) from fun h => hy h.2)]
  | false =>
    rw [closeInterval_noSwitch s n hdue, howe, hclear,
      if_neg (show ¬ (false = true ∧ 1 ≤ y ∧ y ≤ 127) from fun h => Bool.noConfusion h.1)]

theorem activeAt_closeInterval (n : BitVec 32) (y : Nat) : (s.closeInterval n).activeAt y =
    if s.switchDue = true then
      (if 1 ≤ y ∧ y ≤ 127 then { content := readContract (s.stagedAt y), parityGood := true } else emptyContract)
    else s.activeAt y := by
  have howe := fun (u : State) b => activeAt_of_same (same_oweInterval u n b) (by decide) y
  cases hdue : s.switchDue with
  | true => rw [closeInterval_switch s n hdue, howe, activeAt_switchContracts]; rfl
  | false => rw [closeInterval_noSwitch s n hdue, howe]; rfl

/-- R99, R100: the live records after a load or a live reset. -/
theorem liveAt_fresh {u : State} (v : State) (h : u.live = v.freshLive) (y : Nat) :
    u.liveAt y = if 1 ≤ y ∧ y ≤ 127 then freshRecord (v.activeAt y) else LiveRecord.idle := by
  unfold State.liveAt
  rw [h, State.freshLive, Table.read_tabulate]
  obtain rfl | hy := Nat.eq_zero_or_pos y
  · rfl
  · by_cases hlt : y < 128
    · rw [if_pos hlt, if_neg (by omega), if_pos ⟨hy, by omega⟩]
    · rw [if_neg hlt, if_neg (by omega)]

theorem loadedWith_live (filled : State) (answer : MemoryAnswer) : (s.loadedWith filled answer).live = filled.freshLive
    ∧ (s.loadedWith filled answer).contracts = filled.contracts := by
  have hfault : ∀ u : State, (u.recordFault .imageInvalid .none).live = u.live
      ∧ (u.recordFault .imageInvalid .none).contracts = u.contracts := fun u =>
    ⟨same_recordFault u _ _ .live (by decide), same_recordFault u _ _ .contracts (by decide)⟩
  unfold State.loadedWith
  dsimp only
  split
  · rw [(hfault _).1, (hfault _).2]
    exact ⟨rfl, rfl⟩
  · exact ⟨rfl, rfl⟩

end

/-! ### Credit (R85) -/

/-- R85 for one tenant: an IDLE record holds no credit, and a credit is within the Bmax of a contract of good parity. -/
def CreditWithin (y : Nat) (r : LiveRecord) (c : Stored Contract) : Prop :=
  (r.state = .idle → r.credit = 0) ∧ (1 ≤ y → c.parityGood = true → r.credit ≤ c.content.burstCap)

theorem creditLaw_iff (s : State) : CreditLaw s ↔ ∀ y, y ≤ 127 → CreditWithin y (s.liveAt y) (s.activeAt y) := Iff.rfl

theorem creditWithin_idle (y : Nat) (c : Stored Contract) : CreditWithin y LiveRecord.idle c :=
  ⟨fun _ => rfl, fun _ _ => Nat.zero_le _⟩

/-- R113, R114: the credit under a new contract, whatever the old one was. -/
theorem creditWithin_switched (y : Nat) {r : LiveRecord} (new : Contract) (h : r.state = .idle → r.credit = 0) :
    CreditWithin y (r.switched new) { content := new, parityGood := true } := by
  unfold CreditWithin LiveRecord.switched
  dsimp only
  by_cases hidle : r.state = .idle <;> by_cases hvalid : new.valid = true
  · simp [hidle, hvalid]
  · simp [hidle, hvalid, h hidle]
  · simp [hidle, hvalid]
  · simp [hidle, hvalid]

theorem creditWithin_fresh (y : Nat) (c : Stored Contract) : CreditWithin y (freshRecord c) c := by
  unfold freshRecord
  split
  · exact ⟨TenantState.noConfusion, fun _ _ => Nat.le_refl _⟩
  · exact creditWithin_idle y c

section
variable {s t : State}

theorem CreditLaw.of_reads (hs : CreditLaw s) (hlive : ∀ y, t.liveAt y = s.liveAt y)
    (hactive : ∀ y, t.activeAt y = s.activeAt y) : CreditLaw t := by
  intro y hy
  rw [hlive, hactive]
  exact hs y hy

theorem CreditLaw.frame (u v : State) (hframe : SameOutside answerBlocks u v) (hu : CreditLaw u) : CreditLaw v :=
  hu.of_reads (liveAt_of_same hframe (by decide)) (activeAt_of_same hframe (by decide))

theorem CreditLaw.of_sameButTicks (hs : CreditLaw s) (h : SameButTicks s t) (hactive : ∀ y, t.activeAt y = s.activeAt y) :
    CreditLaw t := by
  intro y hy
  obtain ⟨n, hn⟩ := h y
  rw [hn, hactive]
  exact hs y hy

theorem creditLaw_fresh (hlive : t.live = s.freshLive) (hcontracts : t.contracts.active = s.contracts.active) :
    CreditLaw t := by
  have hactive : ∀ y, t.activeAt y = s.activeAt y := fun y => by unfold State.activeAt; rw [hcontracts]
  rw [creditLaw_iff]
  intro y _
  rw [liveAt_fresh s hlive, hactive]
  split
  · exact creditWithin_fresh y _
  · exact creditWithin_idle y _

/-- R84, R89: an evaluation spends or refills credit within Bmax, or ends IDLE with none. -/
theorem creditWithin_evaluated (x : Nat) (epoch : Epoch) (h : CreditWithin x (s.liveAt x) (s.activeAt x)) :
    CreditWithin x (s.evaluated x epoch) (s.activeAt x) := by
  obtain ⟨hidle, hcap⟩ := h
  by_cases hstate : (s.liveAt x).state = .idle
  · rw [evaluated_of_idle s epoch hstate]
    exact ⟨hidle, hcap⟩
  · cases hc : s.contractRead x with
    | none =>
      rw [evaluated_of_none s epoch hstate hc]
      exact ⟨fun _ => rfl, fun _ _ => Nat.zero_le _⟩
    | some c =>
      obtain ⟨hgood, -, hcontent⟩ := contractRead_some s hc
      rw [evaluated_of_contract s epoch hstate hc]
      refine ⟨fun h => absurd h (nextStanding_ne_idle c _ _ _ _), fun h1 _ => ?_⟩
      rw [hcontent] at hcap ⊢
      exact nextCredit_le (hcap h1 hgood)

theorem creditLaw_tenantEvaluation (hs : CreditLaw s) (h : execTenantEvaluation s = .next t) : CreditLaw t := by
  have hactive := activeAt_of_same (changes_tenantEvaluation h) (by decide)
  unfold execTenantEvaluation at h
  split at h <;> obtain rfl := Host.Outcome.next.inj h
  · next pass x hpass hpoint =>
    intro y hy
    rw [hactive, liveAt_movePass, liveAt_putLive, liveAt_recordParity]
    split
    · next hyx => subst hyx; exact creditWithin_evaluated y _ (hs y hy)
    · exact hs y hy
  · exact hs

theorem creditLaw_curtailmentStep (hs : CreditLaw s) (h : execCurtailmentStep s = .next t) : CreditLaw t := by
  unfold execCurtailmentStep at h
  split at h
  · next x tr c _ =>
    have hstep : CreditLaw (s.curtailStep x tr c) := hs.of_sameButTicks (sameButTicks_curtailStep s x tr c)
      (activeAt_of_same (same_curtailStep s x tr c) (by decide))
    generalize s.curtailStep x tr c = u at h hstep
    dsimp only at h
    split at h <;> obtain rfl := Host.Outcome.next.inj h
    · exact CreditLaw.frame _ _ (same_arbitrate_answer _) (hstep.of_reads (liveAt_movePass u _) fun _ => rfl)
    · exact CreditLaw.frame _ _ (same_arbitrate_answer _) (hstep.of_reads
        (liveAt_of_same (same_completePass u) (by decide)) (activeAt_of_same (same_completePass u) (by decide)))
  · obtain rfl := Host.Outcome.next.inj h; exact hs

theorem creditLaw_intervalClose (hs : CreditLaw s) (h : execIntervalClose s = .next t) : CreditLaw t := by
  unfold execIntervalClose at h
  split at h <;> obtain rfl := Host.Outcome.next.inj h
  · next n _ =>
    rw [creditLaw_iff]
    intro y hy
    obtain ⟨hidle, hcap⟩ := hs y hy
    rw [liveAt_closeInterval, activeAt_closeInterval]
    split
    · next hdue => rw [if_pos hdue.1, if_pos hdue.2]; exact creditWithin_switched y _ hidle
    · next hdue =>
      rw [if_pos (by omega)]
      refine ⟨hidle, fun h1 hgood => ?_⟩
      rw [if_neg (fun h => hdue ⟨h, h1, hy⟩)] at hgood ⊢
      exact hcap h1 hgood
  · exact hs

theorem creditLaw_imageLoadEnd {elapsed : Nat} {answer : MemoryAnswer} (hs : CreditLaw s)
    (h : execImageLoadEnd elapsed answer s = .next t) : CreditLaw t := by
  have hwait : CreditLaw (s.elapse elapsed) := hs
  unfold execImageLoadEnd at h
  dsimp only at h
  generalize s.elapse elapsed = u at h hwait
  split at h <;> obtain rfl := Host.Outcome.next.inj h
  · have hloaded : ∀ filled, CreditLaw (u.loadedWith filled answer) := fun filled =>
      creditLaw_fresh (s := filled) (loadedWith_live u filled answer).1
        (congrArg ContractStore.active (loadedWith_live u filled answer).2)
    refine CreditLaw.frame _ _ (same_arbitrate_answer _) ?_
    cases hread : u.imageRead answer with
    | none => rw [endLoad_none u hread]; exact hloaded _
    | some m => rw [endLoad_some u hread]; exact hloaded _
  · exact hwait

/-- A request whose work leaves the live records and the active contracts, but for ticks-in-OVER. -/
theorem creditLaw_of_onRequest {row : RequestRow} {work : Request → State → State}
    (hwork : ∀ r u, CreditLaw u → CreditLaw (work r u)) (hs : CreditLaw s) (h : s.onRequest row work = .next t) :
    CreditLaw t := onRequest_keeps CreditLaw.frame (fun r u _ _ => hwork r u) hs h

theorem CreditLaw.answer {u : State} (hu : CreditLaw u) (r : Request) (status : Status) (data : List Byte) :
    CreditLaw (u.answer r status data) := CreditLaw.frame _ _ (SameOutside.mono (same_respond u r.origin _) (by decide)) hu

theorem CreditLaw.setContracts {u : State} (hu : CreditLaw u) (c : ContractStore) (hc : c.active = u.contracts.active) :
    CreditLaw (u.setContracts c) :=
  hu.of_reads (fun _ => rfl) fun y => by
    change Table.read emptyContract c.active y = _
    rw [hc]
    rfl

theorem creditLaw_writeStagedRequest (r : Request) (u : State) (hu : CreditLaw u) :
    CreditLaw (State.writeStagedRequest r u) := by
  unfold State.writeStagedRequest
  dsimp only
  split
  · exact hu.answer r _ _
  · split
    · exact hu.answer r _ _
    · refine CreditLaw.answer (hu.setContracts _ ?_) r _ _
      rfl

theorem creditLaw_restoreTenantRequest (r : Request) (u : State) (hu : CreditLaw u) :
    CreditLaw (State.restoreTenantRequest r u) := by
  unfold State.restoreTenantRequest
  dsimp only
  split
  · exact hu.answer r _ _
  · refine CreditLaw.answer ?_ r _ _
    exact hu.of_sameButTicks ((SameButTicks.refl u).of_live (u := u.putCurtail _ _) (fun _ => rfl) |>.putLive _ 0)
      (fun _ => rfl)

/-- R44, log 9: an upset of a contract leaves it with bad parity. -/
theorem creditLaw_strike (item : Upset) (hs : CreditLaw s) : CreditLaw (s.strike false item) := by
  cases item with
  | oatSlot key content =>
    exact hs.of_reads (liveAt_of_same (same_strike_oatSlot s false key content) (by decide))
      (activeAt_of_same (same_strike_oatSlot s false key content) (by decide))
  | rule n content =>
    exact hs.of_reads (liveAt_of_same (same_strike_rule s false n content) (by decide))
      (activeAt_of_same (same_strike_rule s false n content) (by decide))
  | active x content =>
    unfold State.strike
    dsimp only
    split
    · intro y hy
      obtain ⟨hidle, hcap⟩ := hs y hy
      refine ⟨hidle, fun h1 hgood => ?_⟩
      have hread := Table.read_write emptyContract s.contracts.active x y { content := content, parityGood := false }
      change (Table.read emptyContract (Table.write _ _ _ _) y).parityGood = true at hgood
      change _ ≤ (Table.read emptyContract (Table.write _ _ _ _) y).content.burstCap
      rw [hread] at hgood ⊢
      split at hgood
      · cases hgood
      · next hyx => rw [if_neg hyx]; exact hcap h1 hgood
    · exact hs
  | staged x content =>
    unfold State.strike
    dsimp only
    split <;> exact hs

end

end Sys2Proof.Machine

open Sys2Proof Sys2Proof.Machine

/-- Settles O55: of the commands that touch a live record or an active contract, each leaves R85's bounds tenant by tenant. -/
theorem stepKeepsTheCreditLaw : Obligations.StepKeepsTheCreditLaw := by
  intro c s t hupset hs h
  by_cases hchanges : Block.live ∈ c.changes ∨ Block.contracts ∈ c.changes
  case neg =>
    have hsame := exec_changes c h
    exact hs.of_reads (liveAt_of_same hsame fun hl => hchanges (.inl hl))
      (activeAt_of_same hsame fun hl => hchanges (.inr hl))
  cases c
  case powerOn => obtain rfl := Host.Outcome.next.inj h; exact creditLaw_restart s
  case resetFullStart =>
    cases hdue : s.mgmt.resetDue with
    | true =>
      rw [exec_resetFullStart_due s hdue] at h
      obtain rfl := Host.Outcome.next.inj h
      exact creditLaw_restart s
    | false =>
      rw [exec_resetFullStart_idle s hdue] at h
      obtain rfl := Host.Outcome.next.inj h
      exact hs
  case imageLoadEnd => exact creditLaw_imageLoadEnd hs h
  case tenantEvaluation => exact creditLaw_tenantEvaluation hs h
  case curtailmentStep => exact creditLaw_curtailmentStep hs h
  case intervalClose => exact creditLaw_intervalClose hs h
  case writeEntryStaged => exact creditLaw_of_onRequest creditLaw_writeStagedRequest hs h
  case commit | cancelCommit =>
    refine creditLaw_of_onRequest (fun r u hu => CreditLaw.answer (hu.setContracts _ ?_) r .ok []) hs h
    rfl
  case copyActiveToStaged =>
    refine creditLaw_of_onRequest (fun r u hu => ?_) hs h
    have hread : CreditLaw (u.recordParity (badContracts .active u.activeAt)) := hu.of_reads
      (liveAt_of_same (same_recordParity u _) (by decide)) (activeAt_of_same (same_recordParity u _) (by decide))
    have hcontracts : (u.recordParity (badContracts .active u.activeAt)).contracts = u.contracts :=
      same_recordParity u _ .contracts (by decide)
    refine CreditLaw.answer (hread.setContracts _ ?_) r .ok []
    rw [hcontracts]
  case restoreTenant => exact creditLaw_of_onRequest creditLaw_restoreTenantRequest hs h
  case resetLive =>
    exact creditLaw_of_onRequest (fun r u _ => (creditLaw_fresh (s := u) (t := u.liveReset) rfl rfl).answer r .ok []) hs h
  case storageUpset item parityToo =>
    obtain rfl := Host.Outcome.next.inj h
    cases parityToo with
    | true => exact absurd rfl (hupset item)
    | false => exact creditLaw_strike item hs
  all_goals exact absurd hchanges (by simp only [Instr.changes]; decide)
end

