-- ==== Sys2Proof/Proofs/Figures.lean ====
section
/-! PROOF. Sums, draws, demand, peaks and energy stay within their ranges, and the pool's record stays IDLE with nothing
counted (R69, R75, R79, R81, R91). -/

namespace Sys2Proof.Machine

/-! ### One record -/

/-- R69, R75, R79, R81: the figures of a live record are in range. -/
def FiguresWithin (r : LiveRecord) : Prop :=
  r.lastDrawA ≤ wattTop ∧ r.lastDrawB ≤ wattTop ∧ r.demand ≤ wattTop * 256 ∧ r.peakDemand ≤ wattTop
    ∧ r.peakDraw ≤ wattTop ∧ r.energy ≤ energyTop

/-- R91: the record of a tenant that is IDLE with nothing counted. -/
def NothingCounted (r : LiveRecord) : Prop :=
  r.state = .idle ∧ r.credit = 0 ∧ r.burstTicks = 0 ∧ r.overTicks = 0 ∧ r.minCredit = 0 ∧ r.feedOverA = false
    ∧ r.feedOverB = false

/-- Both laws for tenant `y`. -/
def RecordLaw (y : Nat) (r : LiveRecord) : Prop := FiguresWithin r ∧ (y = 0 → NothingCounted r)

theorem figuresWithin_idle : FiguresWithin LiveRecord.idle :=
  ⟨Nat.zero_le _, Nat.zero_le _, Nat.zero_le _, Nat.zero_le _, Nat.zero_le _, Nat.zero_le _⟩

theorem nothingCounted_idle : NothingCounted LiveRecord.idle := ⟨rfl, rfl, rfl, rfl, rfl, rfl, rfl⟩

theorem recordLaw_idle (y : Nat) : RecordLaw y LiveRecord.idle := ⟨figuresWithin_idle, fun _ => nothingCounted_idle⟩

theorem recordLaw_cleared {y : Nat} {r : LiveRecord} (h : RecordLaw y r) : RecordLaw y r.cleared := by
  obtain ⟨⟨hA, hB, hdemand, -, -, -⟩, hpool⟩ := h
  refine ⟨⟨hA, hB, hdemand, Nat.zero_le _, Nat.zero_le _, Nat.zero_le _⟩, fun hy => ?_⟩
  obtain ⟨hstate, hcredit, -, -, -, hoverA, hoverB⟩ := hpool hy
  exact ⟨hstate, hcredit, rfl, rfl, hcredit, hoverA, hoverB⟩

/-- R114: a switch changes no figure. -/
theorem figuresWithin_switched {r : LiveRecord} (new : Contract) (h : FiguresWithin r) : FiguresWithin (r.switched new) := by
  unfold LiveRecord.switched
  dsimp only
  (repeat' split) <;> exact h

theorem figuresWithin_fresh (c : Stored Contract) : FiguresWithin (freshRecord c) := by
  unfold freshRecord
  split <;> exact figuresWithin_idle

/-! ### An evaluation -/

/-- R80: the demand does not go past the draw. -/
theorem nextDemand_le {dm d k top : Nat} (hdm : dm ≤ top * 256) (hd : d ≤ top) : nextDemand dm d k ≤ top * 256 := by
  obtain h | h | h := lt_trichotomy dm (d * 256)
  · rw [nextDemand_of_lt k h]
    have hstep : (d * 256 - dm) / 2 ^ k ≤ d * 256 - dm := Nat.div_le_self _ _
    omega
  · rw [nextDemand_of_eq k h]
    exact hdm
  · rw [nextDemand_of_gt k h]
    omega

theorem figuresWithin_drawn {r : LiveRecord} {sumA sumB k : Nat} (h : FiguresWithin r) (hA : sumA ≤ wattTop)
    (hB : sumB ≤ wattTop) : FiguresWithin (r.drawn sumA sumB k) := by
  obtain ⟨-, -, hdemand, hpeakDemand, hpeakDraw, -⟩ := h
  have hdraw : draw sumA sumB ≤ wattTop := Nat.min_le_left _ _
  have hnext : nextDemand r.demand (draw sumA sumB) k ≤ wattTop * 256 := nextDemand_le hdemand hdraw
  have hwatts : nextDemand r.demand (draw sumA sumB) k / 256 ≤ wattTop := by omega
  exact ⟨hA, hB, hnext, max_le hpeakDemand hwatts, max_le hpeakDraw hdraw, Nat.min_le_left _ _⟩

section
variable (s : State)

/-- R58, R69: the sums of a set are in range. -/
def SumsWithin (a : AccSet) : Prop := ∀ f t, a.sum f t ≤ wattTop

theorem recordLaw_evaluated {x : Nat} (epoch : Epoch) (hsums : SumsWithin s.closing) (h : RecordLaw x (s.liveAt x)) :
    RecordLaw x (s.evaluated x epoch) := by
  obtain ⟨hfigures, hpool⟩ := h
  constructor
  · have hdrawn := figuresWithin_drawn (k := s.demandShift) hfigures (hsums .a x) (hsums .b x)
    obtain ⟨_, _, _, _, _, _, _, heval⟩ := evaluated_eq_drawn_flagged s x epoch
    rw [heval]
    exact hdrawn
  · intro hx
    obtain ⟨hstate, hcredit, hburst, hover, hmin, -, -⟩ := hpool hx
    rw [evaluated_of_idle s epoch hstate]
    refine ⟨hstate, hcredit, hburst, hover, ?_, rfl, rfl⟩
    change min (s.liveAt x).minCredit (s.liveAt x).credit = 0
    rw [hmin]
    exact Nat.zero_min _

end

/-! ### The accumulator sets -/

section
variable {a : AccSet}

theorem sumsWithin_cleared : SumsWithin AccSet.cleared := fun f t => by rw [sum_cleared]; exact Nat.zero_le _

theorem sumsWithin_charge (r : Resolution) (v : Nat) (h : SumsWithin a) : SumsWithin (a.charge r v) := by
  intro f t
  rw [sum_charge]
  split
  · exact Nat.min_le_left _ _
  · exact h f t

theorem sumsWithin_of_sums {b : AccSet} (h : SumsWithin a) (hA : b.sumA = a.sumA) (hB : b.sumB = a.sumB) :
    SumsWithin b := by
  intro f t
  have hf := h f t
  cases f
  · simpa only [AccSet.sum, hA] using hf
  · simpa only [AccSet.sum, hB] using hf

end

/-! ### The law of a state -/

/-- Both laws: the sums of the two sets, and every tenant's record. -/
def FigureLaw (s : State) : Prop := (SumsWithin s.filling ∧ SumsWithin s.closing) ∧ ∀ y, RecordLaw y (s.liveAt y)

theorem figureLaw_iff (s : State) : FigureLaw s ↔ FiguresBounded s ∧ PoolIdle s := by
  constructor
  · rintro ⟨⟨hfilling, hclosing⟩, hrecords⟩
    exact ⟨⟨fun f t => ⟨hfilling f t, hclosing f t⟩, fun t => (hrecords t).1⟩, (hrecords 0).2 rfl⟩
  · rintro ⟨⟨hsums, hrecords⟩, hpool⟩
    exact ⟨⟨fun f t => (hsums f t).1, fun f t => (hsums f t).2⟩, fun y => ⟨hrecords y, by rintro rfl; exact hpool⟩⟩

section
variable {s t : State}

theorem FigureLaw.of_records (hs : FigureLaw s) (hfilling : t.filling = s.filling) (hclosing : t.closing = s.closing)
    (hrecords : ∀ y, RecordLaw y (t.liveAt y)) : FigureLaw t := ⟨by rw [hfilling, hclosing]; exact hs.1, hrecords⟩

theorem FigureLaw.of_sums (hs : FigureLaw s) (hlive : ∀ y, t.liveAt y = s.liveAt y) (hfilling : SumsWithin t.filling)
    (hclosing : SumsWithin t.closing) : FigureLaw t := ⟨⟨hfilling, hclosing⟩, fun y => by rw [hlive]; exact hs.2 y⟩

theorem FigureLaw.of_same {l : List Block} (hs : FigureLaw s) (h : SameOutside l s t)
    (hl : ∀ b ∈ [Block.filling, .closing, .live], b ∉ l) : FigureLaw t := by
  have hfilling : t.filling = s.filling := h .filling (hl _ (by simp))
  have hclosing : t.closing = s.closing := h .closing (hl _ (by simp))
  exact hs.of_records hfilling hclosing fun y => by rw [liveAt_of_same h (hl _ (by simp))]; exact hs.2 y

theorem FigureLaw.frame (u v : State) (hframe : SameOutside answerBlocks u v) (hu : FigureLaw u) : FigureLaw v :=
  hu.of_same hframe (by decide)

theorem FigureLaw.arbitrate (hs : FigureLaw s) : FigureLaw s.arbitrate := hs.of_same (same_arbitrate s) (by decide)

theorem FigureLaw.answer (hs : FigureLaw s) (r : Request) (status : Status) (data : List Byte) :
    FigureLaw (s.answer r status data) := hs.of_same (same_respond s r.origin _) (by decide)

theorem FigureLaw.of_sameButTicks (hs : FigureLaw s) (h : SameButTicks s t) (hfilling : t.filling = s.filling)
    (hclosing : t.closing = s.closing) : FigureLaw t :=
  hs.of_records hfilling hclosing fun y => by
    obtain ⟨n, hn⟩ := h y
    rw [hn]
    exact hs.2 y

/-! ### Operations -/

/-- R8: an advance hands the filling set over and clears it. -/
theorem FigureLaw.advance (hs : FigureLaw s) (n : Epoch) : FigureLaw (s.advance n) := by
  obtain ⟨-, hclosing, hfilling, -⟩ := advance_spec s n
  refine hs.of_sums (liveAt_of_same (same_advance s n) (by decide)) ?_ ?_
  · rw [hfilling]; exact sumsWithin_cleared
  · rw [hclosing]; exact hs.1.1

theorem FigureLaw.measure (hs : FigureLaw s) (key v : Nat) : FigureLaw (s.measure key v) := by
  have hclosing : (s.measure key v).closing = s.closing := same_measure s key v .closing (by decide)
  refine hs.of_sums (liveAt_of_same (same_measure s key v) (by decide)) ?_ (hclosing ▸ hs.1.2)
  exact sumsWithin_charge _ _ (sumsWithin_of_sums hs.1.1 rfl rfl)

theorem FigureLaw.takeReadings (pdu : Nat) (readings : List (Nat × Nat)) :
    ∀ {s : State} (seen : List Nat), FigureLaw s → FigureLaw (State.takeReadings pdu s seen readings) := by
  induction readings with
  | nil => exact fun _ hs => hs
  | cons reading rest ih =>
    intro s seen hs
    obtain ⟨o, v⟩ := reading
    unfold State.takeReadings
    split
    · exact ih _ hs
    · exact ih _ (hs.measure _ _)

theorem FigureLaw.window (hs : FigureLaw s) (p position : Nat) (e : Epoch) (readings : List (Nat × Nat))
    (body : List Byte) : FigureLaw (s.window p position e readings body) := by
  unfold State.window
  split
  · exact hs
  · split
    · exact hs
    · split
      · split
        · exact hs
        · have hflagged : FigureLaw ((s.setFilling (s.filling.markPdu (p * 16 + position))).putPresence
              (p * 16 + position) { state := .present, missed := 0 }) :=
            hs.of_sums (fun _ => rfl) (sumsWithin_of_sums hs.1.1 rfl rfl) hs.1.2
          have htaken := hflagged.takeReadings (p * 16 + position) readings []
          unfold State.acceptSample
          dsimp only
          split
          · exact htaken.of_same (same_offerForward _ _) (by decide)
          · exact htaken
      · exact hs.of_same (same_recordFault s _ _) (by decide)

theorem FigureLaw.sweepOutlet (hs : FigureLaw s) (key : Nat) : FigureLaw (s.sweepOutlet key) := by
  have hfilling : (s.sweepOutlet key).filling = s.filling := same_sweepOutlet s key .filling (by decide)
  refine hs.of_sums (liveAt_of_same (same_sweepOutlet s key) (by decide)) (hfilling ▸ hs.1.1) ?_
  have hcharged : ∀ a, SumsWithin a → SumsWithin (a.markIncomplete (s.resolution key).tenant) := fun a ha =>
    sumsWithin_of_sums ha rfl rfl
  refine hcharged _ ?_
  split
  · exact sumsWithin_charge _ _ hs.1.2
  · exact hs.1.2

theorem figureLaw_fresh {u v : State} (hu : FigureLaw u) (hlive : t.live = v.freshLive) (hfilling : t.filling = u.filling)
    (hclosing : t.closing = u.closing) : FigureLaw t := by
  refine hu.of_records hfilling hclosing fun y => ?_
  rw [liveAt_fresh v hlive]
  split
  · exact ⟨figuresWithin_fresh _, fun hy => by omega⟩
  · exact recordLaw_idle y

/-! ### Commands -/

theorem figureLaw_time {c : Instr} {elapsed : Nat} {body : List Byte}
    (hc : c = .internalAdvance elapsed ∨ c = .lossExpiry elapsed ∨ c = .epoch elapsed body) (hs : FigureLaw s)
    (h : exec c s = .next t) : FigureLaw t := by
  have hwait : FigureLaw (s.elapse elapsed) := hs
  generalize hu : s.elapse elapsed = u at hwait
  obtain rfl | rfl | rfl := hc
  · change execInternalAdvance elapsed s = _ at h
    unfold execInternalAdvance at h
    simp only [hu] at h
    split at h <;> obtain rfl := Host.Outcome.next.inj h
    · exact (hwait.advance _).arbitrate
    · exact hwait
  · change execLossExpiry elapsed s = _ at h
    unfold execLossExpiry at h
    simp only [hu] at h
    split at h <;> obtain rfl := Host.Outcome.next.inj h
    · have hfallen : FigureLaw (u.setTimer { u.timer with mode := .fallback }) := hwait
      exact ((hfallen.advance _).of_same (same_recordFault _ _ _) (by decide)).arbitrate
    · exact hwait
  · change execEpoch elapsed body s = _ at h
    unfold execEpoch at h
    simp only [hu] at h
    split at h
    · obtain rfl := Host.Outcome.next.inj h; exact hwait
    · split at h
      · obtain rfl := Host.Outcome.next.inj h; exact hwait
      · split at h <;> obtain rfl := Host.Outcome.next.inj h
        · exact hwait.of_same (same_recordFault _ _ _) (by decide)
        · exact (hwait.advance _).arbitrate

theorem figureLaw_sample {p : Nat} {body : List Byte} (hs : FigureLaw s) (h : execSample p body s = .next t) :
    FigureLaw t := by
  have hheard : FigureLaw (s.wellFormedFrame p) := hs.of_same (same_wellFormedFrame s p) (by decide)
  unfold execSample at h
  dsimp only at h
  split at h
  · obtain rfl := Host.Outcome.next.inj h; exact hs
  · split at h <;> obtain rfl := Host.Outcome.next.inj h
    · exact (hheard.window _ _ _ _ _).arbitrate
    · exact hheard.arbitrate

theorem figureLaw_holdSweepOutlet (hs : FigureLaw s) (h : execHoldSweepOutlet s = .next t) : FigureLaw t := by
  unfold execHoldSweepOutlet at h
  split at h <;> obtain rfl := Host.Outcome.next.inj h
  · exact (hs.sweepOutlet _).of_same (same_movePass _ _) (by decide)
  · exact hs

theorem figureLaw_tenantEvaluation (hs : FigureLaw s) (h : execTenantEvaluation s = .next t) : FigureLaw t := by
  have hsame := changes_tenantEvaluation h
  refine hs.of_records (hsame .filling (by decide)) (hsame .closing (by decide)) ?_
  unfold execTenantEvaluation at h
  split at h <;> obtain rfl := Host.Outcome.next.inj h
  · intro y
    rw [liveAt_movePass, liveAt_putLive, liveAt_recordParity]
    split
    · next hyx => subst hyx; exact recordLaw_evaluated s _ hs.1.2 (hs.2 y)
    · exact hs.2 y
  · exact hs.2

theorem figureLaw_curtailmentStep (hs : FigureLaw s) (h : execCurtailmentStep s = .next t) : FigureLaw t := by
  unfold execCurtailmentStep at h
  split at h
  · next x tr c _ =>
    have hsame := same_curtailStep s x tr c
    have hstep : FigureLaw (s.curtailStep x tr c) := hs.of_sameButTicks (sameButTicks_curtailStep s x tr c)
      (hsame .filling (by decide)) (hsame .closing (by decide))
    generalize s.curtailStep x tr c = u at h hstep
    dsimp only at h
    split at h <;> obtain rfl := Host.Outcome.next.inj h
    · exact (hstep.of_same (same_movePass u _) (by decide)).arbitrate
    · exact (hstep.of_same (same_completePass u) (by decide)).arbitrate
  · obtain rfl := Host.Outcome.next.inj h; exact hs

theorem figureLaw_intervalClose (hs : FigureLaw s) (h : execIntervalClose s = .next t) : FigureLaw t := by
  have hsame := changes_intervalClose h
  refine hs.of_records (hsame .filling (by decide)) (hsame .closing (by decide)) ?_
  unfold execIntervalClose at h
  split at h <;> obtain rfl := Host.Outcome.next.inj h
  · intro y
    have hcleared := recordLaw_cleared (hs.2 y)
    rw [liveAt_closeInterval]
    split
    · next hy => exact ⟨figuresWithin_switched _ hcleared.1, fun h0 => by omega⟩
    · split
      · exact hcleared
      · exact recordLaw_idle y
  · exact hs.2

theorem figureLaw_imageLoadEnd {elapsed : Nat} {answer : MemoryAnswer} (hs : FigureLaw s)
    (h : execImageLoadEnd elapsed answer s = .next t) : FigureLaw t := by
  have hwait : FigureLaw (s.elapse elapsed) := hs
  unfold execImageLoadEnd at h
  dsimp only at h
  generalize s.elapse elapsed = u at h hwait
  split at h <;> obtain rfl := Host.Outcome.next.inj h
  · have hsame := same_endLoad u answer
    refine FigureLaw.arbitrate ?_
    cases hread : u.imageRead answer with
    | none =>
      rw [endLoad_none u hread] at hsame ⊢
      exact figureLaw_fresh hwait (loadedWith_live u _ answer).1 (hsame .filling (by decide)) (hsame .closing (by decide))
    | some m =>
      rw [endLoad_some u hread] at hsame ⊢
      exact figureLaw_fresh hwait (loadedWith_live u _ answer).1 (hsame .filling (by decide)) (hsame .closing (by decide))
  · exact hwait

theorem figureLaw_of_onRequest {row : RequestRow} {work : Request → State → State}
    (hwork : ∀ r u, FigureLaw u → FigureLaw (work r u)) (hs : FigureLaw s) (h : s.onRequest row work = .next t) :
    FigureLaw t := onRequest_keeps FigureLaw.frame (fun r u _ _ => hwork r u) hs h

theorem figureLaw_writeSetting {row : RequestRow} {effect : Nat → Nat → Nat → State → State}
    (heffect : ∀ i old v u, FigureLaw u → FigureLaw (effect i old v u)) (hs : FigureLaw s)
    (h : s.onRequest row (State.writeSettingWith effect) = .next t) : FigureLaw t :=
  figureLaw_of_onRequest (fun r u hu => writeSettingWith_establishes FigureLaw.frame (fun _ hu => hu)
    (fun i raw w _ hw => heffect i _ _ _ (hw.of_same (same_setSettings w _) (by decide))) r u hu) hs h

theorem figureLaw_epochSourceEffect (i old v : Nat) (u : State) (hu : FigureLaw u) :
    FigureLaw (epochSourceEffect i old v u) := by
  have hmoved : FigureLaw (u.setSource v) := hu
  unfold epochSourceEffect
  dsimp only
  split
  · exact hmoved.advance _
  · exact hmoved

theorem figureLaw_portDisableEffect (i old v : Nat) (u : State) (hu : FigureLaw u) :
    FigureLaw (portDisableEffect i old v u) := by
  have hlive := liveAt_of_same (same_portDisableEffect i old v u) (by decide)
  refine hu.of_sums hlive ?_ ?_
  all_goals
    unfold portDisableEffect
    split
  · exact hu.1.1
  · rw [(disablePort_spec u (i - 7)).2.2.2.1]; exact sumsWithin_of_sums hu.1.1 rfl rfl
  · exact hu.1.2
  · rw [(disablePort_spec u (i - 7)).2.2.2.2.1]; exact sumsWithin_of_sums hu.1.2 rfl rfl

theorem figureLaw_restoreTenantRequest (r : Request) (u : State) (hu : FigureLaw u) :
    FigureLaw (State.restoreTenantRequest r u) := by
  unfold State.restoreTenantRequest
  dsimp only
  split
  · exact hu.answer r _ _
  · refine FigureLaw.answer ?_ r _ _
    exact hu.of_sameButTicks ((SameButTicks.refl u).of_live (u := u.putCurtail _ _) (fun _ => rfl) |>.putLive _ 0) rfl rfl

theorem figureLaw_liveReset {u : State} : FigureLaw u.liveReset := by
  refine ⟨⟨sumsWithin_cleared, sumsWithin_cleared⟩, fun y => ?_⟩
  rw [liveAt_fresh u (u := u.liveReset) rfl]
  split
  · exact ⟨figuresWithin_fresh _, fun hy => by omega⟩
  · exact recordLaw_idle y

theorem figureLaw_restart (s : State) : FigureLaw s.restart :=
  (figureLaw_iff _).2 ⟨figuresBounded_restart s, poolIdle_restart s⟩

theorem figureLaw_exec (c : Instr) (hs : FigureLaw s) (h : exec c s = .next t) : FigureLaw t := by
  by_cases hchanges : Block.filling ∈ c.changes ∨ Block.closing ∈ c.changes ∨ Block.live ∈ c.changes
  case neg =>
    refine hs.of_same (exec_changes c h) fun b hb hmem => hchanges ?_
    simp only [List.mem_cons, List.not_mem_nil, or_false] at hb
    obtain rfl | rfl | rfl := hb
    · exact .inl hmem
    · exact .inr (.inl hmem)
    · exact .inr (.inr hmem)
  cases c
  case powerOn => obtain rfl := Host.Outcome.next.inj h; exact figureLaw_restart s
  case resetFullStart =>
    cases hdue : s.mgmt.resetDue with
    | true =>
      rw [exec_resetFullStart_due s hdue] at h
      obtain rfl := Host.Outcome.next.inj h
      exact figureLaw_restart s
    | false =>
      rw [exec_resetFullStart_idle s hdue] at h
      obtain rfl := Host.Outcome.next.inj h
      exact hs
  case imageLoadEnd => exact figureLaw_imageLoadEnd hs h
  case internalAdvance => exact figureLaw_time (body := []) (.inl rfl) hs h
  case lossExpiry => exact figureLaw_time (body := []) (.inr (.inl rfl)) hs h
  case epoch => exact figureLaw_time (.inr (.inr rfl)) hs h
  case holdSweepOutlet => exact figureLaw_holdSweepOutlet hs h
  case tenantEvaluation => exact figureLaw_tenantEvaluation hs h
  case curtailmentStep => exact figureLaw_curtailmentStep hs h
  case intervalClose => exact figureLaw_intervalClose hs h
  case sample => exact figureLaw_sample hs h
  case writeEpochSource elapsed => exact figureLaw_writeSetting (s := s.elapse elapsed) figureLaw_epochSourceEffect hs h
  case portDisable => exact figureLaw_writeSetting figureLaw_portDisableEffect hs h
  case restoreTenant => exact figureLaw_of_onRequest figureLaw_restoreTenantRequest hs h
  case resetLive => exact figureLaw_of_onRequest (fun r u _ => figureLaw_liveReset.answer r .ok []) hs h
  all_goals exact absurd hchanges (by simp only [Instr.changes]; decide)

end

end Sys2Proof.Machine

open Sys2Proof Sys2Proof.Machine

/-- Settles O56: no evaluation takes a figure out of its range or counts for the pool, and the sums saturate. -/
theorem stepKeepsFiguresBoundedAndThePoolIdle : Obligations.StepKeepsFiguresBoundedAndThePoolIdle := by
  intro s t hfigures hpool h
  exact (figureLaw_iff t).1 (step_keeps (fun _ _ hu => hu) (fun c _ _ hu hv => figureLaw_exec c hu hv)
    ((figureLaw_iff s).2 ⟨hfigures, hpool⟩) h)
end

