-- ==== Sys2Proof/Proofs/CurtailmentLaws.lean ====
section
/-! PROOF. One curtailment entry per outlet, one pending entry per tenant, exact due lists and an exact owed list (R119, R120,
R128, R137): what each operation on the table keeps of the two laws. -/

namespace Sys2Proof.Machine

/-! ### The two laws, entry by entry -/

/-- R128: a slot's content belongs in port `p`'s due list. -/
def dueOn (p : Nat) : Option CurtailEntry → Bool
  | some e => e.pending && !e.sent && decide (keyPort e.outlet = p)
  | none => false

/-- R137: a slot's content belongs in the owed list. -/
def owesResult : Option CurtailEntry → Bool
  | some e => e.resultOwed
  | none => false

theorem dueOn_iff (p : Nat) (o : Option CurtailEntry) : dueOn p o = true ↔
    ∃ e, o = some e ∧ e.pending = true ∧ e.sent = false ∧ keyPort e.outlet = p := by
  cases o <;> simp [dueOn, and_assoc]

theorem owesResult_iff (o : Option CurtailEntry) : owesResult o = true ↔ ∃ e, o = some e ∧ e.resultOwed = true := by
  cases o <;> simp [owesResult]

theorem curtailLists_iff (s : State) : CurtailLists s ↔ (∀ n, 64 ≤ n → s.entryAt n = none)
    ∧ (∀ p, (s.dueAt p).Nodup ∧ ∀ n, n ∈ s.dueAt p ↔ dueOn p (s.entryAt n) = true)
    ∧ s.curtail.owed.Nodup ∧ ∀ n, n ∈ s.curtail.owed ↔ owesResult (s.entryAt n) = true := by
  simp only [dueOn_iff, owesResult_iff]
  exact Iff.rfl

/-- An entry may be gone or changed, but stays its outlet's and its tenant's, and has not become pending. -/
def Refines (o o' : Option CurtailEntry) : Prop :=
  ∀ e', o' = some e' → ∃ e, o = some e ∧ e'.outlet = e.outlet ∧ e'.tenant = e.tenant ∧ (e'.pending = true → e.pending = true)

theorem Refines.refl (o : Option CurtailEntry) : Refines o o := fun e he => ⟨e, he, rfl, rfl, fun h => h⟩

theorem Refines.none (o : Option CurtailEntry) : Refines o none := fun _ h => by cases h

theorem Refines.of_map {o : Option CurtailEntry} {f : CurtailEntry → CurtailEntry}
    (hf : ∀ e, (f e).outlet = e.outlet ∧ (f e).tenant = e.tenant ∧ ((f e).pending = true → e.pending = true)) :
    Refines o (o.map f) := by
  intro e' he'
  obtain ⟨e, he, rfl⟩ := Option.map_eq_some_iff.1 he'
  exact ⟨e, he, hf e⟩

/-- What an operation on the table keeps: R120's laws, and the exactness of the lists. -/
structure KeepsCurtail (s t : State) : Prop where
  laws : CurtailLaws s → CurtailLaws t
  lists : CurtailLists s → CurtailLists t

namespace KeepsCurtail

variable {s t u : State}

theorem refl (s : State) : KeepsCurtail s s := ⟨fun h => h, fun h => h⟩

theorem trans (h : KeepsCurtail s t) (k : KeepsCurtail t u) : KeepsCurtail s u :=
  ⟨fun hs => k.laws (h.laws hs), fun hs => k.lists (h.lists hs)⟩

/-- The laws read the curtailment unit alone. -/
theorem of_curtail (h : t.curtail = s.curtail) : KeepsCurtail s t := by
  refine ⟨curtailLaws_congr h, fun hs => ?_⟩
  unfold CurtailLists State.dueAt State.entryAt at hs ⊢
  rw [h]
  exact hs

theorem of_same {l : List Block} (h : SameOutside l s t) (hl : Block.curtail ∉ l) : KeepsCurtail s t :=
  of_curtail (h .curtail hl)

theorem laws_of_refines (h : ∀ n, n < 64 → Refines (s.entryAt n) (t.entryAt n)) (hs : CurtailLaws s) : CurtailLaws t := by
  intro m n e' f' hm hn he' hf'
  obtain ⟨e, he, hkey, htenant, hpending⟩ := h m hm e' he'
  obtain ⟨f, hf, hkeyf, htenantf, hpendingf⟩ := h n hn f' hf'
  obtain ⟨hone, hpend⟩ := hs m n e f hm hn he hf
  refine ⟨fun hk => hone (by rw [← hkey, ← hkeyf, hk]), fun ht hpe hpf => ?_⟩
  exact hpend (by rw [← htenant, ← htenantf, ht]) (hpending hpe) (hpendingf hpf)

/-- Entries changed in ways that neither list sees. -/
theorem of_entries (hrefines : ∀ n, n < 64 → Refines (s.entryAt n) (t.entryAt n))
    (hbeyond : ∀ n, 64 ≤ n → s.entryAt n = none → t.entryAt n = none)
    (hdue : ∀ p n, dueOn p (t.entryAt n) = dueOn p (s.entryAt n))
    (howes : ∀ n, owesResult (t.entryAt n) = owesResult (s.entryAt n)) (hdueAt : ∀ p, t.dueAt p = s.dueAt p)
    (howed : t.curtail.owed = s.curtail.owed) : KeepsCurtail s t := by
  refine ⟨laws_of_refines hrefines, fun hs => ?_⟩
  rw [curtailLists_iff] at hs ⊢
  obtain ⟨hnone, hdues, hnodup, howeds⟩ := hs
  refine ⟨fun n hn => hbeyond n hn (hnone n hn), fun p => ?_, by rw [howed]; exact hnodup, fun n => ?_⟩
  · rw [hdueAt]
    exact ⟨(hdues p).1, fun n => by rw [hdue]; exact (hdues p).2 n⟩
  · rw [howed, howes]
    exact howeds n

/-- The lists after a change at one slot: each holds what it held of the others, and the slot as its new content says. -/
theorem lists_of_slot {slot : Nat} {o : Option CurtailEntry} (hs : CurtailLists s)
    (hslot : 64 ≤ slot → o = none) (hentry : ∀ n, t.entryAt n = if n = slot then o else s.entryAt n)
    (hdue : ∀ p, (t.dueAt p).Nodup ∧ ∀ n, n ∈ t.dueAt p ↔ if n = slot then dueOn p o = true else n ∈ s.dueAt p)
    (howed : t.curtail.owed.Nodup ∧ ∀ n, n ∈ t.curtail.owed ↔ if n = slot then owesResult o = true else n ∈ s.curtail.owed) :
    CurtailLists t := by
  rw [curtailLists_iff] at hs ⊢
  obtain ⟨hnone, hdues, -, howeds⟩ := hs
  refine ⟨fun n hn => ?_, fun p => ⟨(hdue p).1, fun n => ?_⟩, howed.1, fun n => ?_⟩
  · rw [hentry]
    split
    · next h => exact hslot (h ▸ hn)
    · exact hnone n hn
  · rw [(hdue p).2, hentry]
    split
    · exact Iff.rfl
    · exact (hdues p).2 n
  · rw [howed.2, hentry]
    split
    · exact Iff.rfl
    · exact howeds n

/-! #### Lists that one slot joins or leaves -/

section
variable {l : List Nat} {slot : Nat} {b : Bool}

/-- The list without the slot. -/
theorem leaves (h : l.Nodup) : (l.filter (fun n => decide (n ≠ slot))).Nodup
    ∧ ∀ n, n ∈ l.filter (fun n => decide (n ≠ slot)) ↔ if n = slot then false = true else n ∈ l := by
  refine ⟨h.filter _, fun n => ?_⟩
  by_cases hn : n = slot <;> simp [hn]

/-- The list with the slot at its end. -/
theorem joins (h : l.Nodup) (hslot : slot ∉ l) : (l ++ [slot]).Nodup
    ∧ ∀ n, n ∈ l ++ [slot] ↔ if n = slot then true = true else n ∈ l := by
  refine ⟨h.append (List.nodup_singleton _) (by simpa using hslot), fun n => ?_⟩
  by_cases hn : n = slot <;> simp [hn]

/-- The list as it is, where it already says what the slot's new content does. -/
theorem stays (h : l.Nodup) (hslot : slot ∈ l ↔ b = true) : l.Nodup
    ∧ ∀ n, n ∈ l ↔ if n = slot then b = true else n ∈ l := by
  refine ⟨h, fun n => ?_⟩
  by_cases hn : n = slot
  · rw [if_pos hn, hn]; exact hslot
  · rw [if_neg hn]

end

/-! #### What the lists say of a slot -/

section
variable {slot : Nat} {e : CurtailEntry}

theorem lt_of_entry (hs : CurtailLists s) (he : s.entryAt slot = some e) : slot < 64 := by
  by_contra h
  rw [hs.1 slot (by omega)] at he
  cases he

theorem mem_due_iff (hs : CurtailLists s) (p : Nat) : slot ∈ s.dueAt p ↔ dueOn p (s.entryAt slot) = true :=
  (((curtailLists_iff s).1 hs).2.1 p).2 slot

theorem mem_owed_iff (hs : CurtailLists s) : slot ∈ s.curtail.owed ↔ owesResult (s.entryAt slot) = true :=
  ((curtailLists_iff s).1 hs).2.2.2 slot

theorem nodup_due (hs : CurtailLists s) (p : Nat) : (s.dueAt p).Nodup := (hs.2.1 p).1

theorem nodup_owed (hs : CurtailLists s) : s.curtail.owed.Nodup := hs.2.2.1

theorem dueOn_of_not_pending (p : Nat) (h : e.pending = false) : dueOn p (some e) = false := by simp [dueOn, h]

theorem dueOn_of_sent (p : Nat) (h : e.sent = true) : dueOn p (some e) = false := by simp [dueOn, h]

end

/-! #### One entry changed -/

section
variable {slot : Nat} {e : CurtailEntry}

theorem refines_slot {o : Option CurtailEntry} (ho : Refines (s.entryAt slot) o)
    (hentry : ∀ n, t.entryAt n = if n = slot then o else s.entryAt n) (n : Nat) :
    Refines (s.entryAt n) (t.entryAt n) := by
  rw [hentry]
  split
  · next h => rw [h]; exact ho
  · exact .refl _

/-- An entry changed in a way that neither list sees. -/
theorem putEntry {e' : CurtailEntry} (he : s.entryAt slot = some e) (hrefines : Refines (some e) (some e'))
    (hdue : ∀ p, dueOn p (some e') = dueOn p (some e)) (howes : e'.resultOwed = e.resultOwed) :
    KeepsCurtail s (s.putEntry slot e') := by
  have hentry := entryAt_putEntry s slot e'
  refine of_entries (fun n _ => refines_slot (he ▸ hrefines) hentry n) (fun n hn hnone => ?_) (fun p n => ?_) (fun n => ?_)
    (dueAt_putEntry s slot e') rfl
  all_goals
    rw [hentry]
    split
  · next h => rw [h, he] at hnone; cases hnone
  · exact hnone
  · next h => rw [h, he, hdue]
  · rfl
  · next h => rw [h, he]; exact howes
  · rfl

/-- R137: an entry that is not pending leaves the table, and the owed list with it. -/
theorem removeEntry (he : ∀ e, s.entryAt slot = some e → e.pending = false) : KeepsCurtail s (s.removeEntry slot) := by
  have hentry := entryAt_removeEntry s slot
  refine ⟨laws_of_refines fun n _ => refines_slot (.none _) hentry n, fun hs => ?_⟩
  refine lists_of_slot hs (fun _ => rfl) hentry (fun p => ?_) (leaves (nodup_owed hs))
  rw [dueAt_removeEntry]
  refine stays (b := false) (nodup_due hs p) ?_
  rw [mem_due_iff hs]
  cases hslot : s.entryAt slot with
  | none => rfl
  | some e => rw [dueOn_of_not_pending p (he e hslot)]

/-- R132, R133, R135: a sent command ends with a result. -/
theorem recordResult (he : s.entryAt slot = some e) (hpending : e.pending = true) (hsent : e.sent = true)
    {e' : CurtailEntry} (hkey : e'.outlet = e.outlet) (htenant : e'.tenant = e.tenant) (hended : e'.pending = false)
    (howes : e'.resultOwed = e.resultOwed) : KeepsCurtail s (s.recordResult slot e') := by
  have hentry := entryAt_recordResult s slot e'
  have hresult : s.resultEntry e' = none ∧ s.masked .curtail = true ∧ e'.stage = .done
      ∨ s.resultEntry e' = some { e' with resultOwed := e'.resultOwed || !s.masked .curtail }
        ∧ ¬ (s.masked .curtail = true ∧ e'.stage = .done) := by
    unfold State.resultEntry
    split
    · next h => exact .inl ⟨rfl, h⟩
    · next h => exact .inr ⟨rfl, h⟩
  have hnotDue : ∀ p, dueOn p (s.resultEntry e') = false := by
    intro p
    obtain ⟨h, -⟩ | ⟨h, -⟩ := hresult
    · rw [h]; rfl
    · rw [h]; exact dueOn_of_not_pending p hended
  refine ⟨laws_of_refines fun n _ => refines_slot ?_ hentry n, fun hs => ?_⟩
  · obtain ⟨h, -⟩ | ⟨h, -⟩ := hresult
    · rw [h]; exact .none _
    · rw [h, he]
      intro f hf
      cases hf
      exact ⟨e, rfl, hkey, htenant, fun _ => hpending⟩
  · refine lists_of_slot hs (fun h => absurd (lt_of_entry hs he) (by omega)) hentry (fun p => ?_) ?_
    · rw [dueAt_recordResult]
      refine stays (nodup_due hs p) ?_
      rw [mem_due_iff hs, he, dueOn_of_sent p hsent, hnotDue]
    · have hmem : slot ∈ s.curtail.owed ↔ e'.resultOwed = true := by rw [mem_owed_iff hs, he, howes]; rfl
      rw [owed_recordResult]
      obtain ⟨h, hmasked, hdone⟩ | ⟨h, hkept⟩ := hresult
      · rw [if_pos hmasked, if_pos hdone, h]
        exact leaves (nodup_owed hs)
      · rw [h]
        cases hmasked : s.masked .curtail with
        | true =>
          rw [if_pos rfl, if_neg fun hd => hkept ⟨hmasked, hd⟩]
          exact stays (nodup_owed hs) (by rw [hmem]; simp [owesResult])
        | false =>
          rw [if_neg (by decide)]
          split
          · next hin => exact stays (nodup_owed hs) (by simp [hin, owesResult])
          · next hout =>
            have := joins (nodup_owed hs) hout
            simpa [owesResult] using this

/-- R135: a sent command that has timed out becomes due again or is given up. -/
theorem timeOut (he : s.entryAt slot = some e) (hpending : e.pending = true) (hsent : e.sent = true)
    {e' : CurtailEntry} (hkey : e'.outlet = e.outlet) (htenant : e'.tenant = e.tenant) (hpending' : e'.pending = true)
    (howes : e'.resultOwed = e.resultOwed) : KeepsCurtail s (s.timeOut slot e') := by
  unfold State.timeOut
  split
  · have hentry : ∀ n, ((s.putEntry slot { e' with sent := false, remaining := 0 }).joinDue (keyPort e'.outlet) slot).entryAt n
        = if n = slot then some { e' with sent := false, remaining := 0 } else s.entryAt n := fun n => by
      rw [entryAt_joinDue, entryAt_putEntry]
    refine ⟨laws_of_refines fun n _ => refines_slot ?_ hentry n, fun hs => ?_⟩
    · rw [he]
      intro f hf
      cases hf
      exact ⟨e, rfl, hkey, htenant, fun _ => hpending⟩
    · refine lists_of_slot hs (fun h => absurd (lt_of_entry hs he) (by omega)) hentry (fun p => ?_) ?_
      · have hout : slot ∉ s.dueAt p := by rw [mem_due_iff hs, he, dueOn_of_sent p hsent]; exact Bool.false_ne_true
        have hnow : dueOn p (some { e' with sent := false, remaining := 0 }) = decide (keyPort e'.outlet = p) := by
          change (e'.pending && !false && _) = _
          rw [hpending']; rfl
        rw [dueAt_joinDue, dueAt_putEntry, dueAt_putEntry, hnow]
        split
        · next hp => subst hp; simpa using joins (nodup_due hs _) hout
        · next hp => exact stays (nodup_due hs p) (by simp [hout, Ne.symm hp])
      · change s.curtail.owed.Nodup ∧ ∀ n, n ∈ s.curtail.owed ↔ _
        refine stays (nodup_owed hs) ?_
        rw [mem_owed_iff hs, he]
        simp [owesResult, howes]
  · exact recordResult he hpending hsent hkey htenant rfl howes

end

/-! #### The ages of an advance and the loss of a port -/

theorem ageEntry (s : State) (slot : Nat) : KeepsCurtail s (s.ageEntry slot) := by
  unfold State.ageEntry
  split
  · next e he =>
    split
    · next hactive =>
      obtain ⟨hpending, hsent⟩ := Bool.and_eq_true_iff.1 hactive
      dsimp only
      split
      · exact timeOut he hpending hsent rfl rfl hpending rfl
      · refine putEntry he (fun f hf => ?_) (fun p => ?_) rfl
        · cases hf
          exact ⟨e, rfl, rfl, rfl, fun h => h⟩
        · rw [dueOn_of_sent p hsent]
          exact dueOn_of_sent p hsent
    · exact refl s
  · exact refl s

theorem foldl (f : State → Nat → State) (hf : ∀ u n, KeepsCurtail u (f u n)) (ns : List Nat) (s : State) :
    KeepsCurtail s (ns.foldl f s) := by
  induction ns generalizing s with
  | nil => exact refl s
  | cons n rest ih => exact (hf s n).trans (ih _)

theorem ageCommands (s : State) : KeepsCurtail s s.ageCommands := foldl _ ageEntry _ s

/-- R136: a pending command lost with its port becomes UNCONFIRMED. -/
theorem entryAfterLoss_pending (s : State) (p : Nat) (e : CurtailEntry) (h : (s.entryAfterLoss p e).pending = true) :
    e.pending = true := by
  unfold State.entryAfterLoss at h
  split at h
  · cases h
  · exact h

theorem refines_loss (s : State) (p : Nat) (o : Option CurtailEntry) : Refines o (o.map (s.entryAfterLoss p)) := by
  refine Refines.of_map fun e => ⟨?_, ?_, entryAfterLoss_pending s p e⟩
  all_goals unfold State.entryAfterLoss; split <;> rfl

/-- R136, R137: what a port's loss makes of one entry, for the lists. -/
theorem loseEntry_lists {p slot : Nat} {e : CurtailEntry} (hslot : slot < 64) (he : s.entryAt slot = some e)
    (hs : CurtailLists s) (hlost : e.pending = true ∧ keyPort e.outlet = p) :
    CurtailLists (State.loseEntry p s slot) := by
  have hon : s.pendingOn p slot = true := by simp [State.pendingOn, hslot, he, hlost]
  have hentry : ∀ n, (State.loseEntry p s slot).entryAt n =
      if n = slot then some (s.entryAfterLoss p e) else s.entryAt n := by
    intro n
    rw [entryAt_loseEntry]
    split
    · next hn => rw [hn, he]; rfl
    · rfl
  have hafter : s.entryAfterLoss p e =
      { e with stage := .unconfirmed, sent := false, remaining := 0, resultOwed := e.resultOwed || !s.masked .curtail } := by
    unfold State.entryAfterLoss
    rw [if_pos hlost]
  refine lists_of_slot hs (fun h => absurd hslot (by omega)) hentry (fun q => ?_) ?_
  · rw [dueAt_loseEntry s p slot q hslot, hafter, dueOn_of_not_pending q rfl]
    split
    · next hq => rw [hq.1]; exact leaves (nodup_due hs p)
    · next hq =>
      refine stays (nodup_due hs q) ?_
      have hqp : ¬ keyPort e.outlet = q := fun h => hq ⟨by rw [← h, hlost.2], hon⟩
      rw [mem_due_iff hs, he]
      simp [dueOn, hqp]
  · rw [owed_loseEntry s p slot hslot, hon, if_pos rfl, hafter]
    have hmem : slot ∈ s.curtail.owed ↔ e.resultOwed = true := by rw [mem_owed_iff hs, he]; rfl
    unfold owe
    cases hmasked : s.masked .curtail with
    | true =>
      rw [if_pos rfl]
      exact stays (nodup_owed hs) (by rw [hmem]; simp [owesResult])
    | false =>
      rw [if_neg (by decide)]
      by_cases hin : slot ∈ s.curtail.owed
      · simpa [hin, owesResult] using stays (b := true) (nodup_owed hs) (by simp [hin])
      · simpa [hin, owesResult] using joins (nodup_owed hs) hin

theorem loseEntry (p : Nat) {slot : Nat} (hslot : slot < 64) (s : State) : KeepsCurtail s (State.loseEntry p s slot) := by
  refine ⟨laws_of_refines fun n _ => ?_, fun hs => ?_⟩
  · rw [entryAt_loseEntry]
    split
    · exact refines_loss s p _
    · exact .refl _
  · cases he : s.entryAt slot with
    | none =>
      have hidle : State.loseEntry p s slot = s := by simp only [State.loseEntry, he]
      rw [hidle]; exact hs
    | some e =>
      by_cases hlost : e.pending = true ∧ keyPort e.outlet = p
      · exact loseEntry_lists hslot he hs hlost
      · have hidle : State.loseEntry p s slot = s := by
          simp only [State.loseEntry, he]
          exact if_neg (by simpa using hlost)
        rw [hidle]; exact hs

theorem losePending (s : State) (p : Nat) : KeepsCurtail s (s.losePending p) := by
  have hfold : ∀ ns : List Nat, (∀ n ∈ ns, n < 64) → ∀ u, KeepsCurtail u (ns.foldl (State.loseEntry p) u) := by
    intro ns
    induction ns with
    | nil => exact fun _ u => refl u
    | cons n rest ih =>
      intro hns u
      obtain ⟨hn, hrest⟩ := List.forall_mem_cons.1 hns
      exact (loseEntry p hn u).trans (ih hrest _)
  exact hfold _ (fun n hn => List.mem_range.1 hn) s

theorem losePort (s : State) (p : Nat) : KeepsCurtail s (s.losePort p) :=
  (of_same (same_putPort_all s p _) (by decide)).trans (losePending _ p)

theorem signalPort (n : Epoch) (s : State) (p : Nat) : KeepsCurtail s (State.signalPort n s p) := by
  have hcounted : KeepsCurtail s (s.putPort p ((s.port p).advanced n)) := of_same (same_putPort_all s p _) (by decide)
  unfold State.signalPort
  dsimp only
  split
  · exact hcounted.trans (losePort _ p)
  · exact hcounted

theorem advance (s : State) (n : Epoch) : KeepsCurtail s (s.advance n) := by
  have hhanded : ∀ tm a b, KeepsCurtail s (((s.setTimer tm).setClosing a).setFilling b) := fun _ _ _ => of_curtail rfl
  exact ((hhanded _ _ _).trans (ageCommands _)).trans (foldl _ (signalPort n) _ _)

theorem disablePort (s : State) (p : Nat) : KeepsCurtail s (s.disablePort p) := by
  unfold State.disablePort
  dsimp only
  generalize hc : ((((s.putPort p Port.initial).setPresence _).setReadings _).setFilling _).setClosing _ = cleared
  have hcleared : KeepsCurtail s cleared := of_curtail (by rw [← hc]; rfl)
  have hlost := hcleared.trans (losePending cleared p)
  split
  · split
    · exact hlost.trans (of_same (same_setMgmt _ _) (by decide))
    · exact hlost
  · exact hlost

/-! #### A SWITCH started, a result handed back, debts dropped -/

/-- R129: the head of a due list is sent. -/
theorem startSwitch {p slot : Nat} {rest : List Nat} {e : CurtailEntry} (hhead : s.dueAt p = slot :: rest)
    (he : s.entryAt slot = some e) : KeepsCurtail s (s.startSwitch p slot e) := by
  have hstarted : ∀ tag timeout, Refines (some e) (some (e.started tag timeout)) := by
    intro tag timeout f hf
    cases hf
    exact ⟨e, rfl, rfl, rfl, fun h => h⟩
  have hentry : ∀ n, (s.startSwitch p slot e).entryAt n =
      if n = slot then some (e.started s.curtail.tagCounter s.commandTimeout) else s.entryAt n := fun n =>
    (entryAt_leaveDue _ p slot n).trans (entryAt_putEntry s slot _ n)
  have hdueAt : ∀ q, (s.startSwitch p slot e).dueAt q =
      if q = p then (s.dueAt p).filter (fun n => decide (n ≠ slot)) else s.dueAt q := fun q =>
    dueAt_leaveDue (s.putEntry slot (e.started s.curtail.tagCounter s.commandTimeout)) p slot q
  refine ⟨laws_of_refines fun n _ => refines_slot (he ▸ hstarted _ _) hentry n, fun hs => ?_⟩
  refine lists_of_slot hs (fun h => absurd (lt_of_entry hs he) (by omega)) hentry (fun q => ?_) ?_
  · rw [hdueAt, dueOn_of_sent q rfl]
    split
    · next hq => subst hq; exact leaves (nodup_due hs q)
    · next hq =>
      refine stays (nodup_due hs q) ?_
      have hin : slot ∈ s.dueAt p := by rw [hhead]; exact List.mem_cons_self
      obtain ⟨f, hf, -, -, hport⟩ := ((hs.2.1 p).2 slot).1 hin
      rw [he] at hf
      cases hf
      rw [mem_due_iff hs, he]
      simp [dueOn, hport, Ne.symm hq]
  · change s.curtail.owed.Nodup ∧ ∀ n, n ∈ s.curtail.owed ↔ _
    exact stays (nodup_owed hs) (by rw [mem_owed_iff hs, he]; exact Iff.rfl)

/-- R137, R150: a reported result is owed no more. -/
theorem handBack (s : State) (slot : Nat) : KeepsCurtail s (s.handBack slot) := by
  unfold State.handBack
  split
  · next e he =>
    split
    · next hdone => exact removeEntry fun f hf => by rw [he] at hf; cases hf; simp [CurtailEntry.pending, hdone]
    · have hentry := entryAt_putEntry s slot { e with resultOwed := false }
      refine ⟨laws_of_refines (t := State.setCurtail _ _) fun n _ => refines_slot ?_ hentry n, fun hs => ?_⟩
      · rw [he]
        intro f hf
        cases hf
        exact ⟨e, rfl, rfl, rfl, fun h => h⟩
      · refine lists_of_slot (t := State.setCurtail _ _) hs (fun h => absurd (lt_of_entry hs he) (by omega)) hentry
          (fun p => ?_) (leaves (nodup_owed hs))
        change (s.dueAt p).Nodup ∧ ∀ n, n ∈ s.dueAt p ↔ _
        refine stays (nodup_due hs p) ?_
        rw [mem_due_iff hs, he]
        exact Iff.rfl
  · exact refl s

/-- R137, R153: what masking CURTAIL leaves of a slot. -/
def debtDropped : Option CurtailEntry → Option CurtailEntry
  | some e => if e.stage = .done then none else some { e with resultOwed := false }
  | none => none

theorem entryAt_dropCurtailDebts (s : State) (n : Nat) :
    s.dropCurtailDebts.entryAt n = if n < 64 then debtDropped (s.entryAt n) else none := by
  unfold State.entryAt State.dropCurtailDebts
  rw [State.setCurtail_curtail]
  dsimp only
  rw [Table.read_mapAll]
  cases Table.read none s.curtail.slots n <;> rfl

theorem dueOn_debtDropped (p : Nat) (o : Option CurtailEntry) : dueOn p (debtDropped o) = dueOn p o := by
  cases o with
  | none => rfl
  | some e =>
    unfold debtDropped
    dsimp only
    split
    · next hdone => rw [dueOn_of_not_pending p (by simp [CurtailEntry.pending, hdone])]; rfl
    · rfl

theorem refines_debtDropped (o : Option CurtailEntry) : Refines o (debtDropped o) := by
  cases o with
  | none => exact .refl _
  | some e =>
    unfold debtDropped
    dsimp only
    split
    · exact .none _
    · intro f hf
      cases hf
      exact ⟨e, rfl, rfl, rfl, fun h => h⟩

theorem owesResult_debtDropped (o : Option CurtailEntry) : owesResult (debtDropped o) = false := by
  cases o with
  | none => rfl
  | some e => unfold debtDropped; dsimp only; split <;> rfl

theorem dropCurtailDebts (s : State) : KeepsCurtail s s.dropCurtailDebts := by
  refine ⟨laws_of_refines fun n hn => ?_, fun hs => ?_⟩
  · rw [entryAt_dropCurtailDebts, if_pos hn]
    exact refines_debtDropped _
  · have hentry : ∀ n, s.dropCurtailDebts.entryAt n = debtDropped (s.entryAt n) := by
      intro n
      rw [entryAt_dropCurtailDebts]
      split
      · rfl
      · next hn => rw [hs.1 n (by omega)]; rfl
    rw [curtailLists_iff]
    refine ⟨fun n hn => by rw [hentry, hs.1 n hn]; rfl, fun p => ⟨nodup_due hs p, fun n => ?_⟩, List.nodup_nil,
      fun n => ?_⟩
    · rw [hentry, dueOn_debtDropped]
      exact mem_due_iff hs p
    · rw [hentry, owesResult_debtDropped]
      simp [State.dropCurtailDebts]

/-! #### Restoring and tenant records -/

theorem putCurtail (s : State) (x : Nat) (c : TenantCurtail) : KeepsCurtail s (s.putCurtail x c) :=
  of_entries (fun _ _ => .refl _) (fun _ _ h => h) (fun _ _ => rfl) (fun _ => rfl) (fun _ => rfl) rfl

theorem endRestoring (s : State) (x : Nat) : KeepsCurtail s (s.endRestoring x) := by
  obtain ⟨hentry, -, hcurtail, -⟩ := endRestoring_spec s x
  have hmap : ∀ n, ∃ f : CurtailEntry → CurtailEntry, (s.endRestoring x).entryAt n = (s.entryAt n).map f
      ∧ ∀ e, ∃ b, f e = { e with tried := b } := by
    intro n
    rw [hentry]
    split
    · exact ⟨_, rfl, fun e => by split <;> exact ⟨_, rfl⟩⟩
    · exact ⟨id, by simp, fun e => ⟨e.tried, rfl⟩⟩
  refine of_entries (fun n _ => ?_) (fun n _ hn => ?_) (fun p n => ?_) (fun n => ?_)
    (fun p => dueAt_endRestoring s x p) (by rw [hcurtail])
  all_goals
    obtain ⟨f, hf, htried⟩ := hmap n
    rw [hf]
  · refine Refines.of_map fun e => ?_
    obtain ⟨b, hb⟩ := htried e
    rw [hb]
    exact ⟨rfl, rfl, fun h => h⟩
  · rw [hn]; rfl
  · cases s.entryAt n with
    | none => rfl
    | some e =>
      obtain ⟨b, hb⟩ := htried e
      rw [Option.map_some, hb]
      rfl
  · cases s.entryAt n with
    | none => rfl
    | some e =>
      obtain ⟨b, hb⟩ := htried e
      rw [Option.map_some, hb]
      rfl

theorem actOnTransition (s : State) (x : Nat) (tr : Transition) (auto : Bool) :
    KeepsCurtail s (s.actOnTransition x tr auto) := by
  unfold State.actOnTransition
  dsimp only
  split
  · exact putCurtail s x _
  · split
    · exact endRestoring s x
    · exact refl s
  · exact (putCurtail s x _).trans (endRestoring _ x)
  · exact refl s

/-- R138, R142: an entry that is not pending, of a tenant with none pending, is set ON_PENDING. -/
theorem setOnPending {slot : Nat} {e e' : CurtailEntry} (he : s.entryAt slot = some e) (hpending : e.pending = false)
    (htenantPending : s.tenantPending e.tenant = false) (hkey : e'.outlet = e.outlet) (htenant : e'.tenant = e.tenant)
    (howes : e'.resultOwed = e.resultOwed) : KeepsCurtail s (s.setOnPending slot e') := by
  have hentry := entryAt_setOnPending s slot e'
  have hfree : ∀ n f, n < 64 → s.entryAt n = some f → f.tenant = e.tenant → f.pending = false := by
    intro n f hn hf hft
    by_contra hfp
    exact Bool.eq_false_iff.1 htenantPending
      ((tenantPending_iff s e.tenant).2 ⟨n, f, hn, hf, Bool.eq_true_of_not_eq_false hfp, hft⟩)
  refine ⟨fun hs m n a b hm hn ha hb => ?_, fun hs => ?_⟩
  · have hold : ∀ k f, k < 64 → (s.setOnPending slot e').entryAt k = some f → ∃ g, s.entryAt k = some g
        ∧ f.outlet = g.outlet ∧ f.tenant = g.tenant ∧ (f.pending = true → k = slot ∨ g.pending = true) := by
      intro k f hk hf
      rw [hentry] at hf
      split at hf
      · next hks => cases hf; subst hks; exact ⟨e, he, hkey, htenant, fun _ => .inl rfl⟩
      · exact ⟨f, hf, rfl, rfl, fun h => .inr h⟩
    obtain ⟨g, hg, hgkey, hgtenant, hgpending⟩ := hold m a hm ha
    obtain ⟨g', hg', hgkey', hgtenant', hgpending'⟩ := hold n b hn hb
    obtain ⟨hone, hpend⟩ := hs m n g g' hm hn hg hg'
    refine ⟨fun h => hone (by rw [← hgkey, ← hgkey', h]), fun ht hpa hpb => ?_⟩
    have htg : g.tenant = g'.tenant := by rw [← hgtenant, ← hgtenant', ht]
    obtain hms | hpg := hgpending hpa
    · subst hms
      rw [he] at hg
      cases hg
      obtain hns | hpg' := hgpending' hpb
      · exact hns.symm
      · rw [hfree n g' hn hg' htg.symm] at hpg'; cases hpg'
    · obtain hns | hpg' := hgpending' hpb
      · subst hns
        rw [he] at hg'
        cases hg'
        rw [hfree m g hm hg htg] at hpg; cases hpg
      · exact hpend htg hpg hpg'
  · refine lists_of_slot hs (fun h => absurd (lt_of_entry hs he) (by omega)) hentry (fun p => ?_) ?_
    · have hout : slot ∉ s.dueAt p := by
        rw [mem_due_iff hs, he, dueOn_of_not_pending p hpending]; exact Bool.false_ne_true
      have hnow : dueOn p (some { e' with stage := .onPending, sent := false, remaining := 0, attempts := 0 })
          = decide (keyPort e'.outlet = p) := by
        simp [dueOn, CurtailEntry.pending]
      rw [dueAt_setOnPending, hnow]
      split
      · next hp => subst hp; simpa using joins (nodup_due hs _) hout
      · next hp => exact stays (nodup_due hs p) (by simp [hout, Ne.symm hp])
    · change s.curtail.owed.Nodup ∧ ∀ n, n ∈ s.curtail.owed ↔ _
      exact stays (nodup_owed hs) (by rw [mem_owed_iff hs, he]; simp [owesResult, howes])

theorem restorable_not_pending {e : CurtailEntry} (h : e.restorable = true) : e.pending = false := by
  unfold CurtailEntry.restorable at h
  unfold CurtailEntry.pending
  cases hstage : e.stage <;> simp_all

/-- R138: the walk through restorable entries of a tenant that has none pending. -/
theorem restoreWalk (x : Nat) (slots : List Nat) (s : State) (hfree : s.tenantPending x = false)
    (hslots : ∀ n ∈ slots, ∀ e, s.entryAt n = some e → e.tenant = x ∧ e.restorable = true) :
    KeepsCurtail s (s.restoreWalk slots).1 := by
  induction slots generalizing s with
  | nil => exact refl s
  | cons slot rest ih =>
    obtain ⟨hslot, hrest⟩ := List.forall_mem_cons.1 hslots
    unfold State.restoreWalk
    split
    · next e he =>
      obtain ⟨htenant, hrestorable⟩ := hslot e he
      split
      · have hremoved : ∀ n f, (s.removeEntry slot).entryAt n = some f → s.entryAt n = some f := by
          intro n f hf
          rw [entryAt_removeEntry] at hf
          split at hf
          · cases hf
          · exact hf
        refine (removeEntry fun f hf => ?_).trans (ih _ ?_ fun n hn f hf => hrest n hn f (hremoved n f hf))
        · rw [he] at hf; cases hf; exact restorable_not_pending hrestorable
        · rw [Bool.eq_false_iff, Ne, tenantPending_iff]
          rintro ⟨n, f, hn, hf, hfp, hft⟩
          exact Bool.eq_false_iff.1 hfree ((tenantPending_iff s x).2 ⟨n, f, hn, hremoved n f hf, hfp, hft⟩)
      · split
        · exact setOnPending he (restorable_not_pending hrestorable) (by rw [htenant]; exact hfree) rfl rfl rfl
        · exact ih s hfree hrest
    · exact ih s hfree hrest

/-! #### The restore order -/

theorem mem_insertRecent (s : State) (slot : Nat) (l : List Nat) (n : Nat) :
    n ∈ s.insertRecent slot l ↔ n = slot ∨ n ∈ l := by
  induction l with
  | nil => simp [State.insertRecent]
  | cons m rest ih =>
    unfold State.insertRecent
    split
    · simp
    · simp only [List.mem_cons, ih]
      tauto

theorem mem_restoreOrder (s : State) (x n : Nat) : n ∈ s.restoreOrder x ↔ n ∈ s.untried x := by
  unfold State.restoreOrder
  induction s.untried x with
  | nil => rfl
  | cons m rest ih => rw [List.foldr_cons, mem_insertRecent, ih, List.mem_cons]

theorem restoreStep (s : State) (x : Nat) (hfree : s.tenantPending x = false) : KeepsCurtail s (s.restoreStep x) := by
  have hwalk := restoreWalk x (s.restoreOrder x) s hfree fun n hn e he => by
    rw [mem_restoreOrder, State.untried, mem_slotsWhere] at hn
    obtain ⟨-, f, hf, hcond⟩ := hn
    rw [he] at hf
    cases hf
    simp only [Bool.and_eq_true, decide_eq_true_eq] at hcond
    exact hcond.1
  unfold State.restoreStep
  generalize s.restoreWalk (s.restoreOrder x) = walked at hwalk
  dsimp only
  split
  · exact hwalk
  · split
    · exact (hwalk.trans (endRestoring walked.1 x)).trans (of_same (same_putLive _ _ _) (by decide))
    · exact hwalk

/-! #### Shedding -/

/-- R127: an entry is made in an empty slot, for an outlet that has none, of a tenant with none pending. -/
theorem makeEntry {x key slot : Nat} (hslot : slot < 64) (hempty : s.entryAt slot = none)
    (hfree : s.tenantPending x = false) (hkey : s.holdsOutlet key = false) : KeepsCurtail s (s.makeEntry x key slot) := by
  have hentry : ∀ n, (s.makeEntry x key slot).entryAt n =
      if n = slot then some (newEntry key x s.curtail.creation) else s.entryAt n := fun n =>
    (entryAt_joinDue _ (keyPort key) slot n).trans (entryAt_putEntry s slot _ n)
  have hdueAt : ∀ p, (s.makeEntry x key slot).dueAt p =
      if p = keyPort key then s.dueAt (keyPort key) ++ [slot] else s.dueAt p := fun p =>
    dueAt_joinDue (s.putEntry slot (newEntry key x s.curtail.creation)) (keyPort key) slot p
  have hnew : ∀ k f, k < 64 → s.entryAt k = some f → f.outlet ≠ key ∧ ¬ (f.tenant = x ∧ f.pending = true) := by
    intro k f hk hf
    refine ⟨fun h => Bool.eq_false_iff.1 hkey ((holdsOutlet_iff s key).2 ⟨k, f, hk, hf, h⟩), fun h => ?_⟩
    exact Bool.eq_false_iff.1 hfree ((tenantPending_iff s x).2 ⟨k, f, hk, hf, h.2, h.1⟩)
  refine ⟨fun hs m n a b hm hn ha hb => ?_, fun hs => ?_⟩
  · rw [hentry] at ha hb
    split at ha <;> split at hb
    · next h h' => exact ⟨fun _ => h.trans h'.symm, fun _ _ _ => h.trans h'.symm⟩
    · cases ha
      obtain ⟨h1, h2⟩ := hnew n b hn hb
      exact ⟨fun h => absurd h.symm h1, fun ht _ hp => absurd ⟨ht.symm, hp⟩ h2⟩
    · cases hb
      obtain ⟨h1, h2⟩ := hnew m a hm ha
      exact ⟨fun h => absurd h h1, fun ht hp _ => absurd ⟨ht, hp⟩ h2⟩
    · exact hs m n a b hm hn ha hb
  · refine lists_of_slot hs (fun h => absurd hslot (by omega)) hentry (fun p => ?_) ?_
    · have hout : slot ∉ s.dueAt p := by rw [mem_due_iff hs, hempty]; exact Bool.false_ne_true
      have hnow : dueOn p (some (newEntry key x s.curtail.creation)) = decide (keyPort key = p) := rfl
      rw [hdueAt, hnow]
      split
      · next hp => subst hp; simpa using joins (nodup_due hs _) hout
      · next hp => exact stays (nodup_due hs p) (by simp [hout, Ne.symm hp])
    · change s.curtail.owed.Nodup ∧ ∀ n, n ∈ s.curtail.owed ↔ _
      exact stays (nodup_owed hs) (by rw [mem_owed_iff hs, hempty]; exact Iff.rfl)

theorem tenantPending_of_same {l : List Block} (h : SameOutside l s t) (hl : Block.curtail ∉ l) (x : Nat) :
    t.tenantPending x = s.tenantPending x := by
  unfold State.tenantPending State.slotsWhere State.entryAt
  rw [show t.curtail = s.curtail from h .curtail hl]

theorem holdsOutlet_of_same {l : List Block} (h : SameOutside l s t) (hl : Block.curtail ∉ l) (key : Nat) :
    t.holdsOutlet key = s.holdsOutlet key := by
  unfold State.holdsOutlet State.slotOf State.slotsWhere State.entryAt
  rw [show t.curtail = s.curtail from h .curtail hl]

theorem shedStep (s : State) (x : Nat) (hfree : s.tenantPending x = false) : KeepsCurtail s (s.shedStep x) := by
  have hsame := same_recordParity s s.badSlots
  have hread : KeepsCurtail s (s.recordParity s.badSlots) := of_same hsame (by decide)
  unfold State.shedStep
  dsimp only
  split
  · exact hread.trans (putCurtail _ x _)
  · next key hkey =>
    split
    · exact hread.trans (putCurtail _ x _)
    · next slot hslot =>
      have heligible := List.find?_some hkey
      unfold State.shedEligible at heligible
      simp only [Bool.and_eq_true, Bool.not_eq_true'] at heligible
      have hempty := List.find?_some hslot
      rw [Option.isNone_iff_eq_none] at hempty
      have hlt := List.mem_range.1 (List.mem_of_find?_eq_some hslot)
      refine hread.trans (makeEntry hlt ?_ ?_ ?_)
      · rw [← hempty]
        exact entryAt_congr (hsame .curtail (by decide)) slot
      · rw [tenantPending_of_same hsame (by decide)]; exact hfree
      · rw [holdsOutlet_of_same hsame (by decide)]; exact heligible.1.1

theorem curtailStep (s : State) (x : Nat) (tr : Transition) (c : Option Contract) : KeepsCurtail s (s.curtailStep x tr c) := by
  rw [curtailStep_eq]
  refine (actOnTransition s x tr (autoPolicy c)).trans ?_
  split
  · next h => exact restoreStep _ x (by simpa using h.2)
  · split
    · next hdue =>
      refine shedStep _ x ?_
      unfold State.shedDue at hdue
      split at hdue
      · cases hdue
      · simp only [Bool.and_eq_true, Bool.not_eq_true'] at hdue
        exact hdue.2
    · exact refl _

/-! #### The close -/

theorem consequence (s : State) (x : Nat) : KeepsCurtail s (s.consequence x) := by
  have hput := of_same (s := s) (same_putLive s x ((s.liveAt x).switched (s.activeAt x).content)) (by decide)
  unfold State.consequence
  dsimp only
  split
  · exact hput
  · split
    · split
      · exact hput.trans (endRestoring _ x)
      · exact hput
    · exact (hput.trans (putCurtail _ x _)).trans (endRestoring _ x)

theorem closeInterval (s : State) (n : BitVec 32) : KeepsCurtail s (s.closeInterval n) := by
  have hcleared : KeepsCurtail s (s.captureSummaries n).clearAccumulators := of_curtail rfl
  cases hdue : s.switchDue with
  | true =>
    rw [closeInterval_switch s n hdue]
    generalize (s.captureSummaries n).clearAccumulators = u at hcleared
    have hcopied : ∀ c, KeepsCurtail u ((u.recordParity (badContracts .staged u.stagedAt)).setContracts c) := fun c =>
      (of_same (same_recordParity u _) (by decide)).trans (of_same (same_setContracts _ _) (by decide))
    exact ((hcleared.trans (hcopied _)).trans (foldl _ consequence _ _)).trans
      (of_same (same_oweInterval _ _ _) (by decide))
  | false =>
    rw [closeInterval_noSwitch s n hdue]
    exact hcleared.trans (of_same (same_oweInterval _ _ _) (by decide))

/-! #### The commands -/

theorem of_time {c : Instr} {elapsed : Nat} {body : List Byte}
    (hc : c = .internalAdvance elapsed ∨ c = .lossExpiry elapsed ∨ c = .epoch elapsed body) (h : exec c s = .next t) :
    KeepsCurtail s t := by
  have hwait : KeepsCurtail s (s.elapse elapsed) := of_same (same_elapse s elapsed) (by decide)
  generalize hu : s.elapse elapsed = u at hwait
  obtain rfl | rfl | rfl := hc
  · change execInternalAdvance elapsed s = _ at h
    unfold execInternalAdvance at h
    simp only [hu] at h
    split at h <;> obtain rfl := Host.Outcome.next.inj h
    · exact (hwait.trans (advance u _)).trans (of_same (same_arbitrate _) (by decide))
    · exact hwait
  · change execLossExpiry elapsed s = _ at h
    unfold execLossExpiry at h
    simp only [hu] at h
    split at h <;> obtain rfl := Host.Outcome.next.inj h
    · have hfallen : KeepsCurtail u (u.setTimer { u.timer with mode := .fallback }) := of_same (same_setTimer u _) (by decide)
      exact (((hwait.trans hfallen).trans (advance _ _)).trans (of_same (same_recordFault _ _ _) (by decide))).trans
        (of_same (same_arbitrate _) (by decide))
    · exact hwait
  · change execEpoch elapsed body s = _ at h
    unfold execEpoch at h
    simp only [hu] at h
    split at h
    · obtain rfl := Host.Outcome.next.inj h; exact hwait
    · split at h
      · obtain rfl := Host.Outcome.next.inj h; exact hwait
      · split at h <;> obtain rfl := Host.Outcome.next.inj h
        · exact hwait.trans (of_same (same_recordFault _ _ _) (by decide))
        · exact (hwait.trans (advance u _)).trans (of_same (same_arbitrate _) (by decide))

theorem of_commandTimeout {slot : Nat} (h : execCommandTimeout slot s = .next t) : KeepsCurtail s t := by
  unfold execCommandTimeout at h
  split at h
  · next e he =>
    split at h <;> obtain rfl := Host.Outcome.next.inj h
    · next hdue =>
      exact (timeOut he hdue.1 hdue.2.1 rfl rfl hdue.1 rfl).trans (of_same (same_arbitrate _) (by decide))
    · exact refl s
  · obtain rfl := Host.Outcome.next.inj h; exact refl s

theorem of_portLost {p : Nat} (h : execPortLost p s = .next t) : KeepsCurtail s t := by
  unfold execPortLost at h
  split at h <;> obtain rfl := Host.Outcome.next.inj h
  · exact (losePort s p).trans (of_same (same_arbitrate _) (by decide))
  · exact refl s

theorem of_curtailmentStep (h : execCurtailmentStep s = .next t) : KeepsCurtail s t := by
  unfold execCurtailmentStep at h
  split at h
  · next x tr c _ =>
    have hstep := curtailStep s x tr c
    generalize s.curtailStep x tr c = u at h hstep
    dsimp only at h
    split at h <;> obtain rfl := Host.Outcome.next.inj h
    · exact (hstep.trans (of_same (same_movePass u _) (by decide))).trans (of_same (same_arbitrate _) (by decide))
    · exact (hstep.trans (of_same (same_completePass u) (by decide))).trans (of_same (same_arbitrate _) (by decide))
  · obtain rfl := Host.Outcome.next.inj h; exact refl s

theorem of_intervalClose (h : execIntervalClose s = .next t) : KeepsCurtail s t := by
  unfold execIntervalClose at h
  split at h <;> obtain rfl := Host.Outcome.next.inj h
  · exact (of_same (same_setTimer s _) (by decide)).trans (closeInterval _ _)
  · exact refl s

/-- R130: an answer that matches ends the command of a sent pending entry. -/
theorem switchAnswer (s : State) (p position outlet : Nat) (tag : BitVec 8) (done : Bool) :
    KeepsCurtail s (s.switchAnswer p position outlet tag done) := by
  unfold State.switchAnswer
  split
  · next slot e hmatch =>
    have hentry : s.entryAt slot = some e ∧ e.pending = true ∧ e.sent = true := by
      unfold State.matching at hmatch
      split at hmatch
      · cases hmatch
      · split at hmatch
        · split at hmatch
          · next f hf =>
            split at hmatch
            · next hcond => cases hmatch; exact ⟨hf, hcond.1, hcond.2.1⟩
            · cases hmatch
          · cases hmatch
        · cases hmatch
    obtain ⟨he, hpending, hsent⟩ := hentry
    refine recordResult he hpending hsent rfl rfl ?_ rfl
    unfold CurtailEntry.pending at hpending
    cases hstage : e.stage with
    | offPending => cases done <;> rfl
    | onPending => cases done <;> rfl
    | off => rw [hstage] at hpending; cases hpending
    | unconfirmed => rw [hstage] at hpending; cases hpending
    | skipped => rw [hstage] at hpending; cases hpending
    | done => rw [hstage] at hpending; cases hpending
  · exact of_same (same_recordFault s _ _) (by decide)

theorem of_switchAck {p : Nat} {body : List Byte} (h : execSwitchAck p body s = .next t) : KeepsCurtail s t := by
  unfold execSwitchAck at h
  dsimp only at h
  split at h
  · obtain rfl := Host.Outcome.next.inj h; exact refl s
  · have hheard : KeepsCurtail s (s.wellFormedFrame p) := of_same (same_wellFormedFrame s p) (by decide)
    split at h <;> obtain rfl := Host.Outcome.next.inj h
    · exact (hheard.trans (switchAnswer _ _ _ _ _ _)).trans (of_same (same_arbitrate _) (by decide))
    · exact hheard.trans (of_same (same_arbitrate _) (by decide))

theorem of_switchSend {p : Nat} (h : execSwitchSend p s = .next t) : KeepsCurtail s t := by
  unfold execSwitchSend at h
  split at h
  · next slot rest _ hhead =>
    split at h <;> obtain rfl := Host.Outcome.next.inj h
    · next e he => exact (startSwitch hhead he).trans (of_same (same_arbitrate _) (by decide))
    · exact refl s
  · obtain rfl := Host.Outcome.next.inj h; exact refl s

theorem settle (s : State) (item : OwedItem) : KeepsCurtail s (s.settle item) := by
  cases item
  case curtail slot => exact handBack s slot
  all_goals exact of_curtail rfl

theorem of_noticeQueuing (h : execNoticeQueuing s = .next t) : KeepsCurtail s t := by
  unfold execNoticeQueuing at h
  split at h
  · split at h
    · next item _ =>
      split at h
      · obtain rfl := Host.Outcome.next.inj h
        have hsettled := settle s item
        generalize s.settle item = u at hsettled
        exact (hsettled.trans (of_same (same_setNotices u _) (by decide))).trans (of_same (same_arbitrate _) (by decide))
      · obtain rfl := Host.Outcome.next.inj h; exact refl s
    · obtain rfl := Host.Outcome.next.inj h; exact refl s
  · obtain rfl := Host.Outcome.next.inj h; exact refl s

/-- A request command whose work keeps the laws. -/
theorem of_onRequest {row : RequestRow} {work : Request → State → State} (hwork : ∀ r u, KeepsCurtail u (work r u))
    (h : s.onRequest row work = .next t) : KeepsCurtail s t :=
  onRequest_keeps (P := KeepsCurtail s) (fun _ _ hframe hu => hu.trans (of_same hframe (by decide)))
    (fun r u _ _ hu => hu.trans (hwork r u)) (refl s) h

theorem answer (u : State) (r : Request) (status : Status) (data : List Byte) : KeepsCurtail u (u.answer r status data) :=
  of_same (same_respond u r.origin _) (by decide)

theorem of_writeSetting {row : RequestRow} {effect : Nat → Nat → Nat → State → State}
    (heffect : ∀ i old v u, KeepsCurtail u (effect i old v u))
    (h : s.onRequest row (State.writeSettingWith effect) = .next t) : KeepsCurtail s t := by
  refine of_onRequest (fun r u => ?_) h
  obtain ⟨status, hw⟩ | ⟨i, v, data, -, hw, -⟩ := writeSettingWith_cases effect r u <;> rw [hw]
  · exact answer u r _ _
  · exact ((of_same (same_setSettings u _) (by decide)).trans (heffect i _ v _)).trans (answer _ r _ _)

theorem epochSourceEffect_keeps (i old v : Nat) (u : State) : KeepsCurtail u (epochSourceEffect i old v u) := by
  have hmoved : KeepsCurtail u (u.setSource v) := of_same (same_setTimer u _) (by decide)
  unfold epochSourceEffect
  dsimp only
  split
  · exact hmoved.trans (advance _ _)
  · exact hmoved

theorem portDisableEffect_keeps (i old v : Nat) (u : State) : KeepsCurtail u (portDisableEffect i old v u) := by
  unfold portDisableEffect
  split
  · exact refl u
  · exact disablePort u _

theorem noticeMaskEffect_keeps (i old v : Nat) (u : State) : KeepsCurtail u (noticeMaskEffect i old v u) := by
  unfold noticeMaskEffect
  split
  · split
    · exact of_curtail rfl
    · split
      · exact dropCurtailDebts u
      · exact refl u
  · exact refl u

theorem namedEntry_entry {key slot : Nat} {e : CurtailEntry} (h : s.namedEntry key = some (slot, e)) :
    slot < 64 ∧ s.entryAt slot = some e := by
  unfold State.namedEntry at h
  split at h
  · cases h
  · split at h
    · next n hn =>
      obtain ⟨f, hf, hfe⟩ := Option.map_eq_some_iff.1 h
      cases hfe
      exact ⟨(slotOf_some s hn).1, hf⟩
    · cases h

theorem restoreTenantRequest (r : Request) (u : State) : KeepsCurtail u (State.restoreTenantRequest r u) := by
  unfold State.restoreTenantRequest
  dsimp only
  split
  · exact answer u r _ _
  · exact ((putCurtail u _ _).trans (of_same (same_putLive _ _ _) (by decide))).trans (answer _ r _ _)

theorem restoreOutletRequest (r : Request) (u : State) : KeepsCurtail u (State.restoreOutletRequest r u) := by
  cases hnamed : u.namedEntry (half r.data 1) with
  | none => rw [restoreOutletRequest_none hnamed]; exact answer u r _ _
  | some named =>
    obtain ⟨slot, e⟩ := named
    obtain ⟨hslot, he⟩ := namedEntry_entry hnamed
    rw [restoreOutletRequest_some hnamed]
    split
    · exact answer u r _ _
    · next hfree =>
      have hpending : e.pending = false := by
        by_contra hp
        exact hfree ((tenantPending_iff u e.tenant).2 ⟨slot, e, hslot, he, Bool.eq_true_of_not_eq_false hp, rfl⟩)
      split
      · exact answer u r _ _
      · split
        · exact (removeEntry fun f hf => by rw [he] at hf; cases hf; exact hpending).trans (answer _ r _ _)
        · split
          · exact answer u r _ _
          · exact (setOnPending he hpending (Bool.eq_false_iff.2 hfree) rfl rfl rfl).trans (answer _ r _ _)

theorem discardRequest (r : Request) (u : State) : KeepsCurtail u (State.discardRequest r u) := by
  cases hnamed : u.namedEntry (half r.data 0) with
  | none => rw [discardRequest_none hnamed]; exact answer u r _ _
  | some named =>
    obtain ⟨slot, e⟩ := named
    obtain ⟨-, he⟩ := namedEntry_entry hnamed
    rw [discardRequest_some hnamed]
    split
    · exact answer u r _ _
    · next hpending =>
      exact (removeEntry fun f hf => by rw [he] at hf; cases hf; exact Bool.eq_false_iff.2 hpending).trans (answer _ r _ _)

theorem restart (s : State) : KeepsCurtail s s.restart := ⟨fun _ => curtailLaws_restart s, fun _ => curtailLists_restart s⟩

theorem liveReset (u : State) : KeepsCurtail u u.liveReset :=
  (restart u).trans (of_curtail (s := u.restart) (t := u.liveReset) rfl)

theorem exec (c : Instr) (h : exec c s = .next t) : KeepsCurtail s t := by
  by_cases hchanges : Block.curtail ∈ c.changes
  case neg => exact of_same (exec_changes c h) hchanges
  cases c
  case powerOn => obtain rfl := Host.Outcome.next.inj h; exact restart s
  case resetFullStart =>
    cases hdue : s.mgmt.resetDue with
    | true =>
      rw [exec_resetFullStart_due s hdue] at h
      obtain rfl := Host.Outcome.next.inj h
      exact restart s
    | false =>
      rw [exec_resetFullStart_idle s hdue] at h
      obtain rfl := Host.Outcome.next.inj h
      exact refl s
  case internalAdvance => exact of_time (body := []) (.inl rfl) h
  case lossExpiry => exact of_time (body := []) (.inr (.inl rfl)) h
  case epoch => exact of_time (.inr (.inr rfl)) h
  case commandTimeout => exact of_commandTimeout h
  case portLost => exact of_portLost h
  case curtailmentStep => exact of_curtailmentStep h
  case intervalClose => exact of_intervalClose h
  case switchAck => exact of_switchAck h
  case switchSend => exact of_switchSend h
  case noticeQueuing => exact of_noticeQueuing h
  case writeEpochSource elapsed =>
    exact (of_same (same_elapse s elapsed) (by decide)).trans (of_writeSetting epochSourceEffect_keeps h)
  case portDisable => exact of_writeSetting portDisableEffect_keeps h
  case writeNoticeMask => exact of_writeSetting noticeMaskEffect_keeps h
  case restoreTenant => exact of_onRequest restoreTenantRequest h
  case restoreOutlet => exact of_onRequest restoreOutletRequest h
  case discard => exact of_onRequest discardRequest h
  case resetLive => exact of_onRequest (fun r u => (liveReset u).trans (answer _ r .ok [])) h
  all_goals exact absurd hchanges (by simp only [Instr.changes]; decide)

end KeepsCurtail

end Sys2Proof.Machine

open Sys2Proof Sys2Proof.Machine

/-- Settles O54: every operation on the curtailment table keeps both laws. -/
theorem stepKeepsTheCurtailmentLaws : Obligations.StepKeepsTheCurtailmentLaws := by
  intro s t h
  have hkeeps : KeepsCurtail s t := step_keeps (P := KeepsCurtail s)
    (fun u q hu => hu.trans (.of_same (same_setPending u q) (by decide))) (fun c _ _ hu hv => hu.trans (.exec c hv))
    (.refl s) h
  exact ⟨hkeeps.laws, hkeeps.lists⟩
end

