-- ==== Sys2Proof/Proofs/Forms.lean ====
section
/-! PROOF. Queues stay within their depths, tables stay canonical and settings stay in their ranges (R34, R146, R161 to
R163, R174). The parts of the law that one unit holds are named for that unit; every operation keeps all of them, and so
does every command. -/

namespace Sys2Proof.Machine

/-! ### The law of each unit -/

def ContractStore.canonical (c : ContractStore) : Prop :=
  Table.wf emptyContract c.active = true ∧ Table.wf emptyContract c.staged = true ∧ Table.wf none c.summaries = true

def Curtailment.canonical (c : Curtailment) : Prop :=
  Table.wf none c.slots = true ∧ Table.wf TenantCurtail.clear c.records = true ∧ Table.wf [] c.due = true

/-- The announced copies are canonical, and the notice queue is within its depth (R146). -/
def NoticeUnit.wellKept (n : NoticeUnit) : Prop :=
  Table.wf TenantCompared.clear n.annTenant = true ∧ Table.wf .disabled n.annPort = true
    ∧ Table.wf .absent n.annPresence = true ∧ n.queue.length ≤ 8

/-- R161 to R163: the depths of the uplink's queues. -/
def Uplink.bounded (u : Uplink) : Prop := u.requests.length ≤ 4 ∧ u.responses.length ≤ 4 ∧ u.forwards.length ≤ 16

/-- Queues, tables and settings of a state, unit by unit. -/
structure WellKept (s : State) : Prop where
  ports : Table.wf Port.initial s.ports = true
  passDown : ∀ p, (s.port p).passDown.length ≤ 4
  presence : Table.wf Presence.absent s.presence = true
  oat : Table.wf absentSlot s.oat = true
  rules : Table.wf disabledRule s.rules = true
  readings : Table.wf Reading.initial s.readings = true
  filling : s.filling.canonical
  closing : s.closing.canonical
  live : Table.wf LiveRecord.idle s.live = true
  contracts : s.contracts.canonical
  curtail : s.curtail.canonical
  notices : s.notices.wellKept
  uplink : s.uplink.bounded
  settings : SettingsInRange s

theorem wellKept_iff (s : State) : WellKept s ↔ QueueBounds s ∧ TablesCanonical s ∧ SettingsInRange s := by
  constructor
  · intro h
    obtain ⟨hactive, hstaged, hsummaries⟩ := h.contracts
    obtain ⟨hslots, hrecords, hdue⟩ := h.curtail
    obtain ⟨htenant, hport, hpdu, hqueue⟩ := h.notices
    obtain ⟨hrequests, hresponses, hforwards⟩ := h.uplink
    exact ⟨⟨h.passDown, hqueue, hrequests, hresponses, hforwards⟩,
      ⟨h.ports, h.presence, h.oat, h.rules, h.readings, h.filling, h.closing, h.live, hactive, hstaged, hsummaries, hslots,
        hrecords, hdue, htenant, hport, hpdu⟩, h.settings⟩
  · rintro ⟨⟨hdown, hqueue, hrequests, hresponses, hforwards⟩, ⟨hports, hpresence, hoat, hrules, hreadings, hfilling,
      hclosing, hlive, hactive, hstaged, hsummaries, hslots, hrecords, hdue, htenant, hport, hpdu⟩, hsettings⟩
    exact ⟨hports, hdown, hpresence, hoat, hrules, hreadings, hfilling, hclosing, hlive, ⟨hactive, hstaged, hsummaries⟩,
      ⟨hslots, hrecords, hdue⟩, ⟨htenant, hport, hpdu, hqueue⟩, ⟨hrequests, hresponses, hforwards⟩, hsettings⟩

theorem clampSetting_idem (i v : Nat) : clampSetting i (clampSetting i v) = clampSetting i v := by
  have hrange : (settingRanges.getD i (0, 0)).1 ≤ (settingRanges.getD i (0, 0)).2 := by
    obtain h | h := Nat.lt_or_ge i 21
    · revert h; revert i; decide
    · rw [List.getD_eq_default _ _ (by exact h)]
  simp only [clampSetting]
  omega

namespace WellKept

variable {s t : State}

/-! ### Field updates -/

theorem setTimer (h : WellKept s) (v : Timer) : WellKept (s.setTimer v) := { h with }

theorem setNow (h : WellKept s) (v : Nat) : WellKept (s.setNow v) := { h with }

theorem setPending (h : WellKept s) (v : List Instr) : WellKept (s.setPending v) := { h with }

theorem setFreeCount (h : WellKept s) (v : Nat) : WellKept (s.setFreeCount v) := { h with }

theorem setMgmt (h : WellKept s) (v : Mgmt) : WellKept (s.setMgmt v) := { h with }

theorem setExtMemory (h : WellKept s) (v : Option Image) : WellKept (s.setExtMemory v) := { h with }

theorem setPresence (h : WellKept s) {v : Table Presence} (hv : Table.wf Presence.absent v = true) :
    WellKept (s.setPresence v) := { h with presence := hv }

theorem setOat (h : WellKept s) {v : Table (Stored (Option OatEntry))} (hv : Table.wf absentSlot v = true) :
    WellKept (s.setOat v) := { h with oat := hv }

theorem setRules (h : WellKept s) {v : Table (Stored Rule)} (hv : Table.wf disabledRule v = true) :
    WellKept (s.setRules v) := { h with rules := hv }

theorem setReadings (h : WellKept s) {v : Table Reading} (hv : Table.wf Reading.initial v = true) :
    WellKept (s.setReadings v) := { h with readings := hv }

theorem setFilling (h : WellKept s) {v : AccSet} (hv : v.canonical) : WellKept (s.setFilling v) := { h with filling := hv }

theorem setClosing (h : WellKept s) {v : AccSet} (hv : v.canonical) : WellKept (s.setClosing v) := { h with closing := hv }

theorem setLive (h : WellKept s) {v : Table LiveRecord} (hv : Table.wf LiveRecord.idle v = true) :
    WellKept (s.setLive v) := { h with live := hv }

theorem setContracts (h : WellKept s) {v : ContractStore} (hv : v.canonical) : WellKept (s.setContracts v) :=
  { h with contracts := hv }

theorem setCurtail (h : WellKept s) {v : Curtailment} (hv : v.canonical) : WellKept (s.setCurtail v) :=
  { h with curtail := hv }

theorem setNotices (h : WellKept s) {v : NoticeUnit} (hv : v.wellKept) : WellKept (s.setNotices v) :=
  { h with notices := hv }

theorem setUplink (h : WellKept s) {v : Uplink} (hv : v.bounded) : WellKept (s.setUplink v) := { h with uplink := hv }

theorem setSettings (h : WellKept s) {v : List Nat} (hv : SettingsInRange (s.setSettings v)) :
    WellKept (s.setSettings v) := { h with settings := hv }

/-! ### Records by index -/

theorem putPort (h : WellKept s) (p : Nat) {q : Port} (hq : q.passDown.length ≤ 4) : WellKept (s.putPort p q) := by
  refine { h with ports := Table.wf_write _ _ _ _ h.ports, passDown := fun r => ?_ }
  rw [port_putPort]
  split
  · exact hq
  · exact h.passDown r

theorem putPresence (h : WellKept s) (i : Nat) (e : Presence) : WellKept (s.putPresence i e) :=
  h.setPresence (Table.wf_write _ _ _ _ h.presence)

theorem putLive (h : WellKept s) (t : Nat) (r : LiveRecord) : WellKept (s.putLive t r) :=
  h.setLive (Table.wf_write _ _ _ _ h.live)

theorem putCurtail (h : WellKept s) (t : Nat) (c : TenantCurtail) : WellKept (s.putCurtail t c) := by
  obtain ⟨hslots, hrecords, hdue⟩ := h.curtail
  exact h.setCurtail ⟨hslots, Table.wf_write _ _ _ _ hrecords, hdue⟩

theorem writeSlot (h : WellKept s) (slot : Nat) (e : Option CurtailEntry) (owed : List Nat) : WellKept (s.setCurtail
    { s.curtail with slots := Table.write none s.curtail.slots slot e, owed := owed }) := by
  obtain ⟨hslots, hrecords, hdue⟩ := h.curtail
  exact h.setCurtail ⟨Table.wf_write _ _ _ _ hslots, hrecords, hdue⟩

theorem putEntry (h : WellKept s) (slot : Nat) (e : CurtailEntry) : WellKept (s.putEntry slot e) :=
  h.writeSlot slot (some e) _

theorem removeEntry (h : WellKept s) (slot : Nat) : WellKept (s.removeEntry slot) := h.writeSlot slot none _

theorem writeDue (h : WellKept s) (p : Nat) (l : List Nat) :
    WellKept (s.setCurtail { s.curtail with due := Table.write [] s.curtail.due p l }) := by
  obtain ⟨hslots, hrecords, hdue⟩ := h.curtail
  exact h.setCurtail ⟨hslots, hrecords, Table.wf_write _ _ _ _ hdue⟩

theorem joinDue (h : WellKept s) (p slot : Nat) : WellKept (s.joinDue p slot) := h.writeDue p _

theorem leaveDue (h : WellKept s) (p slot : Nat) : WellKept (s.leaveDue p slot) := h.writeDue p _

theorem foldl {α : Type} {f : State → α → State} (hf : ∀ u a, WellKept u → WellKept (f u a)) (as : List α)
    (h : WellKept s) : WellKept (as.foldl f s) := by
  induction as generalizing s with
  | nil => exact h
  | cons a as ih => exact ih (hf s a h)

/-! ### Faults, queues and choices -/

theorem setFault (h : WellKept s) (f : Option FaultRecord) : WellKept (s.setNotices { s.notices with fault := f }) :=
  h.setNotices h.notices

theorem recordFault (h : WellKept s) (cls : FaultClass) (loc : Location) : WellKept (s.recordFault cls loc) := by
  unfold State.recordFault
  dsimp only
  split
  · exact h.setFault _
  · split
    · exact h.setFault _
    · exact h

theorem recordParity (h : WellKept s) (bad : List Location) : WellKept (s.recordParity bad) := by
  induction bad generalizing s with
  | nil => exact h
  | cons loc rest ih => exact ih (h.recordFault _ _)

theorem offerPassDown (h : WellKept s) (p : Nat) (f : PassDown) : WellKept (s.offerPassDown p f) := by
  unfold State.offerPassDown
  split
  · next htaken =>
    have hroom := ((passDownTaken_iff s p).mp htaken).2
    exact h.putPort p (by rw [List.length_append]; exact hroom)
  · exact h

theorem offerForward (h : WellKept s) (f : Forward) : WellKept (s.offerForward f) := by
  obtain ⟨hrequests, hresponses, hforwards⟩ := h.uplink
  unfold State.offerForward
  split
  · next hroom => exact h.setUplink ⟨hrequests, hresponses, by rw [List.length_append]; exact hroom⟩
  · exact h

theorem offerRequest (h : WellKept s) (r : Request) : WellKept (s.offerRequest r) := by
  obtain ⟨hrequests, hresponses, hforwards⟩ := h.uplink
  unfold State.offerRequest
  split
  · next hroom => exact h.setUplink ⟨by rw [List.length_append]; exact hroom, hresponses, hforwards⟩
  · exact h

/-- R162: a response joins a queue with room. -/
theorem joinResponses (h : WellKept s) (r : Response) (hroom : s.uplink.responses.length < 4) :
    WellKept (s.setUplink { s.uplink with responses := s.uplink.responses ++ [r] }) := by
  obtain ⟨hrequests, hresponses, hforwards⟩ := h.uplink
  exact h.setUplink ⟨hrequests, by rw [List.length_append]; exact hroom, hforwards⟩

theorem respond (h : WellKept s) (o : Origin) (r : Response) : WellKept (s.respond o r) := by
  cases o with
  | uplink =>
    change WellKept (s.offerResponse r)
    unfold State.offerResponse
    split
    · next hroom => exact h.joinResponses r hroom.2
    · exact h.setMgmt _
  | chain p position => exact h.offerPassDown p _

theorem answer (h : WellKept s) (r : Request) (status : Status) (data : List Byte) : WellKept (s.answer r status data) :=
  h.respond _ _

theorem popRequest (h : WellKept s) : WellKept s.popRequest := by
  obtain ⟨hrequests, hresponses, hforwards⟩ := h.uplink
  exact h.setUplink ⟨by rw [List.length_tail]; omega, hresponses, hforwards⟩

theorem chooseDown (h : WellKept s) (p : Nat) : WellKept (s.chooseDown p) := h.putPort p (h.passDown p)

theorem arbitrate (h : WellKept s) : WellKept s.arbitrate :=
  ((((h.chooseDown 0).chooseDown 1).chooseDown 2).chooseDown 3).setUplink
    ((((h.chooseDown 0).chooseDown 1).chooseDown 2).chooseDown 3).uplink

/-! ### Curtailment entries -/

theorem recordResult (h : WellKept s) (slot : Nat) (e : CurtailEntry) : WellKept (s.recordResult slot e) := by
  unfold State.recordResult
  split
  · split
    · exact h.removeEntry slot
    · exact h.putEntry slot e
  · exact (h.putEntry slot _).setCurtail (h.putEntry slot _).curtail

theorem timeOut (h : WellKept s) (slot : Nat) (e : CurtailEntry) : WellKept (s.timeOut slot e) := by
  unfold State.timeOut
  split
  · exact (h.putEntry slot _).joinDue _ slot
  · exact h.recordResult slot _

theorem ageEntry (s : State) (slot : Nat) (h : WellKept s) : WellKept (s.ageEntry slot) := by
  unfold State.ageEntry
  split
  · split
    · dsimp only
      split
      · exact h.timeOut slot _
      · exact h.putEntry slot _
    · exact h
  · exact h

theorem loseEntry (p : Nat) (s : State) (slot : Nat) (h : WellKept s) : WellKept (State.loseEntry p s slot) := by
  unfold State.loseEntry
  split
  · split
    · exact (h.leaveDue p slot).recordResult slot _
    · exact h
  · exact h

theorem losePending (h : WellKept s) (p : Nat) : WellKept (s.losePending p) := foldl (loseEntry p) _ h

theorem clearTried (h : WellKept s) (t : Nat) : WellKept (s.clearTried t) := by
  refine foldl (fun u slot hu => ?_) _ h
  split
  · exact hu.putEntry slot _
  · exact hu

theorem endRestoring (h : WellKept s) (t : Nat) : WellKept (s.endRestoring t) := (h.putCurtail t _).clearTried t

theorem setOnPending (h : WellKept s) (slot : Nat) (e : CurtailEntry) : WellKept (s.setOnPending slot e) :=
  (h.putEntry slot _).joinDue _ slot

theorem handBack (h : WellKept s) (slot : Nat) : WellKept (s.handBack slot) := by
  unfold State.handBack
  split
  · split
    · exact h.removeEntry slot
    · exact (h.putEntry slot _).setCurtail (h.putEntry slot _).curtail
  · exact h

/-! ### Ports and the advance -/

theorem putLink (h : WellKept s) (p : Nat) (link : LinkState) : WellKept (s.putPort p { s.port p with link := link }) :=
  h.putPort p (q := { s.port p with link := link }) (h.passDown p)

theorem degrade (h : WellKept s) (p : Nat) : WellKept (s.degrade p) := (h.putLink p _).recordFault _ _

theorem wellFormedFrame (h : WellKept s) (p : Nat) : WellKept (s.wellFormedFrame p) := by
  unfold State.wellFormedFrame
  dsimp only
  have hheard := h.putPort p (q := { s.port p with silentPass := 0 }) (h.passDown p)
  split
  · split
    · exact hheard.putLink p _
    · exact hheard.degrade p
  · exact hheard

theorem losePort (h : WellKept s) (p : Nat) : WellKept (s.losePort p) := (h.putLink p _).losePending p

theorem passDown_advanced (q : Port) (n : Epoch) : (q.advanced n).passDown = q.passDown := by
  unfold Port.advanced
  split <;> rfl

theorem signalPort (n : Epoch) (s : State) (p : Nat) (h : WellKept s) : WellKept (State.signalPort n s p) := by
  unfold State.signalPort
  dsimp only
  have hcounted := h.putPort p (q := (s.port p).advanced n) (by rw [passDown_advanced]; exact h.passDown p)
  split
  · exact hcounted.losePort p
  · exact hcounted

theorem advance (h : WellKept s) (n : Epoch) : WellKept (s.advance n) := by
  have hhanded := ((h.setTimer { s.timer with
    epoch := n, refTime := s.now, pass := some { epoch := s.timer.epoch - 1, point := .position 0 } }).setClosing
      h.filling).setFilling canonical_cleared
  exact foldl (signalPort n) _ (foldl ageEntry _ hhanded)

theorem disablePort (h : WellKept s) (p : Nat) : WellKept (s.disablePort p) := by
  have hcleared := ((((h.putPort p (q := Port.initial) (Nat.zero_le _)).setPresence
    (Table.wf_drop _ (fun i => decide (i / 16 = p)) _ h.presence)).setReadings
    (Table.wf_drop _ (fun key => decide (keyPort key = p)) _ h.readings)).setFilling
    (canonical_clearPort _ p h.filling)).setClosing (canonical_clearPort _ p h.closing)
  have hlost := hcleared.losePending p
  unfold State.disablePort
  dsimp only
  split
  · split
    · exact hlost.setMgmt _
    · exact hlost
  · exact hlost

theorem completePass (h : WellKept s) : WellKept s.completePass := by
  unfold State.completePass
  dsimp only
  split
  · exact h.setTimer _
  · refine foldl (fun u p hu => ?_) _ ((h.setTimer _).setTimer _)
    exact hu.putPort p (q := (u.port p).closed u.errorThreshold) (hu.passDown p)

/-! ### Readings, the pass and the close -/

theorem measure (h : WellKept s) (key v : Nat) : WellKept (s.measure key v) :=
  ((h.recordParity _).setReadings (Table.wf_write _ _ _ _ h.readings)).setFilling
    (canonical_charge _ _ _ (canonical_markOutlet _ key h.filling))

theorem takeReadings (pdu : Nat) (readings : List (Nat × Nat)) (seen : List Nat) (h : WellKept s) :
    WellKept (State.takeReadings pdu s seen readings) := by
  induction readings generalizing s seen with
  | nil => exact h
  | cons e rest ih =>
    unfold State.takeReadings
    split
    · exact ih _ h
    · exact ih _ (h.measure _ _)

theorem acceptSample (h : WellKept s) (p position : Nat) (readings : List (Nat × Nat)) (body : List Byte) :
    WellKept (s.acceptSample p position readings body) := by
  unfold State.acceptSample
  dsimp only
  have htaken := takeReadings (p * 16 + position) readings []
    ((h.setFilling (canonical_markPdu _ (p * 16 + position) h.filling)).putPresence (p * 16 + position)
      { state := .present, missed := 0 })
  split
  · exact htaken.offerForward _
  · exact htaken

theorem window (h : WellKept s) (p position : Nat) (e : Epoch) (readings : List (Nat × Nat)) (body : List Byte) :
    WellKept (s.window p position e readings body) := by
  unfold State.window
  split
  · exact h
  · split
    · exact h
    · split
      · split
        · exact h
        · exact h.acceptSample ..
      · exact h.recordFault _ _

theorem switchAnswer (h : WellKept s) (p position outlet : Nat) (tag : BitVec 8) (done : Bool) :
    WellKept (s.switchAnswer p position outlet tag done) := by
  unfold State.switchAnswer
  split
  · exact h.recordResult _ _
  · exact h.recordFault _ _

theorem movePass (h : WellKept s) (point : PassPoint) : WellKept (s.movePass point) := h.setTimer _

theorem sweepOutlet (h : WellKept s) (key : Nat) : WellKept (s.sweepOutlet key) := by
  unfold State.sweepOutlet
  dsimp only
  have hread := (h.recordParity (s.resolutionFaults key)).setReadings (Table.wf_write Reading.initial s.readings key
    { s.readingAt key with age := min 255 ((s.readingAt key).age + 1) } h.readings)
  refine hread.setClosing (canonical_markIncomplete _ _ ?_)
  split
  · exact canonical_charge _ _ _ h.closing
  · exact h.closing

theorem actOnTransition (h : WellKept s) (x : Nat) (tr : Transition) (auto : Bool) :
    WellKept (s.actOnTransition x tr auto) := by
  unfold State.actOnTransition
  cases tr with
  | overToWithin => exact h.putCurtail x _
  | endedHot =>
    dsimp only
    split
    · exact h.endRestoring x
    · exact h
  | becameIdle => exact (h.putCurtail x _).endRestoring x
  | other => exact h

theorem restoreWalk (slots : List Nat) (h : WellKept s) : WellKept (State.restoreWalk s slots).1 := by
  induction slots generalizing s with
  | nil => exact h
  | cons slot rest ih =>
    unfold State.restoreWalk
    split
    · split
      · exact ih (h.removeEntry slot)
      · split
        · exact h.setOnPending slot _
        · exact ih h
    · exact ih h

theorem restoreStep (h : WellKept s) (x : Nat) : WellKept (s.restoreStep x) := by
  have hwalked := h.restoreWalk (s.restoreOrder x)
  unfold State.restoreStep
  dsimp only
  split
  · exact hwalked
  · split
    · exact (hwalked.endRestoring x).putLive x _
    · exact hwalked

theorem makeEntry (h : WellKept s) (x key slot : Nat) : WellKept (s.makeEntry x key slot) := by
  have hmade := (h.putEntry slot (newEntry key x s.curtail.creation)).joinDue (keyPort key) slot
  unfold State.makeEntry
  dsimp only
  generalize (s.putEntry slot (newEntry key x s.curtail.creation)).joinDue (keyPort key) slot = made at hmade ⊢
  exact (hmade.setCurtail (v := { made.curtail with creation := s.curtail.creation + 1 }) hmade.curtail).putCurtail x _

theorem shedStep (h : WellKept s) (x : Nat) : WellKept (s.shedStep x) := by
  have hread := h.recordParity s.badSlots
  unfold State.shedStep
  dsimp only
  split
  · exact hread.putCurtail x _
  · split
    · exact hread.putCurtail x _
    · exact hread.makeEntry x _ _

theorem curtailStep (h : WellKept s) (x : Nat) (tr : Transition) (c : Option Contract) :
    WellKept (s.curtailStep x tr c) := by
  rw [curtailStep_eq]
  have hacted := h.actOnTransition x tr (autoPolicy c)
  split
  · exact hacted.restoreStep x
  · split
    · exact hacted.shedStep x
    · exact hacted

theorem consequence (s : State) (x : Nat) (h : WellKept s) : WellKept (s.consequence x) := by
  have hput := h.putLive x ((s.liveAt x).switched (s.activeAt x).content)
  unfold State.consequence
  dsimp only
  split
  · exact hput
  · split
    · split
      · exact hput.endRestoring x
      · exact hput
    · exact (hput.putCurtail x _).endRestoring x

theorem switchContracts (h : WellKept s) : WellKept s.switchContracts := by
  obtain ⟨_, hstaged, hsummaries⟩ := h.contracts
  exact foldl consequence _ ((h.recordParity _).setContracts ⟨Table.wf_tabulate _ _ _, hstaged, hsummaries⟩)

theorem oweInterval (h : WellKept s) (n : BitVec 32) (switched : Bool) : WellKept (s.oweInterval n switched) := by
  unfold State.oweInterval
  split
  · exact h
  · exact h.setNotices h.notices

theorem closeInterval (h : WellKept s) (n : BitVec 32) : WellKept (s.closeInterval n) := by
  obtain ⟨hactive, hstaged, _⟩ := h.contracts
  have hcaptured : WellKept (s.captureSummaries n) := by
    unfold State.captureSummaries
    exact h.setContracts ⟨hactive, hstaged, Table.wf_tabulate _ _ _⟩
  have hcleared : WellKept (s.captureSummaries n).clearAccumulators := hcaptured.setLive (Table.wf_mapAll _ _ _ _)
  unfold State.closeInterval
  dsimp only
  split
  · exact hcleared.switchContracts.oweInterval n true
  · exact hcleared.oweInterval n false

/-! ### Transmitters and notices -/

theorem startDown (h : WellKept s) (p : Nat) (frame : DownFrame) : WellKept (s.startDown p frame) :=
  h.putPort p (h.passDown p)

theorem startSwitch (h : WellKept s) (p slot : Nat) (e : CurtailEntry) : WellKept (s.startSwitch p slot e) := by
  have hsent := (h.putEntry slot (e.started s.curtail.tagCounter s.commandTimeout)).leaveDue p slot
  unfold State.startSwitch
  dsimp only
  generalize (s.putEntry slot (e.started s.curtail.tagCounter s.commandTimeout)).leaveDue p slot = sent at hsent ⊢
  exact (hsent.setCurtail (v := { sent.curtail with tagCounter := s.curtail.tagCounter + 1 }) hsent.curtail).startDown p _

theorem startUp (h : WellKept s) (kind : UplinkKind) (frame : UplinkFrame) : WellKept (s.startUp kind frame) :=
  h.setUplink h.uplink

theorem settle (h : WellKept s) (item : OwedItem) : WellKept (s.settle item) := by
  obtain ⟨htenant, hport, hpdu, hqueue⟩ := h.notices
  cases item with
  | fault => exact h.setNotices h.notices
  | source => exact h.setNotices h.notices
  | interval => exact h.setNotices h.notices
  | port p => exact h.setNotices ⟨htenant, Table.wf_write _ _ _ _ hport, hpdu, hqueue⟩
  | pdu i => exact h.setNotices ⟨htenant, hport, Table.wf_write _ _ _ _ hpdu, hqueue⟩
  | curtail slot => exact h.handBack slot
  | tenant x => exact h.setNotices ⟨Table.wf_write _ _ _ _ htenant, hport, hpdu, hqueue⟩

/-! ### Commands that are no request -/

theorem restart (s : State) : WellKept s.restart :=
  (wellKept_iff _).mpr ⟨queueBounds_restart s, tablesCanonical_restart s, settingsInRange_restart s⟩

theorem freshPorts (h : WellKept s) (u : State) : WellKept (s.setPorts u.freshPorts) := by
  refine { h with ports := Table.wf_tabulate _ _ _, passDown := fun p => ?_ }
  rw [port_tabulate u.portAfterReset (s.setPorts u.freshPorts) rfl p]
  split <;> exact Nat.zero_le _

theorem settingsInRange_loaded (s : State) (m : Image) : SettingsInRange (s.setSettings (loadedSettings m)) := by
  refine ⟨by simp [loadedSettings], fun i hi => ?_⟩
  have hset : (s.setSettings (loadedSettings m)).setting i
      = clampSetting i (m.settings.getD i (defaultSettings.getD i 0)) := by
    change (loadedSettings m).getD i 0 = _
    simp [loadedSettings, List.getD, hi]
  rw [hset, clampSetting_idem]

theorem canonical_loadedOat (m : Image) : Table.wf absentSlot (loadedOat m) = true := by
  have hfold : ∀ (keys : List Nat) (t : Table (Stored (Option OatEntry))), Table.wf absentSlot t = true →
      Table.wf absentSlot (keys.foldl (fun t key =>
        if keyValid key then Table.write absentSlot t key (fresh (loadedSlot m key)) else t) t) = true := by
    intro keys
    induction keys with
    | nil => exact fun _ h => h
    | cons key rest ih =>
      intro t ht
      refine ih _ ?_
      dsimp only
      split
      · exact Table.wf_write _ _ _ _ ht
      · exact ht
  exact hfold _ _ (Table.wf_nil _)

theorem takeImage (h : WellKept s) (m : Image) : WellKept (s.takeImage m) :=
  (((h.setSettings (settingsInRange_loaded s m)).setOat (canonical_loadedOat m)).setRules
    (Table.wf_tabulate _ _ _)).setContracts ⟨Table.wf_tabulate _ _ _, Table.wf_tabulate _ _ _, Table.wf_nil _⟩

theorem takeDefaults (h : WellKept s) : WellKept s.takeDefaults :=
  (((h.setSettings ⟨rfl, clampSetting_default⟩).setOat (Table.wf_nil _)).setRules (Table.wf_nil _)).setContracts
    ⟨Table.wf_nil _, Table.wf_nil _, Table.wf_nil _⟩

theorem resetAnnounced (s : State) {n : NoticeUnit} (hn : n.queue.length ≤ 8) : (s.resetAnnounced n).wellKept :=
  ⟨Table.wf_nil _, Table.wf_tabulate _ _ _, Table.wf_nil _, hn⟩

theorem loadedWith {filled : State} (hs : WellKept s) (h : WellKept filled) (answer : MemoryAnswer) :
    WellKept (s.loadedWith filled answer) := by
  have htimed := h.setTimer { s.timer with refTime := s.now, mode := sourceOfSetting (filled.setting 1) }
  unfold State.loadedWith
  dsimp only
  generalize State.setTimer filled _ = timed at htimed ⊢
  have hready : WellKept ((timed.setPorts timed.freshPorts).setLive timed.freshLive) :=
    (htimed.freshPorts timed).setLive (Table.wf_tabulate _ _ _)
  generalize (timed.setPorts timed.freshPorts).setLive timed.freshLive = ready at hready ⊢
  have hdone : WellKept ((ready.setNotices (ready.resetAnnounced { s.notices with fault := none })).setMgmt
      { s.mgmt with imageState := s.loadState answer }) :=
    (hready.setNotices (resetAnnounced ready (n := { s.notices with fault := none }) hs.notices.2.2.2)).setMgmt _
  split
  · exact hdone.recordFault _ _
  · exact hdone

theorem imageLoadEnd {elapsed : Nat} {answer : MemoryAnswer} (hs : WellKept s)
    (h : execImageLoadEnd elapsed answer s = .next t) : WellKept t := by
  have hwait : WellKept (s.elapse elapsed) := hs.setNow _
  unfold execImageLoadEnd at h
  dsimp only at h
  generalize s.elapse elapsed = u at h hwait
  split at h <;> obtain rfl := Host.Outcome.next.inj h
  · refine arbitrate ?_
    cases hread : u.imageRead answer with
    | none => rw [endLoad_none u hread]; exact hwait.loadedWith hwait.takeDefaults answer
    | some m => rw [endLoad_some u hread]; exact hwait.loadedWith (hwait.takeImage m) answer
  · exact hwait

theorem strike (h : WellKept s) (parityToo : Bool) (item : Upset) : WellKept (s.strike parityToo item) := by
  obtain ⟨hactive, hstaged, hsummaries⟩ := h.contracts
  cases item with
  | oatSlot key content =>
    unfold State.strike
    dsimp only
    split
    · exact h.setOat (Table.wf_write _ _ _ _ h.oat)
    · exact h
  | rule n content =>
    unfold State.strike
    dsimp only
    split
    · exact h.setRules (Table.wf_write _ _ _ _ h.rules)
    · exact h
  | active x content =>
    unfold State.strike
    dsimp only
    split
    · exact h.setContracts ⟨Table.wf_write _ _ _ _ hactive, hstaged, hsummaries⟩
    · exact h
  | staged x content =>
    unfold State.strike
    dsimp only
    split
    · exact h.setContracts ⟨hactive, Table.wf_write _ _ _ _ hstaged, hsummaries⟩
    · exact h

theorem saveEnd {outcome : SaveOutcome} (hs : WellKept s) (h : execSaveEnd outcome s = .next t) : WellKept t := by
  unfold execSaveEnd at h
  split at h <;> obtain rfl := Host.Outcome.next.inj h
  · exact (((hs.setMgmt _).setExtMemory _).respond _ _).arbitrate
  · exact hs

/-! #### Time -/

theorem internalAdvance {elapsed : Nat} (hs : WellKept s) (h : execInternalAdvance elapsed s = .next t) : WellKept t := by
  have hwait : WellKept (s.elapse elapsed) := hs.setNow _
  unfold execInternalAdvance at h
  dsimp only at h
  generalize s.elapse elapsed = u at h hwait
  split at h <;> obtain rfl := Host.Outcome.next.inj h
  · exact (hwait.advance _).arbitrate
  · exact hwait

theorem lossExpiry {elapsed : Nat} (hs : WellKept s) (h : execLossExpiry elapsed s = .next t) : WellKept t := by
  have hwait : WellKept (s.elapse elapsed) := hs.setNow _
  unfold execLossExpiry at h
  dsimp only at h
  generalize s.elapse elapsed = u at h hwait
  split at h <;> obtain rfl := Host.Outcome.next.inj h
  · exact (((hwait.setTimer _).advance _).recordFault _ _).arbitrate
  · exact hwait

theorem epoch {elapsed : Nat} {body : List Byte} (hs : WellKept s) (h : execEpoch elapsed body s = .next t) :
    WellKept t := by
  have hwait : WellKept (s.elapse elapsed) := hs.setNow _
  unfold execEpoch at h
  dsimp only at h
  generalize s.elapse elapsed = u at h hwait
  split at h
  · obtain rfl := Host.Outcome.next.inj h; exact hwait
  · split at h
    · obtain rfl := Host.Outcome.next.inj h; exact hwait
    · split at h <;> obtain rfl := Host.Outcome.next.inj h
      · exact hwait.recordFault _ _
      · exact (hwait.advance _).arbitrate

theorem commandTimeout {slot : Nat} (hs : WellKept s) (h : execCommandTimeout slot s = .next t) : WellKept t := by
  unfold execCommandTimeout at h
  split at h
  · split at h <;> obtain rfl := Host.Outcome.next.inj h
    · exact (hs.timeOut slot _).arbitrate
    · exact hs
  · obtain rfl := Host.Outcome.next.inj h; exact hs

theorem portLost {p : Nat} (hs : WellKept s) (h : execPortLost p s = .next t) : WellKept t := by
  unfold execPortLost at h
  split at h <;> obtain rfl := Host.Outcome.next.inj h
  · exact (hs.losePort p).arbitrate
  · exact hs

/-! #### The pass and the close -/

theorem holdSweepPosition (hs : WellKept s) (h : execHoldSweepPosition s = .next t) : WellKept t := by
  unfold execHoldSweepPosition at h
  split at h <;> obtain rfl := Host.Outcome.next.inj h
  · exact (hs.putPresence _ _).movePass _
  · exact hs

theorem holdSweepOutlet (hs : WellKept s) (h : execHoldSweepOutlet s = .next t) : WellKept t := by
  unfold execHoldSweepOutlet at h
  split at h <;> obtain rfl := Host.Outcome.next.inj h
  · exact (hs.sweepOutlet _).movePass _
  · exact hs

theorem tenantEvaluation (hs : WellKept s) (h : execTenantEvaluation s = .next t) : WellKept t := by
  unfold execTenantEvaluation at h
  split at h <;> obtain rfl := Host.Outcome.next.inj h
  · exact ((hs.recordParity _).putLive _ _).movePass _
  · exact hs

theorem curtailmentStep (hs : WellKept s) (h : execCurtailmentStep s = .next t) : WellKept t := by
  unfold execCurtailmentStep at h
  split at h
  · next x tr c _ =>
    have hstep := hs.curtailStep x tr c
    generalize s.curtailStep x tr c = u at h hstep
    dsimp only at h
    split at h <;> obtain rfl := Host.Outcome.next.inj h
    · exact (hstep.movePass _).arbitrate
    · exact hstep.completePass.arbitrate
  · obtain rfl := Host.Outcome.next.inj h; exact hs

theorem intervalClose (hs : WellKept s) (h : execIntervalClose s = .next t) : WellKept t := by
  unfold execIntervalClose at h
  split at h <;> obtain rfl := Host.Outcome.next.inj h
  · exact (hs.setTimer _).closeInterval _
  · exact hs

/-! #### Frames received -/

theorem sample {p : Nat} {body : List Byte} (hs : WellKept s) (h : execSample p body s = .next t) : WellKept t := by
  unfold execSample at h
  dsimp only at h
  split at h
  · obtain rfl := Host.Outcome.next.inj h; exact hs
  · split at h <;> obtain rfl := Host.Outcome.next.inj h
    · exact ((hs.wellFormedFrame p).window ..).arbitrate
    · exact (hs.wellFormedFrame p).arbitrate

theorem chainMalformedFrame {p : Nat} (hs : WellKept s) (h : execChainMalformedFrame p s = .next t) : WellKept t := by
  have hcounted := hs.putPort p (q := { s.port p with errorCount := min 65535 ((s.port p).errorCount + 1) }) (hs.passDown p)
  unfold execChainMalformedFrame at h
  dsimp only at h
  split at h
  · obtain rfl := Host.Outcome.next.inj h; exact hs
  · split at h <;> obtain rfl := Host.Outcome.next.inj h
    · exact hcounted.degrade p
    · exact hcounted

theorem switchAck {p : Nat} {body : List Byte} (hs : WellKept s) (h : execSwitchAck p body s = .next t) : WellKept t := by
  unfold execSwitchAck at h
  dsimp only at h
  split at h
  · obtain rfl := Host.Outcome.next.inj h; exact hs
  · split at h <;> obtain rfl := Host.Outcome.next.inj h
    · exact ((hs.wellFormedFrame p).switchAnswer ..).arbitrate
    · exact (hs.wellFormedFrame p).arbitrate

theorem pduReply {p : Nat} {body : List Byte} (hs : WellKept s) (h : execPduReply p body s = .next t) : WellKept t := by
  unfold execPduReply at h
  dsimp only at h
  split at h
  · obtain rfl := Host.Outcome.next.inj h; exact hs
  · split at h <;> obtain rfl := Host.Outcome.next.inj h
    · exact (hs.wellFormedFrame p).arbitrate
    · exact ((hs.wellFormedFrame p).offerForward _).arbitrate

theorem chainRequest {p : Nat} {body : List Byte} (hs : WellKept s) (h : execChainRequest p body s = .next t) :
    WellKept t := by
  unfold execChainRequest at h
  dsimp only at h
  split at h
  · obtain rfl := Host.Outcome.next.inj h; exact hs
  · split at h <;> obtain rfl := Host.Outcome.next.inj h
    · exact ((hs.wellFormedFrame p).offerRequest _).arbitrate
    · exact (hs.wellFormedFrame p).arbitrate

theorem uplinkRequest {body : List Byte} (hs : WellKept s) (h : execUplinkRequest body s = .next t) : WellKept t := by
  unfold execUplinkRequest at h
  split at h <;> obtain rfl := Host.Outcome.next.inj h
  · exact hs.offerRequest _
  · exact hs

theorem pduPass {body : List Byte} (hs : WellKept s) (h : execPduPass body s = .next t) : WellKept t := by
  unfold execPduPass at h
  split at h <;> obtain rfl := Host.Outcome.next.inj h
  · refine arbitrate ?_
    unfold State.relay
    split
    · exact hs
    · split
      · exact hs
      · exact hs.offerPassDown _ _
  · exact hs

/-! #### Transmitters and notices -/

theorem markSend {p : Nat} (hs : WellKept s) (h : execMarkSend p s = .next t) : WellKept t := by
  unfold execMarkSend at h
  split at h <;> obtain rfl := Host.Outcome.next.inj h
  · exact ((hs.putPort p (q := { s.port p with dueMark := none }) (hs.passDown p)).startDown p _).arbitrate
  · exact hs

theorem switchSend {p : Nat} (hs : WellKept s) (h : execSwitchSend p s = .next t) : WellKept t := by
  unfold execSwitchSend at h
  split at h
  · split at h <;> obtain rfl := Host.Outcome.next.inj h
    · exact (hs.startSwitch p _ _).arbitrate
    · exact hs
  · obtain rfl := Host.Outcome.next.inj h; exact hs

theorem passDownSend {p : Nat} (hs : WellKept s) (h : execPassDownSend p s = .next t) : WellKept t := by
  unfold execPassDownSend at h
  split at h
  · next frame rest _ hqueue =>
    obtain rfl := Host.Outcome.next.inj h
    have hlength := hs.passDown p
    rw [hqueue, List.length_cons] at hlength
    exact ((hs.putPort p (q := { s.port p with passDown := rest }) (by dsimp only; omega)).startDown p _).arbitrate
  · obtain rfl := Host.Outcome.next.inj h; exact hs

theorem downFrameEnd {p : Nat} (hs : WellKept s) (h : execDownFrameEnd p s = .next t) : WellKept t := by
  have hidle := hs.putPort p (q := { s.port p with tx := none }) (hs.passDown p)
  unfold execDownFrameEnd at h
  split at h
  · dsimp only at h
    split at h <;> obtain rfl := Host.Outcome.next.inj h
    · exact (hidle.setMgmt _).arbitrate
    · exact hidle.arbitrate
  · obtain rfl := Host.Outcome.next.inj h; exact hs

theorem uplinkFrameStart (hs : WellKept s) (h : execUplinkFrameStart s = .next t) : WellKept t := by
  obtain ⟨hrequests, hresponses, hforwards⟩ := hs.uplink
  obtain ⟨htenant, hport, hpdu, hqueue⟩ := hs.notices
  unfold execUplinkFrameStart at h
  split at h
  · split at h <;> obtain rfl := Host.Outcome.next.inj h
    · next heq =>
      rw [heq, List.length_cons] at hresponses
      refine startUp (setUplink hs ?_) _ _
      exact ⟨hrequests, Nat.le_of_succ_le hresponses, hforwards⟩
    · exact hs
  · split at h <;> obtain rfl := Host.Outcome.next.inj h
    · next heq =>
      rw [heq, List.length_cons] at hqueue
      refine startUp (setNotices hs ?_) _ _
      exact ⟨htenant, hport, hpdu, Nat.le_of_succ_le hqueue⟩
    · exact hs
  · split at h <;> obtain rfl := Host.Outcome.next.inj h
    · next heq =>
      rw [heq, List.length_cons] at hforwards
      refine startUp (setUplink hs ?_) _ _
      exact ⟨hrequests, hresponses, Nat.le_of_succ_le hforwards⟩
    · exact hs
  · obtain rfl := Host.Outcome.next.inj h; exact hs

theorem uplinkFrameEnd (hs : WellKept s) (h : execUplinkFrameEnd s = .next t) : WellKept t := by
  have hidle := hs.setUplink (v := { s.uplink with tx := none }) hs.uplink
  unfold execUplinkFrameEnd at h
  split at h
  · dsimp only at h
    split at h <;> obtain rfl := Host.Outcome.next.inj h
    · exact (hidle.setMgmt _).arbitrate
    · exact hidle.arbitrate
  · obtain rfl := Host.Outcome.next.inj h; exact hs

theorem noticeQueuing (hs : WellKept s) (h : execNoticeQueuing s = .next t) : WellKept t := by
  unfold execNoticeQueuing at h
  split at h
  · next hroom =>
    split at h
    · next item _ =>
      split at h <;> obtain rfl := Host.Outcome.next.inj h
      · have hsettled := hs.settle item
        obtain ⟨htenant, hport, hpdu, _⟩ := hsettled.notices
        refine arbitrate (setNotices hsettled ⟨htenant, hport, hpdu, ?_⟩)
        rw [List.length_append]
        exact hroom.1
      · exact hs
    · obtain rfl := Host.Outcome.next.inj h; exact hs
  · obtain rfl := Host.Outcome.next.inj h; exact hs

theorem keptResponseOffer (hs : WellKept s) (h : execKeptResponseOffer s = .next t) : WellKept t := by
  obtain ⟨hrequests, _, hforwards⟩ := hs.uplink
  unfold execKeptResponseOffer at h
  split at h
  · split at h <;> obtain rfl := Host.Outcome.next.inj h
    · next hroom =>
      refine arbitrate (setUplink (setMgmt hs _) ⟨hrequests, ?_, hforwards⟩)
      rw [List.length_append]
      exact hroom
    · exact hs
  · obtain rfl := Host.Outcome.next.inj h; exact hs

/-! ### Requests -/

theorem copyNext (h : WellKept s) (j : ReadJob) : WellKept (s.copyNext j) := by
  have hcopied : WellKept (s.copyEntry j.table (j.first + j.done)).1 := by
    have hstored : ∀ {α : Type} (item : Stored α) (loc : Location) (bytes : α → List Byte) (n : Nat),
        WellKept (s.copyStored item loc bytes n).1 := by
      intro α item loc bytes n
      unfold State.copyStored
      split
      · exact h
      · exact h.recordFault _ _
    unfold State.copyEntry
    dsimp only
    split
    · exact h
    · exact hstored ..
    · exact hstored ..
    · exact hstored ..
    · exact hstored ..
    · unfold State.copyTenant
      dsimp only
      split
      · exact h.setFreeCount _
      · exact h
    · exact h
    · exact h
    · exact h
    · exact h
  unfold State.copyNext
  dsimp only
  split
  · exact (hcopied.setMgmt _).respond _ _
  · exact hcopied.setMgmt _

theorem storeSetting (h : WellKept s) {i v : Nat} (hv : v = clampSetting i v) : WellKept (s.storeSetting i v) := by
  obtain ⟨hlength, hrange⟩ := h.settings
  refine h.setSettings ⟨(List.length_set ..).trans hlength, fun k hk => ?_⟩
  have hread : (s.setSettings (s.settings.set i v)).setting k = if i = k then v else s.setting k := by
    change (s.settings.set i v).getD k 0 = if i = k then v else s.settings.getD k 0
    have hk' : k < s.settings.length := by omega
    simp only [List.getD_eq_getElem?_getD, List.getElem?_set]
    split
    · next hik => subst hik; simp [hk']
    · rfl
  rw [hread]
  split
  · next hik => subst hik; exact hv.symm
  · exact hrange k hk

theorem writeSettingWith {effect : Nat → Nat → Nat → State → State}
    (heffect : ∀ i old v u, WellKept u → WellKept (effect i old v u)) (r : Request) (h : WellKept s) :
    WellKept (State.writeSettingWith effect r s) := by
  obtain ⟨status, hwork⟩ | ⟨i, v, data, _, hwork, hv⟩ := writeSettingWith_cases effect r s <;> rw [hwork]
  · exact h.answer r _ _
  · exact (heffect _ _ _ _ (h.storeSetting hv)).answer r _ _

theorem epochSourceEffect (i old v : Nat) (u : State) (h : WellKept u) :
    WellKept (Machine.epochSourceEffect i old v u) := by
  have hmoved : WellKept (u.setSource v) := h.setTimer _
  unfold Machine.epochSourceEffect
  dsimp only
  split
  · exact hmoved.advance _
  · exact hmoved

theorem portDisableEffect (i old v : Nat) (u : State) (h : WellKept u) :
    WellKept (Machine.portDisableEffect i old v u) := by
  unfold Machine.portDisableEffect
  split
  · exact h
  · exact h.disablePort _

theorem portEnableEffect (i old v : Nat) (u : State) (h : WellKept u) :
    WellKept (Machine.portEnableEffect i old v u) := by
  unfold Machine.portEnableEffect
  split
  · exact h.putPort _ (Nat.zero_le _)
  · exact h

theorem errorThresholdEffect (i old v : Nat) (u : State) (h : WellKept u) :
    WellKept (Machine.errorThresholdEffect i old v u) := by
  refine foldl (fun u p hu => ?_) _ h
  unfold State.testThreshold
  split
  · exact hu.degrade p
  · exact hu

theorem noticeMaskEffect (i old v : Nat) (u : State) (h : WellKept u) :
    WellKept (Machine.noticeMaskEffect i old v u) := by
  obtain ⟨_, hrecords, hdue⟩ := h.curtail
  unfold Machine.noticeMaskEffect
  split
  · split
    · exact h.setNotices h.notices
    · split
      · unfold State.dropCurtailDebts
        refine setCurtail h ⟨?_, hrecords, hdue⟩
        dsimp only
        exact Table.wf_mapAll _ _ _ _
      · exact h
  · exact h

theorem liveReset (h : WellKept s) : WellKept s.liveReset := by
  obtain ⟨hactive, hstaged, _⟩ := h.contracts
  have hports := h.freshPorts s
  have hread := h.recordParity (badContracts .active s.activeAt)
  exact ⟨hports.ports, hports.passDown, Table.wf_nil _, hread.oat, hread.rules, Table.wf_nil _, canonical_cleared, canonical_cleared,
    Table.wf_tabulate _ _ _, ⟨hactive, hstaged, Table.wf_nil _⟩, ⟨Table.wf_nil _, Table.wf_nil _, Table.wf_nil _⟩,
    resetAnnounced s (Nat.zero_le _), ⟨Nat.zero_le _, Nat.zero_le _, Nat.zero_le _⟩,
    hread.settings⟩

/-- A request command keeps the laws where its work does. -/
theorem onRequest {row : RequestRow} {work : Request → State → State} (hs : WellKept s)
    (hwork : ∀ r u, WellKept u → WellKept (work r u)) (h : s.onRequest row work = .next t) : WellKept t :=
  onRequest_preserves (fun _ hu => hu.popRequest) (fun _ _ _ hu => hu.respond _ _) (fun _ hu => hu.arbitrate)
    (fun r u _ _ hu => hwork r u hu) hs h

theorem readEntry (hs : WellKept s) (h : execReadEntry s = .next t) : WellKept t := by
  unfold execReadEntry at h
  split at h
  · obtain rfl := Host.Outcome.next.inj h
    exact (hs.copyNext _).arbitrate
  · refine hs.onRequest (fun r u hu => ?_) h
    unfold State.startRead
    dsimp only
    split
    · exact hu.answer r _ _
    · split
      · exact hu.answer r _ _
      · split
        · exact hu.answer r _ _
        · exact hu.copyNext _

theorem writeOatRequest (r : Request) (u : State) (h : WellKept u) : WellKept (State.writeOatRequest r u) := by
  unfold State.writeOatRequest
  dsimp only
  split
  · exact h.answer r _ _
  · split
    · exact h.answer r _ _
    · split
      · exact h.answer r _ _
      · exact (h.setOat (Table.wf_write _ _ _ _ h.oat)).answer r _ _

theorem clearOatRequest (r : Request) (u : State) (h : WellKept u) : WellKept (State.clearOatRequest r u) := by
  unfold State.clearOatRequest
  dsimp only
  split
  · exact h.answer r _ _
  · split
    · exact h.answer r _ _
    · exact (h.setOat (Table.wf_write _ _ _ _ h.oat)).answer r _ _

theorem writeRuleRequest (r : Request) (u : State) (h : WellKept u) : WellKept (State.writeRuleRequest r u) := by
  unfold State.writeRuleRequest
  dsimp only
  split
  · exact h.answer r _ _
  · split
    · exact h.answer r _ _
    · exact (h.setRules (Table.wf_write _ _ _ _ h.rules)).answer r _ _

theorem writeStagedRequest (r : Request) (u : State) (h : WellKept u) : WellKept (State.writeStagedRequest r u) := by
  obtain ⟨hactive, hstaged, hsummaries⟩ := h.contracts
  unfold State.writeStagedRequest
  dsimp only
  split
  · exact h.answer r _ _
  · split
    · exact h.answer r _ _
    · refine answer (setContracts h ?_) r _ _
      exact ⟨hactive, Table.wf_write _ _ _ _ hstaged, hsummaries⟩

theorem resolveRequest (r : Request) (u : State) (h : WellKept u) : WellKept (State.resolveRequest r u) := by
  unfold State.resolveRequest
  dsimp only
  split
  · exact h.answer r _ _
  · exact (h.recordParity _).answer r _ _

theorem restoreTenantRequest (r : Request) (u : State) (h : WellKept u) :
    WellKept (State.restoreTenantRequest r u) := by
  unfold State.restoreTenantRequest
  dsimp only
  split
  · exact h.answer r _ _
  · exact ((h.putCurtail _ _).putLive _ _).answer r _ _

theorem restoreOutletRequest (r : Request) (u : State) (h : WellKept u) :
    WellKept (State.restoreOutletRequest r u) := by
  unfold State.restoreOutletRequest
  split
  · exact h.answer r _ _
  · split
    · exact h.answer r _ _
    · split
      · exact h.answer r _ _
      · split
        · exact (h.removeEntry _).answer r _ _
        · split
          · exact h.answer r _ _
          · exact (h.setOnPending _ _).answer r _ _

theorem discardRequest (r : Request) (u : State) (h : WellKept u) : WellKept (State.discardRequest r u) := by
  unfold State.discardRequest
  split
  · exact h.answer r _ _
  · split
    · exact h.answer r _ _
    · exact (h.removeEntry _).answer r _ _

/-! ### Every command -/

theorem request {c : Instr} {row : RequestRow} (hc : c.takes = some row) (hs : WellKept s) (h : exec c s = .next t) :
    WellKept t := by
  cases c <;> cases hc
  case readEntry => exact hs.readEntry h
  case writeEntryOat => exact hs.onRequest writeOatRequest h
  case oatClear => exact hs.onRequest clearOatRequest h
  case writeEntryRules => exact hs.onRequest writeRuleRequest h
  case writeEntryStaged => exact hs.onRequest writeStagedRequest h
  case writeEpochSource elapsed =>
    exact (hs.setNow _).onRequest (fun r u hu => hu.writeSettingWith epochSourceEffect r) h
  case portDisable => exact hs.onRequest (fun r u hu => hu.writeSettingWith portDisableEffect r) h
  case portEnable => exact hs.onRequest (fun r u hu => hu.writeSettingWith portEnableEffect r) h
  case writeErrorThreshold => exact hs.onRequest (fun r u hu => hu.writeSettingWith errorThresholdEffect r) h
  case writeNoticeMask => exact hs.onRequest (fun r u hu => hu.writeSettingWith noticeMaskEffect r) h
  case writeSetting => exact hs.onRequest (fun r u hu => hu.writeSettingWith (fun _ _ _ _ hw => hw) r) h
  case resolve => exact hs.onRequest resolveRequest h
  case commit | cancelCommit =>
    refine hs.onRequest (fun r u hu => answer (setContracts hu ?_) r _ _) h
    exact hu.contracts
  case copyActiveToStaged =>
    refine hs.onRequest (fun r u hu => answer (setContracts (recordParity hu _) ?_) r _ _) h
    obtain ⟨hactive, _, hsummaries⟩ := hu.contracts
    exact ⟨hactive, Table.wf_tabulate _ _ _, hsummaries⟩
  case restoreTenant => exact hs.onRequest restoreTenantRequest h
  case restoreOutlet => exact hs.onRequest restoreOutletRequest h
  case discard => exact hs.onRequest discardRequest h
  case clearFault => exact hs.onRequest (fun r u hu => (hu.setFault none).answer r _ _) h
  case readStatus | unknownRequestCode | writeEntryBadTable => exact hs.onRequest (fun r u hu => hu.answer r _ _) h
  case saveImage => exact hs.onRequest (fun r u hu => (hu.recordParity _).setMgmt _) h
  case resetLive => exact hs.onRequest (fun r u hu => hu.liveReset.answer r _ _) h
  case resetFull =>
    refine hs.onRequest (fun r u hu => ?_) h
    have hanswered := hu.answer r .ok []
    unfold State.grantReset
    dsimp only
    generalize u.answer r .ok [] = v at hanswered ⊢
    exact hanswered.setMgmt _

theorem event {c : Instr} (hc : c.takes = none) (hs : WellKept s) (h : exec c s = .next t) : WellKept t := by
  cases c <;> cases hc
  case powerOn => cases h; exact restart s
  case imageLoadEnd => exact hs.imageLoadEnd h
  case internalAdvance => exact hs.internalAdvance h
  case lossExpiry => exact hs.lossExpiry h
  case epoch => exact hs.epoch h
  case commandTimeout => exact hs.commandTimeout h
  case portLost => exact hs.portLost h
  case holdSweepPosition => exact hs.holdSweepPosition h
  case holdSweepOutlet => exact hs.holdSweepOutlet h
  case tenantEvaluation => exact hs.tenantEvaluation h
  case curtailmentStep => exact hs.curtailmentStep h
  case intervalClose => exact hs.intervalClose h
  case sample => exact hs.sample h
  case chainMalformedFrame => exact hs.chainMalformedFrame h
  case switchAck => exact hs.switchAck h
  case pduReply => exact hs.pduReply h
  case chainRequest => exact hs.chainRequest h
  case uplinkRequest => exact hs.uplinkRequest h
  case pduPass => exact hs.pduPass h
  case uplinkFrameError => cases h; exact hs.recordFault _ _
  case markSend => exact hs.markSend h
  case switchSend => exact hs.switchSend h
  case passDownSend => exact hs.passDownSend h
  case downFrameEnd => exact hs.downFrameEnd h
  case uplinkFrameStart => exact hs.uplinkFrameStart h
  case uplinkFrameEnd => exact hs.uplinkFrameEnd h
  case noticeQueuing => exact hs.noticeQueuing h
  case keptResponseOffer => exact hs.keptResponseOffer h
  case saveEnd => exact hs.saveEnd h
  case resetFullStart =>
    change execResetFullStart s = _ at h
    unfold execResetFullStart at h
    split at h <;> obtain rfl := Host.Outcome.next.inj h
    · exact restart s
    · exact hs
  case storageUpset item parityToo => cases h; exact hs.strike parityToo item

theorem exec (c : Instr) (hs : WellKept s) (h : Machine.exec c s = .next t) : WellKept t := by
  cases hc : c.takes with
  | none => exact hs.event hc h
  | some row => exact hs.request hc h

end WellKept

end Sys2Proof.Machine

open Sys2Proof Sys2Proof.Machine

/-- Settles O53: every unit's part of the law is kept by every operation on it, and so by every command. -/
theorem stepKeepsQueuesTablesAndSettings : Obligations.StepKeepsQueuesTablesAndSettings := by
  intro s t hqueues htables hsettings hstep
  have hs := (wellKept_iff s).mpr ⟨hqueues, htables, hsettings⟩
  exact (wellKept_iff t).mp (step_keeps (P := WellKept) (fun u rest hu => hu.setPending rest)
    (fun c u v hu h => hu.exec c h) hs hstep)

end

