-- ==== Sys2Proof/Proofs/Loads.lean ====
section
/-! PROOF. The end of an image load, without and with a good image, and what a save followed by a load gives back (R13,
R36, R99, R154, R178 to R183). -/

namespace Sys2Proof.Machine

/-! ### The load's event -/

/-- R180: the fault record after a load. -/
def State.loadFault (s : State) (answer : MemoryAnswer) : Option FaultRecord :=
  if s.loadState answer = .invalid then some { cls := .imageInvalid, location := .none, epoch := s.timer.epoch } else none

/-- R180: what a load leaves in every block, for the settings and tables that `filled` holds. -/
structure LoadOutcome (s filled : State) (answer : MemoryAnswer) (t : State) : Prop where
  mgmt : t.mgmt = { s.mgmt with imageState := s.loadState answer }
  settings : t.settings = filled.settings
  oat : t.oat = filled.oat
  rules : t.rules = filled.rules
  contracts : t.contracts = filled.contracts
  timer : t.timer = { s.timer with refTime := s.now, mode := sourceOfSetting (filled.setting 1) }
  port : ∀ p, p < 4 → (t.port p).core = filled.portAfterReset p
  live : ∀ x, t.liveAt x = if 1 ≤ x ∧ x ≤ 127 then freshRecord (filled.activeAt x) else LiveRecord.idle
  notices : t.notices = { filled.resetAnnounced s.notices with
    fault := s.loadFault answer }

section
variable {s filled t : State} {answer : MemoryAnswer}

theorem notices_loadedWith (s filled : State) (answer : MemoryAnswer) : (s.loadedWith filled answer).notices =
    { filled.resetAnnounced s.notices with fault := s.loadFault answer } := by
  unfold State.loadedWith State.loadFault
  dsimp only
  split <;> rfl

theorem ports_loadedWith (s filled : State) (answer : MemoryAnswer) :
    (s.loadedWith filled answer).ports = Table.tabulate Port.initial 4 filled.portAfterReset := by
  unfold State.loadedWith
  dsimp only
  split <;> rfl

/-- The parts that the load only copies. -/
theorem taken_loadedWith (s filled : State) (answer : MemoryAnswer) :
    (s.loadedWith filled answer).mgmt = { s.mgmt with imageState := s.loadState answer }
      ∧ (s.loadedWith filled answer).settings = filled.settings ∧ (s.loadedWith filled answer).oat = filled.oat
      ∧ (s.loadedWith filled answer).rules = filled.rules ∧ (s.loadedWith filled answer).timer
        = { s.timer with refTime := s.now, mode := sourceOfSetting (filled.setting 1) } := by
  have hfault : ∀ u : State, (u.recordFault .imageInvalid .none).mgmt = u.mgmt
      ∧ (u.recordFault .imageInvalid .none).settings = u.settings ∧ (u.recordFault .imageInvalid .none).oat = u.oat
      ∧ (u.recordFault .imageInvalid .none).rules = u.rules ∧ (u.recordFault .imageInvalid .none).timer = u.timer := by
    intro u
    have hsame := same_recordFault u .imageInvalid .none
    exact ⟨hsame .mgmt (by decide), hsame .settings (by decide), hsame .oat (by decide), hsame .rules (by decide),
      hsame .timer (by decide)⟩
  unfold State.loadedWith
  dsimp only
  split
  · obtain ⟨hmgmt, hsettings, hoat, hrules, htimer⟩ := hfault (State.setMgmt _ _)
    exact ⟨hmgmt, hsettings, hoat, hrules, htimer⟩
  · exact ⟨rfl, rfl, rfl, rfl, rfl⟩

theorem loadOutcome_loadedWith (s filled : State) (answer : MemoryAnswer) :
    LoadOutcome s filled answer (s.loadedWith filled answer).arbitrate := by
  obtain ⟨hmgmt, hsettings, hoat, hrules, htimer⟩ := taken_loadedWith s filled answer
  obtain ⟨hlive, hcontracts⟩ := loadedWith_live (s := s) filled answer
  have hports := ports_loadedWith s filled answer
  have hnotices := notices_loadedWith s filled answer
  generalize s.loadedWith filled answer = u at *
  refine ⟨(arbitrate_mgmt u).trans hmgmt, (arbitrate_settings u).trans hsettings, (arbitrate_oat u).trans hoat,
    (arbitrate_rules u).trans hrules, (arbitrate_contracts u).trans hcontracts, (arbitrate_timer u).trans htimer,
    fun p hp => ?_, fun x => ?_, (arbitrate_notices u).trans hnotices⟩
  · rw [core_port_arbitrate, port_tabulate _ _ hports, if_pos hp]
    rfl
  · exact (liveAt_of_same (same_arbitrate u) (by decide) x).trans (liveAt_fresh filled hlive x)

/-- The load ends in the event; its end is the moment that the elapsed time reaches. -/
theorem now_imageLoadEnd (s : State) (elapsed : Nat) (answer : MemoryAnswer) :
    ((s.elapse elapsed).endLoad answer).arbitrate.now = s.now + elapsed :=
  (arbitrate_now _).trans (same_endLoad _ answer .now (by decide))

/-- The event as a whole: time passes, the load ends, the transmitters choose. -/
theorem exec_imageLoadEnd {elapsed : Nat} (hload : s.mgmt.imageState = .loading) :
    exec (.imageLoadEnd elapsed answer) s = .next ((s.elapse elapsed).endLoad answer).arbitrate := by
  change execImageLoadEnd elapsed answer s = _
  unfold execImageLoadEnd
  exact if_pos hload

theorem LoadOutcome.ruleAt (h : LoadOutcome s filled answer t) (n : Nat) : t.ruleAt n = filled.ruleAt n := by
  unfold State.ruleAt
  rw [h.rules]

theorem LoadOutcome.slotAt (h : LoadOutcome s filled answer t) (k : Nat) : t.slotAt k = filled.slotAt k := by
  unfold State.slotAt
  rw [h.oat]

theorem LoadOutcome.activeAt (h : LoadOutcome s filled answer t) (x : Nat) : t.activeAt x = filled.activeAt x := by
  unfold State.activeAt
  rw [h.contracts]

theorem LoadOutcome.stagedAt (h : LoadOutcome s filled answer t) (x : Nat) : t.stagedAt x = filled.stagedAt x := by
  unfold State.stagedAt
  rw [h.contracts]

theorem LoadOutcome.setting (h : LoadOutcome s filled answer t) (i : Nat) : t.setting i = filled.setting i := by
  unfold State.setting
  rw [h.settings]

/-- R154: the announced ports stand as their enable settings say. -/
theorem LoadOutcome.annPort (h : LoadOutcome s filled answer t) {p : Nat} (hp : p < 4) :
    Table.read .disabled t.notices.annPort p = if filled.portEnabled p then .down else .disabled := by
  rw [h.notices]
  exact (Table.read_tabulate ..).trans (if_pos hp)

end

/-! ### What an image holds -/

section
variable {α : Type}

theorem pairwise_of_indicesRise {ok : Nat → Bool} {keys : List Nat} (h : indicesRise ok keys = true) :
    keys.Pairwise (· < ·) ∧ ∀ k ∈ keys, ok k = true := by
  induction keys with
  | nil => exact ⟨.nil, fun k hk => by cases hk⟩
  | cons a rest ih =>
    cases rest with
    | nil => exact ⟨List.pairwise_singleton _ _, fun k hk => by obtain rfl := List.mem_singleton.mp hk; exact h⟩
    | cons b rest =>
      simp only [indicesRise, Bool.and_eq_true, decide_eq_true_eq] at h
      obtain ⟨⟨ha, hab⟩, hrise⟩ := h
      obtain ⟨hpair, hok⟩ := ih hrise
      refine ⟨List.pairwise_cons.mpr ⟨fun k hk => ?_, hpair⟩, fun k hk => ?_⟩
      · obtain rfl | hk := List.mem_cons.mp hk
        · exact hab
        · exact Nat.lt_trans hab ((List.pairwise_cons.mp hpair).1 k hk)
      · obtain rfl | hk := List.mem_cons.mp hk
        · exact ha
        · exact hok k hk

/-- What a list of keyed items holds for a key it does not list. -/
theorem read_listed_none {l : List (Nat × α)} {k : Nat} (h : ∀ e, (k, e) ∉ l) :
    Table.read none (l.map (fun e => (e.1, some e.2))) k = none := by
  refine Table.read_of_absent _ _ _ fun e he hk => ?_
  obtain ⟨f, hf, rfl⟩ := List.mem_map.mp he
  exact h f.2 (hk ▸ hf)

/-- What a list of items with distinct keys holds for a key it lists. -/
theorem read_listed_some {l : List (Nat × α)} {k : Nat} {e : α} (hkeys : (l.map Prod.fst).Pairwise (· < ·))
    (h : (k, e) ∈ l) : Table.read none (l.map (fun e => (e.1, some e.2))) k = some e := by
  induction l with
  | nil => cases h
  | cons a rest ih =>
    obtain ⟨hfirst, hrest⟩ := List.pairwise_cons.mp hkeys
    rw [List.map_cons, Table.read_cons]
    obtain rfl | hmem := List.mem_cons.mp h
    · rw [if_pos rfl]
    · have hlt := hfirst k (List.mem_map.mpr ⟨_, hmem, rfl⟩)
      rw [if_neg (by omega)]
      exact ih hrest hmem

/-- A list made from keyed items, whose values depend on the key alone. -/
theorem read_listed_filterMap {β : Type} (l : List (Nat × β)) (f : Nat → Option α) (k : Nat) :
    Table.read none ((l.filterMap (fun e => (f e.1).map (fun o => (e.1, o)))).map (fun e => (e.1, some e.2))) k
      = if k ∈ l.map Prod.fst then f k else none := by
  induction l with
  | nil => rfl
  | cons a rest ih =>
    rw [List.filterMap_cons, List.map_cons]
    cases hf : f a.1 with
    | none =>
      rw [Option.map_none, ih]
      by_cases hk : k = a.1
      · rw [hk, hf, ite_self, ite_self]
      · simp only [List.mem_cons, hk, false_or]
    | some o =>
      rw [Option.map_some, List.map_cons, Table.read_cons, ih]
      by_cases hk : a.1 = k
      · rw [if_pos hk, if_pos (by simp [hk]), ← hk, hf]
      · simp only [List.mem_cons, if_neg hk, Ne.symm hk, false_or]

end

section
variable (m : Image)

theorem read_loadedOat (k : Nat) :
    Table.read absentSlot (loadedOat m) k = if keyValid k = true then fresh (loadedSlot m k) else absentSlot := by
  have hfold : ∀ (keys : List Nat) (t : Table (Stored (Option OatEntry))),
      Table.read absentSlot (keys.foldl (fun t key =>
        if keyValid key then Table.write absentSlot t key (fresh (loadedSlot m key)) else t) t) k
      = if k ∈ keys ∧ keyValid k = true then fresh (loadedSlot m k) else Table.read absentSlot t k := by
    intro keys
    induction keys with
    | nil => intro t; exact (if_neg (by simp)).symm
    | cons key rest ih =>
      intro t
      rw [List.foldl_cons, ih]
      by_cases hrest : k ∈ rest ∧ keyValid k = true
      · rw [if_pos hrest, if_pos ⟨List.mem_cons_of_mem _ hrest.1, hrest.2⟩]
      · rw [if_neg hrest]
        by_cases hvalid : keyValid key = true
        · rw [if_pos hvalid, Table.read_write]
          by_cases hk : k = key
          · subst hk
            rw [if_pos rfl, if_pos ⟨List.mem_cons_self, hvalid⟩]
          · rw [if_neg hk, if_neg fun h => hrest ⟨(List.mem_cons.mp h.1).resolve_left hk, h.2⟩]
        · rw [if_neg hvalid, if_neg]
          rintro ⟨hmem, hk⟩
          obtain rfl | hmem := List.mem_cons.mp hmem
          · exact hvalid hk
          · exact hrest ⟨hmem, hk⟩
  rw [loadedOat, hfold]
  by_cases hk : k ∈ m.slots.map Prod.fst
  · by_cases hvalid : keyValid k = true
    · rw [if_pos ⟨hk, hvalid⟩, if_pos hvalid]
    · rw [if_neg fun h => hvalid h.2, if_neg hvalid]
      rfl
  · have hslot : loadedSlot m k = none := by
      unfold loadedSlot
      rw [read_listed_none fun e he => hk (List.mem_map.mpr ⟨_, he, rfl⟩)]
      rfl
    rw [if_neg fun h => hk h.1, hslot]
    split <;> rfl

theorem slotAt_takeImage (s : State) (k : Nat) :
    (s.takeImage m).slotAt k = if keyValid k = true then fresh (loadedSlot m k) else absentSlot := read_loadedOat m k

theorem ruleAt_takeImage (s : State) (n : Nat) :
    (s.takeImage m).ruleAt n = if n < 16 then fresh (loadedRule m n) else disabledRule := Table.read_tabulate ..

theorem activeAt_takeImage (s : State) (x : Nat) :
    (s.takeImage m).activeAt x = if 1 ≤ x ∧ x ≤ 127 then fresh (loadedContract m x) else emptyContract := by
  refine (Table.read_tabulate ..).trans ?_
  obtain rfl | hx := Nat.eq_zero_or_pos x
  · rfl
  · by_cases hlt : x < 128
    · rw [if_pos hlt, if_neg (by omega), if_pos ⟨hx, by omega⟩]
    · rw [if_neg hlt, if_neg (by omega)]

theorem setting_takeImage (s : State) {i : Nat} (hi : i < 21) :
    (s.takeImage m).setting i = clampSetting i (m.settings.getD i (defaultSettings.getD i 0)) := by
  change (loadedSettings m).getD i 0 = _
  simp [loadedSettings, List.getD, hi]

/-- R178, R180: what a good image is read as. -/
theorem loaded_of_wellFormed {m : Image} (h : m.wellFormed = true) :
    (∀ k e, (k, e) ∈ m.slots → keyValid k = true ∧ loadedSlot m k = checkOatEntry e)
      ∧ (∀ k, (∀ e, (k, e) ∉ m.slots) → loadedSlot m k = none)
      ∧ (∀ n r, m.rules[n]? = some r → n < 16 ∧ loadedRule m n = (checkRule r).getD Rule.disabled)
      ∧ (∀ x c, (x, c) ∈ m.contracts → (1 ≤ x ∧ x ≤ 127) ∧ loadedContract m x = (checkContract c).getD Contract.empty)
      ∧ (∀ x, (∀ c, (x, c) ∉ m.contracts) → loadedContract m x = Contract.empty) ∧ m.settings.length = 21 := by
  simp only [Image.wellFormed, Bool.and_eq_true, decide_eq_true_eq] at h
  obtain ⟨⟨⟨hsettings, hrules⟩, hslots⟩, hcontracts⟩ := h
  obtain ⟨hslotKeys, hslotValid⟩ := pairwise_of_indicesRise hslots
  obtain ⟨htenants, htenantValid⟩ := pairwise_of_indicesRise hcontracts
  refine ⟨fun k e he => ⟨hslotValid k (List.mem_map.mpr ⟨_, he, rfl⟩), ?_⟩, fun k hk => ?_, fun n r hr => ⟨?_, ?_⟩,
    fun x c hc => ⟨?_, ?_⟩, fun x hx => ?_, hsettings⟩
  · unfold loadedSlot
    rw [read_listed_some hslotKeys he]
    rfl
  · unfold loadedSlot
    rw [read_listed_none hk]
    rfl
  · obtain ⟨hlt, _⟩ := List.getElem?_eq_some_iff.mp hr
    omega
  · unfold loadedRule
    rw [hr]
    rfl
  · simpa using htenantValid x (List.mem_map.mpr ⟨_, hc, rfl⟩)
  · unfold loadedContract
    rw [read_listed_some htenants hc]
    rfl
  · unfold loadedContract
    rw [read_listed_none hx]
    rfl

end

/-! ### What a save stores -/

section
variable (s : State)

theorem slotEntry_of_unlisted {k : Nat} (h : k ∉ s.oat.map Prod.fst) : s.slotEntry k = none := by
  have hslot : s.slotAt k = absentSlot := Table.read_of_absent _ _ _ fun e he hk => h (List.mem_map.mpr ⟨e, he, hk⟩)
  unfold State.slotEntry
  rw [hslot]
  rfl

theorem loadedSlot_snapshot (k : Nat) : loadedSlot s.snapshot k = ((s.slotEntry k).map OatEntry.raw).bind checkOatEntry := by
  have hslots : s.snapshot.slots = s.oat.filterMap (fun e =>
      ((fun key => (s.slotEntry key).map OatEntry.raw) e.1).map (fun o => (e.1, o))) := by
    change List.filterMap _ _ = _
    simp only [Option.map_map]
    rfl
  unfold loadedSlot
  rw [hslots, read_listed_filterMap s.oat (fun key => (s.slotEntry key).map OatEntry.raw)]
  split
  · rfl
  · next hk => rw [slotEntry_of_unlisted s hk]; rfl

theorem loadedRule_snapshot {n : Nat} (hn : n < 16) :
    loadedRule s.snapshot n = (checkRule (Rule.raw (readRule (s.ruleAt n)))).getD Rule.disabled := by
  have hrule : s.snapshot.rules[n]? = some (Rule.raw (readRule (s.ruleAt n))) := by simp [State.snapshot, hn]
  unfold loadedRule
  rw [hrule]
  rfl

theorem loadedContract_snapshot {x : Nat} (hx : 1 ≤ x ∧ x ≤ 127) :
    loadedContract s.snapshot x = (checkContract (Contract.raw (readContract (s.activeAt x)))).getD Contract.empty := by
  have hkeys : (s.snapshot.contracts.map Prod.fst).Pairwise (· < ·) := by
    change (List.map _ (List.map _ _)).Pairwise _
    rw [List.map_map]
    exact List.pairwise_map.mpr (List.pairwise_lt_range.imp fun h => Nat.succ_lt_succ h)
  have hmem : (x, Contract.raw (readContract (s.activeAt x))) ∈ s.snapshot.contracts :=
    List.mem_map.mpr ⟨x - 1, List.mem_range.mpr (by omega), by rw [Nat.sub_add_cancel hx.1]⟩
  unfold loadedContract
  rw [read_listed_some hkeys hmem]
  rfl

theorem loadedSettings_snapshot (h : SettingsInRange s) : loadedSettings s.snapshot = s.settings := by
  obtain ⟨hlength, hrange⟩ := h
  refine List.ext_getElem (by simp [loadedSettings, hlength]) fun i hi hi' => ?_
  have hlt : i < 21 := by omega
  have hset : s.setting i = s.settings[i] := by simp [State.setting, List.getD, hi']
  have hsnapshot : s.snapshot.settings.getD i (defaultSettings.getD i 0) = s.setting i := by
    change s.settings.getD i _ = s.settings.getD i 0
    simp [List.getD, hi']
  have hclamped := hrange i hlt
  simp only [loadedSettings, List.getElem_map, List.getElem_range]
  rw [hsnapshot, hclamped, hset]

end

/-! ### Tested fields go round -/

theorem feedOfCode_feedCode (f : Feed) : feedOfCode (feedCode f) = some f := by cases f <;> rfl

theorem policyOfCode_policyCode (p : Policy) : policyOfCode (policyCode p) = some p := by cases p <;> rfl

theorem checkOatEntry_raw {e : OatEntry} (h : e.inRange = true) : checkOatEntry (OatEntry.raw e) = some e := by
  obtain ⟨tenant, feed, rank, limit⟩ := e
  simp only [OatEntry.inRange, Bool.and_eq_true, decide_eq_true_eq] at h
  obtain ⟨⟨htenant, hrank⟩, hlimit⟩ := h
  simp only [checkOatEntry, OatEntry.raw, feedOfCode_feedCode]
  refine if_pos ⟨htenant, fun r hr => ?_, fun w hw => ?_⟩
  · obtain rfl := Option.mem_def.mp hr
    simpa using hrank
  · obtain rfl := Option.mem_def.mp hw
    simpa using hlimit

theorem checkRule_raw {r : Rule} (h : r.inRange = true) : checkRule (Rule.raw r) = some r := by
  simp only [Rule.inRange, Bool.and_eq_true, decide_eq_true_eq] at h
  simp only [checkRule, Rule.raw, feedOfCode_feedCode]
  exact if_pos ⟨h.1.1, h.1.2, h.2⟩

theorem checkContract_raw {c : Contract} (h : c.inRange = true) : checkContract (Contract.raw c) = some c := by
  simp only [Contract.inRange, Bool.and_eq_true, decide_eq_true_eq] at h
  simp only [checkContract, Contract.raw, policyOfCode_policyCode]
  exact if_pos (by tauto)

theorem fresh_content {α : Type} {item : Stored α} (h : item.parityGood = true) : fresh item.content = item := by
  obtain ⟨content, parity⟩ := item
  obtain rfl : parity = true := h
  rfl

/-- R40: a slot's content in its ranges goes round, absence too. -/
theorem checkOatEntry_map_raw {content : Option OatEntry} (h : ∀ e ∈ content, e.inRange = true) :
    (content.map OatEntry.raw).bind checkOatEntry = content := by
  cases content with
  | none => rfl
  | some e => exact checkOatEntry_raw (h e rfl)

theorem extMemory_saveEnd {s t : State} {j : SaveJob} (hsave : s.mgmt.save = some j)
    (h : exec (.saveEnd .agrees) s = .next t) : t.extMemory = some j.snapshot := by
  change execSaveEnd .agrees s = _ at h
  unfold execSaveEnd at h
  rw [hsave] at h
  obtain rfl := Host.Outcome.next.inj h
  rw [arbitrate_extMemory]
  exact same_respond _ _ _ .extMemory (by decide)

end Sys2Proof.Machine

open Sys2Proof Sys2Proof.Machine

/-- Settles O4: with no image the load fills in the defaults. -/
theorem loadWithoutAGoodImageLeavesDefaults : Obligations.LoadWithoutAGoodImageLeavesDefaults := by
  intro s elapsed answer hload hanswer
  have hread : (s.elapse elapsed).imageRead answer = none := by
    obtain rfl | rfl | ⟨rfl, hmem⟩ := hanswer
    · rfl
    · rfl
    · exact hmem
  have hstate : (s.elapse elapsed).loadState answer = if answer = .noAnswer then .absent else .invalid := by
    obtain rfl | rfl | ⟨rfl, hmem⟩ := hanswer
    · rfl
    · rfl
    · unfold State.loadState
      rw [hread]
      rfl
  have hexec := exec_imageLoadEnd (answer := answer) (elapsed := elapsed) hload
  have hout := loadOutcome_loadedWith (s.elapse elapsed) (s.elapse elapsed).takeDefaults answer
  have hsame := exec_changes _ hexec
  have hnow := now_imageLoadEnd s elapsed answer
  rw [endLoad_none _ hread] at hexec hsame hnow
  generalize ((s.elapse elapsed).loadedWith (s.elapse elapsed).takeDefaults answer).arbitrate = t at *
  have hon : ∀ p, p < 4 → (s.elapse elapsed).takeDefaults.portEnabled p = true := by
    intro p hp
    change decide (defaultSettings.getD (7 + p) 0 = 1) = true
    revert hp; revert p; decide
  have hempty : ∀ x, (s.elapse elapsed).takeDefaults.activeAt x = emptyContract := fun _ => rfl
  have hnotices := hout.notices
  refine ⟨t, hexec, hout.mgmt.trans (by rw [hstate]; rfl), hout.settings, hout.slotAt, hout.ruleAt,
    fun x => ⟨hout.activeAt x, hout.stagedAt x, ?summary⟩, ?generation, ?pending, hout.timer, hnow, fun p hp => ?port,
    fun x => ?live, ?fault, fun x => ?annTenant, fun p hp => ?annPort, fun i => ?annPresence, ?annSource, ?annFault,
    ?queue, hsame⟩
  case summary => unfold State.summaryAt; rw [hout.contracts]; rfl
  case generation | pending => rw [hout.contracts]; rfl
  case port => rw [hout.port p hp, State.portAfterReset, hon p hp]; rfl
  case live => rw [hout.live, hempty]; split <;> rfl
  case fault =>
    rw [hnotices]
    change (s.elapse elapsed).loadFault answer = _
    rw [State.loadFault, hstate]
    by_cases h : answer = .noAnswer
    · rw [if_pos h, if_pos h]; rfl
    · rw [if_neg h, if_neg h]; rfl
  case annPort => rw [hout.annPort hp, hon p hp]; rfl
  case annTenant | annPresence | annSource | annFault | queue => rw [hnotices]; rfl

/-- Settles O5: the load takes the image, item by item. -/
theorem loadTakesAGoodImage : Obligations.LoadTakesAGoodImage := by
  intro s elapsed answer m hload hgood hanswer
  have hread : (s.elapse elapsed).imageRead answer = some m := by
    obtain rfl | ⟨rfl, hmem⟩ := hanswer
    · rfl
    · exact hmem
  have hstate : (s.elapse elapsed).loadState answer = .ok := by
    unfold State.loadState
    rw [hread]
    obtain rfl | ⟨rfl, _⟩ := hanswer <;> rfl
  obtain ⟨hslots, hnoSlot, hrules, hcontracts, hnoContract, hlength⟩ := loaded_of_wellFormed hgood
  have hexec := exec_imageLoadEnd (answer := answer) (elapsed := elapsed) hload
  have hout := loadOutcome_loadedWith (s.elapse elapsed) ((s.elapse elapsed).takeImage m) answer
  have hsame := exec_changes _ hexec
  have hnow := now_imageLoadEnd s elapsed answer
  rw [endLoad_some _ hread] at hexec hsame hnow
  generalize ((s.elapse elapsed).loadedWith ((s.elapse elapsed).takeImage m) answer).arbitrate = t at *
  have hactive : ∀ x, t.activeAt x = if 1 ≤ x ∧ x ≤ 127 then fresh (loadedContract m x) else emptyContract := fun x =>
    (hout.activeAt x).trans (activeAt_takeImage m _ x)
  have hstaged : ∀ x, t.stagedAt x = t.activeAt x := fun x => (hout.stagedAt x).trans (hout.activeAt x).symm
  have hset : ∀ i, i < 21 → t.setting i = clampSetting i (m.settings.getD i 0) := by
    intro i hi
    rw [hout.setting, setting_takeImage m _ hi]
    simp [List.getD, hlength, hi]
  have henabled : ∀ p, ((s.elapse elapsed).takeImage m).portEnabled p = decide (t.setting (7 + p) = 1) := fun p => by
    rw [hout.setting]; rfl
  have hlive : ∀ x, t.liveAt x = if 1 ≤ x ∧ x ≤ 127 then freshRecord (t.activeAt x) else LiveRecord.idle := fun x => by
    rw [hout.live, hout.activeAt]
  have hnotices := hout.notices
  refine ⟨t, hexec, hout.mgmt.trans (by rw [hstate]; rfl), hset, fun k e he => ?slot, fun k hk => ?noSlot,
    fun n r hr => ?rule, fun x c hc => ?contract, fun x hx => ?noContract, hstaged, ?generation, ?pending,
    fun x hlow hhigh hvalid => ?within, fun x hvalid => ?idle, ?timer, fun p hp => ?port, ?fault, fun x => ?annTenant,
    fun p hp => ?annPort, fun i => ?annPresence, ?annSource, ?annFault, ?queue, ?interval, hsame⟩
  case slot =>
    obtain ⟨hvalid, hslot⟩ := hslots k e he
    rw [hout.slotAt, slotAt_takeImage, if_pos hvalid, hslot]
    rfl
  case noSlot =>
    rw [hout.slotAt, slotAt_takeImage, hnoSlot k hk]
    split <;> rfl
  case rule =>
    obtain ⟨hn, hrule⟩ := hrules n r hr
    rw [hout.ruleAt, ruleAt_takeImage, if_pos hn, hrule]
    rfl
  case contract =>
    obtain ⟨hx, hcontract⟩ := hcontracts x c hc
    rw [hactive, if_pos hx, hcontract]
    rfl
  case noContract =>
    rw [hactive, hnoContract x hx]
    split <;> rfl
  case generation | pending => rw [hout.contracts]; rfl
  case within =>
    have hgoodParity : (t.activeAt x).parityGood = true := by rw [hactive, if_pos ⟨hlow, hhigh⟩]; rfl
    rw [hlive, if_pos ⟨hlow, hhigh⟩, freshRecord, if_pos ⟨hgoodParity, hvalid⟩]
  case idle =>
    rw [hlive]
    split
    · exact if_neg fun h => by rw [hvalid] at h; exact Bool.noConfusion h.2
    · rfl
  case timer => rw [hout.timer, hout.setting]; rfl
  case port => rw [hout.port p hp, State.portAfterReset, henabled]; simp
  case fault =>
    rw [hnotices]
    change (s.elapse elapsed).loadFault answer = _
    rw [State.loadFault, hstate]
    rfl
  case annPort => rw [hout.annPort hp, henabled]; simp
  case annTenant | annPresence | annSource | annFault | queue | interval => rw [hnotices]; rfl

/-- Settles O6: the stored image is the snapshot, whose items are read back as the save read them. -/
theorem savedImageLoadsBack : Obligations.SavedImageLoadsBack := by
  intro s t u j elapsed _ hsettings hsave hsnapshot hend hload hmemory
  have hread : (u.elapse elapsed).imageRead .stored = some s.snapshot := by
    change u.extMemory = _
    rw [hmemory, extMemory_saveEnd hsave hend, hsnapshot]
  have hstate : (u.elapse elapsed).loadState .stored = .ok := by
    unfold State.loadState
    rw [hread]
  have hexec := exec_imageLoadEnd (answer := .stored) (elapsed := elapsed) hload
  have hout := loadOutcome_loadedWith (u.elapse elapsed) ((u.elapse elapsed).takeImage s.snapshot) .stored
  rw [endLoad_some _ hread] at hexec
  generalize ((u.elapse elapsed).loadedWith ((u.elapse elapsed).takeImage s.snapshot) .stored).arbitrate = v at *
  have hslot : ∀ k, keyValid k = true →
      v.slotAt k = fresh (((s.slotEntry k).map OatEntry.raw).bind checkOatEntry) := fun k hk => by
    rw [hout.slotAt, slotAt_takeImage, if_pos hk, loadedSlot_snapshot]
  have hrule : ∀ n, n < 16 → v.ruleAt n = fresh ((checkRule (Rule.raw (readRule (s.ruleAt n)))).getD Rule.disabled) :=
    fun n hn => by rw [hout.ruleAt, ruleAt_takeImage, if_pos hn, loadedRule_snapshot s hn]
  have hcontract : ∀ x, 1 ≤ x ∧ x ≤ 127 →
      v.activeAt x = fresh ((checkContract (Contract.raw (readContract (s.activeAt x)))).getD Contract.empty) :=
    fun x hx => by rw [hout.activeAt, activeAt_takeImage, if_pos hx, loadedContract_snapshot s hx]
  refine ⟨v, hexec, ?_, ?_, ?_, fun k hk hgood hrange => ?slot, fun k hk hbad => ?badSlot, fun n hn hgood hrange => ?rule,
    fun n hn hbad => ?badRule, fun x hlow hhigh hgood hrange => ?contract, fun x hlow hhigh hbad => ?badContract⟩
  · rw [hout.mgmt]; exact hstate
  · exact hout.settings.trans (loadedSettings_snapshot s hsettings)
  · rw [hout.contracts]; rfl
  case slot =>
    rw [hslot k hk, State.slotEntry, if_pos hgood, checkOatEntry_map_raw hrange, fresh_content hgood]
  case badSlot =>
    rw [hslot k hk, State.slotEntry, if_neg (by rw [hbad]; decide)]
    rfl
  case rule =>
    rw [hrule n hn, readRule, if_pos hgood, checkRule_raw hrange]
    exact fresh_content hgood
  case badRule =>
    rw [hrule n hn, readRule, if_neg (by rw [hbad]; decide)]
    rfl
  case contract =>
    rw [hcontract x ⟨hlow, hhigh⟩, readContract, if_pos hgood, checkContract_raw hrange]
    exact fresh_content hgood
  case badContract =>
    rw [hcontract x ⟨hlow, hhigh⟩, readContract, if_neg (by rw [hbad]; decide)]
    rfl

end

