-- ==== Sys2Proof/Proofs/CommandEnds.lean ====
section
/-! PROOF. A timed-out command and a lost port, each as an event by itself (R18, R128, R135 to R137, log 3). -/

namespace Sys2Proof.Machine

section
variable {s : State}

theorem dueAt_arbitrate (u : State) (p : Nat) : u.arbitrate.dueAt p = u.dueAt p := by
  unfold State.dueAt
  rw [arbitrate_curtail]

theorem curtailAt_arbitrate (u : State) (x : Nat) : u.arbitrate.curtailAt x = u.curtailAt x := by
  unfold State.curtailAt
  rw [arbitrate_curtail]

theorem exec_commandTimeout {slot : Nat} {e : CurtailEntry} (he : s.entryAt slot = some e) (hpending : e.pending = true)
    (hsent : e.sent = true) (hremaining : e.remaining = 0) :
    exec (.commandTimeout slot) s = .next (s.timeOut slot e).arbitrate := by
  change execCommandTimeout slot s = _
  unfold execCommandTimeout
  rw [he]
  exact if_pos ⟨hpending, hsent, hremaining⟩

/-- R135: a second timeout leaves the due lists. -/
theorem due_timeOut_twice {slot : Nat} {e : CurtailEntry} (h : e.attempts ≠ 1) :
    (s.timeOut slot e).curtail.due = s.curtail.due := by
  unfold State.timeOut
  rw [if_neg h, recordResult_curtail]

theorem exec_portLost {p : Nat} (hlink : (s.port p).link = .up ∨ (s.port p).link = .degraded)
    (hsilent : (s.port p).silentPass = 3) : exec (.portLost p) s = .next (s.losePort p).arbitrate := by
  have hlost : (s.port p).isLost = true := by
    unfold Port.isLost
    rw [(carries_iff _).mpr hlink, hsilent]
    rfl
  change execPortLost p s = _
  exact if_pos hlost

/-- R18, R136: what a port's loss makes of the table and its lists. -/
theorem losePort_spec (s : State) (p : Nat) :
    (∀ m, (s.losePort p).entryAt m = if m < 64 then (s.entryAt m).map (s.entryAfterLoss p) else s.entryAt m)
      ∧ (∀ q, (s.losePort p).dueAt q = if q = p then (s.dueAt p).filter (fun n => !s.pendingOn p n) else s.dueAt q)
      ∧ (s.losePort p).curtail.owed = s.owedAfter ((List.range 64).filter (s.pendingOn p))
      ∧ KeepsRecords s (s.losePort p) := by
  obtain ⟨⟨_, hrecords⟩, hentry⟩ := losePending_spec (s.putPort p { s.port p with link := .down }) p
  obtain ⟨hdue, howed⟩ := losePending_lists (s.putPort p { s.port p with link := .down }) p
  have hpending : (s.putPort p { s.port p with link := .down }).pendingOn p = s.pendingOn p := rfl
  have howes : (s.putPort p { s.port p with link := .down }).owedAfter = s.owedAfter := rfl
  rw [hpending] at hdue howed
  rw [howes] at howed
  have hlose : s.losePort p = (s.putPort p { s.port p with link := .down }).losePending p := rfl
  rw [hlose]
  exact ⟨hentry, hdue, howed, hrecords.records, hrecords.tagCounter, hrecords.creation⟩

end

end Sys2Proof.Machine

open Sys2Proof Sys2Proof.Machine

/-- Settles O10: a first timeout makes the command due again, a second one gives it up. -/
theorem timeoutRetriesOrGivesUp : Obligations.TimeoutRetriesOrGivesUp := by
  intro s slot e he hpending hsent hremaining
  have hexec := exec_commandTimeout he hpending hsent hremaining
  have hrecords := keeps_timeOut s slot e
  refine ⟨_, hexec, fun honce => ⟨?_, ?_, ?_⟩, fun htwice => ⟨?_, ?_, ?_⟩, fun m hm => ?_, ?_, ?_, ?_, exec_changes _ hexec⟩
  · rw [entryAt_arbitrate, entryAt_timeOut, if_pos rfl, State.timedOutEntry, if_pos honce, ← hremaining]
  · rw [dueAt_arbitrate, dueAt_timeOut, if_pos ⟨rfl, honce⟩]
  · rw [arbitrate_curtail, owed_timeOut, if_pos honce, owe_nil]
  · rw [entryAt_arbitrate, entryAt_timeOut, if_pos rfl, State.timedOutEntry, if_neg (by omega), CurtailEntry.ended,
      ← hremaining]
  · rw [arbitrate_curtail, due_timeOut_twice (by omega)]
  · rw [arbitrate_curtail, owed_timeOut, if_neg (by omega)]
    unfold owe
    cases s.masked .curtail with
    | true => simp
    | false => by_cases h : slot ∈ s.curtail.owed <;> simp [h]
  · rw [entryAt_arbitrate, entryAt_timeOut, if_neg hm]
  · rw [arbitrate_curtail, hrecords.records]
  · rw [arbitrate_curtail, hrecords.tagCounter]
  · rw [arbitrate_curtail, hrecords.creation]

/-- Settles O11: the port goes DOWN, and then its pending entries are lost in slot order. -/
theorem silentPortIsLost : Obligations.SilentPortIsLost := by
  intro s p hlink hsilent
  have hexec := exec_portLost hlink hsilent
  obtain ⟨hentry, hdue, howed, hrecords⟩ := losePort_spec s p
  refine ⟨_, hexec, ?_, fun q hq => ?_, fun slot hslot => ?_, ?_, fun q hq => ?_, ?_, ?_, ?_, ?_, exec_changes _ hexec⟩
  · rw [core_port_arbitrate, losePort_port, if_pos rfl]
    rfl
  · rw [core_port_arbitrate, losePort_port, if_neg hq]
  · rw [entryAt_arbitrate, hentry, if_pos hslot]
  · rw [dueAt_arbitrate, hdue, if_pos rfl]
  · rw [dueAt_arbitrate, hdue, if_neg hq]
  · rw [arbitrate_curtail, howed]
  · rw [arbitrate_curtail, hrecords.records]
  · rw [arbitrate_curtail, hrecords.tagCounter]
  · rw [arbitrate_curtail, hrecords.creation]

end

