-- ==== Sys2Proof/Proofs/HoldSweep.lean ====
section
/-! PROOF. Where a pass stands, and the hold sweep at a presence entry and at an unreported outlet (R29, R64, R65). -/

namespace Sys2Proof.Machine

section
variable {s : State}

/-! ### The place of the pass (R64) -/

theorem passPoint_of_pass {pass : Pass} (h : s.timer.pass = some pass) : s.passPoint = some (s.settledPoint pass.point) := by
  unfold State.passPoint
  rw [h]
  rfl

theorem pass_of_passPoint {point : PassPoint} (h : s.passPoint = some point) : ∃ pass, s.timer.pass = some pass := by
  cases hpass : s.timer.pass with
  | none => simp [State.passPoint, hpass] at h
  | some pass => exact ⟨pass, rfl⟩

theorem settledPoint_of_not_outlet {point : PassPoint} (h : ∀ i o, point ≠ .outlet i o) : s.settledPoint point = point := by
  cases point with
  | outlet i o => exact absurd rfl (h i o)
  | position i => rfl
  | tenant t => rfl
  | curtail t tr c => rfl

theorem settledPoint_outlet_some {i o x : Nat} (h : s.nextUnreported i o = some x) :
    s.settledPoint (.outlet i o) = .outlet i x := by
  simp only [State.settledPoint, h]

theorem settledPoint_outlet_none {i o : Nat} (h : s.nextUnreported i o = none) :
    s.settledPoint (.outlet i o) = afterEntry i := by
  simp only [State.settledPoint, h]

theorem afterEntry_ne_outlet (i j o : Nat) : afterEntry i ≠ .outlet j o := by
  unfold afterEntry
  split <;> exact PassPoint.noConfusion

theorem timer_movePass (s : State) (point : PassPoint) : (s.movePass point).timer =
    { s.timer with pass := s.timer.pass.map (fun p => { p with point := point }) } := rfl

/-- A pass that stands at an outlet stands at one that the sweep handles. -/
theorem unreported_of_passPoint {i o : Nat} (h : s.passPoint = some (.outlet i o)) :
    o < 48 ∧ (s.presenceAt i).state ≠ .absent ∧ s.closing.outletFlag (i * 64 + o) = false := by
  obtain ⟨pass, hpass⟩ := pass_of_passPoint h
  rw [passPoint_of_pass hpass] at h
  cases hpoint : pass.point with
  | outlet j k =>
    rw [hpoint] at h
    cases hnext : s.nextUnreported j k with
    | none =>
      rw [settledPoint_outlet_none hnext] at h
      exact absurd (Option.some.inj h) (afterEntry_ne_outlet j i o)
    | some x =>
      rw [settledPoint_outlet_some hnext] at h
      obtain ⟨rfl, rfl⟩ := PassPoint.outlet.inj (Option.some.inj h)
      obtain ⟨hpresent, _, hlt, hflag, _⟩ := (nextUnreported_some s).mp hnext
      exact ⟨hlt, hpresent, hflag⟩
  | position j => rw [hpoint] at h; cases h
  | tenant x => rw [hpoint] at h; cases h
  | curtail x tr c => rw [hpoint] at h; cases h

/-! ### A presence entry (R29) -/

theorem sweptPresence_absent {limit : Nat} {reported : Bool} {p : Presence} (h : p.state = .absent) :
    sweptPresence limit reported p = p := if_pos h

theorem sweptPresence_reported {limit : Nat} {p : Presence} (h : p.state ≠ .absent) :
    sweptPresence limit true p = { state := .present, missed := 0 } := by
  unfold sweptPresence
  rw [if_neg h]
  rfl

theorem sweptPresence_missed {limit : Nat} {p : Presence} (h : p.state ≠ .absent) : sweptPresence limit false p =
    { state := if min 255 (p.missed + 1) ≤ limit then .held else .silent, missed := min 255 (p.missed + 1) } := by
  unfold sweptPresence presenceOfCount
  rw [if_neg h]
  simp

/-- R29: the sweep neither finds nor loses a PDU. -/
theorem sweptPresence_absent_iff (limit : Nat) (reported : Bool) (p : Presence) :
    (sweptPresence limit reported p).state = .absent ↔ p.state = .absent := by
  by_cases h : p.state = .absent
  · rw [sweptPresence_absent h]
  · refine iff_of_false ?_ h
    cases reported with
    | true => rw [sweptPresence_reported h]; exact PresenceState.noConfusion
    | false =>
      rw [sweptPresence_missed h]
      dsimp only
      split <;> exact PresenceState.noConfusion

theorem exec_holdSweepPosition_at {i : Nat} (h : s.passPoint = some (.position i)) : exec .holdSweepPosition s = .next
    ((s.putPresence i (sweptPresence s.holdLimit (s.closing.pduFlag i) (s.presenceAt i))).movePass
      (if (s.presenceAt i).state ≠ .absent then .outlet i 0 else afterEntry i)) := by
  change execHoldSweepPosition s = _
  simp only [execHoldSweepPosition, h, sweptPresence_absent_iff, ne_eq, ite_not]

/-! ### An unreported outlet (R65) -/

/-- R65 step 3: the closing set's sums and counts after an outlet whose held value is `v`. -/
def AccSet.held (a : AccSet) (r : Resolution) (v : Option Nat) : AccSet :=
  match v with
  | some v => a.charge r v
  | none => a

theorem closing_sweepOutlet (key : Nat) : (s.sweepOutlet key).closing = (s.closing.held (s.resolution key)
    (heldValue s.holdLimit { s.readingAt key with age := min 255 ((s.readingAt key).age + 1) })).markIncomplete
      (s.resolution key).tenant := rfl

theorem readingAt_sweepOutlet (key k : Nat) : (s.sweepOutlet key).readingAt k =
    if k = key then { s.readingAt key with age := min 255 ((s.readingAt key).age + 1) } else s.readingAt k :=
  Table.read_write ..

theorem notices_sweepOutlet (key : Nat) :
    (s.sweepOutlet key).notices = s.noticesAfterReading (s.resolutionFaults key) := by
  change (s.recordParity (s.resolutionFaults key)).notices = _
  rw [recordParity_eq]
  rfl

section
variable (a : AccSet) (r : Resolution) (v : Option Nat)

theorem held_flags : (a.held r v).incomplete = a.incomplete ∧ (a.held r v).outletReported = a.outletReported
    ∧ (a.held r v).pduReported = a.pduReported := by
  cases v with
  | none => exact ⟨rfl, rfl, rfl⟩
  | some v => exact charge_flags a r v

theorem sum_held_other {f : Feed} {x : Nat} (h : (f, x) ≠ (r.feed, r.tenant)) : (a.held r v).sum f x = a.sum f x := by
  cases v with
  | none => rfl
  | some v => exact (sum_charge a r v f x).trans (if_neg fun hfx => h (Prod.ext hfx.1 hfx.2))

theorem over_held_other {x : Nat} (h : x ≠ r.tenant) : (a.held r v).over x = a.over x := by
  cases v with
  | none => rfl
  | some v => exact (over_charge a r v x).trans (if_neg h)

end

theorem isIncomplete_held (a : AccSet) (r : Resolution) (v : Option Nat) (x : Nat) :
    (a.held r v).isIncomplete x = a.isIncomplete x := by
  unfold AccSet.isIncomplete
  rw [(held_flags a r v).1]

theorem exec_holdSweepOutlet_at {i o : Nat} (h : s.passPoint = some (.outlet i o)) :
    exec .holdSweepOutlet s = .next ((s.sweepOutlet (i * 64 + o)).movePass (.outlet i (o + 1))) := by
  change execHoldSweepOutlet s = _
  simp only [execHoldSweepOutlet, h]

/-- What the sweep of an outlet leaves to find the next one by. -/
theorem nextUnreported_sweepOutlet (key i o : Nat) (point : PassPoint) :
    ((s.sweepOutlet key).movePass point).nextUnreported i o = s.nextUnreported i o := by
  have hflag : ∀ k, ((s.sweepOutlet key).movePass point).closing.outletFlag k = s.closing.outletFlag k := fun k => by
    change (s.sweepOutlet key).closing.outletFlag k = _
    rw [closing_sweepOutlet, outletFlag_markIncomplete]
    unfold AccSet.outletFlag
    rw [(held_flags ..).2.1]
  have hpresence : ((s.sweepOutlet key).movePass point).presenceAt i = s.presenceAt i := by
    unfold State.presenceAt
    rw [show ((s.sweepOutlet key).movePass point).presence = s.presence from same_sweepOutlet s key .presence (by decide)]
  simp only [State.nextUnreported, hflag, hpresence]

end

end Sys2Proof.Machine

open Sys2Proof Sys2Proof.Machine

/-- Settles O12: the three rows of the swept entry, and the two places the sweep goes on to. -/
theorem holdSweepCountsAMissedEpoch : Obligations.HoldSweepCountsAMissedEpoch := by
  intro s i hpoint next
  have hexec := exec_holdSweepPosition_at hpoint
  have hentry : ∀ j, ((s.putPresence i (sweptPresence s.holdLimit (s.closing.pduFlag i) (s.presenceAt i))).movePass
      next).presenceAt j = if j = i then sweptPresence s.holdLimit (s.closing.pduFlag i) (s.presenceAt i)
        else s.presenceAt j := fun j => presenceAt_putPresence s i j _
  refine ⟨_, hexec, fun habsent => ?_, fun hpresent hflag => ?_, fun hpresent hflag => ?_, fun j hj => ?_, rfl,
    exec_changes _ hexec⟩
  · exact (hentry i).trans ((if_pos rfl).trans (sweptPresence_absent habsent))
  · exact (hentry i).trans ((if_pos rfl).trans (by rw [hflag, sweptPresence_reported hpresent]))
  · have hswept := (hentry i).trans ((if_pos rfl).trans (by rw [hflag, sweptPresence_missed hpresent]))
    exact ⟨congrArg Presence.missed hswept, congrArg Presence.state hswept⟩
  · exact (hentry j).trans (if_neg hj)

/-- Settles O13: the place is the first unreported outlet, or what follows the entry; the sweep's step there charges the held
value, if there is one, and marks the tenant incomplete. -/
theorem holdSweepHoldsOrMissesAnOutlet : Obligations.HoldSweepHoldsOrMissesAnOutlet := by
  refine ⟨fun s pass hpass => ⟨fun hpoint => ?_, fun i o hpoint => ?_⟩, fun s i o hpoint => ?_⟩
  · rw [passPoint_of_pass hpass, settledPoint_of_not_outlet hpoint]
  · intro next
    rw [passPoint_of_pass hpass, hpoint]
    refine ⟨fun habsent => ?_, fun hpresent => ⟨fun x hlow hx hflag hbefore => ?_, fun hall => ?_⟩⟩
    · exact congrArg some (settledPoint_outlet_none ((nextUnreported_none s).mpr (.inl habsent)))
    · exact congrArg some (settledPoint_outlet_some ((nextUnreported_some s).mpr ⟨hpresent, hlow, hx, hflag, hbefore⟩))
    · exact congrArg some (settledPoint_outlet_none ((nextUnreported_none s).mpr (.inr hall)))
  · intro key r age
    have hhere := unreported_of_passPoint hpoint
    have hexec := exec_holdSweepOutlet_at hpoint
    have hclosing := closing_sweepOutlet (s := s) key
    rw [show heldValue s.holdLimit { s.readingAt key with age := min 255 ((s.readingAt key).age + 1) }
      = if age ≤ s.holdLimit then (s.readingAt key).last else none from rfl] at hclosing
    obtain ⟨pass, hpass⟩ := pass_of_passPoint hpoint
    have htimer : (s.sweepOutlet key).timer = s.timer := same_sweepOutlet s key .timer (by decide)
    have hplace : ((s.sweepOutlet key).movePass (.outlet i (o + 1))).passPoint
        = some (((s.sweepOutlet key).movePass (.outlet i (o + 1))).settledPoint (.outlet i (o + 1))) :=
      passPoint_of_pass (pass := { pass with point := .outlet i (o + 1) })
        (by rw [timer_movePass, htimer, hpass]; rfl)
    have hnext := nextUnreported_sweepOutlet (s := s) key i (o + 1) (.outlet i (o + 1))
    refine ⟨hhere, _, hexec, ?reading, fun k hk => ?otherReading, fun v hage hlast => ?held, fun hmissing => ?missing,
      fun f x hfx => ?otherSum, fun x hx => ?otherOver, ?incomplete, fun x hx => ?otherIncomplete, ?outlets, ?pdus,
      notices_sweepOutlet key, ?timer, fun x hlow hx hflag hbefore => ?next, fun hall => ?last, exec_changes _ hexec⟩
    case reading => exact (readingAt_sweepOutlet key key).trans (if_pos rfl)
    case otherReading => exact (readingAt_sweepOutlet key k).trans (if_neg hk)
    case held =>
      change (s.sweepOutlet key).closing.sum _ _ = _ ∧ (s.sweepOutlet key).closing.over _ = _
      rw [hclosing, if_pos hage, hlast, sum_markIncomplete, over_markIncomplete]
      exact ⟨(sum_charge ..).trans (if_pos ⟨rfl, rfl⟩), (over_charge ..).trans (if_pos rfl)⟩
    case missing =>
      have hnone : (if age ≤ s.holdLimit then (s.readingAt key).last else none) = none := by
        obtain hold | hnever := hmissing
        · exact if_neg (by omega)
        · rw [hnever, ite_self]
      change (s.sweepOutlet key).closing.sum _ _ = _ ∧ (s.sweepOutlet key).closing.over _ = _
      rw [hclosing, hnone, sum_markIncomplete, over_markIncomplete]
      exact ⟨rfl, rfl⟩
    case otherSum =>
      change (s.sweepOutlet key).closing.sum _ _ = _
      rw [hclosing, sum_markIncomplete, sum_held_other _ _ _ hfx]
    case otherOver =>
      change (s.sweepOutlet key).closing.over _ = _
      rw [hclosing, over_markIncomplete, over_held_other _ _ _ hx]
    case incomplete =>
      change (s.sweepOutlet key).closing.isIncomplete _ = _
      rw [hclosing, isIncomplete_markIncomplete, if_pos rfl]
    case otherIncomplete =>
      change (s.sweepOutlet key).closing.isIncomplete _ = _
      rw [hclosing, isIncomplete_markIncomplete, if_neg hx, isIncomplete_held]
    case outlets =>
      change (s.sweepOutlet key).closing.outletReported = _
      rw [hclosing]
      exact (held_flags ..).2.1
    case pdus =>
      change (s.sweepOutlet key).closing.pduReported = _
      rw [hclosing]
      exact (held_flags ..).2.2
    case timer =>
      rw [timer_movePass, htimer]
    case next =>
      rw [hplace, settledPoint_outlet_some (hnext.trans ((nextUnreported_some s).mpr
        ⟨hhere.2.1, hlow, hx, hflag, fun y hy => hbefore y (by omega)⟩))]
    case last =>
      rw [hplace, settledPoint_outlet_none (hnext.trans ((nextUnreported_none s).mpr (.inr fun y hy => hall y (by omega))))]
      rfl

end

