-- ==== Sys2Proof/Proofs/Standing.lean ====
section
/-! PROOF. What an evaluation makes of a tenant's standing, with a contract in force and without one, and the completion of a
pass (R10, R11, R19, R83 to R95). -/

namespace Sys2Proof.Machine

/-! ### The rows of the standing (R86) -/

section
variable {c : Contract} {st : TenantState} {quiet dw b : Nat}

theorem nextStanding_high (h : highThreshold c < dw) : nextStanding c st quiet dw b = (.over, 0) := if_pos h

theorem nextStanding_burst (hhigh : dw ≤ highThreshold c) (hc : c.committed < dw) (hst : st ≠ .over) (hb : 0 < b) :
    nextStanding c st quiet dw b = (.burst, 0) := by
  simp only [nextStanding, if_neg (Nat.not_lt.mpr hhigh), if_pos hc, if_neg hst, if_pos hb]

theorem nextStanding_spent (hhigh : dw ≤ highThreshold c) (hc : c.committed < dw) (h : st = .over ∨ b = 0) :
    nextStanding c st quiet dw b = (.over, 0) := by
  simp only [nextStanding, if_neg (Nat.not_lt.mpr hhigh), if_pos hc]
  obtain rfl | rfl := h
  · rfl
  · rw [if_neg (Nat.lt_irrefl 0), ite_self]

theorem nextStanding_within (hhigh : dw ≤ highThreshold c) (hc : dw ≤ c.committed) (hst : st ≠ .over) :
    nextStanding c st quiet dw b = (.within, 0) := by
  simp only [nextStanding, if_neg (Nat.not_lt.mpr hhigh), if_neg (Nat.not_lt.mpr hc), if_neg hst, ite_self]

theorem nextStanding_unreleased (hhigh : dw ≤ highThreshold c) (hc : dw ≤ c.committed) (hrel : releaseThreshold c < dw) :
    nextStanding c .over quiet dw b = (.over, 0) := by
  simp only [nextStanding, if_neg (Nat.not_lt.mpr hhigh), if_neg (Nat.not_lt.mpr hc), if_pos hrel, if_true]

theorem nextStanding_released (hhigh : dw ≤ highThreshold c) (hc : dw ≤ c.committed) (hrel : dw ≤ releaseThreshold c) :
    nextStanding c .over quiet dw b = if c.quiet ≤ quiet + 1 then (.within, 0) else (.over, quiet + 1) := by
  simp only [nextStanding, if_neg (Nat.not_lt.mpr hhigh), if_neg (Nat.not_lt.mpr hc), if_neg (Nat.not_lt.mpr hrel), if_true]

/-- R86: outside OVER no quiet epochs are counted. -/
theorem quiet_of_not_over (h : (nextStanding c st quiet dw b).1 ≠ .over) : (nextStanding c st quiet dw b).2 = 0 := by
  revert h
  unfold nextStanding
  (repeat' split) <;> intro h <;> trivial

theorem feedOver_iff (cap sum : Nat) : feedOver cap sum = true ↔ cap ≠ 0 ∧ cap < sum := by
  simp [feedOver]

/-- R95: what an evaluation under a contract hands on. -/
theorem transitionOf_of_ne_idle {before after : TenantState} (h : after ≠ .idle) : transitionOf before after =
    if after = .burst ∨ after = .over then .endedHot else if before = .over then .overToWithin else .other := by
  cases after
  case idle => exact absurd rfl h
  all_goals rfl

end

/-! ### The evaluation's event -/

section
variable {s : State} {x : Nat}

/-- R77, R78: the record, the fault and the place that an evaluation leaves. -/
theorem exec_tenantEvaluation_spec {pass : Pass} (hpass : s.timer.pass = some pass) (hpoint : s.passPoint = some (.tenant x)) :
    ∃ t, exec .tenantEvaluation s = .next t ∧ t.liveAt x = s.evaluated x pass.epoch
      ∧ t.notices = s.noticesAfterReading (s.stepThreeFaults x)
      ∧ t.timer = { s.timer with pass := s.timer.pass.map (fun p =>
          { p with point := .curtail x (transitionOf (s.liveAt x).state (s.evaluated x pass.epoch).state) (s.stepThree x) }) } := by
  refine ⟨_, exec_tenantEvaluation_at hpass hpoint, ?_, ?_, ?_⟩
  · rw [liveAt_movePass, liveAt_putLive, if_pos rfl]
  · change (s.recordParity _).notices = _
    rw [recordParity_eq]
    rfl
  · rw [timer_movePass, recordParity_eq]
    rfl

theorem stepThreeFaults_of_idle (h : (s.liveAt x).state = .idle) : s.stepThreeFaults x = [] := if_pos h

theorem stepThreeFaults_of_good (h : (s.activeAt x).parityGood = true) : s.stepThreeFaults x = [] := by
  unfold State.stepThreeFaults parityLocation
  rw [if_pos h, ite_self]

theorem stepThreeFaults_of_bad (hstate : (s.liveAt x).state ≠ .idle) (h : (s.activeAt x).parityGood = false) :
    s.stepThreeFaults x = [.item .active x] := by
  unfold State.stepThreeFaults parityLocation
  rw [if_neg hstate, if_neg (by rw [h]; decide)]

theorem contractRead_none (h : (s.activeAt x).parityGood = false ∨ (s.activeAt x).content.valid = false) :
    s.contractRead x = none := by
  refine if_neg fun hgood => ?_
  obtain hbad | hvoid := h
  · rw [hbad] at hgood; exact Bool.noConfusion hgood.1
  · rw [hvoid] at hgood; exact Bool.noConfusion hgood.2

end

end Sys2Proof.Machine

open Sys2Proof Sys2Proof.Machine

/-- Settles O15: the record is the measured one, judged under the contract and flagged. -/
theorem evaluationJudgesTheContract : Obligations.EvaluationJudgesTheContract := by
  intro s x hpoint hstate hgood hvalid c r high release
  obtain ⟨pass, hpass⟩ := pass_of_passPoint hpoint
  obtain ⟨t, hexec, hlive, hnotices, htimer⟩ := exec_tenantEvaluation_spec hpass hpoint
  have hread : s.contractRead x = some c := if_pos ⟨hgood, hvalid⟩
  have hthree : s.stepThree x = some c := (if_neg hstate).trans hread
  generalize hq : t.liveAt x = q at hlive
  rw [← hlive] at htimer
  rw [evaluated_of_contract s pass.epoch hstate hread] at hlive
  have hcredit : q.credit = nextCredit c (q.demand / 256) r.credit := by rw [hlive]; rfl
  have hstanding : (q.state, q.quiet) = nextStanding c r.state r.quiet (q.demand / 256) q.credit := by rw [hlive]; rfl
  have hticks : q.ticksInOver = nextTicksInOver r.state q.state r.ticksInOver := by rw [hlive]; rfl
  have hburst : q.burstTicks = r.burstTicks + if q.state = .burst then 1 else 0 := by rw [hlive]; rfl
  have hover : q.overTicks = r.overTicks + if q.state = .over then 1 else 0 := by rw [hlive]; rfl
  have hfeedA : q.feedOverA = feedOver c.feedCap (s.closing.sum .a x) := by rw [hlive]; rfl
  have hfeedB : q.feedOverB = feedOver c.feedCap (s.closing.sum .b x) := by rw [hlive]; rfl
  have hrow : ∀ st n, nextStanding c r.state r.quiet (q.demand / 256) q.credit = (st, n) → q.state = st ∧ q.quiet = n :=
    fun st n h => Prod.mk.inj (hstanding.trans h)
  have hquiet : q.state ≠ .over → q.quiet = 0 := fun h =>
    (congrArg Prod.snd hstanding).trans (quiet_of_not_over fun h' => h ((congrArg Prod.fst hstanding).trans h'))
  have hlive' : q.state ≠ .idle := fun h =>
    nextStanding_ne_idle c r.state r.quiet (q.demand / 256) q.credit ((congrArg Prod.fst hstanding).symm.trans h)
  refine ⟨t, hexec, ?_, by rw [hnotices, stepThreeFaults_of_good hgood]; rfl⟩
  rw [hq]
  refine ⟨fun h => ?_, fun h => ?_, fun h => ?_, fun h hc hr hb => ?_, fun h hc hspent => ?_, fun h hc hr => ?_,
    fun h hc hrel hr => ?_, fun h hc hrel hr hfew => ?_, fun h hc hrel hr hmany => ?_, fun h hr => ?_, fun h hr => ?_,
    fun h => ⟨?_, hquiet h⟩, hburst, hover, ?_, ?_, ?_⟩
  · exact hcredit.trans (if_pos h)
  · exact hcredit.trans (if_neg (Nat.not_lt.mpr h))
  · exact hrow _ _ (nextStanding_high h)
  · exact (hrow _ _ (nextStanding_burst h hc hr hb)).1
  · exact hrow _ _ (nextStanding_spent h hc hspent)
  · exact (hrow _ _ (nextStanding_within h hc hr)).1
  · exact hrow _ _ (by rw [hr]; exact nextStanding_unreleased h hc hrel)
  · exact hrow _ _ (by rw [hr, nextStanding_released h hc hrel, if_neg (by omega)])
  · exact hrow _ _ (by rw [hr, nextStanding_released h hc hrel, if_pos hmany])
  · rw [hticks, nextTicksInOver, if_pos h, if_pos hr]
  · rw [hticks, nextTicksInOver, if_pos h, if_neg hr]
  · rw [hticks, nextTicksInOver, if_neg h]
  · rw [hfeedA, feedOver_iff]
  · rw [hfeedB, feedOver_iff]
  · rw [htimer, hthree, transitionOf_of_ne_idle hlive']

/-- Settles O16: an IDLE record is flagged as measured; any other becomes IDLE first. -/
theorem evaluationWithoutAContractEndsIdle : Obligations.EvaluationWithoutAContractEndsIdle := by
  intro s x hpoint hcase
  obtain ⟨pass, hpass⟩ := pass_of_passPoint hpoint
  obtain ⟨t, hexec, hlive, hnotices, htimer⟩ := exec_tenantEvaluation_spec hpass hpoint
  generalize hq : t.liveAt x = q at hlive
  rw [← hlive] at htimer
  refine ⟨t, hexec, ?_⟩
  rw [hq]
  by_cases hidle : (s.liveAt x).state = .idle
  · have hthree : s.stepThree x = none := if_pos hidle
    rw [evaluated_of_idle s pass.epoch hidle] at hlive
    have hstate : q.state = .idle := by rw [hlive]; exact hidle
    refine ⟨hstate, fun _ => ⟨by rw [hlive]; rfl, by rw [hlive]; rfl, by rw [hlive]; rfl, ?_⟩, fun h => absurd hidle h,
      by rw [hlive]; rfl, by rw [hlive]; rfl, by rw [hlive]; rfl, by rw [hlive]; rfl, ?_⟩
    · rw [hnotices, stepThreeFaults_of_idle hidle]
      rfl
    · rw [htimer, hthree, hstate, hidle]
      rfl
  · have hread : s.contractRead x = none := contractRead_none (hcase.resolve_left hidle)
    have hthree : s.stepThree x = none := (if_neg hidle).trans hread
    rw [evaluated_of_none s pass.epoch hidle hread] at hlive
    have hstate : q.state = .idle := by rw [hlive]; rfl
    refine ⟨hstate, fun h => absurd h hidle, fun _ => ⟨by rw [hlive]; rfl, by rw [hlive]; rfl, by rw [hlive]; rfl,
      by rw [hlive]; exact Nat.min_zero _, ?_⟩, by rw [hlive]; rfl, by rw [hlive]; rfl, by rw [hlive]; rfl,
      by rw [hlive]; rfl, ?_⟩
    · rw [hnotices]
      cases hparity : (s.activeAt x).parityGood with
      | true => rw [stepThreeFaults_of_good hparity]; rfl
      | false => rw [stepThreeFaults_of_bad hidle hparity]; rfl
    · rw [htimer, hthree, hstate, if_neg hidle]
      unfold transitionOf
      rw [if_neg hidle]

/-- Settles O22: the step of T127, and the completion after it, which leaves what the step did. -/
theorem lastCurtailmentStepCompletesThePass : Obligations.LastCurtailmentStepCompletesThePass := by
  intro s tr c hpoint
  have hexec : exec .curtailmentStep s = .next (s.curtailStep 127 tr c).completePass.arbitrate := by
    change execCurtailmentStep s = _
    simp only [execCurtailmentStep, hpoint, if_neg (Nat.lt_irrefl 127)]
  have hstep := same_curtailStep s 127 tr c
  have hsame : SameOutside [.timer, .links, .downChoice, .upChoice, .curtail, .live, .notices] s
      (s.curtailStep 127 tr c).completePass.arbitrate :=
    (hstep.comp (same_completePass _) (n := [.timer, .links, .curtail, .live, .notices]) (by decide) (by decide)).comp
      (same_arbitrate _) (by decide) (by decide)
  generalize s.curtailStep 127 tr c = u at *
  have htimer : u.timer = s.timer := hstep .timer (by decide)
  have hsettings : u.settings = s.settings := hstep .settings (by decide)
  have hcore : ∀ p, (u.port p).core = (s.port p).core := hstep .links (by decide)
  have hticks : u.ticksPerInterval = s.ticksPerInterval := by
    unfold State.ticksPerInterval State.setting; rw [hsettings]
  obtain ⟨hgoes, hcloses⟩ := completePass_spec u
  rw [htimer, hticks] at hgoes hcloses
  refine ⟨_, hexec, fun h => ?_, fun h => ?_, hsame⟩
  · rw [hgoes h, arbitrate_timer]
    exact ⟨rfl, fun p => by rw [core_port_arbitrate]; exact hcore p⟩
  · obtain ⟨hclosed, hport, _⟩ := handClose_spec
      (u.setTimer { s.timer with pass := none, tickCount := s.timer.tickCount + 1 })
    rw [hcloses h, arbitrate_timer]
    refine ⟨hclosed, fun p hp => ?_⟩
    have hlink : (u.port p).link = (s.port p).link := (congrArg Port.link (hcore p) :)
    have hcount : (u.port p).errorCount = (s.port p).errorCount := (congrArg Port.errorCount (hcore p) :)
    have hthreshold : u.errorThreshold = s.errorThreshold := by
      unfold State.errorThreshold State.setting; rw [hsettings]
    rw [core_port_arbitrate, hport, if_pos hp, ← hcore p, ← hlink, ← hcount, ← hthreshold]
    rfl

end

