-- ==== Sys2Proof/Proofs/StepTransition.lean ====
section
/-! PROOF. The curtailment step as an event, and its part 1: what the transition does to the tenant's record (R77, R124,
R125). -/

namespace Sys2Proof.Machine

section
variable {s : State} {x : Nat} {tr : Transition} {c : Option Contract}

/-! ### The event -/

/-- R10, R77: what follows a tenant's curtailment step: the next tenant, or the completion of the pass. -/
def State.passOn (s : State) (x : Nat) : State :=
  if x < 127 then s.movePass (.tenant (x + 1)) else s.completePass

theorem same_passOn (s : State) (x : Nat) : SameOutside ((if x < 127 then [] else [.links]) ++ [.timer]) s (s.passOn x) := by
  unfold State.passOn
  split
  · exact same_movePass s _
  · exact (same_completePass s).mono (by decide)

theorem exec_curtailmentStep_at (h : s.passPoint = some (.curtail x tr c)) :
    exec .curtailmentStep s = .next ((s.curtailStep x tr c).passOn x).arbitrate := by
  change execCurtailmentStep s = _
  unfold State.passOn
  simp only [execCurtailmentStep, h]
  split <;> rfl

/-- What the step made of table, records and faults stands after the event, and the pass has gone on. -/
theorem curtailmentStep_outcome {l m : List Block} (hpoint : s.passPoint = some (.curtail x tr c))
    (hstep : SameOutside l s (s.curtailStep x tr c)) (hl : Block.timer ∉ l) (hlm : l ⊆ m)
    (hm : [Block.timer, .downChoice, .upChoice] ⊆ m) : ∃ t, exec .curtailmentStep s = .next t
      ∧ t.curtail = (s.curtailStep x tr c).curtail ∧ t.live = (s.curtailStep x tr c).live
      ∧ t.notices = (s.curtailStep x tr c).notices
      ∧ (x < 127 → t.timer = { s.timer with pass := s.timer.pass.map (fun p => { p with point := .tenant (x + 1) }) })
      ∧ SameOutside ((if x < 127 then [] else [.links]) ++ m) s t := by
  have htimer : (s.curtailStep x tr c).timer = s.timer := hstep .timer hl
  refine ⟨_, exec_curtailmentStep_at hpoint, ?_⟩
  generalize s.curtailStep x tr c = u at *
  have hpass := same_passOn u x
  have hkeeps : ∀ b ∈ [Block.curtail, .live, .notices], b ∉ (if x < 127 then [] else [Block.links]) ++ [.timer] := by
    split <;> decide
  refine ⟨(arbitrate_curtail _).trans (hpass .curtail (hkeeps _ (by decide))),
    (arbitrate_live _).trans (hpass .live (hkeeps _ (by decide))),
    (arbitrate_notices _).trans (hpass .notices (hkeeps _ (by decide))), fun hx => ?_, ?_⟩
  · rw [arbitrate_timer, State.passOn, if_pos hx, timer_movePass, htimer]
  · have hwhole := (hstep.comp hpass (n := (if x < 127 then [] else [.links]) ++ m)
      (fun b hb => List.mem_append_right _ (hlm hb))
      (List.append_subset.mpr ⟨List.subset_append_left _ _, fun b hb => List.mem_append_right _ (hm (by
        obtain rfl := List.mem_singleton.mp hb
        decide))⟩))
    exact hwhole.comp (same_arbitrate _) (List.Subset.refl _) fun b hb => List.mem_append_right _ (hm (by
      revert hb
      cases b <;> decide))

/-! ### The transition (R125) -/

/-- R125: the tenant's restoring after part 1. -/
def restoringAfter (restoring : Restoring) (auto : Bool) : Transition → Restoring
  | .overToWithin => if auto = true ∧ restoring ≠ .forced then .auto else restoring
  | .endedHot => if restoring = .auto then .none else restoring
  | .becameIdle => .none
  | .other => restoring

/-- R125: the tenant's record after part 1. -/
def TenantCurtail.acted (r : TenantCurtail) (auto : Bool) (tr : Transition) : TenantCurtail :=
  match tr with
  | .overToWithin | .becameIdle => { restoring := restoringAfter r.restoring auto tr, exhausted := false, blocked := false }
  | .endedHot | .other => { r with restoring := restoringAfter r.restoring auto tr }

/-- R125: part 1 ends the tenant's restoring, and with it the tried flags. -/
def endsRestoring (restoring : Restoring) (tr : Transition) : Prop :=
  tr = .becameIdle ∨ (tr = .endedHot ∧ restoring = .auto)

theorem restoring_acted (r : TenantCurtail) (auto : Bool) (tr : Transition) :
    (r.acted auto tr).restoring = restoringAfter r.restoring auto tr := by
  cases tr <;> rfl

theorem not_endsRestoring {restoring : Restoring} {tr : Transition} (h : tr = .overToWithin ∨ tr = .other) :
    ¬ endsRestoring restoring tr := by
  obtain rfl | rfl := h <;> rintro (h | ⟨h, _⟩) <;> cases h

/-- Part 1 leaves all but the tenant's record and, where it ends a restoring, its tried flags. -/
theorem actOnTransition_spec (s : State) (x : Nat) (tr : Transition) (auto : Bool) :
    (∀ y, (s.actOnTransition x tr auto).curtailAt y = if y = x then (s.curtailAt x).acted auto tr else s.curtailAt y)
      ∧ (∀ n, endsRestoring (s.curtailAt x).restoring tr → (s.actOnTransition x tr auto).entryAt n =
          if n < 64 then (s.entryAt n).map (fun e => if e.tenant = x then { e with tried := false } else e)
          else s.entryAt n)
      ∧ (¬ endsRestoring (s.curtailAt x).restoring tr → ∀ n, (s.actOnTransition x tr auto).entryAt n = s.entryAt n)
      ∧ (s.actOnTransition x tr auto).curtail = { s.curtail with
          slots := (s.actOnTransition x tr auto).curtail.slots,
          records := (s.actOnTransition x tr auto).curtail.records } := by
  unfold State.actOnTransition
  cases tr with
  | overToWithin =>
    exact ⟨fun y => curtailAt_putCurtail s x y _, fun n h => absurd h (not_endsRestoring (.inl rfl)), fun _ n => rfl, rfl⟩
  | endedHot =>
    dsimp only
    by_cases hauto : (s.curtailAt x).restoring = .auto
    · obtain ⟨hentry, hrecord, hcurtail, _⟩ := endRestoring_spec s x
      rw [if_pos hauto]
      refine ⟨fun y => ?_, fun n _ => hentry n, fun h => absurd (.inr ⟨rfl, hauto⟩) h, hcurtail⟩
      rw [hrecord]
      simp only [TenantCurtail.acted, restoringAfter, if_pos hauto]
    · rw [if_neg hauto]
      refine ⟨fun y => ?_, fun n h => ?_, fun _ n => rfl, rfl⟩
      · simp only [TenantCurtail.acted, restoringAfter, if_neg hauto]
        split
        · next h => rw [h]
        · rfl
      · obtain h | ⟨_, h⟩ := h
        · cases h
        · exact absurd h hauto
  | becameIdle =>
    dsimp only
    obtain ⟨hentry, hrecord, hcurtail, _⟩ :=
      endRestoring_spec (s.putCurtail x { s.curtailAt x with exhausted := false, blocked := false }) x
    refine ⟨fun y => ?_, fun n _ => hentry n, fun h => absurd (.inl rfl) h, hcurtail⟩
    rw [hrecord, curtailAt_putCurtail, curtailAt_putCurtail, if_pos rfl]
    split <;> rfl
  | other =>
    refine ⟨fun y => ?_, fun n h => absurd h (not_endsRestoring (.inr rfl)), fun _ n => rfl, rfl⟩
    by_cases hy : y = x
    · rw [if_pos hy, hy]; rfl
    · rw [if_neg hy]

/-- R125: each entry after part 1, whatever the transition. -/
theorem entryAt_actOnTransition (s : State) (x : Nat) (tr : Transition) (auto : Bool) (n : Nat) :
    (s.actOnTransition x tr auto).entryAt n = (s.entryAt n).map (fun e =>
      if n < 64 ∧ e.tenant = x ∧ (tr = .becameIdle ∨ (tr = .endedHot ∧ (s.curtailAt x).restoring = .auto)) then
        { e with tried := false } else e) := by
  obtain ⟨_, hends, hgoes, _⟩ := actOnTransition_spec s x tr auto
  by_cases h : endsRestoring (s.curtailAt x).restoring tr
  · have h' : tr = .becameIdle ∨ (tr = .endedHot ∧ (s.curtailAt x).restoring = .auto) := h
    rw [hends n h]
    by_cases hn : n < 64
    · simp only [hn, h', true_and, and_true, if_true]
    · simp only [hn, false_and, if_false]
      cases s.entryAt n <;> rfl
  · have h' : ¬ (tr = .becameIdle ∨ (tr = .endedHot ∧ (s.curtailAt x).restoring = .auto)) := h
    rw [hgoes h]
    simp only [h', and_false, if_false]
    cases s.entryAt n <;> rfl

/-- Part 1 does not touch what the searches of the table look at. -/
theorem slotsWhere_actOnTransition (f : CurtailEntry → Bool) (hf : ∀ e b, f { e with tried := b } = f e) (auto : Bool) :
    (s.actOnTransition x tr auto).slotsWhere f = s.slotsWhere f := by
  refine List.filter_congr fun n _ => ?_
  rw [entryAt_actOnTransition]
  cases s.entryAt n with
  | none => rfl
  | some e =>
    rw [Option.map_some]
    dsimp only
    split
    · exact hf e false
    · rfl

theorem tenantPending_actOnTransition (auto : Bool) (y : Nat) :
    (s.actOnTransition x tr auto).tenantPending y = s.tenantPending y := by
  unfold State.tenantPending
  rw [slotsWhere_actOnTransition _ fun _ _ => rfl]

theorem restoring_actOnTransition (auto : Bool) :
    ((s.actOnTransition x tr auto).curtailAt x).restoring = restoringAfter (s.curtailAt x).restoring auto tr := by
  rw [(actOnTransition_spec s x tr auto).1, if_pos rfl, restoring_acted]

theorem autoPolicy_iff : autoPolicy c = true ↔ ∃ k, c = some k ∧ k.policy = .auto := by
  cases c with
  | none => simp [autoPolicy]
  | some k => simp [autoPolicy]

/-! ### The conditions of the shed step (R126) -/

theorem shedDue_iff (s : State) (x : Nat) (c : Option Contract) : s.shedDue x c = true ↔ ∃ k, c = some k ∧ k.policy ≠ .notify
    ∧ (s.liveAt x).state = .over ∧ k.committed < (s.liveAt x).demand / 256 ∧ k.grace ≤ (s.liveAt x).ticksInOver
    ∧ (s.curtailAt x).restoring = .none ∧ s.tenantPending x = false := by
  cases c with
  | none => simp [State.shedDue]
  | some k => rw [← LiveRecord.watts]; simp [State.shedDue, and_assoc]

theorem liveAt_actOnTransition (auto : Bool) (y : Nat) : (s.actOnTransition x tr auto).liveAt y = s.liveAt y :=
  liveAt_of_same (same_actOnTransition s x tr auto) (by decide) y

/-- R124: part 1 alone, where nothing follows it. -/
theorem curtailStep_part1 (h : s.tenantPending x = true ∨ (restoringAfter (s.curtailAt x).restoring (autoPolicy c) tr = .none
    ∧ (s.actOnTransition x tr (autoPolicy c)).shedDue x c = false)) :
    s.curtailStep x tr c = s.actOnTransition x tr (autoPolicy c) := by
  rw [curtailStep_eq, restoring_actOnTransition, tenantPending_actOnTransition]
  obtain hpending | ⟨hnone, hshed⟩ := h
  · have hshed : (s.actOnTransition x tr (autoPolicy c)).shedDue x c = false := by
      refine Bool.eq_false_iff.mpr fun h => ?_
      obtain ⟨_, _, _, _, _, _, _, hfree⟩ := (shedDue_iff _ _ _).mp h
      rw [tenantPending_actOnTransition, hpending] at hfree
      cases hfree
    rw [if_neg (by simp [hpending]), if_neg (by rw [hshed]; decide)]
  · rw [if_neg fun h => h.1 hnone, if_neg (by rw [hshed]; decide)]

end

end Sys2Proof.Machine

open Sys2Proof Sys2Proof.Machine

/-- Settles O17: the step is its part 1, and part 1 is read off transition by transition. -/
theorem curtailmentStepActsOnTheTransition : Obligations.CurtailmentStepActsOnTheTransition := by
  intro s x tr c hpoint restoring hcase
  have hrestoring : restoring = restoringAfter (s.curtailAt x).restoring (autoPolicy c) tr := by
    cases tr with
    | overToWithin => simp only [restoringAfter, autoPolicy_iff]; rfl
    | endedHot => rfl
    | becameIdle => rfl
    | other => rfl
  have hstep : s.curtailStep x tr c = s.actOnTransition x tr (autoPolicy c) := by
    refine curtailStep_part1 (hcase.imp_right fun h => ⟨hrestoring ▸ h.1, Bool.eq_false_iff.mpr fun hshed => ?_⟩)
    obtain ⟨k, rfl, hpolicy, hstate, hdemand, hgrace, _⟩ := (shedDue_iff _ _ _).mp hshed
    rw [liveAt_actOnTransition] at hstate hdemand hgrace
    obtain h | h | h | h := h.2 k rfl
    · exact hpolicy h
    · exact h hstate
    · omega
    · omega
  have hsame := same_actOnTransition s x tr (autoPolicy c)
  obtain ⟨hrecord, _, _, hcurtail⟩ := actOnTransition_spec s x tr (autoPolicy c)
  have hentry := entryAt_actOnTransition s x tr (autoPolicy c)
  rw [← hstep] at hsame hrecord hcurtail
  simp only [← hstep] at hentry
  obtain ⟨t, hexec, ht, _, _, htimer, hframe⟩ := curtailmentStep_outcome
    (m := [.curtail, .timer, .downChoice, .upChoice]) hpoint hsame (by decide) (by decide) (by decide)
  have hat : ∀ y, t.curtailAt y = if y = x then (s.curtailAt x).acted (autoPolicy c) tr else s.curtailAt y := fun y => by
    rw [← hrecord]; unfold State.curtailAt; rw [ht]
  have hcore : t.curtail = { s.curtail with slots := t.curtail.slots, records := t.curtail.records } := by
    rw [ht]; exact hcurtail
  refine ⟨t, hexec, fun h => ?_, fun h => ?_, fun h => ?_, fun h => ?_, fun y hy => ?_, fun n hn => ?_, by rw [hcore],
    by rw [hcore], by rw [hcore], by rw [hcore], htimer, hframe⟩
  · rw [hat, if_pos rfl, hrestoring, h]; rfl
  · rw [hat, if_pos rfl, hrestoring, h]; rfl
  · rw [hat, if_pos rfl, h]; rfl
  · rw [hat, if_pos rfl, h]; rfl
  · rw [hat, if_neg hy]
  · rw [entryAt_congr ht, hentry]
    simp only [hn, true_and]
end

