-- ==== Sys2Proof/Proofs/Shed.lean ====
section
/-! PROOF. The shed step: the candidates in the order of their ranks and keys, the first eligible one, and what is done
without one or without a slot (R45, R46, R126, R127). -/

namespace Sys2Proof.Machine

/-! ### The candidates (R46) -/

section
variable (s : State) (x : Nat)

/-- R46: the shed rank of the entry that decides for a key. -/
def State.rankOf (key : Nat) : Option Nat := (s.slotEntry key).bind OatEntry.shedRank

/-- R46: `a` comes before `b` in the candidate list. -/
def State.shedsBefore (a b : Nat) : Prop :=
  ∃ r q, s.rankOf a = some r ∧ s.rankOf b = some q ∧ (r < q ∨ (r = q ∧ a < b))

theorem mem_candidatesOfRank (rank k : Nat) : k ∈ s.candidatesOfRank x rank
    ↔ ∃ e, s.slotEntry k = some e ∧ e.tenant = x ∧ e.shedRank = some rank := by
  unfold State.candidatesOfRank
  rw [List.mem_map]
  constructor
  · rintro ⟨item, hitem, rfl⟩
    have hcond := (List.mem_filter.mp hitem).2
    cases hslot : s.slotEntry item.1 with
    | none => rw [hslot] at hcond; cases hcond
    | some e =>
      rw [hslot] at hcond
      simp only [Bool.and_eq_true, decide_eq_true_eq] at hcond
      exact ⟨e, rfl, hcond⟩
  · rintro ⟨e, hslot, htenant, hrank⟩
    have hlisted : k ∈ s.oat.map Prod.fst := by
      by_contra h
      rw [slotEntry_of_unlisted s h] at hslot
      cases hslot
    obtain ⟨item, hitem, rfl⟩ := List.mem_map.mp hlisted
    exact ⟨item, List.mem_filter.mpr ⟨hitem, by rw [hslot]; simp [htenant, hrank]⟩, rfl⟩

theorem mem_candidates (k : Nat) : k ∈ s.candidates x
    ↔ ∃ r e, (1 ≤ r ∧ r ≤ 15) ∧ s.slotEntry k = some e ∧ e.tenant = x ∧ e.shedRank = some r := by
  simp only [State.candidates, List.mem_flatMap, List.mem_range, mem_candidatesOfRank]
  constructor
  · rintro ⟨r, hr, e, h⟩
    exact ⟨r + 1, e, ⟨by omega, by omega⟩, h⟩
  · rintro ⟨r, e, ⟨hlow, hhigh⟩, h⟩
    exact ⟨r - 1, by omega, e, by rwa [Nat.sub_add_cancel hlow]⟩

theorem rankOf_of_candidate {k rank : Nat} (h : k ∈ s.candidatesOfRank x rank) : s.rankOf k = some rank := by
  obtain ⟨e, hslot, _, hrank⟩ := (mem_candidatesOfRank s x rank k).mp h
  unfold State.rankOf
  rw [hslot]
  exact hrank

/-- R46: by rank, and by key within a rank, since the OAT lists its slots by key. -/
theorem candidates_pairwise (hoat : Table.wf absentSlot s.oat = true) : (s.candidates x).Pairwise s.shedsBefore := by
  refine List.pairwise_flatMap.mpr ⟨fun r _ => ?_, List.pairwise_lt_range.imp fun {r q} hrq a ha b hb => ?_⟩
  · have hkeys : (s.candidatesOfRank x (r + 1)).Pairwise (· < ·) :=
      List.pairwise_map.mpr (((Table.wf_iff _ _).mp hoat).1.filter _)
    exact hkeys.imp_of_mem fun {a b} ha hb hab =>
      ⟨r + 1, r + 1, rankOf_of_candidate s x ha, rankOf_of_candidate s x hb, .inr ⟨rfl, hab⟩⟩
  · exact ⟨r + 1, q + 1, rankOf_of_candidate s x ha, rankOf_of_candidate s x hb, .inl (by omega)⟩

/-- The first eligible candidate is the eligible one that no other comes before. -/
theorem find?_candidates {key : Nat} (hoat : Table.wf absentSlot s.oat = true) (p : Nat → Bool)
    (hmem : key ∈ s.candidates x) (hp : p key = true)
    (hfirst : ∀ k ∈ s.candidates x, p k = true → ¬ s.shedsBefore k key) : (s.candidates x).find? p = some key := by
  cases hfind : (s.candidates x).find? p with
  | none => exact absurd hp (List.find?_eq_none.mp hfind key hmem)
  | some k =>
    obtain ⟨hk, before, after, hlist, hbefore⟩ := List.find?_eq_some_iff_append.mp hfind
    rw [hlist] at hmem
    obtain hmem | hmem := List.mem_append.mp hmem
    · have hnot := hbefore key hmem
      rw [hp] at hnot
      cases hnot
    · obtain rfl | hmem := List.mem_cons.mp hmem
      · rfl
      · have hpair := candidates_pairwise s x hoat
        rw [hlist] at hpair
        have hlater := (List.pairwise_cons.mp (List.pairwise_append.mp hpair).2.1).1 key hmem
        exact absurd hlater (hfirst k (by rw [hlist]; simp) hk)

theorem shedEligible_iff (k : Nat) : s.shedEligible k = true ↔ (∀ n, n < 64 → ∀ e, s.entryAt n = some e → e.outlet ≠ k)
    ∧ ((s.port (keyPort k)).link = .up ∨ (s.port (keyPort k)).link = .degraded)
    ∧ (s.presenceAt (keyPdu k)).state = .present := by
  unfold State.shedEligible
  simp only [Bool.and_eq_true, Bool.not_eq_true', decide_eq_true_eq, carries_iff, and_assoc]
  refine and_congr_left fun _ => ?_
  rw [Bool.eq_false_iff, ne_eq, holdsOutlet_iff]
  push Not
  exact ⟨fun h n hn e => h n e hn, fun h n e hn => h n hn e⟩

/-! ### The entry made (R127) -/

section
variable (key slot : Nat)

theorem entryAt_makeEntry (n : Nat) :
    (s.makeEntry x key slot).entryAt n = if n = slot then some (newEntry key x s.curtail.creation) else s.entryAt n :=
  entryAt_putEntry s slot (newEntry key x s.curtail.creation) n

theorem dueAt_makeEntry (p : Nat) : (s.makeEntry x key slot).dueAt p =
    if p = keyPort key then s.dueAt (keyPort key) ++ [slot] else s.dueAt p :=
  dueAt_joinDue (s.putEntry slot (newEntry key x s.curtail.creation)) (keyPort key) slot p

theorem curtailAt_makeEntry (y : Nat) : (s.makeEntry x key slot).curtailAt y =
    if y = x then { s.curtailAt x with exhausted := false, blocked := false } else s.curtailAt y :=
  curtailAt_putCurtail _ x y _

theorem makeEntry_counters : (s.makeEntry x key slot).curtail.creation = s.curtail.creation + 1
    ∧ (s.makeEntry x key slot).curtail.tagCounter = s.curtail.tagCounter
    ∧ (s.makeEntry x key slot).curtail.owed = s.curtail.owed := ⟨rfl, rfl, rfl⟩

end

/-! ### The three ends of the step (R127) -/

theorem shedStep_exhausted (h : (s.candidates x).find? s.shedEligible = none) : s.shedStep x =
    (s.recordParity s.badSlots).putCurtail x { (s.recordParity s.badSlots).curtailAt x with exhausted := true } := by
  rw [recordParity_eq]
  unfold State.shedStep
  rw [h, recordParity_eq]
  rfl

theorem shedStep_blocked {key : Nat} (h : (s.candidates x).find? s.shedEligible = some key)
    (hfull : s.emptySlot = none) : s.shedStep x =
    (s.recordParity s.badSlots).putCurtail x { (s.recordParity s.badSlots).curtailAt x with blocked := true } := by
  rw [recordParity_eq]
  unfold State.shedStep
  rw [h, recordParity_eq]
  dsimp only
  rw [hfull]
  rfl

theorem shedStep_sheds {key slot : Nat} (h : (s.candidates x).find? s.shedEligible = some key)
    (hslot : s.emptySlot = some slot) : s.shedStep x = (s.recordParity s.badSlots).makeEntry x key slot := by
  unfold State.shedStep
  rw [h]
  dsimp only
  rw [hslot]

theorem emptySlot_some {slot : Nat} (hslot : slot < 64) (hempty : s.entryAt slot = none)
    (hfull : ∀ n, n < slot → s.entryAt n ≠ none) : s.emptySlot = some slot := by
  refine List.find?_range_eq_some.mpr ⟨by rw [hempty]; rfl, List.mem_range.mpr hslot, fun n hn => ?_⟩
  rw [Bool.not_eq_true', Bool.eq_false_iff, ne_eq, Option.isNone_iff_eq_none]
  exact hfull n hn

theorem emptySlot_none (h : ∀ n, n < 64 → s.entryAt n ≠ none) : s.emptySlot = none :=
  List.find?_eq_none.mpr fun n hn => by
    rw [Option.isNone_iff_eq_none]
    exact h n (List.mem_range.mp hn)

end

/-! ### The shed step after part 1 (R124) -/

section
variable (s : State) (x : Nat) (tr : Transition) (auto : Bool)

theorem slotEntry_actOnTransition (k : Nat) : (s.actOnTransition x tr auto).slotEntry k = s.slotEntry k := by
  unfold State.slotEntry State.slotAt
  rw [show (s.actOnTransition x tr auto).oat = s.oat from same_actOnTransition s x tr auto .oat (by decide)]

theorem candidates_actOnTransition (y : Nat) : (s.actOnTransition x tr auto).candidates y = s.candidates y := by
  unfold State.candidates State.candidatesOfRank
  simp only [slotEntry_actOnTransition]
  rw [show (s.actOnTransition x tr auto).oat = s.oat from same_actOnTransition s x tr auto .oat (by decide)]

theorem badSlots_actOnTransition : (s.actOnTransition x tr auto).badSlots = s.badSlots := by
  unfold State.badSlots
  rw [show (s.actOnTransition x tr auto).oat = s.oat from same_actOnTransition s x tr auto .oat (by decide)]

theorem shedEligible_actOnTransition : (s.actOnTransition x tr auto).shedEligible = s.shedEligible := by
  have hsame := same_actOnTransition s x tr auto
  have hport := port_of_same hsame (by decide) (by decide)
  funext k
  unfold State.shedEligible State.holdsOutlet State.slotOf State.presenceAt
  rw [slotsWhere_actOnTransition _ (fun _ _ => rfl), hport,
    show (s.actOnTransition x tr auto).presence = s.presence from hsame .presence (by decide)]

theorem emptySlot_actOnTransition : (s.actOnTransition x tr auto).emptySlot = s.emptySlot := by
  unfold State.emptySlot
  simp only [entryAt_actOnTransition, Option.isNone_map]

/-- What the scan of the OAT records does not depend on part 1. -/
theorem recordParity_actOnTransition (bad : List Location) : (s.actOnTransition x tr auto).recordParity bad
    = (s.actOnTransition x tr auto).setNotices (s.noticesAfterReading bad) := by
  have hsame := same_actOnTransition s x tr auto
  rw [recordParity_eq]
  unfold State.noticesAfterReading State.noticesWithFault
  rw [show (s.actOnTransition x tr auto).notices = s.notices from hsame .notices (by decide),
    show (s.actOnTransition x tr auto).timer = s.timer from hsame .timer (by decide)]

variable {s x}

/-- R126: the step where its conditions hold, part 1 having ended an AUTO restore. -/
theorem curtailStep_sheds {c : Contract} (hpolicy : c.policy ≠ .notify) (hstate : (s.liveAt x).state = .over)
    (hdemand : c.committed < (s.liveAt x).demand / 256) (hgrace : c.grace ≤ (s.liveAt x).ticksInOver)
    (hrestoring : (s.curtailAt x).restoring = .none ∨ (s.curtailAt x).restoring = .auto)
    (hfree : s.tenantPending x = false) : s.curtailStep x .endedHot (some c)
      = (s.actOnTransition x .endedHot (autoPolicy (some c))).shedStep x := by
  have hnone : restoringAfter (s.curtailAt x).restoring (autoPolicy (some c)) .endedHot = .none := by
    obtain h | h := hrestoring <;> rw [h] <;> rfl
  have hdue : (s.actOnTransition x .endedHot (autoPolicy (some c))).shedDue x (some c) = true := by
    rw [shedDue_iff, liveAt_actOnTransition, restoring_actOnTransition, tenantPending_actOnTransition]
    exact ⟨c, rfl, hpolicy, hstate, hdemand, hgrace, hnone, hfree⟩
  rw [curtailStep_eq, restoring_actOnTransition, if_neg fun h => h.1 hnone, if_pos hdue]

theorem same_curtailStep_sheds {c : Contract}
    (h : s.curtailStep x .endedHot (some c) = (s.actOnTransition x .endedHot (autoPolicy (some c))).shedStep x) :
    SameOutside [.curtail, .notices] s (s.curtailStep x .endedHot (some c)) := by
  rw [h]
  exact (same_actOnTransition s x _ _).comp (same_shedStep _ x) (by decide) (by decide)

/-- R125: the tenant's record where part 1 has ended what restoring there was. -/
theorem curtailAt_actOnTransition_hot (hrestoring : (s.curtailAt x).restoring = .none ∨ (s.curtailAt x).restoring = .auto)
    (y : Nat) : (s.actOnTransition x .endedHot auto).curtailAt y =
      if y = x then { s.curtailAt x with restoring := .none } else s.curtailAt y := by
  have hnone : restoringAfter (s.curtailAt x).restoring auto .endedHot = .none := by
    obtain h | h := hrestoring <;> rw [h] <;> rfl
  rw [(actOnTransition_spec s x .endedHot auto).1]
  unfold TenantCurtail.acted
  rw [hnone]

theorem actOnTransition_lists (s : State) (x : Nat) (tr : Transition) (auto : Bool) :
    (s.actOnTransition x tr auto).curtail.creation = s.curtail.creation
      ∧ (s.actOnTransition x tr auto).curtail.tagCounter = s.curtail.tagCounter
      ∧ (s.actOnTransition x tr auto).curtail.owed = s.curtail.owed
      ∧ (s.actOnTransition x tr auto).curtail.due = s.curtail.due := by
  rw [(actOnTransition_spec s x tr auto).2.2.2]
  exact ⟨rfl, rfl, rfl, rfl⟩

theorem entryAt_actOnTransition_hot (n : Nat) : (s.actOnTransition x .endedHot auto).entryAt n = (s.entryAt n).map (fun e =>
    if n < 64 ∧ (s.curtailAt x).restoring = .auto ∧ e.tenant = x then { e with tried := false } else e) := by
  rw [entryAt_actOnTransition]
  congr 1
  funext e
  exact if_congr (by simp; tauto) rfl rfl

/-- R127: a shed step that makes no entry leaves its report in the tenant's record. -/
theorem shedReport_outcome {c : Contract} {r : TenantCurtail} (hpoint : s.passPoint = some (.curtail x .endedHot (some c)))
    (hsame : SameOutside [.curtail, .notices] s (s.curtailStep x .endedHot (some c)))
    (hrestoring : (s.curtailAt x).restoring = .none ∨ (s.curtailAt x).restoring = .auto)
    (hreport : s.curtailStep x .endedHot (some c) = ((s.actOnTransition x .endedHot (autoPolicy (some c))).setNotices
      (s.noticesAfterReading s.badSlots)).putCurtail x r) : ∃ t, exec .curtailmentStep s = .next t
      ∧ (∀ n, t.entryAt n = (s.entryAt n).map (fun e =>
          if n < 64 ∧ (s.curtailAt x).restoring = .auto ∧ e.tenant = x then { e with tried := false } else e))
      ∧ t.curtail.due = s.curtail.due ∧ t.curtail.owed = s.curtail.owed
      ∧ t.curtail.creation = s.curtail.creation ∧ t.curtail.tagCounter = s.curtail.tagCounter
      ∧ t.curtailAt x = r ∧ (∀ y, y ≠ x → t.curtailAt y = s.curtailAt y)
      ∧ t.notices = s.noticesAfterReading s.badSlots
      ∧ (x < 127 → t.timer = { s.timer with pass := s.timer.pass.map (fun p => { p with point := .tenant (x + 1) }) })
      ∧ SameOutside ((if x < 127 then [] else [.links]) ++ [.curtail, .notices, .timer, .downChoice, .upChoice]) s t := by
  obtain ⟨t, hexec, ht, _, hnotices, htimer, hframe⟩ := curtailmentStep_outcome
    (m := [.curtail, .notices, .timer, .downChoice, .upChoice]) hpoint hsame (by decide) (by decide) (by decide)
  rw [hreport] at ht hnotices
  obtain ⟨hcreation, htag, howed, hdue⟩ := actOnTransition_lists s x .endedHot (autoPolicy (some c))
  have hat := curtailAt_putCurtail ((s.actOnTransition x .endedHot (autoPolicy (some c))).setNotices
    (s.noticesAfterReading s.badSlots)) x
  refine ⟨t, hexec, fun n => ?_, ?_, ?_, ?_, ?_, ?_, fun y hy => ?_, hnotices, htimer, hframe⟩
  · rw [entryAt_congr ht]
    exact entryAt_actOnTransition_hot (autoPolicy (some c)) n
  · rw [ht]; exact hdue
  · rw [ht]; exact howed
  · rw [ht]; exact hcreation
  · rw [ht]; exact htag
  · unfold State.curtailAt
    rw [ht]
    exact (hat x r).trans (if_pos rfl)
  · unfold State.curtailAt
    rw [ht]
    refine (hat y r).trans ?_
    rw [if_neg hy, State.setNotices_curtailAt, curtailAt_actOnTransition_hot _ hrestoring, if_neg hy]
    rfl

end

end Sys2Proof.Machine

open Sys2Proof Sys2Proof.Machine

/-- Settles O18: the least eligible key in the candidates' order is the first one found, and gets the first empty slot. -/
theorem shedStepShedsTheFirstEligibleOutlet : Obligations.ShedStepShedsTheFirstEligibleOutlet := by
  intro s x c key slot rank htables hpoint hpolicy hstate hdemand hgrace hrestoring hfree eligible hkey hleast hslot hempty
    hfull
  have hoat : Table.wf absentSlot s.oat = true := htables.2.2.1
  have hmem : ∀ k r, eligible k r → k ∈ s.candidates x ∧ s.rankOf k = some r ∧ s.shedEligible k = true := by
    rintro k r ⟨hlow, hhigh, hgood, ⟨e, hcontent, htenant, hrank⟩, htests⟩
    have hentry := slotEntry_eq_some_iff.mpr ⟨hgood, hcontent⟩
    exact ⟨(mem_candidates s x k).mpr ⟨r, e, ⟨hlow, hhigh⟩, hentry, htenant, hrank⟩,
      by rw [State.rankOf, hentry]; exact hrank, (shedEligible_iff s k).mpr htests⟩
  obtain ⟨hcandidate, hrank, hp⟩ := hmem key rank hkey
  have hfind : (s.candidates x).find? s.shedEligible = some key := by
    refine find?_candidates s x hoat _ hcandidate hp fun k hk hpk => ?_
    rintro ⟨r, q, hr, hq, hlt⟩
    obtain ⟨r', e, ⟨hlow, hhigh⟩, hentry, htenant, hr'⟩ := (mem_candidates s x k).mp hk
    obtain ⟨hgood, hcontent⟩ := slotEntry_eq_some_iff.mp hentry
    have hleast' := hleast k r' ⟨hlow, hhigh, hgood, ⟨e, hcontent, htenant, hr'⟩, (shedEligible_iff s k).mp hpk⟩
    rw [State.rankOf, hentry] at hr
    obtain rfl : r' = r := Option.some.inj (hr'.symm.trans hr)
    obtain rfl : rank = q := Option.some.inj (hrank.symm.trans hq)
    omega
  have hshed := curtailStep_sheds hpolicy hstate hdemand hgrace hrestoring hfree
  have hsame := same_curtailStep_sheds hshed
  rw [shedStep_sheds _ x (key := key) (slot := slot) (by rw [candidates_actOnTransition, shedEligible_actOnTransition, hfind])
    (by rw [emptySlot_actOnTransition, emptySlot_some s hslot hempty hfull]), badSlots_actOnTransition,
    recordParity_actOnTransition] at hshed
  have hcreation := actOnTransition_lists s x .endedHot (autoPolicy (some c))
  have hentry := entryAt_actOnTransition_hot (s := s) (x := x) (autoPolicy (some c))
  have hrecord := curtailAt_actOnTransition_hot (autoPolicy (some c)) hrestoring
  generalize s.actOnTransition x .endedHot (autoPolicy (some c)) = u at *
  obtain ⟨t, hexec, ht, _, hnotices, htimer, hframe⟩ := curtailmentStep_outcome
    (m := [.curtail, .notices, .timer, .downChoice, .upChoice]) hpoint hsame (by decide) (by decide) (by decide)
  rw [hshed] at ht hnotices
  obtain ⟨hcreationMade, htagMade, howedMade⟩ := makeEntry_counters (u.setNotices (s.noticesAfterReading s.badSlots)) x key slot
  have hdue : ∀ p, t.dueAt p = if p = keyPort key then s.dueAt (keyPort key) ++ [slot] else s.dueAt p := fun p => by
    unfold State.dueAt
    rw [ht, ← hcreation.2.2.2]
    exact dueAt_makeEntry _ x key slot p
  have hat : ∀ y, t.curtailAt y = if y = x then { restoring := .none, exhausted := false, blocked := false }
      else s.curtailAt y := fun y => by
    unfold State.curtailAt
    rw [ht]
    refine (curtailAt_makeEntry _ x key slot y).trans ?_
    rw [State.setNotices_curtailAt, State.setNotices_curtailAt, hrecord, hrecord, if_pos rfl]
    by_cases hy : y = x
    · rw [if_pos hy, if_pos hy]
    · rw [if_neg hy, if_neg hy, if_neg hy]; rfl
  refine ⟨t, hexec, ?_, fun n hn => ?_, ?_, fun p hp => ?_, ?_, ?_, ?_, ?_, fun y hy => ?_, hnotices, htimer, hframe⟩
  · rw [entryAt_congr ht, entryAt_makeEntry, if_pos rfl, State.setNotices_curtail, hcreation.1]
    rfl
  · rw [entryAt_congr ht, entryAt_makeEntry, if_neg hn]
    exact hentry n
  · rw [hdue, if_pos rfl]
  · rw [hdue, if_neg hp]
  · rw [ht, hcreationMade, State.setNotices_curtail, hcreation.1]
  · rw [ht, htagMade, State.setNotices_curtail, hcreation.2.1]
  · rw [ht, howedMade, State.setNotices_curtail, hcreation.2.2.1]
  · rw [hat, if_pos rfl]
  · rw [hat, if_neg hy]

/-- Settles O19: the first found candidate, or none, decides between the two reports. -/
theorem shedStepReportsExhaustedOrBlocked : Obligations.ShedStepReportsExhaustedOrBlocked := by
  intro s x c hpoint hpolicy hstate hdemand hgrace hrestoring hfree eligible hcase
  have heligible : eligible ↔ ∃ k ∈ s.candidates x, s.shedEligible k = true := by
    constructor
    · rintro ⟨k, r, hlow, hhigh, hgood, ⟨e, hcontent, htenant, hrank⟩, htests⟩
      exact ⟨k, (mem_candidates s x k).mpr ⟨r, e, ⟨hlow, hhigh⟩, slotEntry_eq_some_iff.mpr ⟨hgood, hcontent⟩, htenant, hrank⟩,
        (shedEligible_iff s k).mpr htests⟩
    · rintro ⟨k, hk, hp⟩
      obtain ⟨r, e, ⟨hlow, hhigh⟩, hentry, htenant, hrank⟩ := (mem_candidates s x k).mp hk
      obtain ⟨hgood, hcontent⟩ := slotEntry_eq_some_iff.mp hentry
      exact ⟨k, r, hlow, hhigh, hgood, ⟨e, hcontent, htenant, hrank⟩, (shedEligible_iff s k).mp hp⟩
  have hshed := curtailStep_sheds hpolicy hstate hdemand hgrace hrestoring hfree
  have hsame := same_curtailStep_sheds hshed
  have hrecord := curtailAt_actOnTransition_hot (autoPolicy (some c)) hrestoring x
  cases hfind : (s.candidates x).find? s.shedEligible with
  | none =>
    have hno : ¬ eligible := fun h => by
      obtain ⟨k, hk, hp⟩ := heligible.mp h
      exact List.find?_eq_none.mp hfind k hk hp
    rw [shedStep_exhausted _ x (by rw [candidates_actOnTransition, shedEligible_actOnTransition, hfind]),
      badSlots_actOnTransition, recordParity_actOnTransition, State.setNotices_curtailAt, hrecord, if_pos rfl] at hshed
    obtain ⟨t, hexec, hentry, hdue, howed, hcreation, htag, hat, hothers, hrest⟩ :=
      shedReport_outcome hpoint hsame hrestoring hshed
    exact ⟨t, hexec, hentry, hdue, howed, hcreation, htag, fun _ => hat, fun h => absurd h hno, hothers, hrest⟩
  | some k =>
    have hyes : eligible := heligible.mpr ⟨k, List.mem_of_find?_eq_some hfind, List.find?_some hfind⟩
    have hfull := emptySlot_none s (hcase.resolve_left fun h => h hyes)
    rw [shedStep_blocked _ x (key := k) (by rw [candidates_actOnTransition, shedEligible_actOnTransition, hfind])
      (by rw [emptySlot_actOnTransition, hfull]),
      badSlots_actOnTransition, recordParity_actOnTransition, State.setNotices_curtailAt, hrecord, if_pos rfl] at hshed
    obtain ⟨t, hexec, hentry, hdue, howed, hcreation, htag, hat, hothers, hrest⟩ :=
      shedReport_outcome hpoint hsame hrestoring hshed
    exact ⟨t, hexec, hentry, hdue, howed, hcreation, htag, fun h => absurd hyes h, fun _ => hat, hothers, hrest⟩

end

