-- ==== Sys2Proof/Proofs/Restore.lean ====
section
/-! PROOF. The restore step: the order of its walk, what the walk removes and passes over, and its ends (R125, R138 to R140,
log 27). -/

namespace Sys2Proof.Machine

/-! ### The order of the walk (R138) -/

section
variable (s : State) (x : Nat)

/-- R138, log 27: the walk comes to slot `a` before slot `b`. -/
def State.restoresBefore (a b : Nat) : Prop := s.recency a < s.recency b ∨ (s.recency a = s.recency b ∧ a < b)

theorem insertRecent_pairwise {slot : Nat} {l : List Nat} (hlow : ∀ m ∈ l, slot < m) (h : l.Pairwise s.restoresBefore) :
    (s.insertRecent slot l).Pairwise s.restoresBefore := by
  induction l with
  | nil => exact List.pairwise_singleton _ _
  | cons n rest ih =>
    obtain ⟨hn, hrest⟩ := List.pairwise_cons.mp h
    have hslot : slot < n := hlow n List.mem_cons_self
    unfold State.insertRecent
    split
    · next hle =>
      refine List.pairwise_cons.mpr ⟨fun m hm => ?_, h⟩
      obtain rfl | hm := List.mem_cons.mp hm
      · unfold State.restoresBefore; omega
      · have hnm := hn m hm
        have hsm := hlow m (List.mem_cons_of_mem _ hm)
        unfold State.restoresBefore at hnm ⊢
        omega
    · next hgt =>
      refine List.pairwise_cons.mpr ⟨fun m hm => ?_, ih (fun m hm => hlow m (List.mem_cons_of_mem _ hm)) hrest⟩
      obtain rfl | hm := (KeepsCurtail.mem_insertRecent s slot rest m).mp hm
      · exact .inl (by omega)
      · exact hn m hm

theorem restoreOrder_pairwise : (s.restoreOrder x).Pairwise s.restoresBefore := by
  have hfold : ∀ l : List Nat, l.Pairwise (· < ·) → (l.foldr s.insertRecent []).Pairwise s.restoresBefore
      ∧ ∀ n ∈ l.foldr s.insertRecent [], n ∈ l := by
    intro l
    induction l with
    | nil => exact fun _ => ⟨.nil, fun n hn => hn⟩
    | cons m rest ih =>
      intro h
      obtain ⟨hm, hrest⟩ := List.pairwise_cons.mp h
      obtain ⟨hpair, hmem⟩ := ih hrest
      refine ⟨insertRecent_pairwise s (fun n hn => hm n (hmem n hn)) hpair, fun n hn => ?_⟩
      obtain rfl | hn := (KeepsCurtail.mem_insertRecent s m _ n).mp hn
      · exact List.mem_cons_self
      · exact List.mem_cons_of_mem _ (hmem n hn)
  exact (hfold _ (List.pairwise_lt_range.filter _)).1

theorem restorable_iff (e : CurtailEntry) : e.restorable = true
    ↔ e.stage = .off ∨ e.stage = .unconfirmed ∨ e.stage = .skipped := by
  simp [CurtailEntry.restorable, or_assoc]

/-- R138: the entry `f` in slot `m` is one that the walk for tenant `x` comes to. -/
def State.walks (m : Nat) (f : CurtailEntry) : Prop := m < 64 ∧ s.entryAt m = some f ∧ f.tenant = x
    ∧ f.tried = false ∧ (f.stage = .off ∨ f.stage = .unconfirmed ∨ f.stage = .skipped)

theorem mem_untried_iff (m : Nat) : m ∈ s.untried x ↔ ∃ f, s.walks x m f := by
  rw [State.untried, mem_slotsWhere]
  simp only [Bool.and_eq_true, decide_eq_true_eq, restorable_iff, Bool.not_eq_true']
  constructor
  · rintro ⟨hm, f, hf, ⟨htenant, hstage⟩, htried⟩
    exact ⟨f, hm, hf, htenant, htried, hstage⟩
  · rintro ⟨f, hm, hf, htenant, htried, hstage⟩
    exact ⟨hm, f, hf, ⟨htenant, hstage⟩, htried⟩

theorem mem_restoreOrder_iff (m : Nat) : m ∈ s.restoreOrder x ↔ ∃ f, s.walks x m f :=
  (KeepsCurtail.mem_restoreOrder s x m).trans (mem_untried_iff s x m)

/-- R138: what stands before a slot in the walk's order is what the walk comes to earlier. -/
theorem mem_before_iff {n : Nat} {before after : List Nat} (horder : s.restoreOrder x = before ++ n :: after) (m : Nat) :
    m ∈ before ↔ m ∈ s.restoreOrder x ∧ s.restoresBefore m n := by
  have hpair := restoreOrder_pairwise s x
  rw [horder] at hpair ⊢
  obtain ⟨_, hafter, hbefore⟩ := List.pairwise_append.mp hpair
  refine ⟨fun hm => ⟨List.mem_append_left _ hm, hbefore m hm n List.mem_cons_self⟩, fun ⟨hm, hlt⟩ => ?_⟩
  obtain hm | hm := List.mem_append.mp hm
  · exact hm
  · unfold State.restoresBefore at hlt
    obtain rfl | hm := List.mem_cons.mp hm
    · omega
    · have hgt := (List.pairwise_cons.mp hafter).1 m hm
      unfold State.restoresBefore at hgt
      omega

/-- R138: how long ago an entry was made. -/
def State.madeBack (f : CurtailEntry) : Nat := (s.curtail.creation - f.sequence).toNat

theorem recency_eq {m : Nat} {f : CurtailEntry} (h : s.entryAt m = some f) : s.recency m = s.madeBack f := by
  simp [State.recency, State.madeBack, h]

/-- R138: the slots before that of `e`, by their entries. -/
theorem mem_before_iff_earlier {n : Nat} {e : CurtailEntry} {before after : List Nat}
    (horder : s.restoreOrder x = before ++ n :: after) (he : s.entryAt n = some e) (m : Nat) : m ∈ before ↔
      ∃ f, s.walks x m f ∧ (s.madeBack f < s.madeBack e ∨ (s.madeBack f = s.madeBack e ∧ m < n)) := by
  rw [mem_before_iff s x horder, mem_restoreOrder_iff]
  constructor
  · rintro ⟨⟨f, hf⟩, hlt⟩
    rw [State.restoresBefore, recency_eq s hf.2.1, recency_eq s he] at hlt
    exact ⟨f, hf, hlt⟩
  · rintro ⟨f, hf, hlt⟩
    rw [← recency_eq s hf.2.1, ← recency_eq s he] at hlt
    exact ⟨⟨f, hf⟩, hlt⟩

theorem restoreEligible_iff (key : Nat) : s.restoreEligible key = true
    ↔ ((s.port (keyPort key)).link = .up ∨ (s.port (keyPort key)).link = .degraded)
      ∧ ((s.presenceAt (keyPdu key)).state = .present ∨ (s.presenceAt (keyPdu key)).state = .held) := by
  simp [State.restoreEligible, carries_iff]

end

/-! ### What the walk removes (R138) -/

/-- R138: the slot's entry is SKIPPED. -/
def State.skippedAt (s : State) (m : Nat) : Bool :=
  match s.entryAt m with
  | some e => decide (e.stage = .skipped)
  | none => false

/-- R138: the SKIPPED entries in a list of slots removed. -/
def State.withoutSkipped (s : State) : List Nat → State
  | [] => s
  | m :: rest => if s.skippedAt m then (s.removeEntry m).withoutSkipped rest else s.withoutSkipped rest

section
variable (s : State)

theorem skippedAt_iff (m : Nat) : s.skippedAt m = true ↔ ∃ f, s.entryAt m = some f ∧ f.stage = .skipped := by
  unfold State.skippedAt
  cases s.entryAt m <;> simp

/-- The SKIPPED slots of a list whose slots' entries are known. -/
theorem skipped_among_iff {ms : List Nat} {P : Nat → CurtailEntry → Prop} (hms : ∀ m, m ∈ ms ↔ ∃ f, P m f)
    (hP : ∀ m f, P m f → s.entryAt m = some f) (m : Nat) :
    (m ∈ ms ∧ s.skippedAt m = true) ↔ ∃ f, P m f ∧ f.stage = .skipped := by
  rw [hms, skippedAt_iff]
  constructor
  · rintro ⟨⟨f, hf⟩, g, hg, hskipped⟩
    obtain rfl : f = g := Option.some.inj ((hP m f hf).symm.trans hg)
    exact ⟨f, hf, hskipped⟩
  · rintro ⟨f, hf, hskipped⟩
    exact ⟨⟨f, hf⟩, f, hP m f hf, hskipped⟩

/-- R138: the walk passes a list of slots whose entries are SKIPPED or out of service. -/
theorem passed_of_out {ms : List Nat} {P : Nat → CurtailEntry → Prop} (hms : ∀ m, m ∈ ms ↔ ∃ f, P m f)
    (hP : ∀ m f, P m f → s.entryAt m = some f)
    (hall : ∀ m f, P m f → f.stage = .skipped ∨ ¬ s.restoreEligible f.outlet = true) :
    ∀ m ∈ ms, ∀ f, s.entryAt m = some f → f.stage = .skipped ∨ s.restoreEligible f.outlet = false := by
  intro m hm f hf
  obtain ⟨g, hg⟩ := (hms m).mp hm
  obtain rfl : g = f := Option.some.inj ((hP m g hg).symm.trans hf)
  exact (hall m g hg).imp_right Bool.eq_false_iff.mpr

theorem skippedAt_removeEntry (m n : Nat) : (s.removeEntry m).skippedAt n = (!decide (n = m) && s.skippedAt n) := by
  unfold State.skippedAt
  rw [entryAt_removeEntry]
  by_cases h : n = m <;> simp [h]

theorem withoutSkipped_spec (ms : List Nat) :
    (∀ n, (s.withoutSkipped ms).entryAt n = if n ∈ ms ∧ s.skippedAt n = true then none else s.entryAt n)
      ∧ (s.withoutSkipped ms).curtail = { s.curtail with
          slots := (s.withoutSkipped ms).curtail.slots,
          owed := s.curtail.owed.filter (fun n => !(decide (n ∈ ms) && s.skippedAt n)) }
      ∧ SameOutside [.curtail] s (s.withoutSkipped ms) := by
  induction ms generalizing s with
  | nil => exact ⟨fun n => (if_neg fun h => by cases h.1).symm, by simp [State.withoutSkipped], .refl _ _⟩
  | cons m rest ih =>
    unfold State.withoutSkipped
    split
    · next hm =>
      obtain ⟨hentry, hcurtail, hsame⟩ := ih (s.removeEntry m)
      refine ⟨fun n => ?_, ?_, (same_removeEntry s m).trans hsame⟩
      · rw [hentry, entryAt_removeEntry, skippedAt_removeEntry]
        by_cases hn : n = m
        · subst hn; simp [hm]
        · simp [hn]
      · have howed : (s.removeEntry m).curtail.owed.filter (fun n => !(decide (n ∈ rest) && (s.removeEntry m).skippedAt n))
            = s.curtail.owed.filter (fun n => !(decide (n ∈ m :: rest) && s.skippedAt n)) := by
          change (s.curtail.owed.filter (fun n => decide (n ≠ m))).filter _ = _
          rw [List.filter_filter]
          refine List.filter_congr fun n _ => ?_
          rw [skippedAt_removeEntry]
          by_cases hn : n = m
          · subst hn; simp [hm]
          · simp [hn]
        rw [howed] at hcurtail
        rw [hcurtail, removeEntry_curtail]
    · next hm =>
      obtain ⟨hentry, hcurtail, hsame⟩ := ih s
      refine ⟨fun n => ?_, ?_, hsame⟩
      · rw [hentry]
        by_cases hn : n = m
        · subst hn; simp [hm]
        · simp [hn]
      · rw [hcurtail]
        have howed : s.curtail.owed.filter (fun n => !(decide (n ∈ rest) && s.skippedAt n))
            = s.curtail.owed.filter (fun n => !(decide (n ∈ m :: rest) && s.skippedAt n)) := by
          refine List.filter_congr fun n _ => ?_
          by_cases hn : n = m
          · subst hn; simp [hm]
          · simp [hn]
        rw [howed]

theorem restoreEligible_of_same {l : List Block} {t : State} (h : SameOutside l s t)
    (hl : ∀ b ∈ [Block.links, .downChoice, .presence], b ∉ l) (key : Nat) :
    t.restoreEligible key = s.restoreEligible key := by
  unfold State.restoreEligible State.presenceAt
  rw [port_of_same h (hl _ (by simp)) (hl _ (by simp)), show t.presence = s.presence from h .presence (hl _ (by simp))]

/-- R138: the walk comes through entries that are SKIPPED or out of service, removing the SKIPPED ones. -/
theorem restoreWalk_append (before rest : List Nat) (h : ∀ m ∈ before, ∀ e, s.entryAt m = some e →
    e.stage = .skipped ∨ s.restoreEligible e.outlet = false) :
    State.restoreWalk s (before ++ rest) = State.restoreWalk (s.withoutSkipped before) rest := by
  induction before generalizing s with
  | nil => rfl
  | cons m before ih =>
    have hlater : ∀ n ∈ before, ∀ e, s.entryAt n = some e → e.stage = .skipped ∨ s.restoreEligible e.outlet = false :=
      fun n hn => h n (List.mem_cons_of_mem _ hn)
    rw [List.cons_append]
    cases he : s.entryAt m with
    | none =>
      simp only [State.restoreWalk, State.withoutSkipped, State.skippedAt, he]
      exact ih s hlater
    | some e =>
      simp only [State.restoreWalk, State.withoutSkipped, State.skippedAt, he, decide_eq_true_eq]
      by_cases hskipped : e.stage = .skipped
      · rw [if_pos hskipped, if_pos hskipped]
        refine ih _ fun n hn f hf => ?_
        rw [entryAt_removeEntry] at hf
        split at hf
        · cases hf
        · rw [restoreEligible_of_same s (same_removeEntry s m) (by decide)]
          exact hlater n hn f hf
      · have hout : s.restoreEligible e.outlet = false := (h m List.mem_cons_self e he).resolve_left hskipped
        rw [if_neg hskipped, if_neg (by rw [hout]; decide), if_neg hskipped]
        exact ih s hlater

/-- R138: the walk stops at the first entry that it can switch back on. -/
theorem restoreWalk_found {n : Nat} {e : CurtailEntry} (rest : List Nat) (he : s.entryAt n = some e)
    (hstage : e.stage ≠ .skipped) (heligible : s.restoreEligible e.outlet = true) :
    State.restoreWalk s (n :: rest) = (s.setOnPending n { e with tried := true }, true) := by
  unfold State.restoreWalk
  rw [he]
  dsimp only
  rw [if_neg hstage, if_pos heligible]

end

/-! ### The restore step after part 1 (R124, R125) -/

/-- R125: a restore goes on, or begins in this step. -/
def restores (restoring : Restoring) (tr : Transition) (c : Option Contract) : Prop :=
  (tr = .other ∧ restoring ≠ .none) ∨ (tr = .endedHot ∧ restoring = .forced)
    ∨ (tr = .overToWithin ∧ (restoring ≠ .none ∨ ∃ k, c = some k ∧ k.policy = .auto))

section
variable {s : State} {x : Nat} {tr : Transition} {c : Option Contract}

theorem restoringAfter_ne_none {restoring : Restoring} (h : restores restoring tr c) :
    restoringAfter restoring (autoPolicy c) tr ≠ .none ∧ ¬ endsRestoring restoring tr := by
  obtain ⟨rfl, hgoes⟩ | ⟨rfl, rfl⟩ | ⟨rfl, hgoes⟩ := h
  · exact ⟨hgoes, not_endsRestoring (.inr rfl)⟩
  · exact ⟨Restoring.noConfusion, fun h => by obtain h | ⟨_, h⟩ := h <;> cases h⟩
  · refine ⟨?_, not_endsRestoring (.inl rfl)⟩
    change (if autoPolicy c = true ∧ restoring ≠ .forced then Restoring.auto else restoring) ≠ .none
    split
    · exact Restoring.noConfusion
    · next hno =>
      obtain hrestoring | hauto := hgoes
      · exact hrestoring
      · intro hnone
        subst hnone
        exact hno ⟨autoPolicy_iff.mpr hauto, Restoring.noConfusion⟩

theorem curtailStep_restores (h : restores (s.curtailAt x).restoring tr c) (hfree : s.tenantPending x = false) :
    s.curtailStep x tr c = (s.actOnTransition x tr (autoPolicy c)).restoreStep x := by
  rw [curtailStep_eq, restoring_actOnTransition, tenantPending_actOnTransition,
    if_pos ⟨(restoringAfter_ne_none h).1, by rw [hfree]; rfl⟩]

/-- Where part 1 ends no restoring, the walk after it is the walk that the state before it would make. -/
theorem restoreOrder_congr {u : State} (hentry : ∀ m, u.entryAt m = s.entryAt m)
    (hcreation : u.curtail.creation = s.curtail.creation) (y : Nat) : u.restoreOrder y = s.restoreOrder y := by
  have hrecency : ∀ m, u.recency m = s.recency m := fun m => by
    unfold State.recency
    rw [hentry, hcreation]
  have hinsert : u.insertRecent = s.insertRecent := by
    funext slot l
    induction l with
    | nil => rfl
    | cons n rest ih => simp only [State.insertRecent, hrecency, ih]
  have huntried : u.untried y = s.untried y := by
    unfold State.untried State.slotsWhere
    simp only [hentry]
  unfold State.restoreOrder
  rw [hinsert, huntried]

/-- Where part 1 ends no restoring, it leaves all that the walk goes by. -/
theorem acted_walk (h : ¬ endsRestoring (s.curtailAt x).restoring tr) (auto : Bool) :
    (∀ m, (s.actOnTransition x tr auto).entryAt m = s.entryAt m)
      ∧ (s.actOnTransition x tr auto).restoreOrder x = s.restoreOrder x
      ∧ (∀ m, (s.actOnTransition x tr auto).skippedAt m = s.skippedAt m)
      ∧ ∀ key, (s.actOnTransition x tr auto).restoreEligible key = s.restoreEligible key := by
  have hentry := (actOnTransition_spec s x tr auto).2.2.1 h
  refine ⟨hentry, restoreOrder_congr hentry (actOnTransition_lists s x tr auto).1 x, fun m => ?_,
    restoreEligible_of_same s (same_actOnTransition s x tr auto) (by decide)⟩
  unfold State.skippedAt
  rw [hentry]

theorem restoreStep_found {n : Nat} {e : CurtailEntry} {before after : List Nat}
    (horder : s.restoreOrder x = before ++ n :: after) (hpass : ∀ m ∈ before, ∀ e, s.entryAt m = some e →
      e.stage = .skipped ∨ s.restoreEligible e.outlet = false) (he : s.entryAt n = some e) (hstage : e.stage ≠ .skipped)
    (heligible : s.restoreEligible e.outlet = true) :
    s.restoreStep x = (s.withoutSkipped before).setOnPending n { e with tried := true } := by
  obtain ⟨hentry, _, hsame⟩ := withoutSkipped_spec s before
  have hkept : (s.withoutSkipped before).entryAt n = some e := by
    have hskipped : ¬ (n ∈ before ∧ s.skippedAt n = true) := fun h => by
      obtain ⟨f, hf, hskipped⟩ := (skippedAt_iff s n).mp h.2
      rw [he] at hf
      cases hf
      exact hstage hskipped
    rw [hentry, if_neg hskipped, he]
  unfold State.restoreStep
  rw [horder, restoreWalk_append s before _ hpass, restoreWalk_found _ after hkept hstage
    (by rw [restoreEligible_of_same s hsame (by decide)]; exact heligible)]
  rfl

theorem restoreStep_none (hpass : ∀ m ∈ s.restoreOrder x, ∀ e, s.entryAt m = some e →
    e.stage = .skipped ∨ s.restoreEligible e.outlet = false) : s.restoreStep x =
      if ((s.withoutSkipped (s.restoreOrder x)).untried x).isEmpty
        then (s.withoutSkipped (s.restoreOrder x)).finishRestore x else s.withoutSkipped (s.restoreOrder x) := by
  have hwalk := restoreWalk_append s (s.restoreOrder x) [] hpass
  rw [List.append_nil] at hwalk
  unfold State.restoreStep
  rw [hwalk]
  rfl

/-- R125: what a restore that goes on or begins finds in the tenant's record. -/
theorem acted_of_restores {r : TenantCurtail} (h : restores r.restoring tr c) :
    (tr ≠ .overToWithin → r.acted (autoPolicy c) tr = r)
      ∧ (tr = .overToWithin → r.acted (autoPolicy c) tr = {
          restoring := if (∃ k, c = some k ∧ k.policy = .auto) ∧ r.restoring ≠ .forced then .auto else r.restoring,
          exhausted := false, blocked := false }) := by
  refine ⟨fun hno => ?_, ?_⟩
  · obtain ⟨rfl, _⟩ | ⟨rfl, hforced⟩ | ⟨rfl, _⟩ := h
    · rfl
    · simp only [TenantCurtail.acted, restoringAfter, hforced]
      rw [if_neg Restoring.noConfusion, ← hforced]
    · exact absurd rfl hno
  · rintro rfl
    simp only [TenantCurtail.acted, restoringAfter, autoPolicy_iff]

/-- The state after part 1 and the walk's removals among `ms`. -/
def State.walked (s : State) (x : Nat) (tr : Transition) (c : Option Contract) (ms : List Nat) : State :=
  (s.actOnTransition x tr (autoPolicy c)).withoutSkipped ms

/-- What part 1 and the walk leave of the table. -/
theorem walked_spec (hrestores : restores (s.curtailAt x).restoring tr c) (ms : List Nat) :
    (∀ m, (s.walked x tr c ms).entryAt m = if m ∈ ms ∧ s.skippedAt m = true then none else s.entryAt m)
      ∧ (∀ y, (s.walked x tr c ms).curtailAt y =
        if y = x then (s.curtailAt x).acted (autoPolicy c) tr else s.curtailAt y)
      ∧ (s.walked x tr c ms).curtail.owed = s.curtail.owed.filter (fun m => !(decide (m ∈ ms) && s.skippedAt m))
      ∧ (s.walked x tr c ms).curtail.due = s.curtail.due
      ∧ (s.walked x tr c ms).curtail.creation = s.curtail.creation
      ∧ (s.walked x tr c ms).curtail.tagCounter = s.curtail.tagCounter
      ∧ SameOutside [.curtail] s (s.walked x tr c ms) := by
  obtain ⟨hentry, _, hskipped, _⟩ := acted_walk (restoringAfter_ne_none hrestores).2 (autoPolicy c)
  obtain ⟨hcreation, htag, howed, hdue⟩ := actOnTransition_lists s x tr (autoPolicy c)
  have hrecord := (actOnTransition_spec s x tr (autoPolicy c)).1
  obtain ⟨hwithout, hcurtail, hsame⟩ := withoutSkipped_spec (s.actOnTransition x tr (autoPolicy c)) ms
  simp only [hskipped, hentry, howed] at hwithout hcurtail
  unfold State.walked
  refine ⟨hwithout, fun y => ?_, by rw [hcurtail], by rw [hcurtail, ← hdue], by rw [hcurtail, ← hcreation],
    by rw [hcurtail, ← htag], (same_actOnTransition s x tr (autoPolicy c)).trans hsame⟩
  rw [← hrecord]
  unfold State.curtailAt
  rw [hcurtail]

/-- R125: the report of an ended shedding clears with a return to WITHIN, and stands otherwise. -/
theorem acted_reports {r : TenantCurtail} (h : restores r.restoring tr c) : r.acted (autoPolicy c) tr = {
    restoring := if tr = .overToWithin ∧ (∃ k, c = some k ∧ k.policy = .auto) ∧ r.restoring ≠ .forced then .auto
      else r.restoring,
    exhausted := r.exhausted && !decide (tr = .overToWithin), blocked := r.blocked && !decide (tr = .overToWithin) } := by
  by_cases htr : tr = .overToWithin
  · rw [(acted_of_restores h).2 htr]
    simp [htr]
  · rw [(acted_of_restores h).1 htr]
    simp [htr]

/-- The owed list after a walk, said by the table before and after. -/
theorem owed_of_walk {t : State} {ms : List Nat}
    (howed : t.curtail.owed = s.curtail.owed.filter (fun m => !(decide (m ∈ ms) && s.skippedAt m)))
    (hgone : ∀ m, m ∈ ms ∧ s.skippedAt m = true → t.entryAt m = none)
    (hkept : ∀ m, ¬ (m ∈ ms ∧ s.skippedAt m = true) → (t.entryAt m).isSome = (s.entryAt m).isSome) :
    t.curtail.owed = s.curtail.owed.filter (fun m => (s.entryAt m).isNone || (t.entryAt m).isSome) := by
  rw [howed]
  refine List.filter_congr fun m _ => ?_
  by_cases h : m ∈ ms ∧ s.skippedAt m = true
  · obtain ⟨f, hf, _⟩ := (skippedAt_iff s m).mp h.2
    rw [hgone m h, hf]
    simp [h]
  · have hdecide : (decide (m ∈ ms) && s.skippedAt m) = false := by simpa using h
    rw [hkept m h, hdecide]
    cases s.entryAt m <;> rfl

theorem owed_setOnPending (u : State) (slot : Nat) (e : CurtailEntry) :
    (u.setOnPending slot e).curtail.owed = u.curtail.owed ∧ (u.setOnPending slot e).curtail.creation = u.curtail.creation
      ∧ (u.setOnPending slot e).curtail.tagCounter = u.curtail.tagCounter
      ∧ (u.setOnPending slot e).curtail.records = u.curtail.records := ⟨rfl, rfl, rfl, rfl⟩

/-! ### The step that restores, as part 1 and the walk (R124, R125, R138) -/

/-- R138: a restore step that finds an entry to switch back on. -/
theorem curtailStep_found {n : Nat} {e : CurtailEntry} {before after : List Nat}
    (hrestores : restores (s.curtailAt x).restoring tr c) (hfree : s.tenantPending x = false)
    (horder : s.restoreOrder x = before ++ n :: after) (hpass : ∀ m ∈ before, ∀ f, s.entryAt m = some f →
      f.stage = .skipped ∨ s.restoreEligible f.outlet = false) (he : s.entryAt n = some e) (hstage : e.stage ≠ .skipped)
    (heligible : s.restoreEligible e.outlet = true) :
    s.curtailStep x tr c = (s.walked x tr c before).setOnPending n { e with tried := true } := by
  obtain ⟨hentryActed, horderActed, _, heligibleActed⟩ := acted_walk (restoringAfter_ne_none hrestores).2 (autoPolicy c)
  refine (curtailStep_restores hrestores hfree).trans (restoreStep_found (horderActed.trans horder) (fun m hm f hf => ?_)
    ((hentryActed n).trans he) hstage ((heligibleActed _).trans heligible))
  rw [hentryActed] at hf
  rw [heligibleActed]
  exact hpass m hm f hf

/-- R138, R139: a restore step whose walk comes through. -/
theorem curtailStep_through (hrestores : restores (s.curtailAt x).restoring tr c) (hfree : s.tenantPending x = false)
    (hpass : ∀ m ∈ s.restoreOrder x, ∀ f, s.entryAt m = some f → f.stage = .skipped ∨ s.restoreEligible f.outlet = false) :
    s.curtailStep x tr c =
      if ((s.walked x tr c (s.restoreOrder x)).untried x).isEmpty
        then (s.walked x tr c (s.restoreOrder x)).finishRestore x else s.walked x tr c (s.restoreOrder x) := by
  obtain ⟨hentryActed, horderActed, _, heligibleActed⟩ := acted_walk (restoringAfter_ne_none hrestores).2 (autoPolicy c)
  refine (curtailStep_restores hrestores hfree).trans ((restoreStep_none fun m hm f hf => ?_).trans ?_)
  · rw [horderActed] at hm
    rw [hentryActed] at hf
    rw [heligibleActed]
    exact hpass m hm f hf
  · rw [horderActed]
    rfl

/-- R139: the untried entries that a walk through all of them leaves. -/
theorem mem_untried_walked (hrestores : restores (s.curtailAt x).restoring tr c) (m : Nat) :
    m ∈ (s.walked x tr c (s.restoreOrder x)).untried x ↔ ∃ f, s.walks x m f ∧ f.stage ≠ .skipped := by
  have hentry := (walked_spec hrestores (s.restoreOrder x)).1
  have hgone := skipped_among_iff s (mem_restoreOrder_iff s x) (fun _ _ hf => hf.2.1) m
  rw [mem_untried_iff]
  simp only [State.walks, hentry]
  constructor
  · rintro ⟨f, hm, hf, hrest⟩
    split at hf
    · cases hf
    · next hno => exact ⟨f, ⟨hm, hf, hrest⟩, fun hskipped => hno (hgone.mpr ⟨f, ⟨hm, hf, hrest⟩, hskipped⟩)⟩
  · rintro ⟨f, ⟨hm, hf, hrest⟩, hkept⟩
    refine ⟨f, hm, (if_neg fun h => ?_).trans hf, hrest⟩
    obtain ⟨g, ⟨_, hg, _⟩, hskipped⟩ := hgone.mp h
    obtain rfl : f = g := Option.some.inj (hf.symm.trans hg)
    exact hkept hskipped

/-- R139: what the end of a restore leaves. -/
theorem finishRestore_spec (v : State) (x : Nat) :
    (∀ m, (v.finishRestore x).entryAt m = if m < 64 then
        (v.entryAt m).map (fun e => if e.tenant = x then { e with tried := false } else e) else v.entryAt m)
      ∧ (∀ y, (v.finishRestore x).curtailAt y = if y = x then { v.curtailAt x with restoring := .none } else v.curtailAt y)
      ∧ (v.finishRestore x).curtail = { v.curtail with
          slots := (v.finishRestore x).curtail.slots, records := (v.finishRestore x).curtail.records }
      ∧ (∀ y, (v.finishRestore x).liveAt y = if y = x then { v.liveAt x with ticksInOver := 0 } else v.liveAt y)
      ∧ SameOutside [.curtail, .live] v (v.finishRestore x) := by
  obtain ⟨hentry, hrecord, hcurtail, hsame⟩ := endRestoring_spec v x
  refine ⟨hentry, hrecord, hcurtail, fun y => ?_,
    (SameOutside.mono hsame (by decide)).trans (SameOutside.mono (same_putLive _ _ _) (by decide))⟩
  refine (liveAt_putLive (s := v.endRestoring x) x y { v.liveAt x with ticksInOver := 0 }).trans ?_
  rw [liveAt_of_same hsame (by decide)]

end

end Sys2Proof.Machine

open Sys2Proof Sys2Proof.Machine

/-- Settles O20: what stands before the entry in the walk's order is what the statement calls earlier. -/
theorem restoreStepTakesTheMostRecentEntry : Obligations.RestoreStepTakesTheMostRecentEntry := by
  intro s x n tr c e hpoint hcase hfree inService untried back earlier huntried hstage hservice hearlier removed
  have hrestores : restores (s.curtailAt x).restoring tr c := hcase
  have he : s.entryAt n = some e := huntried.2.1
  obtain ⟨before, after, horder⟩ := List.append_of_mem ((mem_restoreOrder_iff s x n).mpr ⟨e, huntried⟩)
  have hbefore := mem_before_iff_earlier s x horder he
  have hremoved : ∀ m, (m ∈ before ∧ s.skippedAt m = true) ↔ removed m := fun m =>
    (skipped_among_iff s hbefore (fun _ _ hf => hf.1.2.1) m).trans (exists_congr fun _ => and_assoc)
  have hpass := passed_of_out s hbefore (fun _ _ hf => hf.1.2.1) fun m f hf =>
    (hearlier m f hf.1 hf.2).imp_right (restoreEligible_iff s f.outlet).not.mpr
  have hstep := curtailStep_found hrestores hfree horder hpass he hstage ((restoreEligible_iff s _).mpr hservice)
  obtain ⟨hentry, hrecord, howed, hdue, hcreation, htag, hsame⟩ := walked_spec hrestores before
  have hnotRemoved : ¬ (n ∈ before ∧ s.skippedAt n = true) := fun h => by
    obtain ⟨f, hf, hskipped⟩ := (skippedAt_iff s n).mp h.2
    rw [he] at hf
    cases hf
    exact hstage hskipped
  generalize s.walked x tr c before = v at *
  obtain ⟨howedStep, hcreationStep, htagStep, hrecordsStep⟩ := owed_setOnPending v n { e with tried := true }
  obtain ⟨t, hexec, ht, _, _, htimer, hframe⟩ := curtailmentStep_outcome
    (m := [.curtail, .timer, .downChoice, .upChoice]) hpoint
    (hstep ▸ hsame.trans (same_setOnPending v n { e with tried := true })) (by decide) (by decide) (by decide)
  rw [hstep] at ht
  have hat : ∀ m, t.entryAt m = if m = n then
      some { e with stage := .onPending, sent := false, remaining := 0, attempts := 0, tried := true }
      else if m ∈ before ∧ s.skippedAt m = true then none else s.entryAt m := fun m => by
    rw [entryAt_congr ht, entryAt_setOnPending v n { e with tried := true }, hentry]
  have hrecords : ∀ y, t.curtailAt y = if y = x then (s.curtailAt x).acted (autoPolicy c) tr else s.curtailAt y := fun y => by
    rw [← hrecord]
    unfold State.curtailAt
    rw [ht, hrecordsStep]
  have hdues : ∀ p, t.dueAt p = if p = keyPort e.outlet then s.dueAt (keyPort e.outlet) ++ [n] else s.dueAt p := fun p => by
    have hv : ∀ q, v.dueAt q = s.dueAt q := fun q => by unfold State.dueAt; rw [hdue]
    rw [← hv, ← hv, ← dueAt_setOnPending v n { e with tried := true }]
    unfold State.dueAt
    rw [ht]
  have hgone : ∀ m, m ∈ before ∧ s.skippedAt m = true → t.entryAt m = none := fun m hm => by
    rw [hat, if_neg (by rintro rfl; exact hnotRemoved hm), if_pos hm]
  refine ⟨t, hexec, (hat n).trans (if_pos rfl), fun m hm => hgone m ((hremoved m).mpr hm), fun m hm hno => ?_,
    owed_of_walk (by rw [ht, howedStep, howed]) hgone fun m hm => ?_, (hdues _).trans (if_pos rfl),
    fun p hp => (hdues p).trans (if_neg hp), fun htr => ?_, fun htr => ?_, fun y hy => (hrecords y).trans (if_neg hy),
    by rw [ht, hcreationStep, hcreation], by rw [ht, htagStep, htag], htimer, hframe⟩
  · rw [hat, if_neg hm, if_neg fun h => hno ((hremoved m).mp h)]
  · rw [hat, if_neg hm]
    split
    · next h => rw [h, he]; rfl
    · rfl
  · rw [hrecords, if_pos rfl, (acted_of_restores hrestores).1 htr]
  · rw [hrecords, if_pos rfl, (acted_of_restores hrestores).2 htr]

/-- Settles O21: the walk comes through the whole order; whether an untried entry is left decides between the two ends. -/
theorem restoreStepWithoutACommandEndsOrWaits : Obligations.RestoreStepWithoutACommandEndsOrWaits := by
  intro s x tr c hpoint hcase hfree inService untried cleared removed
  have hrestores : restores (s.curtailAt x).restoring tr c := hcase
  have horder : ∀ m, m ∈ s.restoreOrder x ↔ ∃ f, untried m f := mem_restoreOrder_iff s x
  have huntried := fun m => mem_untried_walked hrestores m
  have hremoved : ∀ m, (m ∈ s.restoreOrder x ∧ s.skippedAt m = true) ↔ removed m :=
    skipped_among_iff s horder fun _ _ hf => hf.2.1
  have hstep := fun hall => curtailStep_through hrestores hfree (passed_of_out s horder (fun _ _ hf => hf.2.1) hall)
  obtain ⟨hentry, hrecord, howed, hdue, hcreation, htag, hsame⟩ := walked_spec hrestores (s.restoreOrder x)
  generalize s.walked x tr c (s.restoreOrder x) = v at *
  refine ⟨fun hall => ?ends, fun hall hleft => ?waits⟩
  case ends =>
    have hempty : (v.untried x).isEmpty = true := by
      rw [List.isEmpty_iff, List.eq_nil_iff_forall_not_mem]
      intro m hm
      obtain ⟨f, hf, hkept⟩ := (huntried m).mp hm
      exact hkept (hall m f hf)
    have hstep := (hstep fun m f hf => .inl (hall m f hf)).trans (if_pos hempty)
    obtain ⟨hentryEnd, hrecordEnd, hcurtailEnd, hliveEnd, hsameEnd⟩ := finishRestore_spec v x
    obtain ⟨t, hexec, ht, hlive, _, htimer, hframe⟩ := curtailmentStep_outcome
      (m := [.curtail, .live, .timer, .downChoice, .upChoice]) hpoint
      (hstep ▸ hsame.comp hsameEnd (by decide) (List.Subset.refl _)) (by decide) (by decide) (by decide)
    rw [hstep] at ht hlive
    have hat : ∀ m, t.entryAt m = if m < 64 then
        (v.entryAt m).map (fun e => if e.tenant = x then { e with tried := false } else e) else v.entryAt m := fun m => by
      rw [entryAt_congr ht, hentryEnd]
    have hrecords : ∀ y, t.curtailAt y = if y = x then { v.curtailAt x with restoring := .none } else v.curtailAt y :=
      fun y => by rw [← hrecordEnd]; unfold State.curtailAt; rw [ht]
    have hliveAt : ∀ y, t.liveAt y = if y = x then { s.liveAt x with ticksInOver := 0 } else s.liveAt y := fun y => by
      rw [← liveAt_of_same hsame (by decide) x, ← liveAt_of_same hsame (by decide) y, ← hliveEnd]
      unfold State.liveAt
      rw [hlive]
    have hgone : ∀ m, m ∈ s.restoreOrder x ∧ s.skippedAt m = true → t.entryAt m = none := fun m hm => by
      rw [hat, hentry, if_pos hm]
      split <;> rfl
    refine ⟨t, hexec, ?_, fun y hy => ?_, fun m hm => hgone m ((hremoved m).mpr hm), fun m hlow hno => ?_,
      owed_of_walk (by rw [ht, hcurtailEnd, howed]) hgone fun m hm => ?_, (hliveAt x).trans (if_pos rfl),
      fun y hy => (hliveAt y).trans (if_neg hy), by rw [ht, hcurtailEnd, hdue], by rw [ht, hcurtailEnd, hcreation],
      by rw [ht, hcurtailEnd, htag], htimer, hframe⟩
    · rw [hrecords, if_pos rfl, hrecord, if_pos rfl, acted_reports hrestores]
    · rw [hrecords, if_neg hy, hrecord, if_neg hy]
    · rw [hat, if_pos hlow, hentry, if_neg fun h => hno ((hremoved m).mp h)]
    · rw [hat, hentry, if_neg hm]
      split
      · exact Option.isSome_map
      · rfl
  case waits =>
    have hsome : ¬ (v.untried x).isEmpty = true := by
      obtain ⟨m, f, hf, hkept⟩ := hleft
      rw [List.isEmpty_iff]
      exact List.ne_nil_of_mem ((huntried m).mpr ⟨f, hf, hkept⟩)
    have hstep := (hstep fun m f hf => (hall m f hf).imp_right (restoreEligible_iff s f.outlet).not.mpr).trans (if_neg hsome)
    obtain ⟨t, hexec, ht, _, _, htimer, hframe⟩ := curtailmentStep_outcome
      (m := [.curtail, .timer, .downChoice, .upChoice]) hpoint (hstep ▸ hsame) (by decide) (by decide) (by decide)
    rw [hstep] at ht
    have hat : ∀ m, t.entryAt m = if m ∈ s.restoreOrder x ∧ s.skippedAt m = true then none else s.entryAt m := fun m => by
      rw [entryAt_congr ht, hentry]
    have hrecords : ∀ y, t.curtailAt y = if y = x then (s.curtailAt x).acted (autoPolicy c) tr else s.curtailAt y :=
      fun y => by rw [← hrecord]; unfold State.curtailAt; rw [ht]
    refine ⟨t, hexec, ?_, fun y hy => (hrecords y).trans (if_neg hy),
      fun m hm => (hat m).trans (if_pos ((hremoved m).mpr hm)),
      fun m hno => (hat m).trans (if_neg fun h => hno ((hremoved m).mp h)),
      owed_of_walk (by rw [ht, howed]) (fun m hm => (hat m).trans (if_pos hm)) fun m hm => by rw [hat, if_neg hm],
      by rw [ht, hdue], by rw [ht, hcreation], by rw [ht, htag], htimer, hframe⟩
    rw [hrecords, if_pos rfl, acted_reports hrestores]

end

