-- ==== Sys2Proof/Proofs/Close.lean ====
section
/-! PROOF. The interval close: what it captures and clears, and what a switch of contracts makes of each tenant (R110 to
R116, R149). -/

namespace Sys2Proof.Machine

section
variable (s : State)

/-! ### The first bad record of a table (R104) -/

/-- A scan of places in ascending order in which those below `k` give nothing. -/
theorem flatMap_range_first {α : Type} (f : Nat → List α) {n k : Nat} (hk : k < n) (hlow : ∀ i, i < k → f i = []) :
    ∃ rest, (List.range n).flatMap f = f k ++ rest := by
  obtain ⟨j, rfl⟩ : ∃ j, n = k + (j + 1) := ⟨n - k - 1, by omega⟩
  have hbelow : (List.range k).flatMap f = [] := List.flatMap_eq_nil_iff.mpr fun i hi => hlow i (List.mem_range.mp hi)
  rw [List.range_add, List.flatMap_append, hbelow, List.range_succ_eq_map]
  exact ⟨_, rfl⟩

theorem badContracts_nil {table : ParityTable} {at' : Nat → Stored Contract}
    (h : ∀ x, 1 ≤ x → x ≤ 127 → (at' x).parityGood = true) : badContracts table at' = [] :=
  List.flatMap_eq_nil_iff.mpr fun i hi => parityLocation_good (h _ (by omega) (by have := List.mem_range.mp hi; omega))

theorem badContracts_first {table : ParityTable} {at' : Nat → Stored Contract} {x : Nat} (h1 : 1 ≤ x) (h127 : x ≤ 127)
    (hbad : (at' x).parityGood = false) (hlow : ∀ y, 1 ≤ y → y < x → (at' y).parityGood = true) :
    ∃ rest, badContracts table at' = .item table x :: rest := by
  obtain ⟨k, rfl⟩ : ∃ k, x = k + 1 := ⟨x - 1, by omega⟩
  obtain ⟨rest, h⟩ := flatMap_range_first (fun n => parityLocation (at' (n + 1)) (.item table (n + 1)))
    (show k < 127 by omega) fun i hi => parityLocation_good (hlow _ (by omega) (by omega))
  exact ⟨rest, by rw [badContracts, h, parityLocation_bad hbad]; rfl⟩

/-- R45, R155: what a read of a contract table leaves in the notice unit. -/
theorem noticesAfterReading_badContracts (u : State) (table : ParityTable) (at' : Nat → Stored Contract) :
    (∀ x, 1 ≤ x → x ≤ 127 → (at' x).parityGood = false → (∀ y, 1 ≤ y → y < x → (at' y).parityGood = true) →
        u.noticesAfterReading (badContracts table at') = u.noticesWithFault .tableParity (.item table x))
      ∧ ((∀ x, 1 ≤ x → x ≤ 127 → (at' x).parityGood = true) →
        u.noticesAfterReading (badContracts table at') = u.notices) := by
  refine ⟨fun x h1 h127 hbad hlow => ?_, fun h => ?_⟩
  · obtain ⟨rest, hrest⟩ := badContracts_first (table := table) h1 h127 hbad hlow
    rw [hrest]
    rfl
  · rw [badContracts_nil h]
    rfl

/-! ### What a close keeps and owes -/

theorem notices_oweInterval (n : BitVec 32) (switched : Bool) : (s.oweInterval n switched).notices =
    if s.masked .interval = true then s.notices else { s.notices with intervalOwed := some (n, s.contracts.generation,
      switched || (match s.notices.intervalOwed with | some w => w.2.2 | none => false)) } := by
  unfold State.oweInterval
  split
  · rfl
  · rfl

theorem masked_of_same {l : List Block} {s t : State} (h : SameOutside l s t) (hl : Block.settings ∉ l) (kind : NoticeKind) :
    t.masked kind = s.masked kind := by
  unfold State.masked State.setting
  rw [show t.settings = s.settings from h .settings hl]

theorem summaryAt_captured (n : BitVec 32) (u : State)
    (h : u.contracts.summaries = (s.captureSummaries n).contracts.summaries) (x : Nat) (hx : x ≤ 127) :
    u.summaryAt x = some (summaryOf n s.contracts.generation (s.liveAt x)) := by
  unfold State.summaryAt
  rw [h]
  exact (Table.read_tabulate ..).trans (if_pos (by omega))

theorem exec_intervalClose {n : BitVec 32} (h : s.timer.handedClose = some n) :
    exec .intervalClose s = .next ((s.setTimer { s.timer with handedClose := none }).closeInterval n) := by
  change execIntervalClose s = _
  unfold execIntervalClose
  rw [h]

/-- R116: a close without a switch leaves the contracts and makes the notice owed. -/
theorem closeInterval_noSwitch_spec (n : BitVec 32) (h : s.switchDue = false) :
    (s.closeInterval n).contracts = (s.captureSummaries n).contracts
      ∧ (s.closeInterval n).notices = (s.oweInterval n false).notices
      ∧ SameOutside [.contracts, .live, .notices] s (s.closeInterval n) := by
  rw [closeInterval_noSwitch s n h]
  have howe := same_oweInterval (s.captureSummaries n).clearAccumulators n false
  refine ⟨howe .contracts (by decide), ?_, ?_⟩
  · rw [notices_oweInterval, notices_oweInterval]
    rfl
  · exact ((SameOutside.mono (same_setContracts s _) (by decide)).trans (SameOutside.mono (same_setLive _ _) (by decide))).trans
      (SameOutside.mono howe (by decide))

/-! ### The switch (R113 to R115) -/

/-- R114, R115: a switch ends the tenant's restoring or makes it IDLE, and clears the tried flags of its entries. -/
def State.untriesAt (s : State) (x : Nat) : Bool :=
  decide ((s.liveAt x).state ≠ .idle) && (!(s.activeAt x).content.valid
    || (decide ((s.activeAt x).content.policy ≠ .auto) && decide ((s.curtailAt x).restoring = .auto)))

/-- R114, R115: what a switch makes of the tenant's curtailment record. -/
def State.switchedCurtail (s : State) (x : Nat) : TenantCurtail :=
  if (s.liveAt x).state = .idle then s.curtailAt x
  else if (s.activeAt x).content.valid then
    (if (s.activeAt x).content.policy ≠ .auto ∧ (s.curtailAt x).restoring = .auto then
      { s.curtailAt x with restoring := .none } else s.curtailAt x)
  else TenantCurtail.clear

/-- The tried flag of an entry cleared where `b` says so. -/
def CurtailEntry.untriedIf (b : Bool) (e : CurtailEntry) : CurtailEntry := if b then { e with tried := false } else e

theorem untriedIf_false (o : Option CurtailEntry) : o.map (CurtailEntry.untriedIf false) = o  := by
  cases o <;> rfl

theorem tenant_untriedIf (b : Bool) (e : CurtailEntry) : (e.untriedIf b).tenant = e.tenant := by
  unfold CurtailEntry.untriedIf
  split <;> rfl

theorem endRestoring_entryAt (x m : Nat) : (s.endRestoring x).entryAt m =
    (s.entryAt m).map (fun e => e.untriedIf (decide (m < 64) && decide (e.tenant = x))) := by
  rw [(endRestoring_spec s x).1]
  split
  · next h => simp [CurtailEntry.untriedIf, h]
  · next h =>
    simp only [h, decide_false, Bool.false_and]
    exact (untriedIf_false _).symm

theorem consequence_spec (x : Nat) :
    (∀ y, (s.consequence x).curtailAt y = if y = x then s.switchedCurtail x else s.curtailAt y)
      ∧ (∀ m, (s.consequence x).entryAt m =
        (s.entryAt m).map (fun e => e.untriedIf (decide (m < 64) && (decide (e.tenant = x) && s.untriesAt x))))
      ∧ (s.consequence x).curtail = { s.curtail with
          slots := (s.consequence x).curtail.slots, records := (s.consequence x).curtail.records } := by
  have hput : ∀ y, (s.putLive x ((s.liveAt x).switched (s.activeAt x).content)).curtailAt y = s.curtailAt y := fun _ => rfl
  have hentry : ∀ m, (s.putLive x ((s.liveAt x).switched (s.activeAt x).content)).entryAt m = s.entryAt m := fun _ => rfl
  have hcurtail : (s.putLive x ((s.liveAt x).switched (s.activeAt x).content)).curtail = s.curtail := rfl
  have hsame : ∀ y, s.curtailAt y = if y = x then s.curtailAt x else s.curtailAt y := fun y => by
    split
    · next h => rw [h]
    · rfl
  unfold State.consequence
  dsimp only
  generalize s.putLive x ((s.liveAt x).switched (s.activeAt x).content) = u at hput hentry hcurtail
  by_cases hidle : (s.liveAt x).state = .idle
  · rw [if_pos hidle]
    refine ⟨fun y => ?_, fun m => ?_, by rw [hcurtail]⟩
    · rw [hput, State.switchedCurtail, if_pos hidle, ← hsame]
    · simp only [hentry, State.untriesAt, hidle, ne_eq, not_true_eq_false, decide_false, Bool.false_and, Bool.and_false]
      exact (untriedIf_false _).symm
  rw [if_neg hidle]
  cases hvalid : (s.activeAt x).content.valid with
  | true =>
    simp only [if_true, hput]
    by_cases hends : (s.activeAt x).content.policy ≠ .auto ∧ (s.curtailAt x).restoring = .auto
    · rw [if_pos hends]
      obtain ⟨_, hrecordEnd, hcurtailEnd, _⟩ := endRestoring_spec u x
      refine ⟨fun y => ?_, fun m => ?_, ?_⟩
      · rw [hrecordEnd, State.switchedCurtail, if_neg hidle, hvalid, if_pos rfl, if_pos hends, hput, hput]
      · rw [endRestoring_entryAt, hentry]
        simp [State.untriesAt, hidle, hvalid, hends]
      · rw [hcurtailEnd, hcurtail]
    · rw [if_neg hends]
      refine ⟨fun y => ?_, fun m => ?_, by rw [hcurtail]⟩
      · rw [hput, State.switchedCurtail, if_neg hidle, hvalid, if_pos rfl, if_neg hends, ← hsame]
      · have hno : s.untriesAt x = false := by
          simp only [State.untriesAt, hvalid, Bool.not_true, Bool.false_or, Bool.and_eq_false_iff, decide_eq_false_iff_not]
          exact .inr (not_and_or.mp hends)
        simp only [hentry, hno, Bool.and_false]
        exact (untriedIf_false _).symm
  | false =>
    simp only [Bool.false_eq_true, if_false]
    obtain ⟨_, hrecordEnd, hcurtailEnd, _⟩ :=
      endRestoring_spec (u.putCurtail x { u.curtailAt x with exhausted := false, blocked := false }) x
    refine ⟨fun y => ?_, fun m => ?_, ?_⟩
    · rw [hrecordEnd, State.switchedCurtail, if_neg hidle, hvalid, if_neg Bool.false_ne_true, curtailAt_putCurtail,
        curtailAt_putCurtail, if_pos rfl]
      split
      · rfl
      · exact hput y
    · rw [endRestoring_entryAt]
      change (u.entryAt m).map _ = _
      rw [hentry]
      simp [State.untriesAt, hidle, hvalid]
    · rw [hcurtailEnd, curtail_putCurtail, hcurtail]

/-- R114: one tenant's consequence leaves what the others' go by. -/
theorem consequence_others {x y : Nat} (h : y ≠ x) : (s.consequence x).untriesAt y = s.untriesAt y
    ∧ (s.consequence x).switchedCurtail y = s.switchedCurtail y := by
  have hlive := liveAt_consequence s x y
  have hcurtail := (consequence_spec s x).1 y
  rw [if_neg h] at hlive hcurtail
  unfold State.untriesAt State.switchedCurtail
  rw [hlive, hcurtail, activeAt_of_same (same_consequence s x) (by decide)]
  exact ⟨rfl, rfl⟩

theorem consequences_spec (ts : List Nat) (hts : ts.Nodup) :
    (∀ y, (ts.foldl State.consequence s).curtailAt y = if y ∈ ts then s.switchedCurtail y else s.curtailAt y)
      ∧ (∀ m, (ts.foldl State.consequence s).entryAt m = (s.entryAt m).map
        (fun e => e.untriedIf (decide (m < 64) && (decide (e.tenant ∈ ts) && s.untriesAt e.tenant))))
      ∧ (ts.foldl State.consequence s).curtail = { s.curtail with
          slots := (ts.foldl State.consequence s).curtail.slots,
          records := (ts.foldl State.consequence s).curtail.records } := by
  induction ts generalizing s with
  | nil =>
    refine ⟨fun y => rfl, fun m => ?_, rfl⟩
    simp only [List.not_mem_nil, decide_false, Bool.false_and, Bool.and_false]
    exact (untriedIf_false _).symm
  | cons x rest ih =>
    obtain ⟨hx, hrest⟩ := List.nodup_cons.1 hts
    obtain ⟨hrecord, hentry, hcurtail⟩ := consequence_spec s x
    obtain ⟨hrecordRest, hentryRest, hcurtailRest⟩ := ih (s.consequence x) hrest
    rw [List.foldl_cons]
    refine ⟨fun y => ?_, fun m => ?_, by rw [hcurtailRest, hcurtail]⟩
    · rw [hrecordRest, hrecord]
      obtain rfl | hyx := eq_or_ne y x
      · simp [hx]
      · simp [hyx, (consequence_others s hyx).2]
    · rw [hentryRest, hentry, Option.map_map]
      refine congrArg (fun f => (s.entryAt m).map f) (funext fun e => ?_)
      simp only [Function.comp, tenant_untriedIf]
      obtain h | h := eq_or_ne e.tenant x
      · simp [CurtailEntry.untriedIf, h, hx]
      · simp [CurtailEntry.untriedIf, h, (consequence_others s h).1]

/-- R113: a close with a switch, in the state before it. -/
theorem closeInterval_switch_spec (n : BitVec 32) (h : s.switchDue = true) :
    (s.closeInterval n).contracts = { (s.captureSummaries n).contracts with
        active := copiedContracts s.stagedAt, generation := s.contracts.generation + 1, commitPending := false }
      ∧ (s.closeInterval n).notices = (if s.masked .interval = true then s.noticesAfterReading (badContracts .staged s.stagedAt)
        else { s.noticesAfterReading (badContracts .staged s.stagedAt) with
          intervalOwed := some (n, s.contracts.generation + 1, true) })
      ∧ (∀ y, (s.closeInterval n).curtailAt y = if 1 ≤ y ∧ y ≤ 127 then
          (if (s.liveAt y).state = .idle then s.curtailAt y
           else if (readContract (s.stagedAt y)).valid then
             (if (readContract (s.stagedAt y)).policy ≠ .auto ∧ (s.curtailAt y).restoring = .auto then
               { s.curtailAt y with restoring := .none } else s.curtailAt y)
           else TenantCurtail.clear) else s.curtailAt y)
      ∧ (∀ m, (s.closeInterval n).entryAt m = (s.entryAt m).map (fun e => e.untriedIf (decide (m < 64)
          && (decide (1 ≤ e.tenant ∧ e.tenant ≤ 127) && (decide ((s.liveAt e.tenant).state ≠ .idle)
            && (!(readContract (s.stagedAt e.tenant)).valid || (decide ((readContract (s.stagedAt e.tenant)).policy ≠ .auto)
              && decide ((s.curtailAt e.tenant).restoring = .auto))))))))
      ∧ (s.closeInterval n).curtail = { s.curtail with
          slots := (s.closeInterval n).curtail.slots, records := (s.closeInterval n).curtail.records } := by
  rw [closeInterval_switch s n h]
  unfold State.switchContracts
  dsimp only
  generalize hw : ((s.captureSummaries n).clearAccumulators.recordParity (badContracts .staged
    (s.captureSummaries n).clearAccumulators.stagedAt)).setContracts _ = w
  have hread := recordParity_eq (s.captureSummaries n).clearAccumulators (badContracts .staged s.stagedAt)
  have hsame := same_recordParity (s.captureSummaries n).clearAccumulators (badContracts .staged s.stagedAt)
  have hcurtail : w.curtail = s.curtail := by rw [← hw]; exact hsame .curtail (by decide)
  have hcontracts : w.contracts = { (s.captureSummaries n).contracts with
      active := copiedContracts s.stagedAt, generation := s.contracts.generation + 1, commitPending := false } := by
    rw [← hw]; rfl
  have hnotices : w.notices = s.noticesAfterReading (badContracts .staged s.stagedAt) := by
    rw [← hw]
    exact congrArg State.notices hread
  have hsettings : w.settings = s.settings := by rw [← hw]; exact hsame .settings (by decide)
  have hlive : ∀ y, w.liveAt y = if y < 128 then (s.liveAt y).cleared else LiveRecord.idle := fun y => by
    rw [← liveAt_clearAccumulators s n y, ← hw]
    exact liveAt_of_same hsame (by decide) y
  have hactive : ∀ y, 1 ≤ y ∧ y ≤ 127 → w.activeAt y = { content := readContract (s.stagedAt y), parityGood := true } :=
    fun y hy => by rw [activeAt_copied w s.stagedAt (by rw [hcontracts]), if_pos hy]
  have hstate : ∀ y, 1 ≤ y ∧ y ≤ 127 → (w.liveAt y).state = (s.liveAt y).state := fun y hy => by
    rw [hlive, if_pos (by omega)]; rfl
  have hrecordAt : ∀ y, w.curtailAt y = s.curtailAt y := fun y => by unfold State.curtailAt; rw [hcurtail]
  clear hw
  obtain ⟨hrecord, hentry, hrest⟩ := consequences_spec w _ nodup_tenants
  have hfold := same_foldl w State.consequence (fun u t => same_consequence u t) ((List.range 127).map (fun n => n + 1))
  simp only [mem_tenants] at hrecord hentry
  generalize List.foldl State.consequence w _ = v at *
  have howe := same_oweInterval v n true
  have howeCurtail : (v.oweInterval n true).curtail = v.curtail := howe .curtail (by decide)
  have hvContracts : v.contracts = w.contracts := hfold .contracts (by decide)
  have hvNotices : v.notices = w.notices := hfold .notices (by decide)
  have hvSettings : v.settings = s.settings := (show v.settings = w.settings from hfold .settings (by decide)).trans hsettings
  refine ⟨?_, ?_, fun y => ?_, fun m => ?_, ?_⟩
  · exact (howe .contracts (by decide)).trans (hvContracts.trans hcontracts)
  · rw [notices_oweInterval, hvContracts, hcontracts, hvNotices, hnotices]
    unfold State.masked State.setting
    rw [hvSettings]
    rfl
  · have hy : (v.oweInterval n true).curtailAt y = v.curtailAt y := by unfold State.curtailAt; rw [howeCurtail]
    rw [hy, hrecord, hrecordAt]
    split
    · next hin =>
      unfold State.switchedCurtail
      rw [hstate y hin, hactive y hin, hrecordAt]
    · rfl
  · rw [entryAt_congr howeCurtail, hentry, entryAt_congr hcurtail]
    refine congrArg (fun f => (s.entryAt m).map f) (funext fun e => ?_)
    by_cases hin : 1 ≤ e.tenant ∧ e.tenant ≤ 127
    · unfold State.untriesAt
      rw [hstate _ hin, hactive _ hin, hrecordAt]
    · simp only [hin, decide_false, Bool.false_and]
  · rw [howeCurtail, hrest, hcurtail]

end

end Sys2Proof.Machine

open Sys2Proof Sys2Proof.Machine

/-- Settles O23: with no switch the close captures, clears, and owes the notice. -/
theorem closeCapturesAndClears : Obligations.CloseCapturesAndClears := by
  intro s n hhanded hno
  have hdue : s.switchDue = false := by
    unfold State.switchDue
    obtain h | h := hno
    · rw [h]; rfl
    · rw [h]; exact Bool.and_false _
  obtain ⟨hcontracts, hnotices, hsame⟩ :=
    closeInterval_noSwitch_spec (s.setTimer { s.timer with handedClose := none }) n hdue
  have hlive := liveAt_closeInterval (s.setTimer { s.timer with handedClose := none }) n
  have hframe := (SameOutside.mono (same_setTimer s { s.timer with handedClose := none })
    (m := [.timer, .contracts, .live, .notices]) (by decide)).trans (SameOutside.mono hsame (by decide))
  have htimer : ((s.setTimer { s.timer with handedClose := none }).closeInterval n).timer
      = { s.timer with handedClose := none } := hsame .timer (by decide)
  refine ⟨_, exec_intervalClose s hhanded, ?_⟩
  generalize (s.setTimer { s.timer with handedClose := none }).closeInterval n = t at *
  refine ⟨htimer, fun x hx => ?_, fun x hx => ?_, by rw [hcontracts]; rfl, by rw [hcontracts]; rfl, by rw [hcontracts]; rfl,
    by rw [hcontracts]; rfl, ?_, hframe⟩
  · exact summaryAt_captured (s.setTimer { s.timer with handedClose := none }) n t (by rw [hcontracts]) x hx
  · rw [hlive, if_neg (fun h => by rw [show (s.setTimer { s.timer with handedClose := none }).switchDue = false from hdue] at h
                                   exact Bool.noConfusion h.1), if_pos (by omega)]
    rfl
  · rw [hnotices, notices_oweInterval]
    rfl

/-- Settles O24: each tenant's consequence stands alone, so the switch is read off tenant by tenant. -/
theorem switchPutsTheStagedContractsInForce : Obligations.SwitchPutsTheStagedContractsInForce := by
  intro s n hhanded hpending hsaving contract cleared untries
  have hdue : s.switchDue = true := by simp [State.switchDue, hpending, hsaving]
  obtain ⟨hcontracts, hnotices, hrecord, hentry, hcurtail⟩ :=
    closeInterval_switch_spec (s.setTimer { s.timer with handedClose := none }) n hdue
  have hlive := liveAt_closeInterval (s.setTimer { s.timer with handedClose := none }) n
  have hactive := activeAt_closeInterval (s.setTimer { s.timer with handedClose := none }) n
  have hsame := same_closeInterval (s.setTimer { s.timer with handedClose := none }) n
  have hframe := (SameOutside.mono (same_setTimer s { s.timer with handedClose := none })
    (m := [.timer, .contracts, .live, .curtail, .notices]) (by decide)).trans (SameOutside.mono hsame (by decide))
  have htimer : ((s.setTimer { s.timer with handedClose := none }).closeInterval n).timer
      = { s.timer with handedClose := none } := hsame .timer (by decide)
  obtain ⟨hfirst, hnone⟩ := noticesAfterReading_badContracts s .staged s.stagedAt
  refine ⟨_, exec_intervalClose s hhanded, ?_⟩
  have hliveTenant : ∀ y, 1 ≤ y → y ≤ 127 → ((s.setTimer { s.timer with handedClose := none }).closeInterval n).liveAt y
      = (cleared y).switched (contract y) := fun y h1 h127 => by
    rw [hlive, if_pos ⟨hdue, h1, h127⟩]; rfl
  have hliveZero : ((s.setTimer { s.timer with handedClose := none }).closeInterval n).liveAt 0 = cleared 0 := by
    rw [hlive, if_neg (by omega), if_pos (by omega)]; rfl
  have hrecordAt : ∀ y, ((s.setTimer { s.timer with handedClose := none }).closeInterval n).curtailAt y =
      if 1 ≤ y ∧ y ≤ 127 then (if (s.liveAt y).state = .idle then s.curtailAt y else if (contract y).valid then
        (if (contract y).policy ≠ .auto ∧ (s.curtailAt y).restoring = .auto then { s.curtailAt y with restoring := .none }
         else s.curtailAt y) else TenantCurtail.clear) else s.curtailAt y := hrecord
  have hentryAt : ∀ m, ((s.setTimer { s.timer with handedClose := none }).closeInterval n).entryAt m =
      (s.entryAt m).map (fun e => e.untriedIf (decide (m < 64) && (decide (1 ≤ e.tenant ∧ e.tenant ≤ 127)
        && (decide ((s.liveAt e.tenant).state ≠ .idle) && (!(contract e.tenant).valid
          || (decide ((contract e.tenant).policy ≠ .auto) && decide ((s.curtailAt e.tenant).restoring = .auto))))))) := hentry
  have hnoticesAt : ((s.setTimer { s.timer with handedClose := none }).closeInterval n).notices = if s.masked .interval = true
      then s.noticesAfterReading (badContracts .staged s.stagedAt)
      else { s.noticesAfterReading (badContracts .staged s.stagedAt) with
        intervalOwed := some (n, s.contracts.generation + 1, true) } := hnotices
  have hactiveAt : ∀ y, 1 ≤ y → y ≤ 127 → ((s.setTimer { s.timer with handedClose := none }).closeInterval n).activeAt y
      = { content := contract y, parityGood := true } := fun y h1 h127 => by
    exact (hactive y).trans ((if_pos hdue).trans (if_pos ⟨h1, h127⟩))
  have hcurtailAt : ((s.setTimer { s.timer with handedClose := none }).closeInterval n).curtail = { s.curtail with
      slots := ((s.setTimer { s.timer with handedClose := none }).closeInterval n).curtail.slots,
      records := ((s.setTimer { s.timer with handedClose := none }).closeInterval n).curtail.records } := hcurtail
  clear hlive hrecord hentry hnotices hactive hcurtail hsame
  generalize (s.setTimer { s.timer with handedClose := none }).closeInterval n = t at *
  refine ⟨by rw [hcontracts], by rw [hcontracts]; rfl, by rw [hcontracts]; rfl, fun x hx => ?_, ⟨hliveZero, ?_⟩,
    fun x h1 h127 => ⟨hactiveAt x h1 h127, fun hstate hvalid => ⟨?_, ?_⟩, fun hstate hvalid => ⟨?_, ?_⟩,
      fun hstate hvalid => ⟨?_, ?_⟩, fun hstate hvalid => ⟨?_, ?_⟩⟩, fun m hm e he => ⟨fun h => ?_, fun h => ?_⟩,
    fun m hm => ?_, by rw [hcurtailAt], by rw [hcurtailAt], by rw [hcurtailAt], by rw [hcurtailAt], htimer,
    ⟨fun x h1 h127 hbad hlow => ?_, fun hgood => ?_⟩, hframe⟩
  · exact summaryAt_captured (s.setTimer { s.timer with handedClose := none }) n t (by rw [hcontracts]) x hx
  · rw [hrecordAt, if_neg (by omega)]
  · rw [hliveTenant x h1 h127]
    simp [LiveRecord.switched, hvalid, hstate, cleared]
  · rw [hrecordAt, if_pos ⟨h1, h127⟩, if_neg hstate, if_pos hvalid]
    split <;> rfl
  · rw [hliveTenant x h1 h127]
    simp [LiveRecord.switched, hvalid, hstate, cleared]
    exact Eq.symm
  · rw [hrecordAt, if_pos ⟨h1, h127⟩, if_pos hstate]
  · rw [hliveTenant x h1 h127]
    simp [LiveRecord.switched, hvalid, hstate, cleared]
    exact Eq.symm
  · rw [hrecordAt, if_pos ⟨h1, h127⟩, if_neg hstate, if_neg (by rw [hvalid]; decide)]
  · rw [hliveTenant x h1 h127]
    simp [LiveRecord.switched, hvalid, hstate, cleared]
  · rw [hrecordAt, if_pos ⟨h1, h127⟩, if_pos hstate]
  · obtain ⟨h1, h127, hstate, hends⟩ := h
    rw [hentryAt, he]
    simp [CurtailEntry.untriedIf, hm, h1, h127, hstate, hends]
  · rw [hentryAt, he]
    simp only [Option.map_some, CurtailEntry.untriedIf]
    rw [if_neg fun hall => h ?_]
    simpa [untries, and_assoc, hm] using hall
  · rw [hentryAt]
    obtain hm | hnone := hm
    · simp only [Nat.not_lt.mpr hm, decide_false, Bool.false_and]
      exact untriedIf_false _
    · rw [hnone]; rfl
  · rw [hnoticesAt, hfirst x h1 h127 hbad hlow]
  · rw [hnoticesAt, hnone hgood]

end

