-- ==== Sys2Proof/Proofs/ChainFrames.lean ====
section
/-! PROOF. Frames on the chains and requests on the uplink: what a DISABLED port discards, what a malformed frame counts, and
the frames that have their effect on the link and at most one other (R16, R17, R23, R24, R28, R130, R161, R163, R188). -/

namespace Sys2Proof.Machine

section
variable {s : State} {p : Nat} {body : List Byte}

/-! ### What a port that hears does with each kind -/

theorem exec_sample (hlink : (s.port p).link ≠ .disabled) : exec (.sample p body) s = match parseSample body with
    | some (position, e, readings) => .next ((s.wellFormedFrame p).window p position e readings body).arbitrate
    | none => .next (s.wellFormedFrame p).arbitrate := by
  change execSample p body s = _
  unfold execSample
  exact (if_neg hlink).trans rfl

theorem exec_sample_fields {position hi lo : Byte} {rest : List Byte} (hlink : (s.port p).link ≠ .disabled) :
    exec (.sample p (position :: hi :: lo :: rest)) s = .next ((s.wellFormedFrame p).window p position.toNat
      (BitVec.ofNat 16 (hi.toNat * 256 + lo.toNat)) (readingEntries 48 rest) (position :: hi :: lo :: rest)).arbitrate := by
  rw [exec_sample hlink, ← beNat_pair]
  rfl

theorem exec_sample_short (hlink : (s.port p).link ≠ .disabled) (h : body.length < 3) :
    exec (.sample p body) s = .next (s.wellFormedFrame p).arbitrate := by
  rw [exec_sample hlink]
  match body, h with
  | [], _ => rfl
  | [_], _ => rfl
  | [_, _], _ => rfl

theorem exec_switchAck_unmatched {position outlet tag outcome : Byte} {rest : List Byte}
    (hlink : (s.port p).link ≠ .disabled)
    (h : (s.wellFormedFrame p).matching p position.toNat outlet.toNat tag = none) :
    exec (.switchAck p (position :: outlet :: tag :: outcome :: rest)) s =
      .next ((s.wellFormedFrame p).recordFault .staleAck (.outlet p position.toNat outlet.toNat)).arbitrate := by
  simp only [exec_switchAck, execSwitchAck, if_neg hlink, parseSwitchAck, State.switchAnswer, h]

theorem exec_switchAck_short (hlink : (s.port p).link ≠ .disabled) (h : body.length < 4) :
    exec (.switchAck p body) s = .next (s.wellFormedFrame p).arbitrate := by
  rw [exec_switchAck, execSwitchAck, if_neg hlink]
  match body, h with
  | [], _ => rfl
  | [_], _ => rfl
  | [_, _], _ => rfl
  | [_, _, _], _ => rfl

theorem exec_pduReply (hlink : (s.port p).link ≠ .disabled) : exec (.pduReply p body) s =
    if body.isEmpty then .next (s.wellFormedFrame p).arbitrate
    else .next ((s.wellFormedFrame p).offerForward { port := p, kind := kindPduReply, body := body }).arbitrate := by
  change execPduReply p body s = _
  unfold execPduReply
  rw [if_neg hlink]

theorem exec_chainRequest (hlink : (s.port p).link ≠ .disabled) : exec (.chainRequest p body) s =
    match parseChainRequest p body with
    | some r => .next ((s.wellFormedFrame p).offerRequest r).arbitrate
    | none => .next (s.wellFormedFrame p).arbitrate := by
  change execChainRequest p body s = _
  unfold execChainRequest
  exact (if_neg hlink).trans rfl

theorem exec_chainRequest_short (hlink : (s.port p).link ≠ .disabled) (h : body.length < 4) :
    exec (.chainRequest p body) s = .next (s.wellFormedFrame p).arbitrate := by
  rw [exec_chainRequest hlink]
  match body, h with
  | [], _ => rfl
  | [_], _ => rfl
  | [_, _], _ => rfl
  | [_, _, _], _ => rfl

theorem exec_chainMalformedFrame (hlink : (s.port p).link ≠ .disabled) : exec (.chainMalformedFrame p) s =
    if (s.port p).link = .up ∧ s.errorThreshold ≤ min 65535 ((s.port p).errorCount + 1) then
      .next ((s.putPort p { s.port p with errorCount := min 65535 ((s.port p).errorCount + 1) }).degrade p)
    else .next (s.putPort p { s.port p with errorCount := min 65535 ((s.port p).errorCount + 1) }) := by
  change execChainMalformedFrame p s = _
  unfold execChainMalformedFrame
  rw [if_neg hlink]
  dsimp only
  rw [port_putPort_same]

/-- R23: a DISABLED port answers every frame with the state as it was. -/
theorem exec_of_disabled (hlink : (s.port p).link = .disabled) : exec (.sample p body) s = .next s
    ∧ exec (.switchAck p body) s = .next s ∧ exec (.pduReply p body) s = .next s
    ∧ exec (.chainRequest p body) s = .next s ∧ exec (.chainMalformedFrame p) s = .next s :=
  ⟨if_pos hlink, if_pos hlink, if_pos hlink, if_pos hlink, if_pos hlink⟩

/-! ### What hearing leaves -/

theorem settling_heard (s : State) (p : Nat) : ((s.wellFormedFrame p).port p).settling = (s.port p).settling :=
  (congrArg (fun q : Port => q.settling) (wellFormedFrame_heard s p).1 :)

/-- R28: the window's ruling, made in the state that heard the frame, is by what stood before it. -/
theorem window_eq (position : Nat) (e : Epoch) (readings : List (Nat × Nat)) : (s.wellFormedFrame p).window p position e
      readings body =
    if 15 < position then s.wellFormedFrame p
    else if (s.port p).settling then s.wellFormedFrame p
    else if s.timer.epoch - e = 1 then
      if s.filling.pduFlag (p * 16 + position) then s.wellFormedFrame p
      else (s.wellFormedFrame p).acceptSample p position readings body
    else (s.wellFormedFrame p).recordFault .mistimedSample (.portPosition p position) := by
  have hsame := same_wellFormedFrame s p
  have htimer : (s.wellFormedFrame p).timer = s.timer := hsame .timer (by decide)
  have hfilling : (s.wellFormedFrame p).filling = s.filling := hsame .filling (by decide)
  unfold State.window
  rw [settling_heard, htimer, hfilling]

/-- A recorded fault, after which the choices are made. -/
theorem arbitrated_recordFault (h : State) (cls : FaultClass) (loc : Location) :
    ((h.recordFault cls loc).arbitrate).notices = h.noticesWithFault cls loc
      ∧ SameOutside (.notices :: choiceBlocks) h (h.recordFault cls loc).arbitrate := by
  refine ⟨?_, (same_recordFault h cls loc).comp (same_arbitrate _) (by decide) (by decide)⟩
  rw [arbitrate_notices, recordFault_eq]
  rfl

/-- R130: an answer that no sent pending entry has the outlet and tag of matches none. -/
theorem matching_none {u : State} {position outlet : Nat} {tag : BitVec 8} (h : 15 < position ∨ 47 < outlet
    ∨ ∀ n e, n < 64 → u.entryAt n = some e →
      ¬ (e.pending = true ∧ e.sent = true ∧ e.tag = tag ∧ e.outlet = outletKey p position outlet)) :
    u.matching p position outlet tag = none := by
  unfold State.matching
  split
  · rfl
  · next hin =>
    have hentries := (h.resolve_left fun h => hin (.inl h)).resolve_left fun h => hin (.inr h)
    cases hfound : u.slotOf (outletKey p position outlet) with
    | none => rfl
    | some n =>
      obtain ⟨hn, e, he, hk⟩ := slotOf_some u hfound
      dsimp only
      rw [he]
      exact if_neg fun ⟨hpending, hsent, htag⟩ => hentries n e hn he ⟨hpending, hsent, htag, hk⟩

end

end Sys2Proof.Machine

open Sys2Proof Sys2Proof.Machine

/-- Settles O25: a DISABLED port does nothing; a malformed frame elsewhere is counted, and its count may degrade the port. -/
theorem disabledPortsDiscardAndMalformedFramesCount : Obligations.DisabledPortsDiscardAndMalformedFramesCount := by
  intro s p body
  refine ⟨exec_of_disabled, fun hlink => ?_⟩
  intro count degrades
  have hexec := exec_chainMalformedFrame hlink
  have hcount : SameOutside [.links, .notices] s (s.putPort p { s.port p with errorCount := count }) :=
    SameOutside.mono (same_putPort s p _ rfl) (by decide)
  by_cases hdegrades : degrades
  · rw [if_pos hdegrades] at hexec
    refine ⟨_, hexec, fun _ => ⟨?_, ?_⟩, fun h => absurd hdegrades h, fun q hq => ?_,
      hcount.trans (same_degrade _ p)⟩
    · rw [State.degrade, recordFault_eq]
      exact (port_putPort_same ..).trans (by rw [port_putPort_same])
    · rw [State.degrade, recordFault_eq]
      rfl
    · rw [State.degrade, recordFault_eq]
      exact (port_putPort ..).trans ((if_neg hq).trans ((port_putPort ..).trans (if_neg hq)))
  · rw [if_neg hdegrades] at hexec
    exact ⟨_, hexec, fun h => absurd h hdegrades, fun _ => ⟨port_putPort_same .., rfl⟩,
      fun q hq => (port_putPort ..).trans (if_neg hq), hcount⟩

/-- Settles O26: the discarding rows of the window leave the state that heard the frame, and the last records the fault. -/
theorem discardedSampleChangesOnlyTheLink : Obligations.DiscardedSampleChangesOnlyTheLink := by
  intro s p body hlink
  have hheard := wellFormedFrame_heard s p
  refine ⟨fun hshort => ⟨_, _, exec_sample_short hlink hshort, hheard, same_arbitrate _⟩,
    fun position hi lo rest hbody => ?_⟩
  intro back
  subst hbody
  have hexec := exec_sample_fields (position := position) (hi := hi) (lo := lo) (rest := rest) hlink
  rw [window_eq] at hexec
  refine ⟨fun hout => ⟨_, _, ?_, hheard, same_arbitrate _⟩, fun hposition hsettling hback => ?_⟩
  · rw [hexec]
    split
    · rfl
    · next hposition =>
      split
      · rfl
      · next hsettling =>
        obtain ⟨hback, hflag⟩ := (hout.resolve_left hposition).resolve_left hsettling
        rw [if_pos hback, if_pos hflag]
  · rw [if_neg (by omega), hsettling, if_neg Bool.false_ne_true, if_neg hback] at hexec
    obtain ⟨hnotices, hframe⟩ :=
      arbitrated_recordFault (s.wellFormedFrame p) .mistimedSample (.portPosition p position.toNat)
    exact ⟨_, _, hexec, hheard, hnotices, hframe⟩

/-- Settles O31: no entry has the answer's outlet and tag, so the state that heard it records STALE_ACK. -/
theorem unmatchedAnswerIsStale : Obligations.UnmatchedAnswerIsStale := by
  intro s p position outlet tag outcome rest hlink hno
  have hheard := wellFormedFrame_heard s p
  refine ⟨?_, fun body hshort => ⟨_, _, exec_switchAck_short hlink hshort, hheard, same_arbitrate _⟩⟩
  have hcurtail : (s.wellFormedFrame p).curtail = s.curtail := same_wellFormedFrame s p .curtail (by decide)
  have hexec := exec_switchAck_unmatched (outcome := outcome) (rest := rest) (tag := tag) (position := position)
    (outlet := outlet) hlink (matching_none (hno.imp_right (Or.imp_right fun h n e hn he =>
      h n e hn ((entryAt_congr hcurtail n).symm.trans he))))
  obtain ⟨hnotices, hframe⟩ :=
    arbitrated_recordFault (s.wellFormedFrame p) .staleAck (.outlet p position.toNat outlet.toNat)
  exact ⟨_, _, hexec, hheard, hnotices, hframe⟩

/-- Settles O32: the reply is offered to the forward queue whole; an empty body is not. -/
theorem pduReplyIsForwarded : Obligations.PduReplyIsForwarded := by
  intro s p body hlink
  have hheard := wellFormedFrame_heard s p
  have huplink : (s.wellFormedFrame p).uplink.core = s.uplink.core := same_wellFormedFrame s p .uplink (by decide)
  have hforwards : (s.wellFormedFrame p).uplink.forwards = s.uplink.forwards := (congrArg (fun u : Uplink => u.forwards) huplink :)
  have hexec := exec_pduReply (body := body) hlink
  cases body with
  | nil =>
    refine ⟨_, _, hexec, hheard, ?_, SameOutside.mono (same_arbitrate _) (by decide)⟩
    rw [core_uplink_arbitrate, huplink, if_neg fun h => h.1 rfl]
    rfl
  | cons b rest =>
    refine ⟨_, _, hexec, hheard, ?_, (same_offerForward _ _).comp (same_arbitrate _) (by decide) (by decide)⟩
    rw [core_uplink_arbitrate, offerForward_uplink, hforwards]
    have hcons : (b :: rest ≠ []) := List.cons_ne_nil b rest
    simp only [ne_eq, hcons, not_false_eq_true, true_and, ← huplink]
    rfl

/-- Settles O33: the request is parsed from its body and offered to the queue, after the link's effect on a chain. -/
theorem requestJoinsTheInputQueue : Obligations.RequestJoinsTheInputQueue := by
  intro s p position hi lo code data
  have hheard := wellFormedFrame_heard s p
  have huplink : (s.wellFormedFrame p).uplink.core = s.uplink.core := same_wellFormedFrame s p .uplink (by decide)
  have hrequests : (s.wellFormedFrame p).uplink.requests = s.uplink.requests := (congrArg (fun u : Uplink => u.requests) huplink :)
  refine ⟨⟨_, rfl, ?_, same_offerRequest s _⟩, fun body hshort => ?_, fun hlink => ⟨⟨_, _, exec_chainRequest hlink, hheard, ?_,
    (same_offerRequest _ _).comp (same_arbitrate _) (by decide) (by decide)⟩,
    fun body hshort => ⟨_, _, exec_chainRequest_short hlink hshort, hheard, same_arbitrate _⟩⟩⟩
  · rw [offerRequest_uplink, beNat_pair]
  · match body, hshort with
    | [], _ => rfl
    | [_], _ => rfl
    | [_, _], _ => rfl
  · rw [core_uplink_arbitrate, offerRequest_uplink, hrequests, beNat_pair, ← huplink]
    rfl

end

