-- ==== Sys2Proof/Proofs/Readings.lean ====
section
/-! PROOF. An accepted SAMPLE: its reading list, which of its entries count, what they charge, and what the acceptance does
besides (R27, R31, R45, R59 to R62, R163, R189). -/

namespace Sys2Proof.Machine

/-! ### The reading list (R59, R60, R189) -/

/-- R189: the first 48 complete entries of a reading list. -/
theorem readingEntries_of_triples (fuel : Nat) (entries : List (Byte × Byte × Byte)) {tail : List Byte} (h : tail.length < 3) :
    readingEntries fuel (entries.flatMap (fun e => [e.1, e.2.1, e.2.2]) ++ tail)
      = (entries.take fuel).map (fun e => (e.1.toNat % 64, e.2.1.toNat * 256 + e.2.2.toNat)) := by
  induction fuel generalizing entries with
  | zero => rfl
  | succ fuel ih =>
    cases entries with
    | nil =>
      match tail, h with
      | [], _ => rfl
      | [_], _ => rfl
      | [_, _], _ => rfl
    | cons e rest =>
      have hcons := congrArg (List.cons (e.1.toNat % 64, beNat [e.2.1, e.2.2])) (ih rest)
      rw [beNat_pair] at hcons
      rw [List.take_succ_cons, List.map_cons, ← hcons, ← beNat_pair]
      rfl

/-- R59, R60: the readings that count, `seen` being the outlet indices already carried. -/
def countedAfter : List Nat → List (Nat × Nat) → List (Nat × Nat)
  | _, [] => []
  | seen, (o, v) :: rest =>
    if 48 ≤ o ∨ o ∈ seen ∨ v = unmeasured then countedAfter (o :: seen) rest else (o, v) :: countedAfter (o :: seen) rest

theorem countedAfter_eq (seen : List Nat) (readings : List (Nat × Nat)) :
    countedAfter seen readings = (List.range readings.length).filterMap (fun k =>
      match readings[k]? with
      | some (o, v) => if o < 48 ∧ v ≠ 65535 ∧ o ∉ seen ∧ (∀ e ∈ readings.take k, e.1 ≠ o) then some (o, v) else none
      | none => none) := by
  induction readings generalizing seen with
  | nil => rfl
  | cons r rest ih =>
    obtain ⟨o, v⟩ := r
    rw [List.length_cons, List.range_succ_eq_map, List.filterMap_cons, List.filterMap_map]
    have htail : countedAfter (o :: seen) rest = List.filterMap ((fun k =>
        match ((o, v) :: rest)[k]? with
        | some (o', v') => if o' < 48 ∧ v' ≠ 65535 ∧ o' ∉ seen ∧ (∀ e ∈ ((o, v) :: rest).take k, e.1 ≠ o') then
            some (o', v') else none
        | none => none) ∘ Nat.succ) (List.range rest.length) := by
      rw [ih]
      refine List.filterMap_congr fun k _ => ?_
      simp only [Function.comp, Nat.succ_eq_add_one, List.getElem?_cons_succ, List.take_succ_cons]
      cases rest[k]? with
      | none => rfl
      | some r' =>
        refine if_congr ?_ rfl rfl
        simp only [List.mem_cons, not_or, forall_eq_or_imp]
        constructor
        · rintro ⟨h48, htop, ⟨ho, hseen⟩, hrest⟩
          exact ⟨h48, htop, hseen, Ne.symm ho, hrest⟩
        · rintro ⟨h48, htop, hseen, ho, hrest⟩
          exact ⟨h48, htop, ⟨Ne.symm ho, hseen⟩, hrest⟩
    unfold countedAfter
    rw [htail]
    by_cases hcounts : 48 ≤ o ∨ o ∈ seen ∨ v = unmeasured
    · rw [if_pos hcounts]
      have hno : ¬ (o < 48 ∧ v ≠ 65535 ∧ o ∉ seen ∧ ∀ e ∈ ((o, v) :: rest).take 0, e.1 ≠ o) := by
        rintro ⟨h48, htop, hseen, -⟩
        obtain h | h | h := hcounts
        · omega
        · exact hseen h
        · exact htop h
      simp only [List.getElem?_cons_zero, if_neg hno]
    · rw [if_neg hcounts]
      have hyes : o < 48 ∧ v ≠ 65535 ∧ o ∉ seen ∧ ∀ e ∈ ((o, v) :: rest).take 0, e.1 ≠ o :=
        ⟨by omega, fun h => hcounts (.inr (.inr h)), fun h => hcounts (.inr (.inl h)), by simp⟩
      simp only [List.getElem?_cons_zero, if_pos hyes]

theorem countedAfter_nil (readings : List (Nat × Nat)) : countedAfter [] readings = measured readings := by
  rw [countedAfter_eq]
  simp only [List.not_mem_nil, not_false_eq_true, true_and]
  rfl

theorem lt_of_mem_countedAfter {seen : List Nat} {readings : List (Nat × Nat)} {r : Nat × Nat}
    (h : r ∈ countedAfter seen readings) : r.1 < 48 ∧ r.1 ∉ seen := by
  induction readings generalizing seen with
  | nil => cases h
  | cons a rest ih =>
    obtain ⟨o, v⟩ := a
    unfold countedAfter at h
    have hlater : r ∈ countedAfter (o :: seen) rest → r.1 < 48 ∧ r.1 ∉ seen := fun h =>
      ⟨(ih h).1, fun hr => (ih h).2 (List.mem_cons_of_mem _ hr)⟩
    split at h
    · exact hlater h
    · next hcounts =>
      obtain rfl | h := List.mem_cons.mp h
      · exact ⟨by simp only; omega, fun h => hcounts (.inr (.inl h))⟩
      · exact hlater h

theorem countedAfter_nodup (seen : List Nat) (readings : List (Nat × Nat)) :
    ((countedAfter seen readings).map Prod.fst).Nodup := by
  induction readings generalizing seen with
  | nil => exact List.nodup_nil
  | cons a rest ih =>
    obtain ⟨o, v⟩ := a
    unfold countedAfter
    split
    · exact ih _
    · refine List.nodup_cons.mpr ⟨fun h => ?_, ih _⟩
      obtain ⟨r, hr, hro⟩ := List.mem_map.mp h
      exact (lt_of_mem_countedAfter hr).2 (by rw [hro]; exact List.mem_cons_self)

/-! ### What the readings that count charge (R61) -/

/-- The key of an outlet of a PDU's reading list. -/
def readingKey (pdu : Nat) (r : Nat × Nat) : Nat := pdu * 64 + r.1

/-- R61: a list of measured readings, one after another. -/
def State.measureAll (pdu : Nat) (s : State) (rs : List (Nat × Nat)) : State :=
  rs.foldl (fun s r => s.measure (readingKey pdu r) r.2) s

section
variable (s : State) (pdu : Nat)

theorem takeReadings_eq (seen : List Nat) (readings : List (Nat × Nat)) :
    State.takeReadings pdu s seen readings = s.measureAll pdu (countedAfter seen readings) := by
  induction readings generalizing s seen with
  | nil => rfl
  | cons a rest ih =>
    obtain ⟨o, v⟩ := a
    unfold State.takeReadings countedAfter
    split
    · exact ih s _
    · exact ih _ _

theorem resolution_congr {s t : State} (hoat : t.oat = s.oat) (hrules : t.rules = s.rules) (key : Nat) :
    t.resolution key = s.resolution key ∧ t.resolutionFaults key = s.resolutionFaults key := by
  have hslot : ∀ k, t.slotAt k = s.slotAt k := fun k => by unfold State.slotAt; rw [hoat]
  have hrule : ∀ n, t.ruleAt n = s.ruleAt n := fun n => by unfold State.ruleAt; rw [hrules]
  have hentry : t.slotEntry key = s.slotEntry key := by unfold State.slotEntry; rw [hslot]
  have hmatch : t.ruleMatches key = s.ruleMatches key := by
    funext n
    unfold State.ruleMatches
    rw [hrule]
  have hdeciding : t.decidingRule key = s.decidingRule key := by unfold State.decidingRule; rw [hmatch]
  have hbad : ∀ n, t.badRules n = s.badRules n := fun n => by unfold State.badRules; simp only [hrule]
  unfold State.resolution State.resolutionFaults
  simp only [hentry, hdeciding, hrule, hslot, hbad, and_self]

theorem resolution_measure (key v k : Nat) : (s.measure key v).resolution k = s.resolution k
    ∧ (s.measure key v).resolutionFaults k = s.resolutionFaults k :=
  resolution_congr (same_measure s key v .oat (by decide)) (same_measure s key v .rules (by decide)) k

theorem readingAt_measure (key v k : Nat) : (s.measure key v).readingAt k =
    if k = key then { last := some v, age := 0 } else s.readingAt k := Table.read_write ..

theorem filling_measure (key v : Nat) : (s.measure key v).filling = (s.filling.markOutlet key).charge (s.resolution key) v := rfl

/-- Two reads after one another leave what one read of both would. -/
theorem noticesAfterReading_append {s u : State} {bad : List Location} (hu : u.notices = s.noticesAfterReading bad)
    (htimer : u.timer = s.timer) (later : List Location) :
    u.noticesAfterReading later = s.noticesAfterReading (bad ++ later) := by
  cases bad with
  | nil =>
    have hsame : u.notices = s.notices := hu
    cases later with
    | nil => exact hsame
    | cons loc rest =>
      simp only [State.noticesAfterReading, State.noticesWithFault, hsame, htimer, List.nil_append]
  | cons loc rest =>
    have hfirst : u.notices = s.noticesWithFault .tableParity loc := hu
    cases later with
    | nil => rw [List.append_nil]; exact hu
    | cons m rest' =>
      have hagain := noticesWithFault_again s .tableParity .tableParity loc m (Nat.le_refl _)
      refine Eq.trans ?_ hagain
      simp only [State.noticesAfterReading, State.noticesWithFault, State.setNotices_notices, State.setNotices_timer, hfirst,
        htimer]

theorem notices_measure (key v : Nat) : (s.measure key v).notices = s.noticesAfterReading (s.resolutionFaults key) := by
  change (s.recordParity (s.resolutionFaults key)).notices = _
  rw [recordParity_eq]
  rfl

/-- A list of measured readings leaves the flags of the set but the outlets', and records the first bad item. -/
theorem measureAll_rest (rs : List (Nat × Nat)) : (s.measureAll pdu rs).filling.incomplete = s.filling.incomplete
    ∧ (s.measureAll pdu rs).filling.pduReported = s.filling.pduReported
    ∧ (s.measureAll pdu rs).notices = s.noticesAfterReading (rs.flatMap (fun r => s.resolutionFaults (readingKey pdu r)))
    ∧ SameOutside [.notices, .readings, .filling] s (s.measureAll pdu rs) := by
  induction rs generalizing s with
  | nil => exact ⟨rfl, rfl, rfl, .refl _ _⟩
  | cons r rest ih =>
    obtain ⟨hincomplete, hpdu, hnotices, hsame⟩ := ih (s.measure (readingKey pdu r) r.2)
    obtain ⟨hflagIncomplete, _, hflagPdu⟩ := charge_flags (s.filling.markOutlet (readingKey pdu r))
      (s.resolution (readingKey pdu r)) r.2
    refine ⟨hincomplete.trans (by rw [filling_measure, hflagIncomplete]; rfl),
      hpdu.trans (by rw [filling_measure, hflagPdu]; rfl), ?_, (same_measure s _ _).trans hsame⟩
    refine hnotices.trans ?_
    rw [noticesAfterReading_append (notices_measure s _ _) (same_measure s _ _ .timer (by decide)), List.flatMap_cons]
    simp only [(resolution_measure s _ _ _).2]

theorem measureAll_other (rs : List (Nat × Nat)) {k : Nat} (h : ∀ r ∈ rs, readingKey pdu r ≠ k) :
    (s.measureAll pdu rs).readingAt k = s.readingAt k ∧ (s.measureAll pdu rs).filling.outletFlag k = s.filling.outletFlag k := by
  induction rs generalizing s with
  | nil => exact ⟨rfl, rfl⟩
  | cons r rest ih =>
    obtain ⟨hreading, hflag⟩ := ih (s.measure (readingKey pdu r) r.2) fun r' hr' => h r' (List.mem_cons_of_mem _ hr')
    have hne : k ≠ readingKey pdu r := (h r List.mem_cons_self).symm
    refine ⟨hreading.trans (by rw [readingAt_measure, if_neg hne]), hflag.trans ?_⟩
    rw [filling_measure]
    unfold AccSet.outletFlag
    rw [(charge_flags ..).2.1]
    exact (outletFlag_markOutlet ..).trans (if_neg hne)

theorem measureAll_mem (rs : List (Nat × Nat)) (hrs : (rs.map Prod.fst).Nodup) {r : Nat × Nat} (h : r ∈ rs) :
    (s.measureAll pdu rs).readingAt (readingKey pdu r) = { last := some r.2, age := 0 }
      ∧ (s.measureAll pdu rs).filling.outletFlag (readingKey pdu r) = true := by
  induction rs generalizing s with
  | nil => cases h
  | cons a rest ih =>
    obtain ⟨ha, hrest⟩ := List.nodup_cons.mp hrs
    obtain rfl | h := List.mem_cons.mp h
    · obtain ⟨hreading, hflag⟩ := measureAll_other (s.measure (readingKey pdu r) r.2) pdu rest (k := readingKey pdu r)
        fun r' hr' heq => ha (List.mem_map.mpr ⟨r', hr', by unfold readingKey at heq; omega⟩)
      refine ⟨hreading.trans (by rw [readingAt_measure, if_pos rfl]), hflag.trans ?_⟩
      rw [filling_measure]
      unfold AccSet.outletFlag
      rw [(charge_flags ..).2.1]
      exact (outletFlag_markOutlet ..).trans (if_pos rfl)
    · exact ih _ hrest h

theorem measureAll_sum (rs : List (Nat × Nat)) (f : Feed) (x : Nat) : (s.measureAll pdu rs).filling.sum f x =
    (rs.filter (fun r => decide ((s.resolution (readingKey pdu r)).feed = f ∧ (s.resolution (readingKey pdu r)).tenant = x))).foldl
      (fun sum r => min wattTop (sum + r.2)) (s.filling.sum f x) := by
  induction rs generalizing s with
  | nil => rfl
  | cons r rest ih =>
    refine (ih (s.measure (readingKey pdu r) r.2)).trans ?_
    simp only [(resolution_measure s _ _ _).1]
    rw [filling_measure, sum_charge, sum_markOutlet, List.filter_cons]
    by_cases h : (s.resolution (readingKey pdu r)).feed = f ∧ (s.resolution (readingKey pdu r)).tenant = x
    · rw [if_pos ⟨h.1.symm, h.2.symm⟩, if_pos (decide_eq_true h), List.foldl_cons]
      rfl
    · rw [if_neg fun k => h ⟨k.1.symm, k.2.symm⟩, if_neg (by rw [decide_eq_true_iff]; exact h)]

theorem measureAll_over (rs : List (Nat × Nat)) (x : Nat) : (s.measureAll pdu rs).filling.over x =
    s.filling.over x + (rs.filter (fun r => decide ((s.resolution (readingKey pdu r)).tenant = x
      ∧ ∃ limit ∈ (s.resolution (readingKey pdu r)).outletLimit, limit < r.2))).length := by
  induction rs generalizing s with
  | nil => rfl
  | cons r rest ih =>
    refine (ih (s.measure (readingKey pdu r) r.2)).trans ?_
    simp only [(resolution_measure s _ _ _).1]
    rw [filling_measure, over_charge, over_markOutlet, List.filter_cons]
    by_cases hx : (s.resolution (readingKey pdu r)).tenant = x
    · rw [if_pos hx.symm]
      cases hlimit : (s.resolution (readingKey pdu r)).outletLimit with
      | none => simp
      | some limit =>
        by_cases hover : limit < r.2
        · simp [hx, hover]
          omega
        · simp [hx, hover]
    · rw [if_neg fun h => hx h.symm, if_neg (by simp [hx])]

end

/-! ### The acceptance (R27) -/

/-- R27, R31: what an accepted SAMPLE marks before its readings are taken. -/
def State.reported (s : State) (pdu : Nat) : State :=
  (s.setFilling (s.filling.markPdu pdu)).putPresence pdu { state := .present, missed := 0 }

section
variable (s : State) (p position : Nat) (readings : List (Nat × Nat)) (body : List Byte)

theorem acceptSample_eq : s.acceptSample p position readings body =
    if s.forwarding = true then
      ((s.reported (p * 16 + position)).measureAll (p * 16 + position) (measured readings)).offerForward
        { port := p, kind := kindSample, body := body }
    else (s.reported (p * 16 + position)).measureAll (p * 16 + position) (measured readings) := by
  rw [← countedAfter_nil, ← takeReadings_eq]
  rfl

theorem presenceAt_of_same {l : List Block} {s t : State} (h : SameOutside l s t) (hl : Block.presence ∉ l) (i : Nat) :
    t.presenceAt i = s.presenceAt i := by
  have hpresence : t.presence = s.presence := h .presence hl
  unfold State.presenceAt
  rw [hpresence]

theorem readingAt_arbitrate (s : State) (k : Nat) : s.arbitrate.readingAt k = s.readingAt k :=
  congrArg (fun r => Table.read Reading.initial r k) (arbitrate_readings s)

/-- R27: the acceptance in the state before it; the readings that count are read off `measureAll`. -/
theorem acceptSample_spec :
    (s.acceptSample p position readings body).filling
        = ((s.reported (p * 16 + position)).measureAll (p * 16 + position) (measured readings)).filling
      ∧ (s.acceptSample p position readings body).readings
        = ((s.reported (p * 16 + position)).measureAll (p * 16 + position) (measured readings)).readings
      ∧ (s.acceptSample p position readings body).notices
        = s.noticesAfterReading ((measured readings).flatMap
          (fun r => s.resolutionFaults (readingKey (p * 16 + position) r)))
      ∧ (∀ i, (s.acceptSample p position readings body).presenceAt i =
          if i = p * 16 + position then { state := .present, missed := 0 } else s.presenceAt i)
      ∧ (s.acceptSample p position readings body).uplink = { s.uplink with forwards :=
          if s.forwarding = true ∧ s.uplink.forwards.length < 16 then
            s.uplink.forwards ++ [{ port := p, kind := kindSample, body := body }] else s.uplink.forwards } := by
  obtain ⟨_, _, hnotices, hsame⟩ := measureAll_rest (s.reported (p * 16 + position)) (p * 16 + position) (measured readings)
  have hresolved : ∀ k, (s.reported (p * 16 + position)).resolutionFaults k = s.resolutionFaults k := fun k =>
    (resolution_congr rfl rfl k).2
  simp only [hresolved] at hnotices
  have hpresence : ∀ i, ((s.reported (p * 16 + position)).measureAll (p * 16 + position) (measured readings)).presenceAt i =
      if i = p * 16 + position then { state := .present, missed := 0 } else s.presenceAt i := fun i => by
    exact (presenceAt_of_same hsame (by decide) i).trans
      (presenceAt_putPresence (s.setFilling (s.filling.markPdu (p * 16 + position))) ..)
  have huplink : ((s.reported (p * 16 + position)).measureAll (p * 16 + position) (measured readings)).uplink = s.uplink :=
    (uplink_of_same hsame (by decide) (by decide)).trans rfl
  rw [acceptSample_eq]
  generalize (s.reported (p * 16 + position)).measureAll (p * 16 + position) (measured readings) = u at *
  by_cases hforwarding : s.forwarding = true
  · rw [if_pos hforwarding]
    have hoffer := same_offerForward u { port := p, kind := kindSample, body := body }
    refine ⟨hoffer .filling (by decide), hoffer .readings (by decide), (hoffer .notices (by decide)).trans hnotices,
      fun i => ?_, ?_⟩
    · rw [← hpresence]
      exact presenceAt_of_same hoffer (by decide) i
    · rw [offerForward_uplink, huplink]
      simp [hforwarding]
  · rw [if_neg hforwarding]
    refine ⟨rfl, rfl, hnotices, hpresence, ?_⟩
    rw [huplink, if_neg fun h => hforwarding h.1]

end

/-- R28: a SAMPLE that the window accepts. -/
theorem exec_sample_accepted {s : State} {p : Nat} {position hi lo : Byte} {rest : List Byte}
    (hlink : (s.port p).link ≠ .disabled) (hposition : position.toNat ≤ 15) (hsettling : (s.port p).settling = false)
    (hback : s.timer.epoch - BitVec.ofNat 16 (hi.toNat * 256 + lo.toNat) = 1)
    (hflag : s.filling.pduFlag (p * 16 + position.toNat) = false) :
    exec (.sample p (position :: hi :: lo :: rest)) s = .next ((s.wellFormedFrame p).acceptSample p position.toNat
      (readingEntries 48 rest) (position :: hi :: lo :: rest)).arbitrate := by
  rw [exec_sample_fields hlink, window_eq, if_neg (by omega), hsettling, if_neg Bool.false_ne_true, if_pos hback, hflag,
    if_neg Bool.false_ne_true]

end Sys2Proof.Machine

open Sys2Proof Sys2Proof.Machine

/-- Settles O27: the acceptance marks the PDU and its presence, and the readings that count touch its own outlets only. -/
theorem acceptedSampleReportsItsPdu : Obligations.AcceptedSampleReportsItsPdu := by
  intro s p position hi lo rest hlink hposition hsettling hback hflag pdu body
  have hexec := exec_sample_accepted (rest := rest) hlink hposition hsettling hback hflag
  have hheard := wellFormedFrame_heard s p
  have hsame := same_wellFormedFrame s p
  have hfilling : (s.wellFormedFrame p).filling = s.filling := hsame .filling (by decide)
  have hreadings : (s.wellFormedFrame p).readings = s.readings := hsame .readings (by decide)
  have hpresence : ∀ i, (s.wellFormedFrame p).presenceAt i = s.presenceAt i := fun i => by
    exact presenceAt_of_same hsame (by decide) i
  have huplink : (s.wellFormedFrame p).uplink = s.uplink := uplink_of_same hsame (by decide) (by decide)
  have hforwarding : (s.wellFormedFrame p).forwarding = s.forwarding := by
    unfold State.forwarding State.setting
    rw [show _ = _ from hsame .settings (by decide)]
  have haccept := same_acceptSample (s.wellFormedFrame p) p position.toNat (readingEntries 48 rest) body
  obtain ⟨hfillingA, hreadingsA, hnoticesA, hpresenceA, huplinkA⟩ :=
    acceptSample_spec (s.wellFormedFrame p) p position.toNat (readingEntries 48 rest) body
  generalize s.wellFormedFrame p = h at *
  obtain ⟨hincomplete, hpduReported, _, _⟩ := measureAll_rest (h.reported pdu) pdu (measured (readingEntries 48 rest))
  have hother : ∀ k, k / 64 ≠ pdu → ∀ r ∈ measured (readingEntries 48 rest), readingKey pdu r ≠ k := by
    intro k hk r hr heq
    rw [← countedAfter_nil] at hr
    have hlt := (lt_of_mem_countedAfter hr).1
    unfold readingKey at heq
    omega
  have hflags : ∀ i, (h.acceptSample p position.toNat (readingEntries 48 rest) body).filling.pduFlag i =
      if i = pdu then true else s.filling.pduFlag i := fun i => by
    rw [hfillingA, ← hfilling, ← pduFlag_markPdu]
    unfold AccSet.pduFlag
    rw [hpduReported]
    rfl
  have hentry : ∀ k, k / 64 ≠ pdu → (h.acceptSample p position.toNat (readingEntries 48 rest) body).readingAt k
        = s.readingAt k ∧ (h.acceptSample p position.toNat (readingEntries 48 rest) body).filling.outletFlag k
          = s.filling.outletFlag k := fun k hk => by
    obtain ⟨hreading, hflag⟩ := measureAll_other (h.reported pdu) pdu _ (hother k hk)
    refine ⟨?_, ?_⟩
    · unfold State.readingAt at hreading ⊢
      rw [hreadingsA, hreading, ← hreadings]
      rfl
    · rw [hfillingA, hflag, ← hfilling]
      rfl
  have hshortCase : rest.length < 3 → (h.acceptSample p position.toNat (readingEntries 48 rest) body).readings = s.readings
      ∧ (h.acceptSample p position.toNat (readingEntries 48 rest) body).notices = h.notices
      ∧ (h.acceptSample p position.toNat (readingEntries 48 rest) body).filling = s.filling.markPdu pdu := fun hshort => by
    have hnone : readingEntries 48 rest = [] := readingEntries_of_triples 48 [] hshort
    rw [hnone] at hreadingsA hnoticesA hfillingA ⊢
    exact ⟨hreadingsA.trans hreadings, hnoticesA, hfillingA.trans (congrArg (fun a => AccSet.markPdu a pdu) hfilling)⟩
  have hincompleteA : (h.acceptSample p position.toNat (readingEntries 48 rest) body).filling.incomplete
      = s.filling.incomplete := by
    rw [hfillingA, hincomplete, ← hfilling]
    rfl
  clear hfillingA hreadingsA hnoticesA hincomplete hpduReported
  generalize h.acceptSample p position.toNat (readingEntries 48 rest) body = a at *
  refine ⟨h, _, hexec, hheard, ?_, fun i hi => ?_, ?_, fun i hi => ?_, ?_, fun k hk => ?_, fun hshort => ?_,
    hincompleteA, haccept.comp (same_arbitrate _) (by decide) (by decide)⟩
  · rw [arbitrate_filling, hflags, if_pos rfl]
  · rw [arbitrate_filling, hflags, if_neg hi]
  · exact (presenceAt_of_same (same_arbitrate a) (by decide) pdu).trans ((hpresenceA pdu).trans (if_pos rfl))
  · exact (presenceAt_of_same (same_arbitrate a) (by decide) i).trans <| ((hpresenceA i).trans (if_neg hi)).trans (hpresence i)
  · rw [core_uplink_arbitrate, huplinkA, huplink, hforwarding]
    rfl
  · rw [readingAt_arbitrate, arbitrate_filling]
    exact hentry k hk
  · obtain ⟨hreadingsS, hnoticesS, hfillingS⟩ := hshortCase hshort
    refine ⟨hreadingsS, hnoticesS, ?_⟩
    rw [arbitrate_filling, hfillingS]
    rfl

/-- Settles O28: the reading list is the entries themselves, those that count are what `measured` picks, and what each charges
is read off one reading after another. -/
theorem measuredReadingIsChargedOnce : Obligations.MeasuredReadingIsChargedOnce := by
  intro s p position hi lo entries tail hlink hposition hsettling hback hflag htail body charged key
  have hexec := exec_sample_accepted (rest := entries.flatMap (fun e => [e.1, e.2.1, e.2.2]) ++ tail)
    hlink hposition hsettling hback hflag
  rw [readingEntries_of_triples 48 entries htail] at hexec
  have hheard := wellFormedFrame_heard s p
  have hsame := same_wellFormedFrame s p
  have hfilling : (s.wellFormedFrame p).filling = s.filling := hsame .filling (by decide)
  have hreadings : (s.wellFormedFrame p).readings = s.readings := hsame .readings (by decide)
  have hresolved : ∀ k, ((s.wellFormedFrame p).reported (p * 16 + position.toNat)).resolution k = s.resolution k
      ∧ (s.wellFormedFrame p).resolutionFaults k = s.resolutionFaults k := fun k =>
    ⟨(resolution_congr (hsame .oat (by decide)) (hsame .rules (by decide)) k).1,
      (resolution_congr (hsame .oat (by decide)) (hsame .rules (by decide)) k).2⟩
  have haccept := same_acceptSample (s.wellFormedFrame p) p position.toNat
    ((entries.take 48).map (fun e => (e.1.toNat % 64, e.2.1.toNat * 256 + e.2.2.toNat))) body
  obtain ⟨hfillingA, hreadingsA, hnoticesA, _, _⟩ := acceptSample_spec (s.wellFormedFrame p) p position.toNat
    ((entries.take 48).map (fun e => (e.1.toNat % 64, e.2.1.toNat * 256 + e.2.2.toNat))) body
  have hnodup : (charged.map Prod.fst).Nodup := by
    have := countedAfter_nodup [] ((entries.take 48).map (fun e => (e.1.toNat % 64, e.2.1.toNat * 256 + e.2.2.toNat)))
    rwa [countedAfter_nil] at this
  generalize s.wellFormedFrame p = h at *
  have hmem := fun r hr => measureAll_mem (h.reported (p * 16 + position.toNat)) (p * 16 + position.toNat) charged hnodup (r := r) hr
  have hother := fun k => measureAll_other (h.reported (p * 16 + position.toNat)) (p * 16 + position.toNat) charged (k := k)
  have hsum := measureAll_sum (h.reported (p * 16 + position.toNat)) (p * 16 + position.toNat) charged
  have hover := measureAll_over (h.reported (p * 16 + position.toNat)) (p * 16 + position.toNat) charged
  obtain ⟨hincomplete, _, _, _⟩ := measureAll_rest (h.reported (p * 16 + position.toNat)) (p * 16 + position.toNat) charged
  have hbefore : ∀ k, (h.reported (p * 16 + position.toNat)).readingAt k = s.readingAt k
      ∧ (h.reported (p * 16 + position.toNat)).filling = s.filling.markPdu (p * 16 + position.toNat) := fun k =>
    ⟨congrArg (fun r => Table.read Reading.initial r k) hreadings,
      congrArg (fun a => AccSet.markPdu a (p * 16 + position.toNat)) hfilling⟩
  simp only [hresolved] at hsum hover hnoticesA
  rw [(hbefore 0).2] at hincomplete
  simp only [(hbefore 0).2, sum_markPdu, over_markPdu, outletFlag_markPdu, fun k => (hbefore k).1] at hsum hover hother
  have hreadingAt : ∀ k, (h.acceptSample p position.toNat ((entries.take 48).map
      (fun e => (e.1.toNat % 64, e.2.1.toNat * 256 + e.2.2.toNat))) body).readingAt k
        = ((h.reported (p * 16 + position.toNat)).measureAll (p * 16 + position.toNat) charged).readingAt k := fun k =>
    congrArg (fun r => Table.read Reading.initial r k) hreadingsA
  generalize (h.reported (p * 16 + position.toNat)).measureAll (p * 16 + position.toNat) charged = w at *
  generalize h.acceptSample p position.toNat _ body = a at *
  refine ⟨h, _, hexec, hheard, fun r hr => ⟨?_, ?_⟩, fun k hk => ⟨?_, ?_⟩, fun f x => ?_, fun x => ?_, ?_, hnoticesA,
    haccept.comp (same_arbitrate _) (by decide) (by decide)⟩
  · exact (readingAt_arbitrate a _).trans ((hreadingAt _).trans (hmem r hr).1)
  · rw [arbitrate_filling, hfillingA]
    exact (hmem r hr).2
  · exact (readingAt_arbitrate a k).trans ((hreadingAt k).trans (hother k hk).1)
  · rw [arbitrate_filling, hfillingA]
    exact (hother k hk).2
  · rw [arbitrate_filling, hfillingA]
    exact hsum f x
  · rw [arbitrate_filling, hfillingA]
    exact hover x
  · rw [arbitrate_filling, hfillingA]
    exact hincomplete

end

