-- ==== Sys2Proof/Proofs/LineFrames.lean ====
section
/-! PROOF. The outer form of a frame: what a built frame is opened as, and what fails a test of it (R16, R159, R186, R187). -/

namespace Sys2Proof.Machine

section
variable (kind rowId : Byte) (body : List Byte)

theorem length_buildFrame : (buildFrame kind rowId body).length = body.length + 6 := by
  simp only [buildFrame, List.length_append, length_beBytes, List.length_cons, List.length_nil]
  omega

theorem beNat_beBytes_two {v : Nat} (h : v < 65536) : beNat (beBytes 2 v) = v := by
  simp only [beBytes, beNat, List.nil_append, List.cons_append, List.foldl_cons, List.foldl_nil, BitVec.toNat_ofNat]
  omega

/-- R186: the length field of a frame whose body leaves it room. -/
theorem beNat_take_two_buildFrame (h : body.length ≤ 65529) : beNat ((buildFrame kind rowId body).take 2) = body.length + 6 := by
  have htake : (buildFrame kind rowId body).take 2 = beBytes 2 (lengthField (body.length + 6)).toNat := by
    simp only [buildFrame, List.append_assoc]
    exact List.take_left' (length_beBytes 2 _)
  rw [htake, lengthField, if_pos (by omega), BitVec.toNat_ofNat, Nat.mod_eq_of_lt (by omega), beNat_beBytes_two (by omega)]

/-- R186: a frame with a room-leaving body is opened as its kind and body. -/
theorem openFrame_buildFrame (h : body.length ≤ 65529) : openFrame (buildFrame kind rowId body) = some (kind, body) := by
  have hlength := length_buildFrame kind rowId body
  have hfield := beNat_take_two_buildFrame kind rowId body h
  generalize hcovered : beBytes 2 (lengthField (body.length + 6)).toNat ++ [kind, rowId] ++ body = covered
  have hframe : buildFrame kind rowId body = covered ++ beBytes 2 (frameCheck covered).toNat := by
    rw [← hcovered]; rfl
  have hlen : covered.length = (buildFrame kind rowId body).length - 2 := by
    rw [hframe, List.length_append, length_beBytes]; omega
  have htake : (buildFrame kind rowId body).take ((buildFrame kind rowId body).length - 2) = covered := by
    rw [← hlen, hframe]
    exact List.take_left' rfl
  have hdrop : (buildFrame kind rowId body).drop ((buildFrame kind rowId body).length - 2)
      = beBytes 2 (frameCheck covered).toNat := by
    rw [← hlen, hframe]
    exact List.drop_left' rfl
  have hcheck : beNat (beBytes 2 (frameCheck covered).toNat) = (frameCheck covered).toNat :=
    beNat_beBytes_two (frameCheck covered).isLt
  unfold openFrame
  dsimp only
  rw [if_neg (by omega), htake, hdrop, hcheck, if_neg (fun hne => hne rfl), hfield, hlength, if_neg (fun hne => hne rfl), hframe,
    ← hcovered]
  rfl

end

/-- R186: a received frame that fails a test opens as nothing. -/
theorem openFrame_none {received : List Byte} (h : received.length < 6 ∨ beNat (received.take 2) ≠ received.length
    ∨ beNat (received.drop (received.length - 2)) ≠ (frameCheck (received.take (received.length - 2))).toNat) :
    openFrame received = none := by
  unfold openFrame
  dsimp only
  split
  · rfl
  · next hlong =>
    split
    · rfl
    · next hcheck =>
      exact if_pos ((h.resolve_left hlong).resolve_right hcheck)

/-- R186: a built frame that is cut off disagrees with its length field. -/
theorem openFrame_cut (kind rowId : Byte) {body : List Byte} (h : body.length ≤ 65529) {k : Nat}
    (hk : k < (buildFrame kind rowId body).length) : openFrame ((buildFrame kind rowId body).take k) = none := by
  have hlength := length_buildFrame kind rowId body
  have htaken : ((buildFrame kind rowId body).take k).length = k := by rw [List.length_take]; omega
  refine openFrame_none ?_
  rw [htaken]
  by_cases hk6 : k < 6
  · exact .inl hk6
  · refine .inr (.inl ?_)
    rw [List.take_take, Nat.min_eq_left (by omega), beNat_take_two_buildFrame kind rowId body h]
    omega

/-! ### What a chain port and the uplink receive (R16, R159) -/

section
variable (port elapsed : Nat) (received : List Byte)

/-- R16, R17: the command of an opened frame on a chain port. -/
def chainCommand (port : Nat) : Option (Byte × List Byte) → Instr
  | some (kind, body) =>
    if kind = kindSample then .sample port body
    else if kind = kindSwitchAck then .switchAck port body
    else if kind = kindPduReply then .pduReply port body
    else if kind = kindRequest then .chainRequest port body
    else .chainMalformedFrame port
  | none => .chainMalformedFrame port

/-- R159: the command of an opened frame on the uplink. -/
def uplinkCommand (elapsed : Nat) : Option (Byte × List Byte) → Instr
  | some (kind, body) =>
    if kind = kindRequest then .uplinkRequest body
    else if kind = kindEpoch then .epoch elapsed body
    else if kind = kindPduPass then .pduPass body
    else .uplinkFrameError
  | none => .uplinkFrameError

theorem receiveChain_delimited :
    receiveChain port (0x5A#8 :: received) = some (chainCommand port (openFrame received)) := by
  change some _ = some _
  unfold chainCommand
  rfl

theorem receiveUplink_delimited :
    receiveUplink elapsed (0x5A#8 :: received) = some (uplinkCommand elapsed (openFrame received)) := by
  change some _ = some _
  unfold uplinkCommand
  rfl

theorem delimited_none {first : Byte} (h : first ≠ 0x5A#8) : delimited (first :: received) = none := if_neg h

end

end Sys2Proof.Machine

open Sys2Proof Sys2Proof.Machine

/-- Settles O35: a built frame opens as its kind and body, a cut one as nothing, and the kind decides the command. -/
theorem framesAreReceivedAsBuiltOrAsMalformed : Obligations.FramesAreReceivedAsBuiltOrAsMalformed := by
  intro kind rowId first p elapsed body received hfits
  have hbody : body.length ≤ 65529 := by simpa [bodyFits] using hfits
  refine ⟨fun c hc => ?_, fun c hc => ?_, fun hbad => ⟨?_, ?_⟩, fun h1 h2 h3 h4 => ?_, fun h1 h2 h3 => ?_,
    fun hfirst => ⟨?_, ?_⟩⟩
  · obtain ⟨k, hframe, hcommand⟩ : ∃ k, frameOf rowId c = some (0x5A#8 :: buildFrame k rowId body)
        ∧ chainCommand p (some (k, body)) = c := by
      obtain rfl | rfl | rfl | rfl := hc
      · exact ⟨kindSample, rfl, rfl⟩
      · exact ⟨kindSwitchAck, rfl, rfl⟩
      · exact ⟨kindPduReply, rfl, rfl⟩
      · exact ⟨kindRequest, rfl, rfl⟩
    refine ⟨_, hframe, ?_, length_buildFrame .., fun n hn => ?_⟩
    · rw [receiveChain_delimited, openFrame_buildFrame k rowId body hbody, hcommand]
    · rw [receiveChain_delimited, openFrame_cut k rowId hbody hn]
      rfl
  · obtain ⟨k, hframe, hcommand⟩ : ∃ k, frameOf rowId c = some (0x5A#8 :: buildFrame k rowId body)
        ∧ uplinkCommand elapsed (some (k, body)) = c := by
      obtain rfl | rfl | rfl := hc
      · exact ⟨kindRequest, rfl, rfl⟩
      · exact ⟨kindEpoch, rfl, rfl⟩
      · exact ⟨kindPduPass, rfl, rfl⟩
    refine ⟨_, hframe, ?_, length_buildFrame .., fun n hn => ?_⟩
    · rw [receiveUplink_delimited, openFrame_buildFrame k rowId body hbody, hcommand]
    · rw [receiveUplink_delimited, openFrame_cut k rowId hbody hn]
      rfl
  · rw [receiveChain_delimited, openFrame_none hbad]
    rfl
  · rw [receiveUplink_delimited, openFrame_none hbad]
    rfl
  · rw [receiveChain_delimited, openFrame_buildFrame kind rowId body hbody]
    exact congrArg some ((if_neg h1).trans ((if_neg h2).trans ((if_neg h3).trans (if_neg h4))))
  · rw [receiveUplink_delimited, openFrame_buildFrame kind rowId body hbody]
    exact congrArg some ((if_neg h1).trans ((if_neg h2).trans (if_neg h3)))
  · rw [receiveChain, delimited_none received hfirst]
    rfl
  · rw [receiveUplink, delimited_none received hfirst]
    rfl

end

