-- ==== Sys2Proof/Proofs/TransmitterSteps.lean ====
section
/-! PROOF. What a transmitter starts and what it chooses at a frame's end, on the chains and on the uplink (R32, R33, R129,
R164, R165, R185, logs 4 and 14). -/

namespace Sys2Proof.Machine

/-! ### Starting a frame down a chain (R33, R186) -/

section
variable (s : State) (p : Nat)

/-- R33: a frame started on a port, and the choices after it. -/
theorem startDown_arbitrate (frame : DownFrame) :
    ((s.startDown p frame).arbitrate.port p).core = { (s.port p).core with
        tx := some { frame := frame, bytes := downFrameBytes s.rowId frame } }
      ∧ ((s.startDown p frame).arbitrate.port p).choice = none
      ∧ (∀ q, q ≠ p → ((s.startDown p frame).arbitrate.port q).core = (s.port q).core)
      ∧ SameOutside [.links, .downChoice, .upChoice] s (s.startDown p frame).arbitrate := by
  have hport : (s.startDown p frame).port p = { s.port p with
      tx := some { frame := frame, bytes := downFrameBytes s.rowId frame }, choice := none } := port_putPort_same ..
  have hsame := (same_startDown s p frame).comp (same_arbitrate _) (n := [.links, .downChoice, .upChoice]) (by decide) (by decide)
  refine ⟨?_, ?_, fun q hq => ?_, hsame⟩
  · rw [core_port_arbitrate, hport]
    rfl
  · rw [port_arbitrate]
    split
    · exact downChoice_sending _ (by rw [hport]; exact Option.some_ne_none _)
    · rw [hport]
  · rw [core_port_arbitrate]
    exact congrArg Port.core (port_putPort_other s _ hq)

theorem markBytes_eq (rowId : Byte) (n : Epoch) :
    downFrameBytes rowId (.mark n) = 0x5A#8 :: buildFrame 0x01#8 rowId (layout [(2, n.toNat)]) := by
  rw [layout_cons, layout_nil, List.append_nil]
  rfl

theorem switchBytes_eq (rowId : Byte) (position outlet : Nat) (on : Bool) (tag : BitVec 8) :
    downFrameBytes rowId (.switch position outlet on tag) = 0x5A#8 :: buildFrame 0x02#8 rowId
      (layout [(1, position), (1, outlet), (1, flag on 1), (1, tag.toNat)]) := by
  simp only [layout_cons, layout_nil, List.append_nil, flag_one, ← List.append_assoc]
  rfl

theorem passDownBytes_eq (rowId : Byte) (f : PassDown) :
    downFrameBytes rowId (.passDown f) = 0x5A#8 :: buildFrame 0x03#8 rowId (passDownLayout f) := by
  rw [passDownLayout_eq]
  rfl

theorem exec_markSend {n : Epoch} (hchoice : (s.port p).choice = some .mark) (hdue : (s.port p).dueMark = some n) :
    exec (.markSend p) s = .next ((s.putPort p { s.port p with dueMark := none }).startDown p (.mark n)).arbitrate := by
  change execMarkSend p s = _
  simp only [execMarkSend, hchoice, hdue]

theorem exec_passDownSend {f : PassDown} {rest : List PassDown} (hchoice : (s.port p).choice = some .passDown)
    (hqueue : (s.port p).passDown = f :: rest) : exec (.passDownSend p) s =
      .next ((s.putPort p { s.port p with passDown := rest }).startDown p (.passDown f)).arbitrate := by
  change execPassDownSend p s = _
  simp only [execPassDownSend, hchoice, hqueue]

theorem exec_switchSend {slot : Nat} {rest : List Nat} {e : CurtailEntry} (hchoice : (s.port p).choice = some .switch)
    (hdue : s.dueAt p = slot :: rest) (he : s.entryAt slot = some e) :
    exec (.switchSend p) s = .next (s.startSwitch p slot e).arbitrate := by
  change execSwitchSend p s = _
  simp only [execSwitchSend, hchoice, hdue, he]

/-- R129: the state in which a SWITCH is started. -/
def State.switching (s : State) (p slot : Nat) (e : CurtailEntry) : State :=
  ((s.putEntry slot (e.started s.curtail.tagCounter s.commandTimeout)).leaveDue p slot).setCurtail
    { ((s.putEntry slot (e.started s.curtail.tagCounter s.commandTimeout)).leaveDue p slot).curtail with
      tagCounter := s.curtail.tagCounter + 1 }

theorem startSwitch_eq (slot : Nat) (e : CurtailEntry) : s.startSwitch p slot e = (s.switching p slot e).startDown p
    (.switch (e.outlet / 64 % 16) (e.outlet % 64) (decide (e.stage = .onPending)) s.curtail.tagCounter) := rfl

theorem switching_spec (slot : Nat) (e : CurtailEntry) :
    (∀ n, (s.switching p slot e).entryAt n =
        if n = slot then some (e.started s.curtail.tagCounter s.commandTimeout) else s.entryAt n)
      ∧ (∀ q, (s.switching p slot e).dueAt q =
        if q = p then (s.dueAt p).filter (fun n => decide (n ≠ slot)) else s.dueAt q)
      ∧ (s.switching p slot e).curtail.tagCounter = s.curtail.tagCounter + 1
      ∧ (s.switching p slot e).curtail.owed = s.curtail.owed
      ∧ (s.switching p slot e).curtail.records = s.curtail.records
      ∧ (s.switching p slot e).curtail.creation = s.curtail.creation
      ∧ SameOutside [.curtail] s (s.switching p slot e) :=
  ⟨fun n => entryAt_putEntry s slot _ n, fun q => dueAt_leaveDue (s.putEntry slot _) p slot q, rfl, rfl, rfl, rfl,
    ((same_putEntry s slot _).trans (same_leaveDue _ p slot)).trans (same_setCurtail _ _)⟩

/-- A list without repeats loses its head alone. -/
theorem filter_head {slot : Nat} {rest : List Nat} (h : slot ∉ rest) :
    (slot :: rest).filter (fun n => decide (n ≠ slot)) = rest := by
  rw [List.filter_cons_of_neg (by simp)]
  exact List.filter_eq_self.mpr fun n hn => by
    simp only [decide_eq_true_eq]
    rintro rfl
    exact h hn

/-! ### The end of a frame down a chain (R32, R185) -/

/-- R32: the choice of an idle transmitter without one. -/
theorem downChoice_idle (hlink : (s.port p).link ≠ .disabled) (htx : (s.port p).tx = none)
    (hchoice : (s.port p).choice = none) : s.downChoice p =
      if (s.port p).dueMark ≠ none then some .mark
      else if (s.port p).link.carries = true ∧ s.dueAt p ≠ [] then some .switch
      else if (s.port p).passDown ≠ [] then some .passDown else none := by
  unfold State.downChoice
  rw [if_neg (by rw [htx]; simp [hlink]), hchoice]
  dsimp only
  have hmark : s.downAvailable p .mark = decide ((s.port p).dueMark ≠ none) := by
    simp only [State.downAvailable]
    cases (s.port p).dueMark <;> rfl
  have hswitch : s.downAvailable p .switch = decide ((s.port p).link.carries = true ∧ s.dueAt p ≠ []) := by
    simp only [State.downAvailable]
    cases s.dueAt p <;> simp
  have hpass : s.downAvailable p .passDown = decide ((s.port p).passDown ≠ []) := by
    simp only [State.downAvailable]
    cases (s.port p).passDown <;> simp
  simp only [State.downFirst, List.find?_cons, hmark, hswitch, hpass, List.find?_nil]
  by_cases h1 : (s.port p).dueMark ≠ none
  · rw [decide_eq_true h1, if_pos h1]
  · rw [decide_eq_false h1, if_neg h1]
    by_cases h2 : (s.port p).link.carries = true ∧ s.dueAt p ≠ []
    · rw [decide_eq_true h2, if_pos h2]
    · rw [decide_eq_false h2, if_neg h2]
      by_cases h3 : (s.port p).passDown ≠ []
      · rw [decide_eq_true h3, if_pos h3]
      · rw [decide_eq_false h3, if_neg h3]

theorem grantsReset_iff (r : Response) : r.grantsReset = true ↔ r.code = 0x0D#8 ∧ r.status = .ok := by
  rw [Response.grantsReset, Bool.and_eq_true, decide_eq_true_iff, decide_eq_true_iff]
  rfl

theorem endsChainWait_iff (frame : DownFrame) : s.endsChainWait p frame = true ↔ ∃ position r q,
    frame = .passDown (.response position r) ∧ r.code = 0x0D#8 ∧ r.status = .ok
      ∧ s.mgmt.resetWaiting = some (.chain p q) := by
  unfold State.endsChainWait
  split
  · next position r q position' hwait =>
    rw [hwait, Bool.and_eq_true, grantsReset_iff, decide_eq_true_iff]
    constructor
    · rintro ⟨⟨hcode, hok⟩, rfl⟩
      exact ⟨position, r, position', rfl, hcode, hok, rfl⟩
    · rintro ⟨_, _, _, hframe, hcode, hok, hq⟩
      cases hframe
      cases hq
      exact ⟨⟨hcode, hok⟩, rfl⟩
  · next hno =>
    constructor
    · exact fun h => absurd h Bool.false_ne_true
    · rintro ⟨position, r, q, hframe, _, _, hwait⟩
      exact absurd hwait (hno position r p q hframe)

theorem endsUplinkWait_iff (frame : UplinkFrame) : s.endsUplinkWait frame = true ↔ ∃ r, frame = .response r
    ∧ r.code = 0x0D#8 ∧ r.status = .ok ∧ s.mgmt.resetWaiting = some .uplink := by
  unfold State.endsUplinkWait
  split
  · next r hwait =>
    rw [hwait, grantsReset_iff]
    constructor
    · rintro ⟨hcode, hok⟩
      exact ⟨r, rfl, hcode, hok, rfl⟩
    · rintro ⟨_, hframe, hcode, hok, _⟩
      cases hframe
      exact ⟨hcode, hok⟩
  · next hno =>
    constructor
    · exact fun h => absurd h Bool.false_ne_true
    · rintro ⟨r, hframe, _, _, hwait⟩
      exact absurd hwait (hno r hframe)

/-- R32: the state at the end of a frame down a chain, before the choices. -/
def State.downEnded (s : State) (p : Nat) (frame : DownFrame) : State :=
  if s.endsChainWait p frame then (s.putPort p { s.port p with tx := none }).setMgmt { s.mgmt with resetDue := true }
  else s.putPort p { s.port p with tx := none }

theorem exec_downFrameEnd {sent : DownSend} (h : (s.port p).tx = some sent) :
    exec (.downFrameEnd p) s = .next (s.downEnded p sent.frame).arbitrate := by
  change execDownFrameEnd p s = _
  simp only [execDownFrameEnd, h, State.downEnded]
  split <;> rfl

theorem downEnded_spec (frame : DownFrame) : (s.downEnded p frame).port p = { s.port p with tx := none }
    ∧ (∀ q, q ≠ p → (s.downEnded p frame).port q = s.port q)
    ∧ (∀ q, (s.downEnded p frame).dueAt q = s.dueAt q)
    ∧ (s.downEnded p frame).mgmt =
      (if s.endsChainWait p frame = true then { s.mgmt with resetDue := true } else s.mgmt)
    ∧ SameOutside [.links, .mgmt] s (s.downEnded p frame) := by
  have hput : SameOutside [.links, .mgmt] s (s.putPort p { s.port p with tx := none }) :=
    SameOutside.mono (same_putPort s p _ rfl) (by decide)
  unfold State.downEnded
  split
  · exact ⟨port_putPort_same .., fun q hq => port_putPort_other s _ hq, fun _ => rfl, rfl,
      hput.trans (SameOutside.mono (same_setMgmt _ _) (by decide))⟩
  · exact ⟨port_putPort_same .., fun q hq => port_putPort_other s _ hq, fun _ => rfl, rfl, hput⟩

/-! ### The uplink transmitter (R164, R165) -/

theorem responseBytes_eq (rowId : Byte) (r : Response) :
    uplinkFrameBytes rowId (.response r) = 0x5A#8 :: buildFrame 0x31#8 rowId (responseLayout r) := by
  rw [responseLayout_eq]
  rfl

theorem noticeBytes_eq (rowId : Byte) (n : Notice) :
    uplinkFrameBytes rowId (.notice n) = 0x5A#8 :: buildFrame 0x32#8 rowId (noticeLayout n) := by
  rw [noticeLayout_eq]
  rfl

theorem forwardBytes_eq (rowId : Byte) (f : Forward) : uplinkFrameBytes rowId (.forward f) =
    0x5A#8 :: buildFrame 0x33#8 rowId (layout [(1, f.port), (1, f.kind.toNat)] ++ f.body) := by
  rw [layout_cons, layout_cons, layout_nil, List.append_nil, beBytes_byte]
  rfl

theorem exec_uplinkFrameStart_response {r : Response} {rest : List Response} (hchoice : s.uplink.choice = some .response)
    (hqueue : s.uplink.responses = r :: rest) : exec .uplinkFrameStart s =
      .next ((s.setUplink { s.uplink with responses := rest }).startUp .response (.response r)) := by
  change execUplinkFrameStart s = _
  simp only [execUplinkFrameStart, hchoice, hqueue]

theorem exec_uplinkFrameStart_notice {n : Notice} {rest : List Notice} (hchoice : s.uplink.choice = some .notice)
    (hqueue : s.notices.queue = n :: rest) : exec .uplinkFrameStart s =
      .next ((s.setNotices { s.notices with queue := rest }).startUp .notice (.notice n)) := by
  change execUplinkFrameStart s = _
  simp only [execUplinkFrameStart, hchoice, hqueue]

theorem exec_uplinkFrameStart_forward {f : Forward} {rest : List Forward} (hchoice : s.uplink.choice = some .forward)
    (hqueue : s.uplink.forwards = f :: rest) : exec .uplinkFrameStart s =
      .next ((s.setUplink { s.uplink with forwards := rest }).startUp .forward (.forward f)) := by
  change execUplinkFrameStart s = _
  simp only [execUplinkFrameStart, hchoice, hqueue]

/-- R164: the state at the end of a frame up the uplink, before the choices. -/
def State.upEnded (s : State) (frame : UplinkFrame) : State :=
  if s.endsUplinkWait frame then (s.setUplink { s.uplink with tx := none }).setMgmt { s.mgmt with resetDue := true }
  else s.setUplink { s.uplink with tx := none }

theorem exec_uplinkFrameEnd {sent : UplinkSend} (h : s.uplink.tx = some sent) :
    exec .uplinkFrameEnd s = .next (s.upEnded sent.frame).arbitrate := by
  change execUplinkFrameEnd s = _
  simp only [execUplinkFrameEnd, h, State.upEnded]
  split <;> rfl

theorem upEnded_spec (frame : UplinkFrame) : (s.upEnded frame).uplink = { s.uplink with tx := none }
    ∧ (s.upEnded frame).mgmt = (if s.endsUplinkWait frame = true then { s.mgmt with resetDue := true } else s.mgmt)
    ∧ SameOutside [.uplink, .mgmt] s (s.upEnded frame) := by
  have hput : SameOutside [.uplink, .mgmt] s (s.setUplink { s.uplink with tx := none }) :=
    SameOutside.mono (same_setUplink s _ rfl) (by decide)
  unfold State.upEnded
  split
  · exact ⟨rfl, rfl, hput.trans (SameOutside.mono (same_setMgmt _ _) (by decide))⟩
  · exact ⟨rfl, rfl, hput⟩

/-- R164: the choice of an idle arbiter without one. -/
theorem upChoice_idle (htx : s.uplink.tx = none) (hchoice : s.uplink.choice = none) :
    s.upChoice = if s.mgmt.resetDue = true then none else s.upOrder.find? s.upAvailable := by
  unfold State.upChoice
  rw [htx, hchoice]
  by_cases h : s.mgmt.resetDue = true
  · rw [if_pos h, if_pos (.inr h)]
  · rw [if_neg h, if_neg (by simp [h])]

end

end Sys2Proof.Machine

open Sys2Proof Sys2Proof.Machine

/-- Settles O36: each of the three kinds is a frame started in a state where what it uses up is gone. -/
theorem chosenDownFrameIsStarted : Obligations.ChosenDownFrameIsStarted := by
  intro s p
  have hput : ∀ q : Port, q.choice = (s.port p).choice →
      SameOutside [.links, .downChoice, .upChoice] s (s.putPort p q) := fun q hq =>
    SameOutside.mono (same_putPort s p q hq) (by decide)
  refine ⟨fun n hchoice hdue => ?mark, fun f rest hchoice hqueue => ?passDown, fun slot rest hlists hdue => ?head,
    fun slot rest e hchoice hdue hnot he => ?switch⟩
  case mark =>
    obtain ⟨hport, hnone, hothers, hframe⟩ :=
      startDown_arbitrate (s.putPort p { s.port p with dueMark := none }) p (.mark n)
    rw [port_putPort_same, markBytes_eq] at hport
    exact ⟨_, exec_markSend s p hchoice hdue, hport, hnone,
      fun q hq => (hothers q hq).trans (congrArg Port.core (port_putPort_other s _ hq)),
      (hput { s.port p with dueMark := none } rfl).trans hframe⟩
  case passDown =>
    obtain ⟨hport, hnone, hothers, hframe⟩ :=
      startDown_arbitrate (s.putPort p { s.port p with passDown := rest }) p (.passDown f)
    rw [port_putPort_same, passDownBytes_eq] at hport
    exact ⟨_, exec_passDownSend s p hchoice hqueue, hport, hnone,
      fun q hq => (hothers q hq).trans (congrArg Port.core (port_putPort_other s _ hq)),
      (hput { s.port p with passDown := rest } rfl).trans hframe⟩
  case head =>
    obtain ⟨_, hexact, _⟩ := hlists
    obtain ⟨hnodup, hmem⟩ := hexact p
    rw [hdue] at hnodup hmem
    exact ⟨(List.nodup_cons.mp hnodup).1, (hmem slot).mp List.mem_cons_self⟩
  case switch =>
    intro tag position outlet on
    obtain ⟨hentry, hdues, htag, howed, hrecords, hcreation, hsame⟩ := switching_spec s p slot e
    obtain ⟨hport, hnone, hothers, hframe⟩ :=
      startDown_arbitrate (s.switching p slot e) p (.switch position outlet on tag)
    have hexec := exec_switchSend s p hchoice hdue he
    rw [startSwitch_eq] at hexec
    have hports : ∀ q, (s.switching p slot e).port q = s.port q := fun q => port_of_same hsame (by decide) (by decide) q
    have hrow : (s.switching p slot e).rowId = s.rowId := rfl
    rw [hports, hrow, switchBytes_eq] at hport
    have hcurtail : ((s.switching p slot e).startDown p (.switch position outlet on tag)).arbitrate.curtail
        = (s.switching p slot e).curtail := hframe .curtail (by decide)
    have hat : ∀ n, ((s.switching p slot e).startDown p (.switch position outlet on tag)).arbitrate.entryAt n
        = (s.switching p slot e).entryAt n := entryAt_congr hcurtail
    have hdueAt : ∀ q, ((s.switching p slot e).startDown p (.switch position outlet on tag)).arbitrate.dueAt q
        = (s.switching p slot e).dueAt q := fun q => by unfold State.dueAt; rw [hcurtail]
    generalize ((s.switching p slot e).startDown p (.switch position outlet on tag)).arbitrate = t at *
    refine ⟨t, hexec, ?_, fun n hn => ?_, ?_, ?_, fun q hq => ?_, ?_, ?_, ?_, hport, hnone, fun q hq => ?_,
      hsame.comp hframe (by decide) (by decide)⟩
    · rw [hat, hentry, if_pos rfl]
      rfl
    · rw [hat, hentry, if_neg hn]
    · rw [hcurtail, htag]
    · rw [hdueAt, hdues, if_pos rfl, hdue, filter_head hnot]
    · rw [hdueAt, hdues, if_neg hq]
    · rw [hcurtail, howed]
    · rw [hcurtail, hrecords]
    · rw [hcurtail, hcreation]
    · rw [hothers q hq, hports]

/-- Settles O37: the transmitter is idle without a choice, so the choices make the first that is available. -/
theorem downFrameEndChoosesTheNextFrame : Obligations.DownFrameEndChoosesTheNextFrame := by
  intro s p sent hp htx hchoice granted
  have hexec := exec_downFrameEnd s p htx
  obtain ⟨hport, hothers, hdue, hmgmt, hsame⟩ := downEnded_spec s p sent.frame
  have hgranted : s.endsChainWait p sent.frame = true ↔ granted := endsChainWait_iff s p sent.frame
  generalize s.downEnded p sent.frame = u at *
  have hatp : u.arbitrate.port p = { u.port p with choice := u.downChoice p } := port_arbitrate_lt u hp
  refine ⟨_, hexec, ?_, fun q hq => ?_, fun hlink => ?_, fun hlink => ?_, fun h => ?_, fun h => ?_,
    hsame.comp (same_arbitrate u) (by decide) (by decide)⟩
  · rw [core_port_arbitrate, hport]
    rfl
  · rw [core_port_arbitrate, hothers q hq]
  · rw [hatp]
    exact if_pos (.inl (by rw [hport]; exact hlink))
  · intro switchWaits
    have hidle := downChoice_idle u p (by rw [hport]; exact hlink) (by rw [hport]) (by rw [hport]; exact hchoice)
    rw [hport, hdue] at hidle
    have hwaits : ((s.port p).link.carries = true ∧ s.dueAt p ≠ []) ↔ switchWaits := and_congr_left' (carries_iff _)
    rw [hatp]
    change (_ → u.downChoice p = _) ∧ (_ → _ → u.downChoice p = _) ∧ (_ → _ → _ → u.downChoice p = _)
      ∧ (_ → _ → _ → u.downChoice p = _)
    rw [hidle]
    refine ⟨fun hmark => if_pos hmark, fun hmark hswitch => ?_, fun hmark hno hpass => ?_, fun hmark hno hpass => ?_⟩
    · exact (if_neg (not_not.mpr hmark)).trans (if_pos (hwaits.mpr hswitch))
    · exact (if_neg (not_not.mpr hmark)).trans ((if_neg fun h => hno (hwaits.mp h)).trans (if_pos hpass))
    · exact (if_neg (not_not.mpr hmark)).trans ((if_neg fun h => hno (hwaits.mp h)).trans (if_neg (not_not.mpr hpass)))
  · rw [arbitrate_mgmt, hmgmt, if_pos (hgranted.mpr h)]
  · rw [arbitrate_mgmt, hmgmt, if_neg fun k => h (hgranted.mp k)]

/-- Settles O38: the chosen queue gives up its head; at a frame's end the idle arbiter takes the first of its order that
waits. -/
theorem uplinkTransmitterServesItsQueues : Obligations.UplinkTransmitterServesItsQueues := by
  intro s
  refine ⟨fun r rest hchoice hqueue => ?response, fun n rest hchoice hqueue => ?notice, fun f rest hchoice hqueue => ?forward,
    fun sent htx hchoice => ?frameEnd⟩
  case response =>
    refine ⟨_, exec_uplinkFrameStart_response s hchoice hqueue,
      (same_setUplink_all s _).trans (same_startUp _ _ _), ?_⟩
    rw [← responseBytes_eq]
    rfl
  case notice =>
    refine ⟨_, exec_uplinkFrameStart_notice s hchoice hqueue,
      (same_setNotices s _).comp (same_startUp _ _ _) (by decide) (by decide), rfl, ?_⟩
    rw [← noticeBytes_eq]
    rfl
  case forward =>
    refine ⟨_, exec_uplinkFrameStart_forward s hchoice hqueue,
      (same_setUplink_all s _).trans (same_startUp _ _ _), ?_⟩
    rw [← forwardBytes_eq]
    rfl
  case frameEnd =>
    intro granted waits order
    obtain ⟨huplink, hmgmt, hsame⟩ := upEnded_spec s sent.frame
    have hgranted : s.endsUplinkWait sent.frame = true ↔ granted := endsUplinkWait_iff s sent.frame
    have hexec := exec_uplinkFrameEnd s htx
    generalize s.upEnded sent.frame = u at *
    have hidle := upChoice_idle u (by rw [huplink]) (by rw [huplink]; exact hchoice)
    have hqueue : u.notices.queue = s.notices.queue := congrArg NoticeUnit.queue (hsame .notices (by decide))
    have havailable : u.upAvailable = waits := by
      funext k
      cases k <;> simp only [State.upAvailable, huplink, hqueue, waits]
      · cases s.uplink.responses <;> simp
      · cases s.notices.queue <;> simp
      · cases s.uplink.forwards <;> simp
    have horder : u.upOrder = order := by
      have hpriority : u.priorityMode = s.priorityMode := by
        unfold State.priorityMode State.setting
        rw [show u.settings = s.settings from hsame .settings (by decide)]
      unfold State.upOrder
      rw [hpriority, huplink]
      simp only [State.priorityMode, decide_eq_true_eq, order]
      refine if_congr Iff.rfl rfl ?_
      cases s.uplink.lastServed <;> rfl
    have hchosen : u.arbitrate.uplink.choice = u.upChoice := rfl
    refine ⟨_, hexec, ?_, fun h => ⟨?_, ?_⟩, fun h => ⟨?_, ?_⟩, hsame.comp (same_arbitrate u) (by decide) (by decide)⟩
    · rw [core_uplink_arbitrate, huplink]
      rfl
    · rw [arbitrate_mgmt, hmgmt, if_pos (hgranted.mpr h)]
    · rw [hchosen, hidle, hmgmt, if_pos (hgranted.mpr h), if_pos rfl]
    · rw [arbitrate_mgmt, hmgmt, if_neg fun k => h (hgranted.mp k)]
    · rw [hchosen, hidle, hmgmt, if_neg fun k => h (hgranted.mp k), havailable, horder]

end

