-- ==== Sys2Proof/Proofs/Queuing.lean ====
section
/-! PROOF. The first owed item takes a place in the notice queue and is settled; the oldest kept response takes one in the
response queue (R137, R147, R148, R150, R151, R162). -/

namespace Sys2Proof.Machine

section
variable (s : State)

/-! ### What is owed, and which comes first (R147, R151) -/

theorem masked_iff (kind : NoticeKind) : (!s.masked kind) = true ↔ s.setting (13 + kind.code) ≠ 1 := by
  simp [State.masked]

/-- R147, R149, R150: what makes each item owed. -/
theorem owes_iff (item : OwedItem) : s.owes item = true ↔ match item with
    | .fault => s.setting 17 ≠ 1 ∧ s.notices.fault ≠ s.notices.annFault
    | .source => s.setting 16 ≠ 1 ∧ s.timer.mode ≠ s.notices.annSource
    | .interval => s.notices.intervalOwed ≠ none
    | .port p => s.setting 14 ≠ 1 ∧ (s.port p).link ≠ Table.read .disabled s.notices.annPort p
    | .pdu i => s.setting 15 ≠ 1 ∧ (s.presenceAt i).state ≠ Table.read .absent s.notices.annPresence i
    | .curtail slot => ∃ e, s.entryAt slot = some e ∧ e.resultOwed = true
    | .tenant x => s.setting 13 ≠ 1 ∧ s.compared x ≠ Table.read TenantCompared.clear s.notices.annTenant x := by
  cases item with
  | fault | source | port | pdu | tenant =>
    simp only [State.owes, Bool.and_eq_true, masked_iff, decide_eq_true_eq]
    exact Iff.rfl
  | interval =>
    simp only [State.owes, Option.isSome_iff_ne_none]
  | curtail slot =>
    simp only [State.owes]
    cases s.entryAt slot <;> simp

theorem firstOwed_some {item : OwedItem} {before after : List OwedItem} (horder : s.fillOrder = before ++ item :: after)
    (hbefore : ∀ x ∈ before, s.owes x = false) (h : s.owes item = true) : s.firstOwed = some item := by
  unfold State.firstOwed
  rw [horder, List.find?_append, List.find?_eq_none.mpr fun x hx => by rw [hbefore x hx]; exact Bool.false_ne_true,
    Option.none_or, List.find?_cons_of_pos h]

theorem firstOwed_none (h : ∀ x ∈ s.fillOrder, s.owes x = false) : s.firstOwed = none :=
  List.find?_eq_none.mpr fun x hx => by rw [h x hx]; exact Bool.false_ne_true

/-! ### What queuing settles (R137, R148) -/

/-- R137, R150: an entry handed back is removed when DONE and else keeps no debt. -/
theorem handBack_spec {slot : Nat} {e : CurtailEntry} (he : s.entryAt slot = some e) :
    (∀ n, (s.handBack slot).entryAt n = if n = slot then
        (if e.stage = .done then none else some { e with resultOwed := false }) else s.entryAt n)
      ∧ (s.handBack slot).curtail = { s.curtail with
          slots := (s.handBack slot).curtail.slots, owed := s.curtail.owed.filter (fun m => decide (m ≠ slot)) } := by
  unfold State.handBack
  rw [he]
  dsimp only
  by_cases hdone : e.stage = .done
  · rw [if_pos hdone]
    refine ⟨fun n => ?_, removeEntry_curtail s slot⟩
    rw [entryAt_removeEntry, if_pos hdone]
  · rw [if_neg hdone]
    refine ⟨fun n => ?_, rfl⟩
    rw [if_neg hdone]
    exact entryAt_putEntry s slot _ n

/-- R148: queuing sets the copy of what it reports, and no other. -/
theorem settle_announced (item : OwedItem) :
    (s.settle item).notices.annFault = (if item = .fault then s.notices.fault else s.notices.annFault)
      ∧ (s.settle item).notices.annSource = (if item = .source then s.timer.mode else s.notices.annSource)
      ∧ (s.settle item).notices.intervalOwed = (if item = .interval then none else s.notices.intervalOwed)
      ∧ (∀ p, Table.read .disabled (s.settle item).notices.annPort p =
          if item = .port p then (s.port p).link else Table.read .disabled s.notices.annPort p)
      ∧ (∀ i, Table.read .absent (s.settle item).notices.annPresence i =
          if item = .pdu i then (s.presenceAt i).state else Table.read .absent s.notices.annPresence i)
      ∧ (∀ x, Table.read TenantCompared.clear (s.settle item).notices.annTenant x =
          if item = .tenant x then s.compared x else Table.read TenantCompared.clear s.notices.annTenant x)
      ∧ (s.settle item).notices.fault = s.notices.fault := by
  cases item with
  | fault | source | interval => simp [State.settle]
  | port q =>
    simp only [State.settle, reduceCtorEq, if_false, OwedItem.port.injEq]
    refine ⟨rfl, rfl, rfl, fun p => ?_, fun i => rfl, fun x => rfl, rfl⟩
    rw [State.setNotices_notices, Table.read_write]
    by_cases h : p = q
    · rw [if_pos h, if_pos h.symm, h]
    · rw [if_neg h, if_neg (Ne.symm h)]
  | pdu j =>
    simp only [State.settle, reduceCtorEq, if_false, OwedItem.pdu.injEq]
    refine ⟨rfl, rfl, rfl, fun p => rfl, fun i => ?_, fun x => rfl, rfl⟩
    rw [State.setNotices_notices, Table.read_write]
    by_cases h : i = j
    · rw [if_pos h, if_pos h.symm, h]
    · rw [if_neg h, if_neg (Ne.symm h)]
  | tenant y =>
    simp only [State.settle, reduceCtorEq, if_false, OwedItem.tenant.injEq]
    refine ⟨rfl, rfl, rfl, fun p => rfl, fun i => rfl, fun x => ?_, rfl⟩
    rw [State.setNotices_notices, Table.read_write]
    by_cases h : x = y
    · rw [if_pos h, if_pos h.symm, h]
    · rw [if_neg h, if_neg (Ne.symm h)]
  | curtail slot =>
    have hnotices : (s.settle (.curtail slot)).notices = s.notices := same_handBack s slot .notices (by decide)
    rw [hnotices]
    simp

theorem settle_curtail {item : OwedItem} (h : ∀ slot, item ≠ .curtail slot) : (s.settle item).curtail = s.curtail := by
  cases item with
  | curtail slot => exact absurd rfl (h slot)
  | fault | source | interval | port | pdu | tenant => rfl

/-- R151: the state after the notice `n` of `item` has taken its place, before the choices. -/
def State.queued (s : State) (item : OwedItem) (n : Notice) : State :=
  (s.settle item).setNotices { (s.settle item).notices with queue := s.notices.queue ++ [n] }

theorem queued_spec (item : OwedItem) (n : Notice) :
    (s.queued item n).notices = { (s.settle item).notices with queue := s.notices.queue ++ [n] }
      ∧ (s.queued item n).curtail = (s.settle item).curtail ∧ SameOutside [.notices, .curtail] s (s.queued item n) :=
  ⟨rfl, rfl, (same_settle s item).trans (SameOutside.mono (same_setNotices _ _) (by decide))⟩

/-! ### The two commands -/

theorem exec_noticeQueuing {item : OwedItem} {n : Notice} (hroom : s.notices.queue.length < 8)
    (hload : s.mgmt.imageState ≠ .loading) (hitem : s.firstOwed = some item) (hnotice : s.noticeOf item = some n) :
    exec .noticeQueuing s = .next (s.queued item n).arbitrate := by
  change execNoticeQueuing s = _
  simp only [execNoticeQueuing, hitem, hnotice]
  exact if_pos ⟨hroom, hload⟩

theorem exec_noticeQueuing_idle (h : 8 ≤ s.notices.queue.length ∨ s.mgmt.imageState = .loading ∨ s.firstOwed = none) :
    exec .noticeQueuing s = .next s := by
  change execNoticeQueuing s = _
  unfold execNoticeQueuing
  split
  · next hroom =>
    obtain h | h | h := h
    · omega
    · exact absurd h hroom.2
    · rw [h]
  · rfl

/-- R148, R149, R150: an owed item has a notice. -/
theorem noticeOf_owed {item : OwedItem} (h : s.owes item = true) : ∃ n, s.noticeOf item = some n := by
  cases item with
  | interval => exact Option.isSome_iff_exists.mp (by rw [State.noticeOf, Option.isSome_map]; exact h)
  | curtail slot =>
    obtain ⟨e, he, _⟩ := (owes_iff s (.curtail slot)).mp h
    exact ⟨_, by rw [State.noticeOf, he]; rfl⟩
  | fault | source | port | pdu | tenant => exact ⟨_, rfl⟩

theorem exec_keptResponseOffer {r : Response} {rest : List Response} (hkept : s.mgmt.kept = r :: rest)
    (hroom : s.uplink.responses.length < 4) : exec .keptResponseOffer s =
      .next ((s.setMgmt { s.mgmt with kept := rest }).setUplink
        { s.uplink with responses := s.uplink.responses ++ [r] }).arbitrate := by
  change execKeptResponseOffer s = _
  simp only [execKeptResponseOffer, hkept]
  exact if_pos hroom

theorem exec_keptResponseOffer_idle (h : s.mgmt.kept = [] ∨ 4 ≤ s.uplink.responses.length) :
    exec .keptResponseOffer s = .next s := by
  change execKeptResponseOffer s = _
  unfold execKeptResponseOffer
  cases hkept : s.mgmt.kept with
  | nil => rfl
  | cons r rest => exact if_neg (by rw [hkept] at h; simp only [reduceCtorEq, false_or] at h; omega)

end

end Sys2Proof.Machine

open Sys2Proof Sys2Proof.Machine

/-- Settles O39: the first owed item of the fill order is queued and settled, item by item. -/
theorem waitingNoticesAndResponsesTakeAPlace : Obligations.WaitingNoticesAndResponsesTakeAPlace := by
  intro s compared order owed reports
  have howed : ∀ item, s.owes item = true ↔ owed item := owes_iff s
  have hnot : ∀ item, ¬ owed item → s.owes item = false := fun item h => Bool.eq_false_iff.mpr fun k => h ((howed item).mp k)
  have horderEq : s.fillOrder = order := rfl
  refine ⟨fun before item after hroom hload horder hbefore hitem => ?queue, fun h => ?idle, fun r rest hkept hroom => ?offer,
    fun h => exec_keptResponseOffer_idle s h⟩
  case queue =>
    obtain ⟨n, hn⟩ := noticeOf_owed s ((howed item).mpr hitem)
    have hfirst := firstOwed_some s (horderEq.trans horder) (fun x hx => hnot x (hbefore x hx)) ((howed item).mpr hitem)
    have hexec := exec_noticeQueuing s hroom hload hfirst hn
    have hreports : reports item n := by
      cases item with
      | interval =>
        obtain ⟨⟨number, generation, switched⟩, hw⟩ := Option.ne_none_iff_exists'.mp hitem
        rw [State.noticeOf, hw] at hn
        exact ⟨number, generation, switched, hw, (Option.some.inj hn).symm⟩
      | curtail slot =>
        obtain ⟨e, he, _⟩ := hitem
        rw [State.noticeOf, he] at hn
        exact ⟨e, he, (Option.some.inj hn).symm⟩
      | fault | source | port | pdu | tenant => exact (Option.some.inj hn).symm
    obtain ⟨hfault, hsource, hinterval, hport, hpdu, htenant, hheld⟩ := settle_announced s item
    obtain ⟨hnotices, hcurtail, hsame⟩ := queued_spec s item n
    generalize s.queued item n = q at *
    refine ⟨n, _, hexec, hreports, ?_⟩
    rw [arbitrate_notices, arbitrate_curtail, hnotices, hcurtail]
    refine ⟨rfl, hfault, hsource, hinterval, hport, hpdu, htenant, hheld, fun slot hslot => ?_,
      settle_curtail s, hsame.comp (same_arbitrate _) (by decide) (by decide)⟩
    subst hslot
    obtain ⟨e, he, _⟩ := hitem
    obtain ⟨hentry, hhanded⟩ := handBack_spec s he
    have hat : q.arbitrate.curtail = (s.handBack slot).curtail := (arbitrate_curtail q).trans hcurtail
    change (s.handBack slot).curtail.owed = _ ∧ _ ∧ _ ∧ (s.handBack slot).curtail.due = _
      ∧ (s.handBack slot).curtail.records = _ ∧ (s.handBack slot).curtail.creation = _
      ∧ (s.handBack slot).curtail.tagCounter = _
    refine ⟨?_, fun f hf => ?_, fun m hm => ?_, ?_, ?_, ?_, ?_⟩
    · rw [hhanded]
    · rw [entryAt_congr hat, hentry, if_pos rfl, Option.some.inj (he.symm.trans hf)]
    · rw [entryAt_congr hat, hentry, if_neg hm]
    · rw [hhanded]
    · rw [hhanded]
    · rw [hhanded]
    · rw [hhanded]
  case idle =>
    exact exec_noticeQueuing_idle s (h.imp_right (Or.imp_right fun h => firstOwed_none s fun x hx => hnot x (h x hx)))
  case offer =>
    have hsame : SameOutside [.mgmt, .uplink] s ((s.setMgmt { s.mgmt with kept := rest }).setUplink
        { s.uplink with responses := s.uplink.responses ++ [r] }) :=
      (same_setMgmt s _).comp (same_setUplink _ _ rfl) (by decide) (by decide)
    refine ⟨_, exec_keptResponseOffer s hkept hroom, rfl, ?_, hsame.comp (same_arbitrate _) (by decide) (by decide)⟩
    rw [core_uplink_arbitrate]
    rfl

end

