-- ==== Sys2Proof/Proofs/GeneralTests.lean ====
section
/-! PROOF. The general tests of a request, in order, whatever command takes it (R171, log 5). -/

namespace Sys2Proof.Machine

section
variable {s : State} {r : Request}

/-- R171: the four tests, in the words of the statements. -/
theorem generalTest_rows :
    (s.mgmt.imageState = .loading ∧ r.code ≠ 0x0A#8 → s.generalTest r = some .busy)
      ∧ (¬ (s.mgmt.imageState = .loading ∧ r.code ≠ 0x0A#8) → requestFits r.code r.data = false →
        s.generalTest r = some .badRequest)
      ∧ (¬ (s.mgmt.imageState = .loading ∧ r.code ≠ 0x0A#8) → ¬ requestFits r.code r.data = false →
        isWrite r.code ∧ r.origin ≠ .uplink ∧ s.chainWritePermit = false → s.generalTest r = some .locked)
      ∧ (¬ (s.mgmt.imageState = .loading ∧ r.code ≠ 0x0A#8) → ¬ requestFits r.code r.data = false →
        ¬ (isWrite r.code ∧ r.origin ≠ .uplink ∧ s.chainWritePermit = false) → isWrite r.code →
        s.mgmt.imageState = .saving → s.generalTest r = some .busy) := by
  have hfits : (!(codeKnown r.code && dataFits r.code r.data)) = true ↔ requestFits r.code r.data = false := by
    rw [requestFits_eq, Bool.not_eq_true']
  have hlocked : (writeType r.code = true ∧ r.origin ≠ .uplink ∧ (!s.chainWritePermit) = true)
      ↔ (isWrite r.code ∧ r.origin ≠ .uplink ∧ s.chainWritePermit = false) := by
    rw [isWrite_iff, Bool.not_eq_true']
  unfold State.generalTest
  refine ⟨fun hload => if_pos hload, fun hload hbad => ?_, fun hload hbad hlock => ?_, fun hload hbad hlock hwrite hsave => ?_⟩
  · exact (if_neg hload).trans (if_pos (hfits.mpr hbad))
  · exact (if_neg hload).trans ((if_neg fun h => hbad (hfits.mp h)).trans (if_pos (hlocked.mpr hlock)))
  · exact (if_neg hload).trans ((if_neg fun h => hbad (hfits.mp h)).trans ((if_neg fun h => hlock (hlocked.mp h)).trans
      (if_pos ⟨(isWrite_iff _).mp hwrite, hsave⟩)))

/-- R171: a request that a general test answers is taken and answered, with no data and no other effect. -/
theorem takesAndAnswers_generalTest {c : Instr} {row : RequestRow} {status : Status} (hc : c.takes = some row)
    (h : Heads s row r) (htest : s.generalTest r = some status) : TakesAndAnswers c s r status [] [.now]
      (fun b => (∀ elapsed, c ≠ .writeEpochSource elapsed) → b.now = s.now) := by
  obtain ⟨work, hexec⟩ := exec_request hc
  obtain ⟨⟨hcurrent, _, _⟩, _, _⟩ := id h
  have hheads : Heads (s.elapse (timeBefore c)) row r := h
  have hanswer : (s.elapse (timeBefore c)).popRequest.generalTest r = some status := htest
  refine takesAndAnswers_of (s.elapse (timeBefore c)).popRequest ?_
    ((same_elapse s _).comp (same_popRequest _) (by decide) (by decide)) rfl fun hother => ?_
  · rw [hexec s fun _ => hcurrent, onRequest_heads hheads, State.execute, hanswer]
  · have htime : timeBefore c = 0 := by
      cases c with
      | writeEpochSource elapsed => exact absurd rfl (hother elapsed)
      | _ => rfl
    change s.now + timeBefore c = s.now
    rw [htime]
    rfl

end

end Sys2Proof.Machine

open Sys2Proof Sys2Proof.Machine

/-- Settles O40: each row is the general test that answers. -/
theorem generalTestsAnswerInOrder : Obligations.GeneralTestsAnswerInOrder := by
  intro c row s r hc hheads refuse loading bad locked
  obtain ⟨hbusy, hbad, hlocked, hsaving⟩ := generalTest_rows (s := s) (r := r)
  exact ⟨fun h => takesAndAnswers_generalTest hc hheads (hbusy h),
    fun h1 h2 => takesAndAnswers_generalTest hc hheads (hbad h1 h2),
    fun h1 h2 h3 => takesAndAnswers_generalTest hc hheads (hlocked h1 h2 h3),
    fun h1 h2 h3 h4 h5 => takesAndAnswers_generalTest hc hheads (hsaving h1 h2 h3 h4 h5)⟩

end

