-- ==== Sys2Proof/Proofs/ReadEntry.lean ====
section
/-! PROOF. READ_ENTRY: its own tests, one copy per event, and the answer after the last (R172, R190, R191, logs 6, 10, 17, 29). -/

namespace Sys2Proof.Machine

/-! ### One copy (R172, R191) -/

section
variable (s : State) (table i : Nat)

theorem replicate_zero (n : Nat) : beBytes n 0 = List.replicate n 0x00#8 := by
  induction n with
  | zero => rfl
  | succ n ih =>
    rw [beBytes, Nat.zero_div, ih, List.replicate_succ']

/-- R190: an entry under status OK. -/
theorem okStatus_append (l : List Byte) : beBytes 1 Status.ok.code ++ l = 0x00#8 :: l := rfl

/-- What `Copied` says of the state it leaves is of its notice unit and its free values. -/
theorem Copied.congr {s b c : State} {table i : Nat} {bytes : List Byte} (h : Copied s b table i bytes)
    (hnotices : c.notices = b.notices) (hfree : c.freeCount = b.freeCount) : Copied s c table i bytes := by
  unfold Copied at h ⊢
  rw [hnotices, hfree]
  exact h

theorem Copied.bad {s b : State} {table i : Nat} {bytes : List Byte} {loc : Location} (hbad : s.badEntry table i = some loc)
    (hbytes : bytes = 0x08#8 :: List.replicate (tableEntryLength table) 0x00#8)
    (hnotices : b.notices = s.noticesWithFault .tableParity loc) (hfree : b.freeCount = s.freeCount) :
    Copied s b table i bytes := by
  unfold Copied
  rw [hbad]
  exact ⟨hbytes, hnotices, hfree⟩

theorem Copied.good {s b : State} {table i : Nat} {bytes : List Byte} (hbad : s.badEntry table i = none)
    (hbytes : bytes = 0x00#8 :: s.entryBytes table i) (hnotices : b.notices = s.notices)
    (hfree : b.freeCount = (if table = 5 ∧ (s.liveAt i).lastEpoch = none then s.freeCount + 1 else s.freeCount)) :
    Copied s b table i bytes := by
  unfold Copied
  rw [hbad]
  exact ⟨hbytes, hnotices, hfree⟩

/-- A copy of an item with parity, as `copyEntry` takes it. -/
theorem copied_stored {α : Type} {item : Stored α} {loc : Location} {bytes : α → List Byte} {n : Nat}
    (hbad : s.badEntry table i = if item.parityGood then none else some loc)
    (hlength : tableEntryLength table = n) (hbytes : s.entryBytes table i = bytes item.content) (htable : table ≠ 5) :
    Copied s (s.copyStored item loc bytes n).1 table i (s.copyStored item loc bytes n).2 := by
  unfold State.copyStored
  cases hgood : item.parityGood with
  | true =>
    rw [hgood, if_pos rfl] at hbad
    rw [if_pos rfl]
    exact .good hbad (by rw [hbytes, okStatus_append]) rfl (if_neg fun h => htable h.1).symm
  | false =>
    rw [hgood, if_neg Bool.false_ne_true] at hbad
    rw [if_neg Bool.false_ne_true]
    refine .bad hbad (by rw [hlength, ← replicate_zero]; rfl) ?_ ?_
    · rw [recordFault_eq]; rfl
    · exact same_recordFault s _ _ .freeCount (by decide)

/-- A copy of an entry without parity. -/
theorem copied_plain {bytes : List Byte} (hbad : s.badEntry table i = none) (hbytes : s.entryBytes table i = bytes)
    (htable : table ≠ 5) : Copied s s table i (beBytes 1 Status.ok.code ++ bytes) :=
  .good hbad (by rw [hbytes, okStatus_append]) rfl (if_neg fun h => htable h.1).symm

/-- R172: each table's copy is the entry as it stands, or PARITY and zeros. -/
theorem copied_copyEntry : Copied s (s.copyEntry table i).1 table i (s.copyEntry table i).2 := by
  match table with
  | 0 => exact copied_plain s 0 i rfl (settingLayout_eq _) (by decide)
  | 1 => exact copied_stored s 1 i rfl rfl (oatLayout_eq _) (by decide)
  | 2 => exact copied_stored s 2 i rfl rfl (ruleLayout_eq _) (by decide)
  | 3 => exact copied_stored s 3 i rfl rfl (contractLayout_eq _) (by decide)
  | 4 => exact copied_stored s 4 i rfl rfl (contractLayout_eq _) (by decide)
  | 5 =>
    have hbytes : s.entryBytes 5 i = tenantBytes (Config.freeEpochField s.freeCount) (s.liveAt i) (s.curtailAt i) :=
      tenantLayout_eq _ _ _
    have hcopy : (s.copyEntry 5 i).2 = beBytes 1 Status.ok.code
        ++ tenantBytes (Config.freeEpochField s.freeCount) (s.liveAt i) (s.curtailAt i) := rfl
    have hstate : (s.copyEntry 5 i).1 = if (s.liveAt i).lastEpoch.isNone = true then s.setFreeCount (s.freeCount + 1) else s :=
      rfl
    rw [hcopy, hstate]
    by_cases hlast : (s.liveAt i).lastEpoch = none
    · rw [if_pos (Option.isNone_iff_eq_none.mpr hlast)]
      refine .good rfl ?_ (State.setFreeCount_notices ..) ?_
      · rw [hbytes, okStatus_append]
      · rw [if_pos ⟨rfl, hlast⟩]; rfl
    · rw [if_neg fun h => hlast (Option.isNone_iff_eq_none.mp h)]
      refine .good rfl ?_ rfl ?_
      · rw [hbytes, okStatus_append]
      · rw [if_neg fun h => hlast h.2]
  | 6 => exact copied_plain s 6 i rfl (summaryLayout_eq _) (by decide)
  | 7 => exact copied_plain s 7 i rfl (curtailLayout_eq _) (by decide)
  | 8 => exact copied_plain s 8 i rfl (presenceLayout_eq _ _ _) (by decide)
  | n + 9 => exact copied_plain s (n + 9) i rfl (portLayout_eq _) (by omega)

end

/-! ### The next copy, and the answer after the last (R172, R190) -/

section
variable {s : State}

theorem copyNext_last {j : ReadJob} (h : j.count ≤ j.done + 1) : s.copyNext j =
    ((s.copyEntry j.table (j.first + j.done)).1.setMgmt
      { (s.copyEntry j.table (j.first + j.done)).1.mgmt with current := none }).respond j.origin
      { tag := j.tag, code := 0x01#8, status := .ok, data := layout [(1, j.table), (2, j.first), (1, j.count)]
          ++ j.copied ++ (s.copyEntry j.table (j.first + j.done)).2 } := by
  unfold State.copyNext
  refine (if_pos h).trans ?_
  simp only [layout_cons, layout_nil, List.append_nil, ← List.append_assoc]
  rw [ReadJob.reply, ← List.append_assoc]
  rfl

theorem copyNext_more {j : ReadJob} (h : j.done + 1 < j.count) : s.copyNext j =
    (s.copyEntry j.table (j.first + j.done)).1.setMgmt { (s.copyEntry j.table (j.first + j.done)).1.mgmt with
      current := some { j with done := j.done + 1, copied := j.copied ++ (s.copyEntry j.table (j.first + j.done)).2 } } :=
  if_neg (by omega)

theorem exec_readEntry_more {j : ReadJob} (h : s.mgmt.current = some j) :
    exec .readEntry s = .next (s.copyNext j).arbitrate := by
  change execReadEntry s = _
  unfold execReadEntry
  rw [h]

theorem exec_readEntry_taken {r : Request} (h : Taken s .readEntry r) :
    exec .readEntry s = .next (State.startRead r s.popRequest).arbitrate := by
  have hcurrent : s.mgmt.current = none := h.1.1.1
  change execReadEntry s = _
  unfold execReadEntry
  rw [hcurrent]
  exact onRequest_taken h _

theorem writeRow_ne_readEntry (data : List Byte) : writeRow data ≠ .readEntry := by
  unfold writeRow settingRow
  (repeat' split) <;> exact nofun

/-- R190: the request code of READ_ENTRY. -/
theorem code_of_readEntry {r : Request} (h : requestRow r = .readEntry) : r.code = 0x01#8 := by
  unfold requestRow at h
  split at h
  case h_1 hcode => exact BitVec.eq_of_toNat_eq hcode
  case h_2 => exact absurd h (writeRow_ne_readEntry _)
  case h_7 => split at h <;> cases h
  all_goals cases h

/-- R172: the job a READ_ENTRY's data names, before its first copy. -/
def readJob (r : Request) (table first count : Nat) : ReadJob :=
  { origin := r.origin, tag := r.tag, table := table, first := first, count := count, done := 0, copied := [] }

theorem startRead_eq {u : State} {r : Request} {tableByte hi lo countByte : Byte} (hdata : r.data = [tableByte, hi, lo, countByte]) :
    State.startRead r u = if 9 < tableByte.toNat then u.answer r .badTable []
      else if countByte.toNat = 0 ∨ 8 < countByte.toNat then u.answer r .badRequest []
      else if !rangeFits tableByte.toNat (hi.toNat * 256 + lo.toNat) countByte.toNat then u.answer r .badIndex []
      else u.copyNext (readJob r tableByte.toNat (hi.toNat * 256 + lo.toNat) countByte.toNat) := by
  have htable : byteAt r.data 0 = tableByte.toNat := by rw [hdata]; rfl
  have hfirst : half r.data 1 = hi.toNat * 256 + lo.toNat := by rw [hdata, ← beNat_pair]; rfl
  have hcount : byteAt r.data 3 = countByte.toNat := by rw [hdata]; rfl
  unfold State.startRead
  simp only [htable, hfirst, hcount]
  rfl

/-- R187: a number of two bytes is laid out as those bytes. -/
theorem beBytes_pair (hi lo : Byte) : beBytes 2 (hi.toNat * 256 + lo.toNat) = [hi, lo] := by
  have hhi := hi.isLt
  have hlo := lo.isLt
  have h1 : BitVec.ofNat 8 ((hi.toNat * 256 + lo.toNat) / 256) = hi := by
    apply BitVec.eq_of_toNat_eq
    rw [BitVec.toNat_ofNat]
    omega
  have h2 : BitVec.ofNat 8 (hi.toNat * 256 + lo.toNat) = lo := by
    apply BitVec.eq_of_toNat_eq
    rw [BitVec.toNat_ofNat]
    omega
  simp only [beBytes, h1, h2, List.nil_append, List.cons_append]

/-- R172: the first copy of a READ_ENTRY that goes on. -/
theorem copyNext_readJob_more {u : State} {r : Request} {table first count : Nat} (h : 2 ≤ count) :
    u.copyNext (readJob r table first count) = (u.copyEntry table first).1.setMgmt { (u.copyEntry table first).1.mgmt with
      current := some { origin := r.origin, tag := r.tag, table := table, first := first, count := count, done := 1,
                        copied := (u.copyEntry table first).2 } } := by
  rw [copyNext_more (by change 0 + 1 < count; omega)]
  simp only [readJob, List.nil_append, Nat.add_zero, Nat.zero_add]

/-- R172: the copy that ends a READ_ENTRY, with its answer laid out. -/
theorem copyNext_readJob_last {u : State} {r : Request} {tableByte hi lo countByte : Byte}
    (hdata : r.data = [tableByte, hi, lo, countByte]) (hcode : r.code = 0x01#8) (hcount : countByte.toNat = 1) :
    u.copyNext (readJob r tableByte.toNat (hi.toNat * 256 + lo.toNat) countByte.toNat) =
      ((u.copyEntry tableByte.toNat (hi.toNat * 256 + lo.toNat)).1.setMgmt
        { (u.copyEntry tableByte.toNat (hi.toNat * 256 + lo.toNat)).1.mgmt with current := none }).answer r .ok
          (r.data ++ (u.copyEntry tableByte.toNat (hi.toNat * 256 + lo.toNat)).2) := by
  have hlayout : layout [(1, tableByte.toNat), (2, hi.toNat * 256 + lo.toNat), (1, countByte.toNat)] = r.data := by
    rw [hdata, layout_cons, layout_cons, layout_cons, layout_nil, beBytes_byte, beBytes_byte, beBytes_pair]
    rfl
  rw [copyNext_last (by change countByte.toNat ≤ 0 + 1; omega)]
  unfold State.answer Request.answer
  rw [hcode, ← hlayout]
  simp only [readJob, List.append_nil, Nat.add_zero]

end

end Sys2Proof.Machine

open Sys2Proof Sys2Proof.Machine

/-- Settles O41: the tests answer in their order; a copy is the entry as it stands, and the last one's event answers. -/
theorem readEntryCopiesOneEntryPerEvent : Obligations.ReadEntryCopiesOneEntryPerEvent := by
  intro s
  refine ⟨fun r tableByte hi lo countByte h hdata => ?take, fun j hj => ⟨fun hmore => ?more, fun hlast => ?last⟩⟩
  case take =>
    intro table first count
    obtain ⟨⟨⟨hcurrent, _, _⟩, _, hrow⟩, _⟩ := id h
    have hexec := exec_readEntry_taken h
    rw [startRead_eq hdata] at hexec
    have hcopied := copied_copyEntry s.popRequest table first
    have hsame := same_copyEntry s.popRequest table first
    refine ⟨fun h9 => takesAndAnswers_unchanged ?_, fun h9 hcount => takesAndAnswers_unchanged ?_,
      fun h9 h1 h8 hrange => takesAndAnswers_unchanged ?_, fun h9 h1 hrange => ?_, fun h9 h2 h8 hrange => ?_⟩
    · rw [hexec, if_pos h9]
    · rw [hexec, if_neg (by omega), if_pos hcount]
    · rw [hexec, if_neg (by omega), if_neg (by omega), hrange, if_pos (by decide)]
    · rw [if_neg (by omega), if_neg (by omega), hrange, if_neg (by decide),
        copyNext_readJob_last hdata (code_of_readEntry hrow) h1] at hexec
      have hmgmt : (s.popRequest.copyEntry table first).1.mgmt = s.mgmt := hsame .mgmt (by decide)
      have hup : (s.popRequest.copyEntry table first).1.uplink.core = s.popRequest.uplink.core := hsame .uplink (by decide)
      change exec .readEntry s = .next (((s.popRequest.copyEntry table first).1.setMgmt
        { (s.popRequest.copyEntry table first).1.mgmt with current := none }).answer r .ok _).arbitrate at hexec
      have hfresh : { (s.popRequest.copyEntry table first).1.mgmt with current := none } = s.mgmt := by
        rw [hmgmt, ← hcurrent]
      rw [hfresh] at hexec
      have hframe : SameOutside [.uplink, .notices, .freeCount] s ((s.popRequest.copyEntry table first).1.setMgmt s.mgmt) := by
        have hcopy := (same_popRequest s).comp hsame (n := [.uplink, .notices, .freeCount]) (by decide) (by decide)
        intro b hb
        cases b with
        | mgmt => rfl
        | _ => exact hcopy _ hb
      exact ⟨_, takesAndAnswers_of _ hexec hframe hup (hcopied.congr rfl rfl)⟩
    · rw [if_neg (by omega), if_neg (by omega), hrange, if_neg (by decide),
        copyNext_readJob_more h2] at hexec
      have hmgmt : (s.popRequest.copyEntry table first).1.mgmt = s.mgmt := hsame .mgmt (by decide)
      have hup : (s.popRequest.copyEntry table first).1.uplink.core = s.popRequest.uplink.core := hsame .uplink (by decide)
      have hcopy := (same_popRequest s).comp hsame (n := [.uplink, .notices, .freeCount]) (by decide) (by decide)
      change exec .readEntry s = .next ((s.popRequest.copyEntry table first).1.setMgmt
        { (s.popRequest.copyEntry table first).1.mgmt with current := _ }).arbitrate at hexec
      generalize (s.popRequest.copyEntry table first).2 = bytes at *
      generalize (s.popRequest.copyEntry table first).1 = c at *
      refine ⟨bytes, _, hexec, hcopied.congr (arbitrate_notices _) (arbitrate_freeCount _), ?_, ?_, ?_⟩
      · rw [core_uplink_arbitrate]
        exact hup
      · rw [arbitrate_mgmt, ← hmgmt]
        rfl
      · exact ((SameOutside.mono hcopy (by decide)).trans (SameOutside.mono (same_setMgmt _ _) (by decide))).trans
          (SameOutside.mono (same_arbitrate _) (by decide))
  case more =>
    have hexec := exec_readEntry_more hj
    rw [copyNext_more hmore] at hexec
    have hcopied := copied_copyEntry s j.table (j.first + j.done)
    have hsame := same_copyEntry s j.table (j.first + j.done)
    have hmgmt : (s.copyEntry j.table (j.first + j.done)).1.mgmt = s.mgmt := hsame .mgmt (by decide)
    generalize (s.copyEntry j.table (j.first + j.done)).2 = bytes at *
    generalize (s.copyEntry j.table (j.first + j.done)).1 = c at *
    refine ⟨bytes, _, hexec, hcopied.congr (arbitrate_notices _) (arbitrate_freeCount _), ?_, ?_⟩
    · rw [arbitrate_mgmt, ← hmgmt]
      rfl
    · exact ((SameOutside.mono hsame (by decide)).trans (SameOutside.mono (same_setMgmt _ _) (by decide))).trans
        (SameOutside.mono (same_arbitrate _) (by decide))
  case last =>
    have hexec := exec_readEntry_more hj
    rw [copyNext_last hlast] at hexec
    have hcopied := copied_copyEntry s j.table (j.first + j.done)
    have hsame := same_copyEntry s j.table (j.first + j.done)
    have hmgmt : (s.copyEntry j.table (j.first + j.done)).1.mgmt = s.mgmt := hsame .mgmt (by decide)
    generalize (s.copyEntry j.table (j.first + j.done)).2 = bytes at *
    generalize (s.copyEntry j.table (j.first + j.done)).1 = c at *
    obtain ⟨hanswered, hframe⟩ := respond_arbitrate (c.setMgmt { c.mgmt with current := none }) j.origin
      { tag := j.tag, code := 0x01#8, status := .ok,
        data := layout [(1, j.table), (2, j.first), (1, j.count)] ++ j.copied ++ bytes }
    refine ⟨bytes, c.setMgmt { c.mgmt with current := none }, _, hexec,
      hcopied.congr (State.setMgmt_notices ..) (State.setMgmt_freeCount ..), ?_, ?_, hanswered, hframe⟩
    · rw [← hmgmt]
      rfl
    · exact (SameOutside.mono hsame (by decide)).trans (SameOutside.mono (same_setMgmt _ _) (by decide))

end

