-- ==== Sys2Proof/Proofs/TableWrites.lean ====
section
/-! PROOF. Writes of the outlet assignment table, the rules and the staged contracts: their range tests, what they store and
what they carry back (R48, R49, R50, R105, R190, R191, logs 17 and 29). -/

namespace Sys2Proof.Machine

/-! ### The data of a write (R190, R191) -/

/-- A WRITE_ENTRY's row is its data's. -/
theorem writeRow_of_requestRow {r : Request} {row : RequestRow} (h : requestRow r = row)
    (hrow : row ∈ [RequestRow.writeEntryOat, .oatClear, .writeEntryRules, .writeEntryStaged, .writeEpochSource,
      .writeErrorThreshold, .writeNoticeMask, .writeSetting]) : writeRow r.data = row := by
  subst h
  unfold requestRow at hrow ⊢
  split at hrow
  case h_2 => rfl
  case h_7 => split at hrow <;> simp at hrow
  all_goals simp at hrow

section
variable (tableByte hi lo : Byte) (entry : List Byte)

theorem writtenIndex_cons : writtenIndex (tableByte :: hi :: lo :: entry) = hi.toNat * 256 + lo.toNat := beNat_pair hi lo

theorem writtenEntry_cons : writtenEntry (tableByte :: hi :: lo :: entry) = entry := rfl

/-- R173: the reply carries the entry back under the table and the index it was written at. -/
theorem writeReply_eq (bytes : List Byte) :
    writeReply tableByte.toNat (hi.toNat * 256 + lo.toNat) bytes = [tableByte, hi, lo] ++ bytes := by
  rw [writeReply, beBytes_byte, beBytes_pair]
  rfl

end

/-! ### The range tests (R48, R50, R103, R105) -/

theorem feedOfCode_byte (feed : Byte) : feedOfCode feed.toNat =
    if feed.toNat ≤ 1 then some (if feed = 0x00#8 then .a else .b) else none := by
  revert feed
  decide

theorem feedCode_byte : ∀ feed : Byte, feed.toNat ≤ 1 → feedCode (if feed = 0x00#8 then Feed.a else Feed.b) = feed.toNat := by
  decide

theorem enabled_byte : ∀ b : Byte, decide (b.toNat ≠ 0) = decide (b ≠ 0x00#8) := by decide

theorem checkOatEntry_raw_eq (e : OatEntry) : checkOatEntry (OatEntry.raw e) = if e.inRange = true then some e else none := by
  split
  · next h => exact checkOatEntry_raw h
  · next h =>
    simp only [checkOatEntry, OatEntry.raw, feedOfCode_feedCode]
    refine if_neg fun hall => h ?_
    obtain ⟨htenant, hrank, hlimit⟩ := hall
    unfold OatEntry.inRange
    cases hr : e.shedRank <;> cases hl : e.outletLimit <;> simp_all

theorem checkRule_raw_eq (rule : Rule) : checkRule (Rule.raw rule) = if rule.inRange = true then some rule else none := by
  split
  · next h => exact checkRule_raw h
  · next h =>
    simp only [checkRule, Rule.raw, feedOfCode_feedCode]
    refine if_neg fun hall => h ?_
    simpa [Rule.inRange, and_assoc] using hall

/-- R48: the value test of a present entry as its fields give it. -/
theorem checkOatEntry_byte {feed : Byte} (e : OatEntry) (he : e.feed = if feed = 0x00#8 then .a else .b) :
    checkOatEntry { OatEntry.raw e with feed := feed.toNat } = if feed.toNat ≤ 1 ∧ e.inRange = true then some e else none := by
  by_cases hfeed : feed.toNat ≤ 1
  · have hcode : feedCode e.feed = feed.toNat := by
      rw [he]
      exact feedCode_byte feed hfeed
    rw [← hcode]
    refine (checkOatEntry_raw_eq e).trans (if_congr ?_ rfl rfl)
    rw [hcode]
    exact ⟨fun h => ⟨hfeed, h⟩, fun h => h.2⟩
  · have hnone : feedOfCode feed.toNat = none := by rw [feedOfCode_byte, if_neg hfeed]
    rw [if_neg fun h => hfeed h.1]
    simp only [checkOatEntry, hnone]

/-- R50: the value test of a rule as its fields give it. -/
theorem checkRule_byte {feed : Byte} (rule : Rule) (hrule : rule.feed = if feed = 0x00#8 then .a else .b) :
    checkRule { Rule.raw rule with feed := feed.toNat } = if feed.toNat ≤ 1 ∧ rule.inRange = true then some rule else none := by
  by_cases hfeed : feed.toNat ≤ 1
  · have hcode : feedCode rule.feed = feed.toNat := by
      rw [hrule]
      exact feedCode_byte feed hfeed
    rw [← hcode]
    refine (checkRule_raw_eq rule).trans (if_congr ?_ rfl rfl)
    rw [hcode]
    exact ⟨fun h => ⟨hfeed, h⟩, fun h => h.2⟩
  · have hnone : feedOfCode feed.toNat = none := by rw [feedOfCode_byte, if_neg hfeed]
    rw [if_neg fun h => hfeed h.1]
    simp only [checkRule, hnone]

/-! ### A contract's bytes (R105, R191) -/

theorem beNat_append (l : List Byte) (b : Byte) : beNat (l ++ [b]) = beNat l * 256 + b.toNat := List.foldl_append ..

theorem beNat_beBytes {n v : Nat} (h : v < 256 ^ n) : beNat (beBytes n v) = v := by
  induction n generalizing v with
  | zero => simp at h; simp [beBytes, beNat, h]
  | succ n ih =>
    rw [beBytes, beNat_append, ih (by rw [Nat.pow_succ] at h; omega), BitVec.toNat_ofNat]
    omega

theorem beNat_lt (l : List Byte) : beNat l < 256 ^ l.length := by
  induction l using List.reverseRecOn with
  | nil => decide
  | append_singleton l b ih =>
    have hb := b.isLt
    rw [beNat_append, List.length_append, List.length_singleton, Nat.pow_succ]
    omega

theorem field_le (entry : List Byte) (offset : Nat) : field entry offset 4 ≤ 4294967295 := by
  have hlt := beNat_lt ((entry.drop offset).take 4)
  have hle : 256 ^ ((entry.drop offset).take 4).length ≤ 256 ^ 4 :=
    Nat.pow_le_pow_right (by decide) (List.length_take_le ..)
  unfold field
  omega

theorem byteAt_le (entry : List Byte) (offset : Nat) : byteAt entry offset ≤ 255 := by
  have := (entry.getD offset 0).isLt
  unfold byteAt
  omega

section
variable {n v off : Nat} {l : List Byte}

theorem field_after {k : Nat} (h : n ≤ off) : field (beBytes n v ++ l) off k = field l (off - n) k := by
  unfold field
  rw [List.drop_append, length_beBytes, List.drop_eq_nil_of_le (by rw [length_beBytes]; exact h), List.nil_append]

theorem half_after (h : n ≤ off) : half (beBytes n v ++ l) off = half l (off - n) := by
  unfold half
  rw [List.getD_append_right _ _ _ _ (by rw [length_beBytes]; exact h),
    List.getD_append_right _ _ _ _ (by rw [length_beBytes]; omega), length_beBytes, Nat.sub_add_comm h]

theorem byteAt_after (h : n ≤ off) : byteAt (beBytes n v ++ l) off = byteAt l (off - n) := by
  unfold byteAt
  rw [List.getD_append_right _ _ _ _ (by rw [length_beBytes]; exact h), length_beBytes]

theorem field_here (h : v < 256 ^ n) : field (beBytes n v ++ l) 0 n = v := by
  unfold field
  rw [List.drop_zero, List.take_left' (length_beBytes n v), beNat_beBytes h]

theorem half_here (h : v ≤ 65535) : half (beBytes 2 v ++ l) 0 = v :=
  (by rfl : half (beBytes 2 v ++ l) 0 = beNat (beBytes 2 v)).trans (beNat_beBytes (by omega))

theorem byteAt_here (h : v ≤ 255) : byteAt (beBytes 1 v ++ l) 0 = v := by
  change (BitVec.ofNat 8 v).toNat = v
  rw [BitVec.toNat_ofNat]
  omega

theorem byteAt_last (h : v ≤ 255) : byteAt (beBytes 1 v) 0 = v := by
  rw [← List.append_nil (beBytes 1 v), byteAt_here h]

end

/-- R191: a contract laid out is read back field by field. -/
theorem parseContract_layout {c : Contract} (h : c.inRange = true) : parseContract (contractLayout c) = Contract.raw c := by
  simp only [Contract.inRange, Bool.and_eq_true, decide_eq_true_eq] at h
  obtain ⟨⟨⟨⟨⟨⟨⟨⟨hC, hT⟩, hY⟩, hB⟩, hR⟩, hF⟩, hQ1⟩, hQ⟩, hG⟩ := h
  have htop : wattTop = 16777215 := rfl
  have hvalid : boolCode c.valid ≤ 255 ∧ decide (boolCode c.valid ≠ 0) = c.valid := by cases c.valid <;> decide
  have hpolicy : policyCode c.policy ≤ 255 := by cases c.policy <;> decide
  rw [contractLayout_eq]
  unfold parseContract contractBytes Contract.raw
  simp (disch := omega) only [List.append_assoc, field_after, half_after, byteAt_after, field_here, half_here, byteAt_here,
    byteAt_last, hvalid, Nat.reduceSub]

theorem policyOfCode_isSome (n : Nat) : (policyOfCode n).isSome = true ↔ n ≤ 2 := by
  match n with
  | 0 | 1 | 2 => simp [policyOfCode]
  | n + 3 => simp [policyOfCode]

/-- R105: the value test of a staged contract, but for the ranges that its bytes cannot leave. -/
theorem checkContract_isSome (entry : List Byte) : (checkContract (parseContract entry)).isSome = true ↔
    (parseContract entry).committed ≤ wattTop ∧ (parseContract entry).tolerance ≤ 500
      ∧ (parseContract entry).hysteresis ≤ 500 ∧ (parseContract entry).refillCap ≤ wattTop
      ∧ (parseContract entry).feedCap ≤ wattTop ∧ 1 ≤ (parseContract entry).quiet
      ∧ (parseContract entry).grace ≤ 255 ∧ (parseContract entry).policy ≤ 2 := by
  have hB : (parseContract entry).burstCap ≤ 4294967295 := field_le entry 8
  have hQ : (parseContract entry).quiet ≤ 255 := byteAt_le entry 18
  rw [← policyOfCode_isSome]
  unfold checkContract
  cases hp : policyOfCode (parseContract entry).policy with
  | none => simp
  | some p =>
    dsimp only
    split
    · next h =>
      obtain ⟨hC, hT, hY, _, hR, hF, hQ1, _, hG⟩ := h
      exact iff_of_true rfl ⟨hC, hT, hY, hR, hF, hQ1, hG, rfl⟩
    · next h =>
      refine iff_of_false Bool.false_ne_true ?_
      rintro ⟨hC, hT, hY, hR, hF, hQ1, hG, _⟩
      exact h ⟨hC, hT, hY, hB, hR, hF, hQ1, hQ, hG⟩

/-! ### The commands (R48, R49, R50, R105) -/

section
variable {s : State} {r : Request}

/-- R48: what a present entry is read as. -/
theorem parseOatEntry_cons {flags tenant feed rank limitHi limitLo : Byte} (e : OatEntry)
    (he : e = { tenant := tenant.toNat, feed := if feed = 0x00#8 then .a else .b,
                shedRank := if flags.getLsbD 1 then some rank.toNat else none,
                outletLimit := if flags.getLsbD 2 then some (limitHi.toNat * 256 + limitLo.toNat) else none }) :
    parseOatEntry [flags, tenant, feed, rank, limitHi, limitLo] =
      if flags.getLsbD 0 then some { OatEntry.raw e with feed := feed.toNat } else none := by
  subst he
  rw [← beNat_pair limitHi limitLo]
  rfl

/-- R48, R49: a row that tests key and hold before its own work. -/
theorem keyTests {key : Nat} : ((!keyValid key) = true ↔ ¬ (key < 4096 ∧ key % 64 < 48))
    ∧ (s.popRequest.holdsOutlet key = true ↔ ∃ n e, n < 64 ∧ s.entryAt n = some e ∧ e.outlet = key) := by
  refine ⟨?_, holdsOutlet_iff s.popRequest key⟩
  unfold keyValid
  rw [Bool.not_eq_true', ← Bool.not_eq_true, Bool.and_eq_true, decide_eq_true_iff, decide_eq_true_iff]

/-- R48, R49: the slot stored and carried back. -/
theorem takesAndAnswers_storeSlot {c : Instr} {key : Nat} {content : Option OatEntry} {data : List Byte}
    (hexec : exec c s = .next ((s.popRequest.storeSlot key content).answer r .ok data).arbitrate) :
    TakesAndAnswers c s r .ok data [.oat] (fun b =>
      b.slotAt key = { content := content, parityGood := true } ∧ ∀ k, k ≠ key → b.slotAt k = s.slotAt k) := by
  have hslot : ∀ k, (s.popRequest.storeSlot key content).slotAt k = if k = key then fresh content else s.slotAt k :=
    fun k => Table.read_write ..
  refine takesAndAnswers_of _ hexec ((same_popRequest s).comp (same_setOat _ _) (by decide) (by decide)) rfl
    ⟨(hslot key).trans (if_pos rfl), fun k hk => (hslot k).trans (if_neg hk)⟩

end

end Sys2Proof.Machine

open Sys2Proof Sys2Proof.Machine

/-- Settles O42: key, hold and value are tested in that order; what passes is stored and carried back. -/
theorem oatWritesTestThenStore : Obligations.OatWritesTestThenStore := by
  intro s r hi lo flags tenant feed rank limitHi limitLo hdata key exists' held entry good stores refuses
  have hkey : writtenIndex r.data = key := by rw [hdata]; exact writtenIndex_cons ..
  obtain ⟨hexists, hheld⟩ := keyTests (s := s) (key := key)
  have hreply : ∀ content, writeReply tableOat key (oatBytes content) = [0x01#8, hi, lo] ++ oatLayout content := fun content => by
    rw [oatLayout_eq]
    exact writeReply_eq 0x01#8 hi lo _
  refine ⟨fun h => ?write, fun h => ?clear⟩
  case write =>
    have hexec : exec .writeEntryOat s = _ := onRequest_taken h State.writeOatRequest
    have hpresent : flags.getLsbD 0 = true := by
      have hrow := writeRow_of_requestRow h.1.2.2 (by decide)
      rw [hdata] at hrow
      cases hflag : flags.getLsbD 0 with
      | true => rfl
      | false =>
        have hclear : writeRow [0x01#8, hi, lo, flags, tenant, feed, rank, limitHi, limitLo]
            = if (true = true ∧ (!flags.getLsbD 0) = true) then .oatClear else .writeEntryOat := rfl
        rw [hclear, hflag] at hrow
        cases hrow
    have hcheck : (parseOatEntry (writtenEntry r.data)).bind checkOatEntry = if good then some entry else none := by
      rw [hdata, writtenEntry_cons, parseOatEntry_cons entry rfl, if_pos hpresent]
      exact checkOatEntry_byte entry rfl
    unfold State.writeOatRequest at hexec
    rw [hkey, hcheck] at hexec
    refine ⟨fun hno => takesAndAnswers_unchanged ?_, fun hin hheld' => takesAndAnswers_unchanged ?_,
      fun hin hfree hbad => takesAndAnswers_unchanged ?_, fun hin hfree hgood => ?_⟩
    · rw [hexec, if_pos (hexists.mpr hno)]
    · rw [hexec, if_neg fun h => hexists.mp h hin, if_pos (hheld.mpr hheld')]
    · rw [hexec, if_neg fun h => hexists.mp h hin, if_neg fun h => hfree (hheld.mp h), if_neg hbad]
    · rw [if_neg fun h => hexists.mp h hin, if_neg fun h => hfree (hheld.mp h), if_pos hgood] at hexec
      dsimp only at hexec
      rw [hreply] at hexec
      exact takesAndAnswers_storeSlot hexec
  case clear =>
    have hexec : exec .oatClear s = _ := onRequest_taken h State.clearOatRequest
    unfold State.clearOatRequest at hexec
    rw [hkey] at hexec
    refine ⟨fun hno => takesAndAnswers_unchanged ?_, fun hin hheld' => takesAndAnswers_unchanged ?_, fun hin hfree => ?_⟩
    · rw [hexec, if_pos (hexists.mpr hno)]
    · rw [hexec, if_neg fun h => hexists.mp h hin, if_pos (hheld.mpr hheld')]
    · rw [if_neg fun h => hexists.mp h hin, if_neg fun h => hfree (hheld.mp h), hreply] at hexec
      exact takesAndAnswers_storeSlot hexec

/-- Settles O43: index and value are tested in that order; what passes is stored whole and carried back. -/
theorem ruleAndStagedWritesTestThenStore : Obligations.RuleAndStagedWritesTestThenStore := by
  intro s r hi lo i
  refine ⟨fun enabled keyHi keyLo maskHi maskLo tenant feed h hdata => ?rule, fun entry h hdata => ?staged⟩
  case rule =>
    intro rule good
    have hindex : writtenIndex r.data = i := by rw [hdata]; exact writtenIndex_cons ..
    have hexec : exec .writeEntryRules s = _ := onRequest_taken h State.writeRuleRequest
    have hraw : parseRule (writtenEntry r.data) = { Rule.raw rule with feed := feed.toNat } := by
      rw [hdata, writtenEntry_cons]
      unfold parseRule
      change RawRule.mk (decide (enabled.toNat ≠ 0)) (beNat [keyHi, keyLo]) (beNat [maskHi, maskLo]) tenant.toNat feed.toNat = _
      rw [enabled_byte, beNat_pair, beNat_pair]
      rfl
    have hcheck : checkRule (parseRule (writtenEntry r.data)) = if good then some rule else none := by
      rw [hraw]
      exact checkRule_byte rule rfl
    unfold State.writeRuleRequest at hexec
    rw [hindex, hcheck] at hexec
    refine ⟨fun hout => takesAndAnswers_unchanged ?_, fun hin hbad => takesAndAnswers_unchanged ?_, fun hin hgood => ?_⟩
    · rw [hexec, if_pos hout]
    · rw [hexec, if_neg (by omega), if_neg hbad]
    · rw [if_neg (by omega), if_pos hgood] at hexec
      dsimp only at hexec
      rw [← ruleLayout_eq, show writeReply tableRules i (ruleLayout rule) = _ from writeReply_eq 0x02#8 hi lo _] at hexec
      have hrule : ∀ n, (s.popRequest.setRules (Table.write disabledRule s.popRequest.rules i (fresh rule))).ruleAt n =
          if n = i then fresh rule else s.ruleAt n := fun n => Table.read_write ..
      exact takesAndAnswers_of _ hexec ((same_popRequest s).comp (same_setRules _ _) (by decide) (by decide)) rfl
        ⟨(hrule i).trans (if_pos rfl), fun n hn => (hrule n).trans (if_neg hn)⟩
  case staged =>
    intro raw good
    have hindex : writtenIndex r.data = i := by rw [hdata]; exact writtenIndex_cons ..
    have hexec : exec .writeEntryStaged s = _ := onRequest_taken h State.writeStagedRequest
    have hraw : parseContract (writtenEntry r.data) = raw := by rw [hdata]; rfl
    have hgood : (checkContract raw).isSome = true ↔ good := checkContract_isSome entry
    unfold State.writeStagedRequest at hexec
    rw [hindex, hraw] at hexec
    refine ⟨fun hout => takesAndAnswers_unchanged ?_, fun h1 h127 hbad => takesAndAnswers_unchanged ?_,
      fun h => Option.isSome_iff_exists.mp (hgood.mpr h), fun c h1 h127 hc => ?_⟩
    · rw [hexec, if_pos hout]
    · have hnone : checkContract raw = none := by
        rw [← Option.not_isSome_iff_eq_none]
        exact fun h => hbad (hgood.mp h)
      rw [hexec, if_neg (by omega), hnone]
    · have hcheck : checkContract raw = some c := by
        obtain hc | ⟨hrange, hlayout⟩ := hc
        · exact hc
        · change checkContract (parseContract entry) = some c
          rw [hlayout, parseContract_layout hrange, checkContract_raw hrange]
      rw [if_neg (by omega), hcheck] at hexec
      dsimp only at hexec
      rw [← contractLayout_eq, show writeReply tableStaged i (contractLayout c) = _ from writeReply_eq 0x03#8 hi lo _] at hexec
      have hstaged : ∀ x, (s.popRequest.setContracts { s.popRequest.contracts with
          staged := Table.write emptyContract s.popRequest.contracts.staged i (fresh c) }).stagedAt x =
            if x = i then fresh c else s.stagedAt x := fun x => Table.read_write ..
      exact takesAndAnswers_of _ hexec ((same_popRequest s).comp (same_setContracts _ _) (by decide) (by decide)) rfl
        ⟨(hstaged i).trans (if_pos rfl), fun x hx => (hstaged x).trans (if_neg hx), rfl⟩

end

