-- ==== Sys2Proof/Proofs/SettingWrites.lean ====
section
/-! PROOF. Writes of the settings: the range each is moved into, and the effects of the error threshold, the notice masks and
the epoch source (R6, R20, R137, R153, R174, R175, log 25). -/

namespace Sys2Proof.Machine

/-! ### The data of a settings write (R174, R175, R190) -/

/-- The data of a WRITE_ENTRY of SETTINGS at the index `hi`, `lo`. -/
def settingData (hi lo b3 b2 b1 b0 : Byte) : List Byte := [0x00#8, hi, lo, b3, b2, b1, b0]

/-- R174: a value moved into the range of setting `i`. -/
def settingMoved (i raw : Nat) : Nat :=
  if i = 0 then min 255 raw else if i = 2 then min 3600 (max 60 raw) else if i = 3 then min 15 raw
  else if i = 4 then min 10 raw else if i = 5 then min 65535 (max 1 raw) else if i = 6 then min 15 (max 1 raw)
  else min 1 raw

theorem clampSetting_eq {i : Nat} (h : i ≤ 20) (raw : Nat) : clampSetting i raw = settingMoved i raw := by
  interval_cases i <;> simp [clampSetting, settingRanges, settingMoved]

section
variable (hi lo b3 b2 b1 b0 : Byte)

theorem beNat_quad : beNat [b3, b2, b1, b0] = ((b3.toNat * 256 + b2.toNat) * 256 + b1.toNat) * 256 + b0.toNat := by
  simp [beNat]

theorem writeRow_settingData : writeRow (settingData hi lo b3 b2 b1 b0) =
    settingRow (hi.toNat * 256 + lo.toNat) (((b3.toNat * 256 + b2.toNat) * 256 + b1.toNat) * 256 + b0.toNat) := by
  rw [← beNat_pair, ← beNat_quad]
  rfl

/-- R175: the work of a settings write. -/
theorem writeSettingWith_data (effect : Nat → Nat → Nat → State → State) (u : State) {r : Request}
    (hdata : r.data = settingData hi lo b3 b2 b1 b0) {i v : Nat} (hi' : i = hi.toNat * 256 + lo.toNat)
    (hv : v = settingMoved i (((b3.toNat * 256 + b2.toNat) * 256 + b1.toNat) * 256 + b0.toNat)) :
    State.writeSettingWith effect r u = if 20 < i then u.answer r .badIndex []
      else (effect i (u.setting i) v (u.storeSetting i v)).answer r .ok ([0x00#8, hi, lo] ++ layout [(4, v)]) := by
  have hindex : writtenIndex r.data = i := by rw [hdata, hi']; exact writtenIndex_cons ..
  have hfield : field (writtenEntry r.data) 0 4 = ((b3.toNat * 256 + b2.toNat) * 256 + b1.toNat) * 256 + b0.toNat := by
    rw [hdata, ← beNat_quad]; rfl
  have hreply : ∀ bytes, writeReply tableSettings i bytes = [0x00#8, hi, lo] ++ bytes := fun bytes => by
    rw [hi']; exact writeReply_eq 0x00#8 hi lo bytes
  unfold State.writeSettingWith
  simp only [hindex, hfield, hreply, ← settingLayout_eq]
  split
  · rfl
  · next hle => rw [clampSetting_eq (by omega), ← hv]

end

/-! ### A new error threshold (R20, log 25) -/

/-- R20: an UP port whose error count has reached the threshold. -/
def State.degradesAt (s : State) (p : Nat) : Bool :=
  decide ((s.port p).link = .up ∧ s.errorThreshold ≤ (s.port p).errorCount)

section
variable (s : State)

theorem testThreshold_spec (p : Nat) :
    (∀ q, (s.testThreshold p).port q =
        if q = p ∧ s.degradesAt p = true then { s.port p with link := .degraded } else s.port q)
      ∧ (s.testThreshold p).notices =
        (if s.degradesAt p = true then s.noticesWithFault .portDegraded (.port p) else s.notices)
      ∧ SameOutside [.links, .notices] s (s.testThreshold p) := by
  unfold State.testThreshold State.degradesAt
  simp only [decide_eq_true_eq]
  split
  · next h =>
    refine ⟨fun q => ?_, ?_, same_degrade s p⟩
    · rw [State.degrade, recordFault_eq]
      refine (port_putPort ..).trans ?_
      by_cases hq : q = p
      · rw [if_pos hq, if_pos ⟨hq, h⟩]
      · rw [if_neg hq, if_neg fun k => hq k.1]
    · rw [State.degrade, recordFault_eq]
      rfl
  · next h => exact ⟨fun q => (if_neg fun k => h k.2).symm, rfl, SameOutside.refl _ _⟩

/-- A second PORT_DEGRADED of one event leaves the first (R155). -/
theorem noticesWithFault_later {u : State} {l : Location} (hnotices : u.notices = s.noticesWithFault .portDegraded l)
    (htimer : u.timer = s.timer) (m : Location) :
    u.noticesWithFault .portDegraded m = s.noticesWithFault .portDegraded l := by
  refine Eq.trans ?_ (noticesWithFault_again s .portDegraded .portDegraded l m (Nat.le_refl _))
  simp only [State.noticesWithFault, State.setNotices_notices, State.setNotices_timer, hnotices, htimer]

/-- R20: the ports that reach the threshold, and the first of them, whose fault is recorded. -/
theorem testThresholds_spec (ps : List Nat) (hps : ps.Nodup) :
    (∀ q, (ps.foldl State.testThreshold s).port q =
        if q ∈ ps ∧ s.degradesAt q = true then { s.port q with link := .degraded } else s.port q)
      ∧ (∀ p, ps.find? s.degradesAt = some p →
        (ps.foldl State.testThreshold s).notices = s.noticesWithFault .portDegraded (.port p))
      ∧ (ps.find? s.degradesAt = none → (ps.foldl State.testThreshold s).notices = s.notices)
      ∧ SameOutside [.links, .notices] s (ps.foldl State.testThreshold s) := by
  induction ps generalizing s with
  | nil => exact ⟨fun q => (if_neg fun h => List.not_mem_nil h.1).symm, fun _ h => (by cases h), fun _ => rfl, SameOutside.refl _ _⟩
  | cons p rest ih =>
    obtain ⟨hp, hrest⟩ := List.nodup_cons.mp hps
    obtain ⟨hport, hnotices, hsame⟩ := testThreshold_spec s p
    obtain ⟨hportR, hsomeR, hnoneR, hsameR⟩ := ih (s.testThreshold p) hrest
    have hthreshold : (s.testThreshold p).errorThreshold = s.errorThreshold := by
      unfold State.errorThreshold State.setting
      rw [show (s.testThreshold p).settings = s.settings from hsame .settings (by decide)]
    have hdegrades : ∀ q, q ≠ p → (s.testThreshold p).degradesAt q = s.degradesAt q := fun q hq => by
      unfold State.degradesAt
      rw [hport, if_neg fun k => hq k.1, hthreshold]
    have hfind : rest.find? (s.testThreshold p).degradesAt = rest.find? s.degradesAt :=
      List.find?_congr fun q hq => hdegrades q (by rintro rfl; exact hp hq)
    rw [hfind] at hsomeR hnoneR
    rw [List.foldl_cons]
    refine ⟨fun q => ?_, fun q hq => ?_, fun h => ?_, hsame.trans hsameR⟩
    · rw [hportR]
      by_cases hqp : q = p
      · subst hqp
        rw [if_neg fun h => hp h.1, hport]
        simp
      · have hq : (s.testThreshold p).port q = s.port q := (hport q).trans (if_neg fun k => hqp k.1)
        rw [hdegrades q hqp, hq]
        simp [hqp]
    · rw [List.find?_cons] at hq
      cases hdegrade : s.degradesAt p with
      | true =>
        rw [hdegrade] at hq hnotices
        obtain rfl : p = q := Option.some.inj hq
        rw [if_pos rfl] at hnotices
        cases hlater : rest.find? s.degradesAt with
        | none => rw [hnoneR hlater, hnotices]
        | some m =>
          rw [hsomeR m hlater]
          exact noticesWithFault_later s hnotices (hsame .timer (by decide)) _
      | false =>
        rw [hdegrade] at hq hnotices
        rw [if_neg Bool.false_ne_true] at hnotices
        rw [hsomeR q hq]
        unfold State.noticesWithFault
        rw [hnotices, show (s.testThreshold p).timer = s.timer from hsame .timer (by decide)]
    · rw [List.find?_cons] at h
      cases hdegrade : s.degradesAt p with
      | true => rw [hdegrade] at h; cases h
      | false =>
        rw [hdegrade] at h hnotices
        rw [hnoneR h, hnotices, if_neg Bool.false_ne_true]

/-- R20: the first port of the test order. -/
theorem find?_ports_some {d : Nat → Bool} {p : Nat} (hp : p < 4) (hd : d p = true) (hbefore : ∀ q, q < p → d q = false) :
    [0, 1, 2, 3].find? d = some p :=
  List.find?_range_eq_some.mpr ⟨hd, List.mem_range.mpr hp, fun q hq => by rw [hbefore q hq]; rfl⟩

theorem setting_storeSetting {i v : Nat} (h : i < s.settings.length) : (s.popRequest.storeSetting i v).setting i = v := by
  change (s.settings.set i v).getD i 0 = v
  simp [h]

/-- R20: a port the written threshold takes to DEGRADED. -/
def State.writeDegrades (v p : Nat) : Prop := (s.port p).link = .up ∧ v ≤ (s.port p).errorCount

/-- R20, R175: what a write of the error threshold leaves. -/
theorem errorThresholdEffect_spec (hlength : s.settings.length = 21) {i v : Nat} (hi : i = 5) (old : Nat) :
    (∀ p, p < 4 → s.writeDegrades v p →
        (errorThresholdEffect i old v (s.popRequest.storeSetting i v)).port p = { s.port p with link := .degraded })
      ∧ (∀ p, p < 4 → ¬ s.writeDegrades v p → (errorThresholdEffect i old v (s.popRequest.storeSetting i v)).port p = s.port p)
      ∧ (∀ p, 4 ≤ p → (errorThresholdEffect i old v (s.popRequest.storeSetting i v)).port p = s.port p)
      ∧ (∀ p, p < 4 → s.writeDegrades v p → (∀ q, q < p → ¬ s.writeDegrades v q) →
          (errorThresholdEffect i old v (s.popRequest.storeSetting i v)).notices =
            s.noticesWithFault .portDegraded (.port p))
      ∧ ((∀ p, p < 4 → ¬ s.writeDegrades v p) →
          (errorThresholdEffect i old v (s.popRequest.storeSetting i v)).notices = s.notices)
      ∧ SameOutside [.links, .notices] (s.popRequest.storeSetting i v)
          (errorThresholdEffect i old v (s.popRequest.storeSetting i v)) := by
  subst hi
  obtain ⟨hport, hsome, hnone, hsame⟩ := testThresholds_spec (s.popRequest.storeSetting 5 v) [0, 1, 2, 3] (by decide)
  have hdegrades : ∀ p, (s.popRequest.storeSetting 5 v).degradesAt p = true ↔ s.writeDegrades v p := by
    intro p
    unfold State.degradesAt State.errorThreshold
    rw [setting_storeSetting s (by omega)]
    exact decide_eq_true_iff
  have hfalse : ∀ p, ¬ s.writeDegrades v p → (s.popRequest.storeSetting 5 v).degradesAt p = false :=
    fun p h => Bool.eq_false_iff.mpr fun k => h ((hdegrades p).mp k)
  have hmem : ∀ p, p < 4 → p ∈ [0, 1, 2, 3] := fun p h => List.mem_range (n := 4).mpr h
  have hbound : ∀ p, p ∈ [0, 1, 2, 3] → p < 4 := fun p h => List.mem_range (n := 4).mp h
  refine ⟨fun p hp h => (hport p).trans (if_pos ⟨hmem p hp, (hdegrades p).mpr h⟩),
    fun p _ h => (hport p).trans (if_neg fun k => h ((hdegrades p).mp k.2)),
    fun p hp => (hport p).trans (if_neg fun k => by have := hbound p k.1; omega),
    fun p hp h hfirst => hsome p (find?_ports_some hp ((hdegrades p).mpr h) fun q hq => hfalse q (hfirst q hq)),
    fun h => hnone (List.find?_eq_none.mpr fun p hp => by rw [hfalse p (h p (hbound p hp))]; exact Bool.false_ne_true), hsame⟩

theorem five_of_settingRow {i raw : Nat} (h : settingRow i raw = .writeErrorThreshold) : i = 5 := by
  unfold settingRow at h
  split_ifs at h with hsource hport hvalue hthreshold hmask
  exact hthreshold

/-! ### A new mask (R137, R153) -/

theorem mask_of_settingRow {i raw : Nat} (h : settingRow i raw = .writeNoticeMask) : 13 ≤ i ∧ i ≤ 19 := by
  unfold settingRow at h
  split_ifs at h with hsource hport hvalue hthreshold hmask
  exact hmask

theorem debtDropped_eq (o : Option CurtailEntry) :
    KeepsCurtail.debtDropped o = o.bind (fun e => if e.stage = .done then none else some { e with resultOwed := false }) := by
  cases o <;> rfl

/-- A mask's setting is 0 or 1 (R174). -/
theorem setting_mask_le (hs : SettingsInRange s) {i : Nat} (hi : 13 ≤ i ∧ i ≤ 19) : s.setting i ≤ 1 := by
  have h := hs.2 i (by omega)
  rw [clampSetting_eq (by omega)] at h
  unfold settingMoved at h
  split_ifs at h <;> omega

/-- R137, R153, R175: what a write of a notice mask leaves. -/
theorem noticeMaskEffect_spec {u : State} {i old v : Nat} (hold : old ≤ 1) :
    (noticeMaskEffect i old v u).notices =
        (if (old = 0 ∧ v = 1) ∧ i = 18 then { u.notices with intervalOwed := none } else u.notices)
      ∧ (old = 0 ∧ v = 1 → i = 19 → noticeMaskEffect i old v u = u.dropCurtailDebts)
      ∧ (¬ ((old = 0 ∧ v = 1) ∧ i = 19) → (noticeMaskEffect i old v u).curtail = u.curtail)
      ∧ SameOutside [.notices, .curtail] u (noticeMaskEffect i old v u) := by
  have hmasks : (old ≠ v ∧ v = 1) ↔ (old = 0 ∧ v = 1) := by omega
  unfold noticeMaskEffect
  rw [if_congr hmasks rfl rfl]
  by_cases hmask : old = 0 ∧ v = 1
  · rw [if_pos hmask]
    by_cases h18 : i = 18
    · rw [if_pos h18, if_pos ⟨hmask, h18⟩]
      exact ⟨rfl, fun _ h => by omega, fun _ => rfl, SameOutside.mono (same_setNotices u _) (by decide)⟩
    · rw [if_neg h18, if_neg fun k : (old = 0 ∧ v = 1) ∧ i = 18 => h18 k.2]
      by_cases h19 : i = 19
      · rw [if_pos h19]
        exact ⟨rfl, fun _ _ => rfl, fun k => absurd ⟨hmask, h19⟩ k, SameOutside.mono (same_setCurtail u _) (by decide)⟩
      · rw [if_neg h19]
        exact ⟨rfl, fun _ k => absurd k h19, fun _ => rfl, SameOutside.refl _ _⟩
  · rw [if_neg hmask, if_neg fun k => hmask k.1]
    exact ⟨rfl, fun k => absurd k hmask, fun _ => rfl, SameOutside.refl _ _⟩

/-! ### The epoch source (R6) -/

/-- R8: an advance leaves the choices to the end of the event it is part of. -/
theorem same_advance_unchosen (n : Epoch) : SameOutside [.timer, .closing, .filling, .links, .curtail] s (s.advance n) := by
  have htimed : SameOutside [.timer, .closing, .filling, .links, .curtail] s (((s.setTimer { s.timer with
      epoch := n, refTime := s.now, pass := some { epoch := s.timer.epoch - 1, point := .position 0 } }).setClosing
        s.filling).setFilling AccSet.cleared) :=
    ((SameOutside.mono (same_setTimer s _) (by decide)).trans (SameOutside.mono (same_setClosing _ _) (by decide))).trans
      (SameOutside.mono (same_setFilling _ _) (by decide))
  have hage := (ageCommands_spec (((s.setTimer { s.timer with
      epoch := n, refTime := s.now, pass := some { epoch := s.timer.epoch - 1, point := .position 0 } }).setClosing
        s.filling).setFilling AccSet.cleared)).1.1
  have hsignal := (signalPorts_spec (((s.setTimer { s.timer with
      epoch := n, refTime := s.now, pass := some { epoch := s.timer.epoch - 1, point := .position 0 } }).setClosing
        s.filling).setFilling AccSet.cleared).ageCommands n).2.2.1
  exact (htimed.trans (SameOutside.mono hage (by decide))).trans (SameOutside.mono hsignal (by decide))

end

/-! ### The commands (R6, R20, R153, R175) -/

section
variable {s : State} {r : Request} {i v : Nat}

/-- R175: what a settings write works on. -/
theorem same_stored (s : State) (i v : Nat) : SameOutside [.uplink, .settings] s (s.popRequest.storeSetting i v) :=
  (same_popRequest s).comp (same_setSettings _ _) (by decide) (by decide)

/-- A settings write whose work ends in `b`. -/
theorem takesAndAnswers_setting {c : Instr} {b : State} {data : List Byte} {changed : List Block} {what : State → Prop}
    (hexec : exec c s = .next (b.answer r .ok data).arbitrate) (hb : SameOutside changed (s.popRequest.storeSetting i v) b)
    (hup : Block.uplink ∉ changed) (hwhat : what b) :
    TakesAndAnswers c s r .ok data (.settings :: changed) what := by
  refine takesAndAnswers_of b hexec ((same_stored s i v).comp hb (by simp) ?_) ?_ hwhat
  · exact fun x hx => List.mem_cons_of_mem _ (List.mem_cons_of_mem _ hx)
  · exact (hb .uplink hup).trans rfl

end

/-! ### A write of the epoch source (R6) -/

/-- The value an epoch source write stores: 0 for the four bytes 0, else 1 (R174). -/
theorem settingMoved_source (b3 b2 b1 b0 : Byte) :
    settingMoved 1 (((b3.toNat * 256 + b2.toNat) * 256 + b1.toNat) * 256 + b0.toNat)
      = if b3 = 0x00#8 ∧ b2 = 0x00#8 ∧ b1 = 0x00#8 ∧ b0 = 0x00#8 then 0 else 1 := by
  change min 1 _ = _
  split
  · next h =>
    obtain ⟨rfl, rfl, rfl, rfl⟩ := h
    decide
  · next h =>
    simp only [← BitVec.toNat_inj, BitVec.toNat_ofNat] at h
    omega

/-- What an epoch source write works on: the clock moved, the request taken and the setting stored. -/
def State.sourceStored (s : State) (elapsed v : Nat) : State := ((s.elapse elapsed).popRequest).storeSetting 1 v

theorem same_sourceStored (s : State) (elapsed v : Nat) :
    SameOutside [.uplink, .now, .settings] s (s.sourceStored elapsed v) :=
  (same_elapse s elapsed).comp (same_stored _ 1 v) (by decide) (by decide)

/-- R6: whether the write finds an advance due. -/
def State.lateAt (s : State) (elapsed : Nat) : Prop := s.timer.mode = .external ∧ s.timer.refTime + 1000 ≤ s.now + elapsed

theorem epochSourceEffect_external (u : State) (i old : Nat) :
    epochSourceEffect i old 1 u = u.setTimer { u.timer with mode := .external } :=
  if_neg fun h => absurd h.2.1 (by decide)

theorem epochSourceEffect_internal (s : State) (elapsed i old : Nat) :
    (¬ s.lateAt elapsed → epochSourceEffect i old 0 (s.sourceStored elapsed 0) =
        (s.sourceStored elapsed 0).setTimer { s.timer with mode := .internal })
      ∧ (s.lateAt elapsed → epochSourceEffect i old 0 (s.sourceStored elapsed 0) =
        ((s.sourceStored elapsed 0).setTimer { s.timer with mode := .internal }).advance (s.timer.epoch + 1)) := by
  have hdue : ((s.sourceStored elapsed 0).timer.mode = .external ∧ sourceOfSetting 0 = .internal
      ∧ 1000 ≤ (s.sourceStored elapsed 0).sinceReference) ↔ s.lateAt elapsed := by
    change (s.timer.mode = .external ∧ _ ∧ 1000 ≤ s.now + elapsed - s.timer.refTime) ↔ _
    unfold State.lateAt
    simp [sourceOfSetting]
    omega
  exact ⟨fun h => if_neg (hdue.not.mpr h), fun h => if_pos (hdue.mpr h)⟩

/-- A write of the epoch source whose work ends in `b`. -/
theorem takesAndAnswers_source {s b : State} {r : Request} {elapsed v : Nat} {data : List Byte} {changed : List Block}
    {what : State → Prop} (hexec : exec (.writeEpochSource elapsed) s = .next (b.answer r .ok data).arbitrate)
    (hb : SameOutside changed (s.sourceStored elapsed v) b) (hup : Block.uplink ∉ changed)
    (hblocks : [Block.now, Block.settings] ⊆ changed) (hwhat : what b) :
    TakesAndAnswers (.writeEpochSource elapsed) s r .ok data changed what := by
  refine takesAndAnswers_of b hexec ((same_sourceStored s elapsed v).comp hb (List.cons_subset_cons _ hblocks)
    (List.subset_cons_self ..)) ((hb .uplink hup).trans rfl) hwhat

end Sys2Proof.Machine

open Sys2Proof Sys2Proof.Machine

/-- Settles O44: the value is moved into its setting's range, stored and carried back; the effects are read off the
thresholds' tests and the masks. -/
theorem settingsWritesClampAndApply : Obligations.SettingsWritesClampAndApply := by
  intro s r hi lo b3 b2 b1 b0 hrange hdata i raw v reply
  obtain ⟨hlength, hclamped⟩ := hrange
  have hwork := fun effect u => writeSettingWith_data hi lo b3 b2 b1 b0 effect u (r := r) hdata (i := i) (v := v) rfl rfl
  have hrow : ∀ row, requestRow r = row → row ∈ [RequestRow.writeErrorThreshold, .writeNoticeMask] →
      settingRow i raw = row := by
    intro row h hmem
    have hwrite := writeRow_of_requestRow h (by revert hmem; cases row <;> decide)
    rw [hdata] at hwrite
    exact (writeRow_settingData hi lo b3 b2 b1 b0).symm.trans hwrite
  refine ⟨fun h => ⟨fun hout => ?_, fun hin => ?_⟩, fun h => ?_, fun h => ?_⟩
  · have hexec : exec .writeSetting s = _ := onRequest_taken h _
    rw [hwork, if_pos hout] at hexec
    exact takesAndAnswers_unchanged hexec
  · have hexec : exec .writeSetting s = _ := onRequest_taken h _
    rw [hwork, if_neg (by omega)] at hexec
    exact takesAndAnswers_setting hexec (SameOutside.refl [] _) (by decide) rfl
  · intro degrades
    have hfive : i = 5 := five_of_settingRow (hrow _ h.1.2.2 (by decide))
    have hexec : exec .writeErrorThreshold s = _ := onRequest_taken h _
    rw [hwork, if_neg (by omega)] at hexec
    obtain ⟨hdegraded, hkept, hbeyond, hfirst, hnone, hsame⟩ := errorThresholdEffect_spec s hlength (v := v) hfive _
    refine takesAndAnswers_setting hexec hsame (by decide) ⟨?_, hdegraded, hkept, hbeyond, hfirst, hnone⟩
    exact ((hsame .settings (by decide)).trans (by rw [hfive]) :)
  · intro masks
    have hmask : 13 ≤ i ∧ i ≤ 19 := mask_of_settingRow (hrow _ h.1.2.2 (by decide))
    have hexec : exec .writeNoticeMask s = _ := onRequest_taken h _
    rw [hwork, if_neg (by omega)] at hexec
    obtain ⟨hnotices, hdropped, hcurtail, hsame⟩ := noticeMaskEffect_spec (u := s.popRequest.storeSetting i v) (i := i)
      (v := v) (old := s.popRequest.setting i) (setting_mask_le s ⟨hlength, hclamped⟩ hmask)
    refine takesAndAnswers_setting hexec hsame (by decide) ⟨hsame .settings (by decide), hnotices, fun hmasks h19 => ?_,
      hcurtail⟩
    rw [hdropped hmasks h19]
    refine ⟨rfl, fun n hn => ?_, rfl, rfl, rfl, rfl⟩
    rw [KeepsCurtail.entryAt_dropCurtailDebts, if_pos hn, debtDropped_eq]
    rfl

/-- Settles O45: the four bytes are 0 or the source becomes external; a late write back to internal advances as R8 says. -/
theorem epochSourceWriteSetsTheMode : Obligations.EpochSourceWriteSetsTheMode := by
  intro s r elapsed b3 b2 b1 b0 h hdata off late
  have hexec : exec (.writeEpochSource elapsed) s = _ :=
    onRequest_taken (s := s.elapse elapsed) (h : Taken (s.elapse elapsed) .writeEpochSource r) _
  rw [writeSettingWith_data 0x00#8 0x01#8 b3 b2 b1 b0 _ _ hdata (i := 1) rfl (settingMoved_source b3 b2 b1 b0).symm,
    if_neg (by decide)] at hexec
  refine ⟨fun hon => ?_, fun hoff hlate => ?_, fun hoff hlate => ?_⟩
  · rw [if_neg hon, epochSourceEffect_external] at hexec
    exact takesAndAnswers_source (v := 1) hexec (SameOutside.mono (same_setTimer _ _) (by decide)) (by decide) (by decide)
      ⟨rfl, rfl, rfl⟩
  · rw [if_pos hoff] at hexec
    have heffect := (epochSourceEffect_internal s elapsed 1 ((s.elapse elapsed).popRequest.setting 1)).1 hlate
    unfold State.sourceStored at heffect
    rw [heffect] at hexec
    exact takesAndAnswers_source (v := 0) hexec (SameOutside.mono (same_setTimer _ _) (by decide)) (by decide) (by decide)
      ⟨rfl, rfl, rfl⟩
  · rw [if_pos hoff] at hexec
    have heffect := (epochSourceEffect_internal s elapsed 1 ((s.elapse elapsed).popRequest.setting 1)).2 hlate
    unfold State.sourceStored at heffect
    rw [heffect] at hexec
    have hframe := (same_setTimer (s.sourceStored elapsed 0) { s.timer with mode := .internal }).comp
      (same_advance_unchosen _ (s.timer.epoch + 1)) (n := [.now, .settings, .timer, .closing, .filling, .links, .curtail])
      (by decide) (by decide)
    exact takesAndAnswers_source (v := 0) hexec hframe (by decide) (by decide) (advance_spec _ _)

end

