-- ==== Sys2Proof/Proofs/PlainRequests.lean ====
section
/-! PROOF. RESOLVE, READ_STATUS and the rows that refuse, and the requests on the contract store and the fault record (R54,
R107 to R109, R157, R171, R173, R177, log 29). -/

namespace Sys2Proof.Machine

/-! ### Flags as the bits of a number (R54, R191) -/

theorem flagByte_div_two (b : Bool) (rest : List Bool) : flagByte (b :: rest) / 2 = flagByte rest := by
  have : boolCode b ≤ 1 := by cases b <;> decide
  rw [flagByte]
  omega

theorem testBit_flagByte (l : List Bool) (n : Nat) : (flagByte l).testBit n = l.getD n false := by
  induction l generalizing n with
  | nil => simp [flagByte]
  | cons b rest ih =>
    cases n with
    | zero => cases b <;> simp [flagByte, boolCode, Nat.testBit_zero, Nat.add_mod]
    | succ n => rw [Nat.testBit_succ, flagByte_div_two, ih]; rfl

theorem flagByte_lt (l : List Bool) : flagByte l < 2 ^ l.length := by
  induction l with
  | nil => decide
  | cons b rest ih =>
    have : boolCode b ≤ 1 := by cases b <;> decide
    rw [flagByte, List.length_cons, Nat.pow_succ]
    omega

section
variable (s : State) (key : Nat)

/-- R54: the matching list as sixteen bits. -/
def State.matchingList : BitVec 16 := BitVec.ofNat 16 (s.matchingBits key)

theorem getLsbD_matchingList {n : Nat} (h : n < 16) : (s.matchingList key).getLsbD n = s.ruleMatches key n := by
  unfold State.matchingList State.matchingBits
  rw [BitVec.getLsbD_ofNat, testBit_flagByte]
  simp [h]

theorem toNat_matchingList : (s.matchingList key).toNat = s.matchingBits key := by
  have hlt := flagByte_lt ((List.range 16).map (s.ruleMatches key))
  rw [List.length_map, List.length_range] at hlt
  unfold State.matchingList
  rw [BitVec.toNat_ofNat]
  exact Nat.mod_eq_of_lt hlt

/-- The source of a resolution, with the deciding rule's number (R190). -/
def sourceFields : Source → List (Nat × Nat)
  | .entry => [(1, 0), (1, 0)]
  | .rule n => [(1, 1), (1, n)]
  | .pool => [(1, 2), (1, 0)]

theorem resolveLayout_eq : layout (sourceFields (s.resolution key).source ++ [(1, (s.resolution key).tenant),
    (1, feeds.idxOf (s.resolution key).feed), (2, (s.matchingList key).toNat), (1, flag (!(s.slotAt key).parityGood) 1)])
      = s.resolveData key := by
  rw [toNat_matchingList, idxOf_feeds, flag_one]
  unfold State.resolveData
  cases hsource : (s.resolution key).source <;>
    simp only [hsource, sourceFields, List.cons_append, List.nil_append, layout_cons, layout_nil, List.append_assoc,
      List.append_nil]

end

/-! ### An unknown code (R171) -/

theorem writeRow_ne_unknown (data : List Byte) : writeRow data ≠ .unknownRequestCode := by
  unfold writeRow settingRow
  (repeat' split) <;> exact nofun

theorem codeKnown_of_unknown {r : Request} (h : requestRow r = .unknownRequestCode) : codeKnown r.code = false := by
  unfold requestRow at h
  split at h
  case h_2 => exact absurd h (writeRow_ne_unknown _)
  case h_7 => split at h <;> cases h
  case h_14 =>
    simp only [imp_false] at *
    simp only [codeKnown, Bool.and_eq_false_iff, decide_eq_false_iff_not]
    omega
  all_goals cases h

/-- R171: outside the load an unknown code is answered by the test of the code. -/
theorem generalTest_unknown {s : State} {r : Request} (h : requestRow r = .unknownRequestCode)
    (hload : s.mgmt.imageState ≠ .loading) : s.generalTest r = some .badRequest :=
  generalTest_rows.2.1 (fun k => hload k.1) (by rw [requestFits_eq, codeKnown_of_unknown h]; rfl)

end Sys2Proof.Machine

open Sys2Proof Sys2Proof.Machine

/-- Settles O47: RESOLVE's data is the resolution laid out; the other rows answer what their commands say. -/
theorem resolveStatusAndBadRequestsAnswer : Obligations.ResolveStatusAndBadRequestsAnswer := by
  intro s r
  refine ⟨fun hi lo h hdata => ?_, fun h => ?_, fun h => takesAndAnswers_unchanged (onRequest_taken h _),
    fun h hload => takesAndAnswers_unchanged ?_⟩
  · intro key exists' z
    have hkey : half r.data 0 = key := by rw [hdata]; exact beNat_pair hi lo
    have hvalid : keyValid key = true ↔ exists' := by simp only [keyValid, Bool.and_eq_true, decide_eq_true_eq]; rfl
    have hexec : exec .resolve s = .next (State.resolveRequest r s.popRequest).arbitrate := onRequest_taken h _
    unfold State.resolveRequest at hexec
    rw [hkey] at hexec
    dsimp only at hexec
    refine ⟨fun hno => takesAndAnswers_unchanged ?_, fun hyes => ⟨s.matchingList key, fun n => getLsbD_matchingList s key, ?_⟩⟩
    · rw [hexec, Bool.eq_false_iff.mpr (hvalid.not.mpr hno)]
      rfl
    · rw [hvalid.mpr hyes] at hexec
      have hanswers : TakesAndAnswers .resolve s r .ok (s.resolveData key) [.notices] (fun b => b.notices =
          s.noticesAfterReading (parityLocation (s.slotAt key) (.item .oat key) ++ s.badRules 16)) := by
        refine takesAndAnswers_of _ hexec ((same_popRequest s).comp (same_recordParity _ _) (by decide) (by decide))
          ((same_recordParity s.popRequest _ .uplink (by decide)).trans rfl) ?_
        rw [recordParity_eq]
        rfl
      rw [← resolveLayout_eq] at hanswers
      exact hanswers
  · rw [statusLayout_eq]
    exact takesAndAnswers_unchanged (onRequest_taken h _)
  · refine (onRequest_heads h _).trans ?_
    unfold State.execute
    rw [show s.popRequest.generalTest r = some .badRequest from generalTest_unknown h.2.2 hload]

/-- Settles O48: each request's one change, with what the copy reads bad. -/
theorem commitCopyAndClearFault : Obligations.CommitCopyAndClearFault := by
  intro s r
  refine ⟨fun h => ?_, fun h => ?_, fun h => ?_, fun h => ?_⟩
  · exact takesAndAnswers_of _ (onRequest_taken h _)
      ((same_popRequest s).comp (same_setContracts _ _) (by decide) (by decide)) rfl rfl
  · exact takesAndAnswers_of _ (onRequest_taken h _)
      ((same_popRequest s).comp (same_setContracts _ _) (by decide) (by decide)) rfl rfl
  · have hread := same_recordParity s.popRequest (badContracts .active s.popRequest.activeAt)
    have hnotices := noticesAfterReading_badContracts s .active s.activeAt
    refine takesAndAnswers_of _ (onRequest_taken h _)
      (((same_popRequest s).comp hread (n := [.uplink, .notices]) (by decide) (by decide)).comp (same_setContracts _ _)
        (by decide) (by decide)) ((hread .uplink (by decide)).trans rfl) ?_
    rw [recordParity_eq]
    refine ⟨fun x h1 h127 => ?_, rfl, hnotices.1, hnotices.2⟩
    exact (read_copiedContracts s.activeAt x).trans (if_pos ⟨h1, h127⟩)
  · exact takesAndAnswers_of _ (onRequest_taken h _)
      ((same_popRequest s).comp (same_setNotices _ _) (by decide) (by decide)) rfl rfl

end

