-- ==== Sys2Proof/Proofs/SavesAndResets.lean ====
section
/-! PROOF. The save of the image, the live reset and the request of a full reset (R181, R183, R184, R185, logs 8 and 14). -/

namespace Sys2Proof.Machine

section
variable (s : State)

/-! ### The live reset (R184) -/

/-- R184: a live reset keeps the management unit, whose kept responses a taken request finds gone. -/
theorem same_liveReset_of_ready {u : State} (hkept : u.mgmt.kept = []) : SameOutside [.timer, .links, .downChoice, .presence,
    .readings, .filling, .closing, .live, .contracts, .curtail, .notices, .uplink, .upChoice] u u.liveReset
      ∧ u.liveReset.mgmt = u.mgmt := by
  have hmgmt : u.liveReset.mgmt = u.mgmt := by
    change { u.mgmt with kept := [] } = u.mgmt
    rw [← hkept]
  refine ⟨fun b hb => ?_, hmgmt⟩
  by_cases hb' : b = .mgmt
  · rw [hb']
    exact hmgmt
  · refine same_liveReset u b fun h => hb ?_
    simp only [List.mem_cons, hb', List.not_mem_nil, or_false] at h ⊢
    tauto

theorem liveReset_notices : s.liveReset.notices =
    s.resetAnnounced { s.noticesAfterReading (badContracts .active s.activeAt) with queue := [], intervalOwed := none } := by
  change s.resetAnnounced { (s.recordParity (badContracts .active s.activeAt)).notices with queue := [], intervalOwed := none } = _
  rw [recordParity_eq, State.setNotices_notices]

/-- R154: a port is announced as its enable setting says. -/
theorem annPort_resetAnnounced (n : NoticeUnit) {p : Nat} (hp : p < 4) : Table.read .disabled (s.resetAnnounced n).annPort p =
    if s.setting (7 + p) = 1 then .down else .disabled := by
  refine (Table.read_tabulate ..).trans ((if_pos hp).trans ?_)
  simp [State.portEnabled]

theorem portAfterReset_eq (p : Nat) : s.portAfterReset p =
    { Port.initial with link := if s.setting (7 + p) = 1 then .down else .disabled } := by
  simp [State.portAfterReset, State.portEnabled]

/-- R100: a tenant whose contract is bad or not valid starts IDLE. -/
theorem freshRecord_idle {c : Stored Contract} (h : c.parityGood = false ∨ c.content.valid = false) :
    freshRecord c = LiveRecord.idle := by
  refine if_neg fun ⟨hgood, hvalid⟩ => ?_
  simp [hgood, hvalid] at h

/-! ### The full reset's request (R185) -/

theorem answerLost_iff (o : Origin) : s.answerLost o = true ↔ ∃ p position, o = .chain p position
    ∧ ((s.port p).link = .disabled ∨ 4 ≤ (s.port p).passDown.length) := by
  cases o with
  | uplink => simp [State.answerLost]
  | chain p position =>
    simp only [State.answerLost, State.passDownTaken, Bool.not_eq_true', Bool.and_eq_false_iff, decide_eq_false_iff_not,
      ne_eq, not_not, Nat.not_lt, Origin.chain.injEq]
    exact ⟨fun h => ⟨p, position, ⟨rfl, rfl⟩, h⟩, fun ⟨_, _, ⟨hp, _⟩, h⟩ => hp ▸ h⟩

end

end Sys2Proof.Machine

open Sys2Proof Sys2Proof.Machine

/-- Settles O50: the begun save is the snapshot with what it read bad recorded; the ended one answers its request. -/
theorem saveImageThenItsEndAnswers : Obligations.SaveImageThenItsEndAnswers := by
  intro s
  refine ⟨fun r h => ⟨_, onRequest_taken h State.beginSave, ?_⟩, fun j outcome hsave => ?_⟩
  · have hread := same_recordParity s.popRequest s.popRequest.saveFaults
    have hframe := ((same_popRequest s).comp hread (n := [.uplink, .notices]) (by decide) (by decide)).comp
      (same_setMgmt _ { s.mgmt with imageState := .saving,
                                    save := some { origin := r.origin, tag := r.tag, snapshot := s.snapshot } })
      (n := [.mgmt, .uplink, .notices]) (by decide) (by decide)
    refine ⟨arbitrate_mgmt _, (core_uplink_arbitrate _).trans ((hread .uplink (by decide)).trans rfl), ?_,
      hframe.comp (same_arbitrate _) (by decide) (by decide)⟩
    rw [arbitrate_notices, State.beginSave, recordParity_eq]
    rfl
  · have hexec : exec (.saveEnd outcome) s = .next (s.endSave j outcome).arbitrate := by
      change execSaveEnd outcome s = _
      simp only [execSaveEnd, hsave]
    have hanswer := respond_arbitrate ((s.setMgmt { s.mgmt with imageState := savedState outcome, save := none }).setExtMemory
      (if outcome = .agrees then some j.snapshot else none)) j.origin
        { tag := j.tag, code := codeSaveImage, status := if outcome = .agrees then .ok else .imageFail, data := [] }
    refine ⟨_, _, hexec, ?_, rfl, (same_setMgmt s _).comp (same_setExtMemory _ _) (by decide) (by decide), hanswer⟩
    cases outcome <;> rfl

/-- Settles O51: the live reset field by field, then the answers. -/
theorem resetRequestsResetAndAnswer : Obligations.ResetRequestsResetAndAnswer := by
  intro s r
  refine ⟨fun h => ?live, fun h => ?full⟩
  case live =>
    obtain ⟨hframe, hmgmt⟩ := same_liveReset_of_ready (u := s.popRequest) h.1.1.2.1
    have hnotices := liveReset_notices s.popRequest
    have hlive := fun x => liveAt_fresh (u := s.popRequest.liveReset) s.popRequest rfl x
    have hports := fun p => port_tabulate s.popRequest.portAfterReset s.popRequest.liveReset rfl p
    have hframe' := (same_popRequest s).comp hframe (n := [.timer, .links, .downChoice, .presence, .readings, .filling,
      .closing, .live, .contracts, .curtail, .notices, .uplink, .upChoice]) (by decide) (by decide)
    exact ⟨s.popRequest.liveReset, _, onRequest_taken h _, rfl,
      fun p hp => ((hports p).trans (if_pos hp)).trans (portAfterReset_eq _ p), fun i => rfl, fun k => rfl, rfl, rfl,
      fun x h1 h127 hgood hvalid => ((hlive x).trans (if_pos ⟨h1, h127⟩)).trans (if_pos ⟨hgood, hvalid⟩),
      fun x hx => (hlive x).trans (ite_eq_right_iff.mpr fun _ => freshRecord_idle hx), rfl, rfl,
      congrArg NoticeUnit.queue hnotices, congrArg NoticeUnit.intervalOwed hnotices, (congrArg NoticeUnit.fault hnotices :),
      congrArg NoticeUnit.annSource hnotices, congrArg NoticeUnit.annFault hnotices,
      fun x => congrArg (fun n : NoticeUnit => Table.read TenantCompared.clear n.annTenant x) hnotices,
      fun p hp => (congrArg (fun n : NoticeUnit => Table.read .disabled n.annPort p) hnotices).trans
        (annPort_resetAnnounced _ _ hp),
      fun i => congrArg (fun n : NoticeUnit => Table.read .absent n.annPresence i) hnotices, rfl, hmgmt, rfl, hframe',
      respond_arbitrate _ _ _⟩
  case full =>
    have hanswered := respond_answered s.popRequest r.origin (r.answer .ok [])
    have hsame := same_respond s.popRequest r.origin (r.answer .ok [])
    refine ⟨s.popRequest, s.popRequest.answer r .ok [], _, onRequest_taken h State.grantReset, rfl, same_popRequest s,
      hanswered, SameOutside.mono hsame (by decide), fun lost hlost => ?_,
      (same_setMgmt _ _).comp (same_arbitrate _) (by decide) (by decide)⟩
    have hlost' : lost = s.popRequest.answerLost r.origin :=
      Bool.eq_iff_iff.mpr (hlost.trans (answerLost_iff s.popRequest r.origin).symm)
    rw [hlost']
    exact arbitrate_mgmt _

end
